-- ==== Sys2Proof/Word.lean ====
section
/-! DEFINITION. The word types of the core: 32-bit register words (10_state.md §4), bytes of a payload
(00 R23) and 16-bit time stamps (10 R43, R48). -/

namespace Sys2Proof

/-- A register word; every register of the register resource is 32 bits (10_state.md §4, 20 R102). -/
abbrev Word := BitVec 32

/-- A payload byte (00 R23, u8). -/
abbrev Byte := BitVec 8

/-- A time stamp (10 R43) or the free-running timer (10 R48): u16. -/
abbrev Stamp := BitVec 16

end Sys2Proof
end

