-- ==== Sys2Proof/Syntax.lean ====
section
/-! DEFINITION. The 29 commands of the opcode map (30_encoding.md R145), one constructor each. A command
carries the operands its 32-bit word holds (30 R140, R141): IDX as a number and EN as a Boolean, only where
the row takes them. Every other operand is in the operand record (Machine/Types.lean, OpRec). -/

namespace Sys2Proof

/-- A command (30 R145). -/
inductive Instr where
  /-- 0x01 ENTER_FREEZE (40 R201). -/
  | enterFreeze
  /-- 0x02 EXIT_FREEZE (40 R205). -/
  | exitFreeze
  /-- 0x03 RESET (40 R206). -/
  | reset
  /-- 0x10 SET_BAUD_RATE (41 R254). -/
  | setBaudRate
  /-- 0x11 CALC_IMPROVED_TIMING (41 R258). -/
  | calcImprovedTiming
  /-- 0x12 SET_TIMING_CONFIG (41 R262). -/
  | setTimingConfig
  /-- 0x20 SET_TX_MB_CONFIG (42 R300). -/
  | setTxMbConfig (idx : Nat) (en : Bool)
  /-- 0x21 SET_RX_MB_CONFIG (42 R301). -/
  | setRxMbConfig (idx : Nat) (en : Bool)
  /-- 0x22 SET_RX_FIFO_CONFIG (42 R304). -/
  | setRxFifoConfig (en : Bool)
  /-- 0x23 SET_RX_MB_GLOBAL_MASK (42 R308). -/
  | setRxMbGlobalMask
  /-- 0x24 SET_RX_FIFO_GLOBAL_MASK (42 R309). -/
  | setRxFifoGlobalMask
  /-- 0x25 SET_RX_INDIVIDUAL_MASK (42 R310). -/
  | setRxIndividualMask (idx : Nat)
  /-- 0x28 GET_DEFAULT_CONFIG (42 R311). -/
  | getDefaultConfig
  /-- 0x29 INIT (42 R312). -/
  | init
  /-- 0x2A DEINIT (42 R313). -/
  | deinit
  /-- 0x30 WRITE_TX_MB (43 R340). -/
  | writeTxMb (idx : Nat)
  /-- 0x31 READ_RX_MB (43 R343). -/
  | readRxMb (idx : Nat)
  /-- 0x32 READ_RX_FIFO (43 R344). -/
  | readRxFifo
  /-- 0x33 SEND_BLOCKING (43 R345). -/
  | sendBlocking (idx : Nat)
  /-- 0x34 RECEIVE_BLOCKING (43 R346). -/
  | receiveBlocking (idx : Nat)
  /-- 0x35 RECEIVE_FIFO_BLOCKING (43 R347). -/
  | receiveFifoBlocking
  /-- 0x40 CREATE_HANDLE (44 R381). -/
  | createHandle
  /-- 0x41 SEND_NB (44 R382). -/
  | sendNb (idx : Nat)
  /-- 0x42 RECEIVE_NB (44 R383). -/
  | receiveNb (idx : Nat)
  /-- 0x43 RECEIVE_FIFO_NB (44 R384). -/
  | receiveFifoNb
  /-- 0x44 ABORT_SEND (44 R385). -/
  | abortSend (idx : Nat)
  /-- 0x45 ABORT_RECEIVE (44 R386). -/
  | abortReceive (idx : Nat)
  /-- 0x46 ABORT_RECEIVE_FIFO (44 R387). -/
  | abortReceiveFifo
  /-- 0x50 HANDLE_IRQ (45 R420). -/
  | handleIrq
  deriving DecidableEq, Repr

end Sys2Proof
end

