-- ==== Sys2Proof/Machine/Types.lean ====
section
/-! DEFINITION. The data of the spec that is not state by itself: refusal reasons and statuses, register and
field names with the default LAYOUT, frames, configuration records, the operand record, trace events. -/

namespace Sys2Proof

/-- The refusal reasons (60 R503). -/
inductive Reason where
  | illegalOpcode | reservedBits | isrOnly | noHandle | outOfRange | missingOperand
  | invalidTimingInput | invalidTimingConfig | notFrozen | resetInLowPower | resetWhileArmed
  | invalidFifoConfig | invalidFrame | invalidConfig | handleArmed | misaligned
  deriving DecidableEq, Repr

/-- The status codes (60 R500). The five generic statuses no operation delivers are kept (60 R501). -/
inductive Status where
  | success | fail | readOnly | outOfRange | invalidArgument | timeout | noTransferInProgress
  | txBusy | txIdle | txSwitchToRx | rxBusy | rxIdle | rxOverflow | rxFifoBusy | rxFifoIdle
  | rxFifoOverflow | rxFifoWarning | errorStatus | wakeUp | unHandled | rxRemote
  deriving DecidableEq, Repr

/-- The number of a status (60 R500): generic group from 0, transfer group from 100. -/
def Status.code : Status → Nat
  | .success => 0 | .fail => 1 | .readOnly => 2 | .outOfRange => 3 | .invalidArgument => 4
  | .timeout => 5 | .noTransferInProgress => 6
  | .txBusy => 100 | .txIdle => 101 | .txSwitchToRx => 102 | .rxBusy => 103 | .rxIdle => 104
  | .rxOverflow => 105 | .rxFifoBusy => 106 | .rxFifoIdle => 107 | .rxFifoOverflow => 108
  | .rxFifoWarning => 109 | .errorStatus => 110 | .wakeUp => 111 | .unHandled => 112 | .rxRemote => 113

/-! ## Registers and their layout -/

/-- The four words of a mailbox (10 R43). -/
inductive MbWord where
  | cs | id | data0 | data1
  deriving DecidableEq, Repr

/-- A register of the register resource (10 R35-R51). -/
inductive Reg where
  | mcr | ctrl1 | timer | rxmgmask | rx14mask | rx15mask | esr | imask1 | iflag1 | ctrl2 | rxfgmask | rxfir | dbg
  | mb (i : Nat) (w : MbWord)
  | rximr (i : Nat)
  deriving DecidableEq, Repr

/-- The byte of a mailbox word inside its mailbox (20 R101). -/
def MbWord.offset : MbWord → Nat
  | .cs => 0 | .id => 4 | .data0 => 8 | .data1 => 12

/-- LAYOUT's register offsets (20 R101, the defaults; PRESUMED, log 2). -/
def Reg.offset : Reg → Nat
  | .mcr => 0x000 | .ctrl1 => 0x004 | .timer => 0x008 | .rxmgmask => 0x010 | .rx14mask => 0x014
  | .rx15mask => 0x018 | .esr => 0x020 | .imask1 => 0x028 | .iflag1 => 0x030 | .ctrl2 => 0x034
  | .rxfgmask => 0x048 | .rxfir => 0x04C | .dbg => 0x058
  | .mb i w => 0x080 + 16 * i + w.offset
  | .rximr i => 0x880 + 4 * i

/-- Every register that exists, in the order of its offset: the LAYOUT order of 40 R204 (EA0). -/
def Reg.layoutOrder : List Reg :=
  [.mcr, .ctrl1, .timer, .rxmgmask, .rx14mask, .rx15mask, .esr, .imask1, .iflag1, .ctrl2, .rxfgmask, .rxfir, .dbg]
    ++ (List.range 32).flatMap (fun i => [.mb i .cs, .mb i .id, .mb i .data0, .mb i .data1])
    ++ (List.range 32).map .rximr

/-- A field of a register: its bits hi down to lo (00 R21). -/
structure Field where
  hi : Nat
  lo : Nat
  deriving DecidableEq, Repr

/-! LAYOUT's bit positions (10 R35, R38, R39, R40, R43, R49; PRESUMED, log 2). -/

def Field.mdis : Field := ⟨31, 31⟩
def Field.frz : Field := ⟨30, 30⟩
def Field.rfen : Field := ⟨29, 29⟩
def Field.halt : Field := ⟨28, 28⟩
def Field.notrdy : Field := ⟨27, 27⟩
def Field.wakmsk : Field := ⟨26, 26⟩
def Field.softrst : Field := ⟨25, 25⟩
def Field.frzack : Field := ⟨24, 24⟩
def Field.slfwak : Field := ⟨22, 22⟩
def Field.wrnen : Field := ⟨21, 21⟩
def Field.lpmack : Field := ⟨20, 20⟩
def Field.waksrc : Field := ⟨19, 19⟩
def Field.doze : Field := ⟨18, 18⟩
def Field.srxdis : Field := ⟨17, 17⟩
def Field.irmq : Field := ⟨16, 16⟩
def Field.idam : Field := ⟨9, 8⟩
def Field.maxmb : Field := ⟨6, 0⟩

def Field.presdiv : Field := ⟨31, 24⟩
def Field.rjw : Field := ⟨23, 22⟩
def Field.pseg1 : Field := ⟨21, 19⟩
def Field.pseg2 : Field := ⟨18, 16⟩
def Field.boffmsk : Field := ⟨15, 15⟩
def Field.errmsk : Field := ⟨14, 14⟩
def Field.clksrc : Field := ⟨13, 13⟩
def Field.lpb : Field := ⟨12, 12⟩
def Field.twrnmsk : Field := ⟨11, 11⟩
def Field.rwrnmsk : Field := ⟨10, 10⟩
def Field.boffrec : Field := ⟨6, 6⟩
def Field.tsyn : Field := ⟨5, 5⟩
def Field.lom : Field := ⟨3, 3⟩
def Field.propseg : Field := ⟨2, 0⟩

def Field.rffn : Field := ⟨27, 24⟩
def Field.mrp : Field := ⟨18, 18⟩

def Field.wakint : Field := ⟨0, 0⟩
def Field.errint : Field := ⟨1, 1⟩
def Field.boffint : Field := ⟨2, 2⟩
def Field.fltconf : Field := ⟨5, 4⟩
/-- The six per-error-type bits STFERR, FRMERR, CRCERR, ACKERR, BIT0ERR, BIT1ERR together (10 R40). -/
def Field.errbits : Field := ⟨15, 10⟩
def Field.rwrnint : Field := ⟨16, 16⟩
def Field.twrnint : Field := ⟨17, 17⟩

def Field.code : Field := ⟨27, 24⟩
def Field.idhit : Field := ⟨8, 0⟩

/-- Bit i of a mask or flag word, as a field (10 R42). -/
def Field.ofBit (i : Nat) : Field := ⟨i, i⟩

/-- The five timing fields of CTRL1 (41 R264). -/
def Field.timing : List Field := [.presdiv, .rjw, .pseg1, .pseg2, .propseg]

/-- What a read-modify-write puts into one field: a value, or a draw (41 R255, R264). -/
inductive FieldVal where
  | val (w : Word)
  | draw
  deriving DecidableEq, Repr

/-- A field and what is put into it. -/
abbrev FieldWrite := Field × FieldVal

/-! ## Frames (00 R23) -/

inductive FrameFormat where
  | standard | extended
  deriving DecidableEq, Repr

inductive FrameKind where
  | data | remote
  deriving DecidableEq, Repr

/-- A frame (00 R23). The length is a number, so that a host may lend a frame of length above 8, which a
write refuses (43 R340, InvalidFrame). -/
structure Frame where
  id : Word
  format : FrameFormat
  kind : FrameKind
  length : Nat
  timestamp : Stamp
  payload : Vector Byte 8
  deriving DecidableEq, Repr

/-- The empty frame: what a frame slot nothing has written holds (DESIGN CHOICE, log 11). -/
def Frame.empty : Frame :=
  { id := 0, format := .standard, kind := .data, length := 0, timestamp := 0, payload := #v[0, 0, 0, 0, 0, 0, 0, 0] }

/-- The name of a slot of the host frame store (44 R380). -/
abbrev FrameRef := Nat

/-! ## Configuration records -/

/-- A TimingConfig (41 R252): preDivider itself, the other fields stored as value minus one. -/
structure TimingConfig where
  preDivider : Nat
  rJumpWidth : Nat
  phaseSeg1 : Nat
  phaseSeg2 : Nat
  propSeg : Nat
  deriving DecidableEq, Repr, Inhabited

/-- An entry of TQ_TABLE (41 R251): the time-quantum count and the stored segments. -/
structure TqEntry where
  tq : Nat
  p : Nat
  s1 : Nat
  s2 : Nat
  deriving DecidableEq, Repr

/-- The Config record (42 R314). -/
structure ModuleConfig where
  clkSrc : Bool
  wakeupSrc : Bool
  baudRate : Word
  maxMbNum : Nat
  enableLoopBack : Bool
  enableTimerSync : Bool
  enableSelfWakeup : Bool
  enableIndividMask : Bool
  disableSelfReception : Bool
  enableListenOnlyMode : Bool
  enableDoze : Bool
  timingConfig : TimingConfig
  deriving DecidableEq, Repr

/-- The Rx mailbox configuration record (42 R303). -/
structure RxMbConfig where
  id : Word
  format : FrameFormat
  kind : FrameKind
  deriving DecidableEq, Repr

/-- The FIFO filter type (10 R37). -/
inductive FilterType where
  | a | b | c | d
  deriving DecidableEq, Repr

/-- The number of IDAM (10 R37). -/
def FilterType.code : FilterType → Nat
  | .a => 0 | .b => 1 | .c => 2 | .d => 3

/-- FIFO-versus-mailbox match priority (10 R39). -/
inductive Priority where
  | fifoFirst | mailboxFirst
  deriving DecidableEq, Repr

/-- The receive FIFO configuration (42 R304). -/
structure FifoConfig where
  idFilterTable : List Word
  idFilterNum : Nat
  idFilterType : FilterType
  priority : Priority
  deriving DecidableEq, Repr

/-- The operand record `op` (30 R141): the operands that are not in the command word. A field that is none
is absent, and a command that names it is refused (MissingOperand, 30 R146). Callback and context are
tokens of the host (10 R52, R55; log 21). -/
structure OpRec where
  baud : Option Word
  clk : Option Word
  cfg : Option TimingConfig
  rxcfg : Option RxMbConfig
  fifocfg : Option FifoConfig
  mask : Option Word
  config : Option ModuleConfig
  frame : Option FrameRef
  out : Option FrameRef
  callback : Option (Option Nat)
  context : Option Nat
  deriving DecidableEq, Repr

/-- The record with no operand. -/
def OpRec.empty : OpRec :=
  { baud := none, clk := none, cfg := none, rxcfg := none, fifocfg := none, mask := none, config := none,
    frame := none, out := none, callback := none, context := none }

/-! The operands of a record; the value where one is absent is never used, since the issue is refused then. -/

/-- The rate. -/
def OpRec.baudV (o : OpRec) : Word := o.baud.getD 0
/-- The clock. -/
def OpRec.clkV (o : OpRec) : Word := o.clk.getD 0
/-- The mask. -/
def OpRec.maskV (o : OpRec) : Word := o.mask.getD 0
/-- The frame lent. -/
def OpRec.frameV (o : OpRec) : FrameRef := o.frame.getD 0
/-- The out slot. -/
def OpRec.outV (o : OpRec) : FrameRef := o.out.getD 0
/-- The TimingConfig. -/
def OpRec.cfgV (o : OpRec) : TimingConfig := o.cfg.getD default
/-- The receive configuration. -/
def OpRec.rxcfgV (o : OpRec) : RxMbConfig := o.rxcfg.getD ⟨0, .standard, .data⟩
/-- The FIFO configuration. -/
def OpRec.fifocfgV (o : OpRec) : FifoConfig := o.fifocfg.getD ⟨[], 0, .a, .fifoFirst⟩
/-- The callback. -/
def OpRec.callbackV (o : OpRec) : Option Nat := o.callback.getD none
/-- The context. -/
def OpRec.contextV (o : OpRec) : Nat := o.context.getD 0

/-- A command as the host issues it: its word and its operand record (30 R140). -/
structure Command where
  word : Word
  opnd : OpRec
  deriving DecidableEq, Repr

/-! ## Trace events (10 R57) -/

/-- What an operation returns: nothing, a status, a status with the filter-hit index (43 R344), the Boolean
found (41 R254, 42 R312), the improved search's pair (41 R258), or the default Config (42 R311). -/
inductive Ret where
  | unit
  | status (s : Status)
  | statusHit (s : Status) (idHit : Option Word)
  | found (b : Bool)
  | timing (ok : Bool) (cfg : TimingConfig)
  | config (c : ModuleConfig)
  deriving DecidableEq, Repr

/-- An event of TRACE (10 R55, R57). -/
inductive Event where
  | cb (status : Status) (result : Word) (context : Nat)
  | ret (op : Instr) (r : Ret)
  deriving DecidableEq, Repr

end Sys2Proof
end

