-- ==== Sys2Proof/Config.lean ====
section
/-! DEFINITION. What an implementation fixes: the constants the spec gives a value, the record of the
parameters it leaves OPEN (00 R9-R20), and the free values (draws) nothing constrains. -/

namespace Sys2Proof

/-! ## Constants (the spec's values and defaults) -/

/-- NMB_HW (00 R9). -/
def Config.nmbHw : Nat := 32
/-- The largest stored PRESDIV-side divider, 2^PRESDIV_W (00 R10). -/
def Config.preDividerMax : Nat := 256
/-- PROPSEG_MAX, PSEG1_MAX and PSEG2_MAX: 3-bit fields (00 R10). -/
def Config.propSegMax : Nat := 7
def Config.pseg1Max : Nat := 7
def Config.pseg2Max : Nat := 7
/-- RJW_MAX: a 2-bit field (00 R10). -/
def Config.rjwMax : Nat := 3
/-- TQ_MIN (00 R11). -/
def Config.tqMin : Nat := 8
/-- TQ_MAX (00 R11). -/
def Config.tqMax : Nat := 1 + (Config.propSegMax + 1) + (Config.pseg1Max + 1) + (Config.pseg2Max + 1)
/-- IDEAL_SP in per mille (00 R13). -/
def Config.idealSp : Nat := 750
/-- RFFN's largest value: RFFN_W = 4 (00 R18). -/
def Config.rffnMax : Nat := 15
/-- FIFO_AVAIL, FIFO_WARN, FIFO_OVF (00 R16, the defaults; PRESUMED, log 2). -/
def Config.fifoAvail : Nat := 5
def Config.fifoWarn : Nat := 6
def Config.fifoOvf : Nat := 7

/-! CODES (10 R43, the defaults; PRESUMED, log 2). -/

def Config.rxInactive : BitVec 4 := 0b0000
def Config.rxEmpty : BitVec 4 := 0b0100
def Config.rxFull : BitVec 4 := 0b0010
def Config.rxOverrun : BitVec 4 := 0b0110
def Config.txInactive : BitVec 4 := 0b1000
def Config.txData : BitVec 4 := 0b1100

/-! ## Parameters of the model instance -/

/-- ENTER_FREEZE_VARIANT (40 R203). -/
inductive FreezeVariant where
  | base | errataA | errataB
  deriving DecidableEq, Repr

/-- IMPROVED_SELECT (41 R259). -/
inductive ImprovedSelect where
  | firstAccepted | closestSamplePoint
  deriving DecidableEq, Repr

/-- ERR_CLEAR_SCOPE (45 R426). -/
inductive ErrClearScope where
  | allFour | observedOnly
  deriving DecidableEq, Repr

/-- TIMING_WRITE_MODE (41 R262, R263). -/
inductive TimingWriteMode where
  | requireFrozen | bracket
  deriving DecidableEq, Repr

/-- The parameters 00 R9-R20 leave OPEN. State.par holds them; no step writes them (log 3). -/
structure Params where
  /-- FRZ_TIMEOUT, in reads (00 R14). -/
  frzTimeout : Nat
  /-- NRXIMR (00 R17). -/
  nrximr : Nat
  /-- TQ_TABLE (41 R251). -/
  tqTable : List TqEntry
  /-- RESET_MAXMB, RESET_WRNEN, RESET_WAKSRC, CTRL1_DEFAULT, CTRL2_DEFAULT (00 R19). -/
  resetMaxmb : BitVec 7
  resetWrnen : Bool
  resetWaksrc : Bool
  ctrl1Default : Word
  ctrl2Default : Word
  /-- DEFAULT_CLKSRC, DEFAULT_WAKSRC, DEFAULT_PREDIV (00 R19, 42 R311). -/
  defaultClksrc : Bool
  defaultWaksrc : Bool
  defaultPrediv : Nat
  freezeVariant : FreezeVariant
  errata6032 : Bool
  /-- ERRATA_BACKUP (00 R20). -/
  errataBackup : List Reg
  /-- SOFTRST_SET (60 R521). -/
  softrstSet : List Reg
  improvedSelect : ImprovedSelect
  errClearScope : ErrClearScope
  timingWriteMode : TimingWriteMode
  abortTxDeactivate : Bool
  /-- PAYLOAD_ORDER: entry k is the place of payload byte k among the eight bytes of DATA0 and DATA1,
  place 0 being DATA0[31:24] and place 7 DATA1[7:0] (10 R45). -/
  payloadOrder : List Nat
  /-- FIFO_DEPTH and FIFO_WARN_LEVEL (10 R59). -/
  fifoDepth : Nat
  fifoWarnLevel : Nat
  /-- DBG_BUSIDLE: the bus is idle when DBG masked with the first word equals the second (10 R51). -/
  dbgMask : Word
  dbgIdle : Word
  /-- BASE (20 R100). -/
  base : Nat
  deriving DecidableEq, Repr

/-- EX_TQ, the spec's example table (41 R266). -/
def Config.exTq : List TqEntry :=
  [⟨8, 2, 1, 1⟩, ⟨9, 3, 1, 1⟩, ⟨10, 2, 2, 2⟩, ⟨11, 3, 2, 2⟩, ⟨12, 4, 2, 2⟩, ⟨13, 5, 2, 2⟩,
   ⟨14, 4, 3, 3⟩, ⟨15, 5, 3, 3⟩, ⟨16, 6, 3, 3⟩] ++
  [⟨17, 7, 3, 3⟩, ⟨18, 7, 4, 3⟩, ⟨19, 7, 4, 4⟩, ⟨20, 7, 5, 4⟩, ⟨21, 7, 6, 4⟩, ⟨22, 7, 7, 4⟩,
   ⟨23, 7, 7, 5⟩, ⟨24, 7, 7, 6⟩, ⟨25, 7, 7, 7⟩]

/-- The parameters State.reset holds: the values of 95_test_vectors.md §0, V2.5, V2.8 and P1 where the spec
leaves them OPEN (DESIGN CHOICE, log 3), and the spec's defaults elsewhere. -/
def Config.example : Params where
  frzTimeout := 3
  nrximr := 16
  tqTable := Config.exTq
  resetMaxmb := 15
  resetWrnen := false
  resetWaksrc := false
  ctrl1Default := 0
  ctrl2Default := 0
  defaultClksrc := false
  defaultWaksrc := false
  defaultPrediv := 1
  freezeVariant := .base
  errata6032 := false
  errataBackup := [.mcr, .imask1]
  softrstSet := [.mcr, .ctrl1, .timer, .esr, .imask1, .iflag1, .ctrl2, .rxfir, .dbg]
  improvedSelect := .firstAccepted
  errClearScope := .allFour
  timingWriteMode := .requireFrozen
  abortTxDeactivate := true
  payloadOrder := [0, 1, 2, 3, 4, 5, 6, 7]
  fifoDepth := 6
  fifoWarnLevel := 5
  dbgMask := 1
  dbgIdle := 1
  base := 0

/-! ## Free values -/

/-- The n-th draw of a word: a value nothing constrains (93 Part 1, treatment "any value"; log 6). -/
opaque Config.freeWord : Nat → Word

/-- The n-th draw of a TimingConfig (41 R258, 93 I2; log 6). -/
opaque Config.freeTiming : Nat → TimingConfig

end Sys2Proof
end

