-- ==== Sys2Proof/WellFormed.lean ====
section
/-! DEFINITION. Well-formedness: of a command (its operands fit the word's fields, 30 R140), of a
TimingConfig (41 R252), of TQ_TABLE (41 R251) and of the parameters (00 §4). -/

namespace Sys2Proof

/-- IDX is an 8-bit field (30 R140). -/
def idxFits (idx : Nat) : Bool := decide (idx < 256)

/-- A command is well-formed when its IDX fits its field (30 R140). -/
def Instr.wf : Instr → Bool
  | .setTxMbConfig idx _ => idxFits idx
  | .setRxMbConfig idx _ => idxFits idx
  | .setRxIndividualMask idx => idxFits idx
  | .writeTxMb idx => idxFits idx
  | .readRxMb idx => idxFits idx
  | .sendBlocking idx => idxFits idx
  | .receiveBlocking idx => idxFits idx
  | .sendNb idx => idxFits idx
  | .receiveNb idx => idxFits idx
  | .abortSend idx => idxFits idx
  | .abortReceive idx => idxFits idx
  | .enterFreeze | .exitFreeze | .reset | .setBaudRate | .calcImprovedTiming | .setTimingConfig
  | .setRxFifoConfig _ | .setRxMbGlobalMask | .setRxFifoGlobalMask | .getDefaultConfig | .init | .deinit
  | .readRxFifo | .receiveFifoBlocking | .createHandle | .receiveFifoNb | .abortReceiveFifo | .handleIrq => true

/-- A TimingConfig is well-formed when every field fits its register field (41 R252). -/
def TimingConfig.wf (c : TimingConfig) : Bool :=
  decide (1 ≤ c.preDivider) && decide (c.preDivider ≤ Config.preDividerMax) && decide (c.rJumpWidth ≤ Config.rjwMax)
    && decide (c.phaseSeg1 ≤ Config.pseg1Max) && decide (c.phaseSeg2 ≤ Config.pseg2Max)
    && decide (c.propSeg ≤ Config.propSegMax)

/-- TQ(c), the time-quantum count (41 R252). -/
def TimingConfig.tq (c : TimingConfig) : Nat := 4 + c.propSeg + c.phaseSeg1 + c.phaseSeg2

/-- SPC(c), the sample-point count (41 R253). -/
def TimingConfig.spc (c : TimingConfig) : Nat := 3 + c.propSeg + c.phaseSeg1

/-- Constraints 3 to 5 of 41 R251 on one entry. -/
def TqEntry.wf (e : TqEntry) : Bool :=
  decide (1 + (e.p + 1) + (e.s1 + 1) + (e.s2 + 1) = e.tq)
    && decide (e.p ≤ Config.propSegMax) && decide (e.s1 ≤ Config.pseg1Max) && decide (e.s2 ≤ Config.pseg2Max)
    && decide (68 * e.tq ≤ 100 * (e.tq - e.s2 - 1)) && decide (100 * (e.tq - e.s2 - 1) ≤ 78 * e.tq)

/-- Constraint 2 of 41 R251: the time-quantum counts rise. -/
def tqAscending : List TqEntry → Bool
  | [] => true
  | [_] => true
  | a :: b :: t => decide (a.tq < b.tq) && tqAscending (b :: t)

/-- The five constraints of 41 R251. -/
def tqTableWf (l : List TqEntry) : Bool :=
  decide ((l.head?.map TqEntry.tq) = some Config.tqMin) && decide ((l.getLast?.map TqEntry.tq) = some Config.tqMax)
    && tqAscending l && l.all TqEntry.wf

/-- A register that exists (20 R101, 10 R43, R50). -/
def Reg.valid : Reg → Bool
  | .mb i _ => decide (i < 32)
  | .rximr i => decide (i < 32)
  | _ => true

/-- PAYLOAD_ORDER is a bijection on the eight byte places (10 R45). -/
def payloadOrderWf (l : List Nat) : Bool :=
  decide (l.length = 8) && l.all (fun k => decide (k < 8)) && decide l.Nodup

/-- The ranges 00 §4 gives the parameters. -/
def Params.wf (p : Params) : Bool :=
  decide (1 ≤ p.frzTimeout) && decide (16 ≤ p.nrximr) && decide (p.nrximr ≤ Config.nmbHw) && tqTableWf p.tqTable
    && p.errataBackup.all Reg.valid && p.softrstSet.all Reg.valid && payloadOrderWf p.payloadOrder
    && decide (1 ≤ p.fifoWarnLevel) && decide (p.fifoWarnLevel ≤ p.fifoDepth) && decide (p.resetMaxmb.toNat < Config.nmbHw)

end Sys2Proof
end

