-- ==== Sys2Proof/Decode.lean ====
section
/-! DEFINITION. Decoding of a command word (30 R144, R147), total on every 32-bit word and refusing by
name, and the encoder of 30 R140 and R148. -/

namespace Sys2Proof

/-- A row of the opcode map (30 R145): whether it takes IDX and EN, and the command it names. -/
structure OpcRow where
  takesIdx : Bool
  takesEn : Bool
  build : Nat → Bool → Instr

/-- The opcode map (30 R145). -/
def opcRow : Nat → Option OpcRow
  | 0x01 => some ⟨false, false, fun _ _ => .enterFreeze⟩
  | 0x02 => some ⟨false, false, fun _ _ => .exitFreeze⟩
  | 0x03 => some ⟨false, false, fun _ _ => .reset⟩
  | 0x10 => some ⟨false, false, fun _ _ => .setBaudRate⟩
  | 0x11 => some ⟨false, false, fun _ _ => .calcImprovedTiming⟩
  | 0x12 => some ⟨false, false, fun _ _ => .setTimingConfig⟩
  | 0x20 => some ⟨true, true, fun i e => .setTxMbConfig i e⟩
  | 0x21 => some ⟨true, true, fun i e => .setRxMbConfig i e⟩
  | 0x22 => some ⟨false, true, fun _ e => .setRxFifoConfig e⟩
  | 0x23 => some ⟨false, false, fun _ _ => .setRxMbGlobalMask⟩
  | 0x24 => some ⟨false, false, fun _ _ => .setRxFifoGlobalMask⟩
  | 0x25 => some ⟨true, false, fun i _ => .setRxIndividualMask i⟩
  | 0x28 => some ⟨false, false, fun _ _ => .getDefaultConfig⟩
  | 0x29 => some ⟨false, false, fun _ _ => .init⟩
  | 0x2A => some ⟨false, false, fun _ _ => .deinit⟩
  | 0x30 => some ⟨true, false, fun i _ => .writeTxMb i⟩
  | 0x31 => some ⟨true, false, fun i _ => .readRxMb i⟩
  | 0x32 => some ⟨false, false, fun _ _ => .readRxFifo⟩
  | 0x33 => some ⟨true, false, fun i _ => .sendBlocking i⟩
  | 0x34 => some ⟨true, false, fun i _ => .receiveBlocking i⟩
  | 0x35 => some ⟨false, false, fun _ _ => .receiveFifoBlocking⟩
  | 0x40 => some ⟨false, false, fun _ _ => .createHandle⟩
  | 0x41 => some ⟨true, false, fun i _ => .sendNb i⟩
  | 0x42 => some ⟨true, false, fun i _ => .receiveNb i⟩
  | 0x43 => some ⟨false, false, fun _ _ => .receiveFifoNb⟩
  | 0x44 => some ⟨true, false, fun i _ => .abortSend i⟩
  | 0x45 => some ⟨true, false, fun i _ => .abortReceive i⟩
  | 0x46 => some ⟨false, false, fun _ _ => .abortReceiveFifo⟩
  | 0x50 => some ⟨false, false, fun _ _ => .handleIrq⟩
  | _ => none

/-- Field OPC of a command word (30 R140). -/
def opcOf (w : Word) : Nat := (w.extractLsb' 24 8).toNat
/-- Field IDX, zero-extended (30 R140, R141). -/
def idxOf (w : Word) : Nat := (w.extractLsb' 16 8).toNat
/-- Field RES (30 R140). -/
def resOf (w : Word) : BitVec 15 := w.extractLsb' 1 15
/-- Field EN (30 R140, R141). -/
def enOf (w : Word) : Bool := w.getLsbD 0

/-- Decode a command word, or refuse it by name: IllegalOpcode first, then ReservedBits (30 R144). -/
def decode (w : Word) : Except Reason Instr :=
  match opcRow (opcOf w) with
  | none => .error .illegalOpcode
  | some row =>
    if resOf w ≠ 0 then .error .reservedBits
    else if row.takesIdx = false ∧ idxOf w ≠ 0 then .error .reservedBits
    else if row.takesEn = false ∧ enOf w = true then .error .reservedBits
    else .ok (row.build (idxOf w) (enOf w))

/-- Lay out the word {OPC, IDX, 0[14:0], EN} (30 R140, R148). -/
def cmdWord (opc idx : Nat) (en : Bool) : Word :=
  BitVec.ofNat 8 opc ++ BitVec.ofNat 8 idx ++ (0 : BitVec 15) ++ BitVec.ofBool en

/-- Encode a command (30 R145, R148). -/
def encode : Instr → Word
  | .enterFreeze => cmdWord 0x01 0 false
  | .exitFreeze => cmdWord 0x02 0 false
  | .reset => cmdWord 0x03 0 false
  | .setBaudRate => cmdWord 0x10 0 false
  | .calcImprovedTiming => cmdWord 0x11 0 false
  | .setTimingConfig => cmdWord 0x12 0 false
  | .setTxMbConfig i e => cmdWord 0x20 i e
  | .setRxMbConfig i e => cmdWord 0x21 i e
  | .setRxFifoConfig e => cmdWord 0x22 0 e
  | .setRxMbGlobalMask => cmdWord 0x23 0 false
  | .setRxFifoGlobalMask => cmdWord 0x24 0 false
  | .setRxIndividualMask i => cmdWord 0x25 i false
  | .getDefaultConfig => cmdWord 0x28 0 false
  | .init => cmdWord 0x29 0 false
  | .deinit => cmdWord 0x2A 0 false
  | .writeTxMb i => cmdWord 0x30 i false
  | .readRxMb i => cmdWord 0x31 i false
  | .readRxFifo => cmdWord 0x32 0 false
  | .sendBlocking i => cmdWord 0x33 i false
  | .receiveBlocking i => cmdWord 0x34 i false
  | .receiveFifoBlocking => cmdWord 0x35 0 false
  | .createHandle => cmdWord 0x40 0 false
  | .sendNb i => cmdWord 0x41 i false
  | .receiveNb i => cmdWord 0x42 i false
  | .receiveFifoNb => cmdWord 0x43 0 false
  | .abortSend i => cmdWord 0x44 i false
  | .abortReceive i => cmdWord 0x45 i false
  | .abortReceiveFifo => cmdWord 0x46 0 false
  | .handleIrq => cmdWord 0x50 0 false

/-- The command the decoder reads from a word whose bits are numbered as the opcode table numbers them;
bits above nbits are 0. None where the decoder refuses. -/
def decodeTableWord (nbits w : Nat) : Option Instr :=
  match decode (BitVec.ofNat 32 (w % 2 ^ nbits)) with
  | .ok i => some i
  | .error _ => none

end Sys2Proof
end

