-- ==== Sys2Proof/Machine/State.lean ====
section
/-! DEFINITION. State as plain data: the register resource (10 §4), the Handle (10 §5), the frame store
(10 R54), the sequencers FG and ISR with their pending micro-steps (10 §2), the refusal mark (10 R34), TRACE
(10 R57), the hidden state (10 §7), the parameters, the host's commands and the scheduler's choices. -/

namespace Sys2Proof.Machine

/-! ## Register resource -/

/-- The four words of one mailbox (10 R43). -/
structure Mb where
  cs : Word
  id : Word
  data0 : Word
  data1 : Word
  deriving DecidableEq, Repr, Inhabited

/-- The stored registers (10 R35-R51, R62). -/
structure Regs where
  mcr : Word
  ctrl1 : Word
  ctrl2 : Word
  esr : Word
  imask1 : Word
  iflag1 : Word
  timer : Stamp
  rxfir : Word
  rxmgmask : Word
  rx14mask : Word
  rx15mask : Word
  rxfgmask : Word
  dbg : Word
  rximr : Vector Word 32
  mb : Vector Mb 32
  deriving DecidableEq, Repr

/-! ## The Handle -/

/-- MailboxState (10 R53). RxFifo appears only in rxFifoState. -/
inductive MailboxState where
  | idle | txData | txRemote | rxData | rxRemote | rxFifo
  deriving DecidableEq, Repr, Inhabited

/-- The spec's numbering of MailboxState (10 R53). -/
def MailboxState.code : MailboxState → Nat
  | .idle => 0 | .txData => 1 | .txRemote => 2 | .rxData => 3 | .rxRemote => 4 | .rxFifo => 5

/-- The Handle (10 R52). -/
structure Handle where
  created : Bool
  mbState : Vector MailboxState 32
  rxFifoState : MailboxState
  mbFrameBuf : Vector (Option FrameRef) 32
  rxFifoFrameBuf : Option FrameRef
  timestamp : Vector Stamp 32
  callback : Option Nat
  context : Nat
  deriving DecidableEq, Repr

/-- Which logical channel of the Handle: a mailbox or the receive FIFO. -/
inductive Slot where
  | mb (i : Nat)
  | fifo
  deriving DecidableEq, Repr

/-! ## Micro-steps

A micro-step is one access (00 R7). The pending micro-steps of a sequencer stand for its pc and its locals
(10 R32, R33): the head is the next access, and each holds the locals the lines after it need. What is
computed after an access (computation makes no micro-step, 41 intro) is named by a continuation below. -/

/-- Who called the body of WriteTxMb (43 R340): the command itself, SendBlocking (R345), SendNB (44 R382). -/
inductive WriteCall where
  | own
  | sendBlocking (ref : FrameRef)
  | sendNb
  deriving DecidableEq, Repr

/-- Who called the body of ReadRxMb (43 R343): a command that returns its status (R343, R346), or the
dispatcher (45 R425). -/
inductive ReadCall where
  | own
  | dispatcher
  deriving DecidableEq, Repr

/-- Who called the body of ReadRxFifo (43 R344): the command itself, ReceiveFifoBlocking (R347), or the
dispatcher (45 R424). -/
inductive FifoCall where
  | own
  | blocking
  | dispatcher
  deriving DecidableEq, Repr

/-- What follows the read of a register word. Named by the line of the spec's pseudocode that is computed
next; the arguments are the locals. -/
inductive AfterRead where
  /-- The write half of a read-modify-write of `r` (00 R22). -/
  | modify (r : Reg) (fs : List FieldWrite)
  /-- EF1 and EF2 of 40 R201: MDIS was read. -/
  | ef2
  /-- EF4 of 40 R201: ESR was read. -/
  | ef4
  /-- EA0 of 40 R204: `r` was read; `rest` are still to back up, `bk` are backed up. -/
  | ea0 (r : Reg) (rest : List Reg) (bk : List (Reg × Word))
  /-- FD1 of 42 R304: CTRL2 was read. -/
  | fd1
  /-- WT2 of 43 R340: MB[i].CS was read. -/
  | wt2 (i : Nat) (f : Frame) (k : WriteCall)
  /-- E1 of 43 R342: IMASK1 was read. -/
  | e1 (i : Nat) (f : Frame) (k : WriteCall)
  /-- E3 of 43 R342: DBG was read; `m` is the saved mask. -/
  | e3 (i : Nat) (f : Frame) (k : WriteCall) (m : Word)
  /-- RR1 of 43 R343: MB[i].CS was read. -/
  | rr1 (i : Nat) (ref : Option FrameRef) (k : ReadCall)
  | rr3 (i : Nat) (ref : Option FrameRef) (k : ReadCall) (c : Word)
  | rr4 (i : Nat) (ref : Option FrameRef) (k : ReadCall) (c w : Word)
  | rr5 (i : Nat) (ref : Option FrameRef) (k : ReadCall) (c w d0 : Word)
  /-- RR6 of 43 R343: TIMER was read on the full path. -/
  | rr6 (i : Nat) (ref : Option FrameRef) (k : ReadCall) (c w d0 d1 : Word)
  /-- RR9 of 43 R343: TIMER was read on the other path. -/
  | rr9 (i : Nat) (k : ReadCall)
  /-- RF1 of 43 R344: MCR was read. -/
  | rf1 (ref : Option FrameRef) (k : FifoCall)
  | rf3 (ref : Option FrameRef) (k : FifoCall)
  | rf4 (ref : Option FrameRef) (k : FifoCall) (c : Word)
  | rf5 (ref : Option FrameRef) (k : FifoCall) (c w : Word)
  | rf6 (ref : Option FrameRef) (k : FifoCall) (c w d0 : Word)
  | rf7 (ref : Option FrameRef) (k : FifoCall) (c w d0 d1 : Word)
  /-- RF8 of 43 R344: TIMER was read. -/
  | rf8 (ref : Option FrameRef) (k : FifoCall) (c w d0 d1 h : Word)
  /-- SK5 of 43 R345: MB[i].CS was read. -/
  | sk5 (ref : FrameRef)
  /-- AS2 of 44 R385: MB[i].CS was read. -/
  | as2 (i : Nat)
  /-- HI1 of 45 R420: ESR was read. -/
  | hi1
  /-- HI6 of 45 R420: IMASK1 was read. -/
  | hi6
  /-- HI7 of 45 R420: IFLAG1 was read; `m` is the mask. -/
  | hi7 (m : Word)
  /-- S1 of 45 R422: IMASK1 was read at index j. -/
  | s1Flag (j : Nat)
  /-- S1 of 45 R422: IFLAG1 was read at index j; `mj` is the mask bit. -/
  | s1Test (j : Nat) (mj : Bool)
  /-- S4 of 45 R422: CTRL2 was read; `fs` is the FIFO's logical state. -/
  | s4 (j : Nat) (fs : MailboxState)
  deriving DecidableEq, Repr

/-- What follows the end of a poll; the poll says whether it ended on its condition. -/
inductive AfterPoll where
  | done
  /-- EA3 of 40 R204: restore the backups `bk`. -/
  | ea3 (bk : List (Reg × Word))
  deriving DecidableEq, Repr

/-- What follows the read of a logical state of the Handle. -/
inductive AfterState where
  /-- SN1 of 44 R382. -/
  | sn1 (i : Nat) (ref : FrameRef)
  /-- RN1 of 44 R383. -/
  | rn1 (i : Nat) (ref : FrameRef)
  /-- FN1 of 44 R384. -/
  | fn1 (ref : FrameRef)
  /-- S3 of 45 R422. -/
  | s3 (j : Nat)
  /-- MV1 of 45 R425. -/
  | mv1 (j : Nat)
  deriving DecidableEq, Repr

/-- What follows the read of a frame reference of the Handle: the read body of FV0 (45 R424) or MV1 (45 R425). -/
inductive AfterBuf where
  | fv0
  | mv1 (j : Nat)
  deriving DecidableEq, Repr

/-- What follows the read of a frame slot. -/
inductive AfterFrame where
  /-- WT1 of 43 R340. -/
  | wt1 (i : Nat) (k : WriteCall)
  /-- SN3 of 44 R382. -/
  | sn3 (i : Nat) (ref : FrameRef)
  deriving DecidableEq, Repr

/-- A micro-step (00 R22). -/
inductive Micro where
  /-- Read a register word. -/
  | read (r : Reg) (k : AfterRead)
  /-- Write a whole register word; also W1C(REG, m). -/
  | write (r : Reg) (w : Word)
  /-- The write half of a read-modify-write of `r`, whose word read was `old`. -/
  | modify (r : Reg) (fs : List FieldWrite) (old : Word)
  /-- One evaluation of Poll(r.f = v, budget); no budget is the unbounded poll. -/
  | poll (r : Reg) (f : Field) (v : Bool) (budget : Option Nat) (k : AfterPoll)
  /-- E0 of 43 R342: read IMASK1 and enter the window in which ISR does not start. -/
  | enterWindow (k : AfterRead)
  /-- E4 of 43 R342: write IMASK1 and leave the window. -/
  | leaveWindow (m : Word)
  /-- A write of EA3 during a soft reset that has not ended: a draw is left (40 R204 (d)). -/
  | overwrite (r : Reg)
  /-- The registers become draws (40 R204 (d)). -/
  | scramble (rs : List Reg)
  | readState (s : Slot) (k : AfterState)
  | writeState (s : Slot) (v : MailboxState)
  | readBuf (s : Slot) (k : AfterBuf)
  | writeBuf (s : Slot) (b : Option FrameRef)
  | writeStamp (i : Nat) (t : Stamp)
  /-- CH3 of 44 R381: the callback pair, one micro-step. -/
  | writeCallback (cb : Option Nat) (ctx : Nat)
  /-- CH4 of 44 R381. -/
  | setCreated
  | readFrame (ref : FrameRef) (k : AfterFrame)
  | writeFrame (ref : FrameRef) (f : Frame)
  /-- SK5 of 43 R345: write the time stamp of a frame slot. -/
  | stampFrame (ref : FrameRef) (t : Stamp)
  /-- HI4 of 45 R420 and R428. -/
  | callback (st : Status) (res : Word)
  /-- `return`: RET is appended to TRACE and FG.op becomes None (10 R33, R57). -/
  | ret (r : Ret)
  /-- The return of a failed improved search: the config is a draw (41 R258, CI1). -/
  | retNoTiming
  /-- HI8 of 45 R420: ISR return (60 R515). -/
  | isrReturn
  deriving DecidableEq, Repr

/-! ## Sequencers -/

/-- FG (10 R32): the operation, its operand record, its pending micro-steps (pc and locals), and whether it
is between E0 and E4 of erratum 6032 (60 R510 (c)). -/
structure Fg where
  op : Option Instr
  opnd : OpRec
  code : List Micro
  window : Bool
  deriving DecidableEq, Repr

/-- ISR (10 R33). -/
structure Isr where
  active : Bool
  code : List Micro
  deriving DecidableEq, Repr

/-! ## Hidden state of HW -/

/-- A move-in between MI1 and MI2 (60 R522): the code before MI1, and which of the four words the core has
written since (70 R620). -/
structure MoveIn where
  prev : BitVec 4
  wroteCs : Bool
  wroteId : Bool
  wroteData0 : Bool
  wroteData1 : Bool
  deriving DecidableEq, Repr, Inhabited

/-- A queued frame of the receive FIFO with its filter-hit index (10 R59). -/
structure FifoEntry where
  frame : Frame
  hit : Nat
  deriving DecidableEq, Repr

/-- A step HW may take (60 R520-R526). What HW chooses freely is carried by the move (log 7); a frame that HW
moves in or appends is a frame of 00 R23, of length 0..8 (log 35). -/
inductive HwMove where
  | setLpmack
  | clearLpmack
  | setFrzack
  | clearFrzack
  /-- Soft-reset completion: the registers of SOFTRST_SET take the values of `vals` (60 R521). -/
  | softReset (vals : Regs)
  /-- MI1(i) (60 R522). -/
  | moveIn1 (i : Nat)
  /-- MI2(i, f) with the drawn TIMESTAMP (60 R522). -/
  | moveIn2 (i : Nat) (f : Frame) (ts : Stamp)
  /-- TX(i) with the drawn TIMESTAMP (60 R523). -/
  | transmit (i : Nat) (ts : Stamp)
  /-- FA(f, h) (60 R524). -/
  | fifoAppend (f : Frame) (h : Nat)
  /-- FO (60 R524). -/
  | fifoOverflow
  /-- FH (60 R524). -/
  | fifoHead
  /-- Set the ESR interrupt flags of `m` (60 R525). -/
  | raise (m : Word)
  /-- Change FLTCONF and the six error bits to those of `v` (60 R525). -/
  | errorState (v : Word)
  /-- Change TIMER (60 R526). -/
  | timer (t : Stamp)
  /-- Change DBG (60 R526). -/
  | dbg (w : Word)
  deriving DecidableEq, Repr

/-- A choice of the scheduler (60 R530): FG's turn (when FG is idle, the host's issue), ISR's turn (ISR start
or its next micro-step), a step of HW, a write of a frame slot by the host (70 R621), an access from outside
the core (20 R103), or a boundary between two steps of the model (log 4). -/
inductive Move where
  | fg
  | isr
  | hw (h : HwMove)
  | hostFrame (ref : FrameRef) (f : Frame)
  | access (off size : Nat)
  | yield
  deriving DecidableEq, Repr, Inhabited

/-- What follows the listed turns of a schedule (60 R530: the choice is free; log 4): no listed turn any more, the
agents and HW's duties alone going on (`quiet`); a list of turns for ever repeated (`cycle`); the n-th and every later
turn of a sequence nothing constrains (`free`). -/
inductive Supply where
  | quiet
  | cycle (l : List Move)
  | free (n : Nat)
  deriving DecidableEq, Repr

end Sys2Proof.Machine

/-- The n-th turn of a schedule nothing constrains (60 R530: the choice is free; log 4). -/
opaque Sys2Proof.Config.freeMove : Nat → Sys2Proof.Machine.Move

namespace Sys2Proof.Machine

/-! ## The state -/

/-- The state of the core. -/
structure State where
  par : Params
  regs : Regs
  handle : Handle
  frames : List (Nat × Frame)
  fg : Fg
  isr : Isr
  refused : Option Reason
  trace : List Event
  lock : Option Nat
  fifoq : List FifoEntry
  moveIn : Vector (Option MoveIn) 32
  draws : Nat
  program : List Command
  sched : List Move
  supply : Supply
  deriving DecidableEq, Repr

/-- Why a step has no next state. -/
inductive Fault where
  /-- REFUSED is set: the state has no further step of any agent (10 R34). Raised by every step and every
  issue in such a state. Safe: the run really ends there. -/
  | stuck (r : Reason)
  /-- A command given to exec while FG is in an operation or ISR is active: the host issues none then (30 R143).
  Raised by an issue outside an idle state; step never does that. Safe. -/
  | notIdle
  /-- HANDLE_IRQ given to exec where 60 R510 lets ISR not start. Raised by the meaning of HANDLE_IRQ outside the states
  of that rule; step never does that (log 28). Safe. -/
  | noIsrStart
  deriving DecidableEq, Repr

/-- Why an instruction has no meaning. -/
inductive Refusal where
  /-- Raised by an arm of exec whose instruction has no meaning yet; safe. No arm is left so. -/
  | notModelled (mnemonic : String)
  deriving DecidableEq, Repr

/-! ## Reset -/

/-- The register values at power-on: the family's (10 R62, 95 V8.1; PRESUMED, log 1). -/
def Regs.reset : Regs where
  mcr := 0xD890000F
  ctrl1 := 0
  ctrl2 := 0
  esr := 0
  imask1 := 0
  iflag1 := 0
  timer := 0
  rxfir := 0
  rxmgmask := 0
  rx14mask := 0
  rx15mask := 0
  rxfgmask := 0
  dbg := 0
  rximr := Vector.replicate 32 0
  mb := Vector.replicate 32 ⟨0, 0, 0, 0⟩

/-- The Handle before CreateHandle: not created (10 R63); its other fields are DESIGN CHOICE (log 12). -/
def Handle.reset : Handle where
  created := false
  mbState := Vector.replicate 32 .idle
  rxFifoState := .idle
  mbFrameBuf := Vector.replicate 32 none
  rxFifoFrameBuf := none
  timestamp := Vector.replicate 32 0
  callback := none
  context := 0

/-- The power-on state (70 R600, 10 R62, R63). -/
def State.reset : State where
  par := Config.example
  regs := Regs.reset
  handle := Handle.reset
  frames := []
  fg := { op := none, opnd := OpRec.empty, code := [], window := false }
  isr := { active := false, code := [] }
  refused := none
  trace := []
  lock := none
  fifoq := []
  moveIn := Vector.replicate 32 none
  draws := 0
  program := []
  sched := []
  supply := .quiet

end Sys2Proof.Machine
end

