-- ==== Sys2Proof/Machine/Bits.lean ====
section
/-! DEFINITION. Bit-field helpers (00 R21) and reads and writes of the fixed-size banks. -/

namespace Sys2Proof.Machine

/-- The bits of a field, as a mask. -/
def fieldMask (f : Field) : Word := BitVec.ofNat 32 ((2 ^ (f.hi + 1 - f.lo) - 1) * 2 ^ f.lo)

/-- Read a field of a word: v[hi:lo], zero-extended (00 R21). -/
def getField (f : Field) (w : Word) : Word := (w &&& fieldMask f) >>> f.lo

/-- Read a one-bit field. -/
def getBit (f : Field) (w : Word) : Bool := w.getLsbD f.lo

/-- Replace a field of a word; bits of `v` beyond the field's width are dropped (00 R22). -/
def putField (f : Field) (v w : Word) : Word := (w &&& ~~~ fieldMask f) ||| ((v <<< f.lo) &&& fieldMask f)

/-- The word with bit i set and every other bit 0. -/
def oneBit (i : Nat) : Word := BitVec.ofNat 32 (2 ^ i)

/-- A Boolean as a field value. -/
def boolVal (b : Bool) : FieldVal := .val (if b then 1 else 0)

/-- A number as a field value. -/
def natVal (n : Nat) : FieldVal := .val (BitVec.ofNat 32 n)

/-- Read entry i of a bank; an entry that does not exist reads as the default. -/
def bankGet {α : Type} [Inhabited α] {n : Nat} (v : Vector α n) (i : Nat) : α := v[i]?.getD default

/-- Write entry i of a bank; an entry that does not exist is not written. -/
def bankSet {α : Type} {n : Nat} (v : Vector α n) (i : Nat) (x : α) : Vector α n := v.setIfInBounds i x

/-- A word of a mailbox (10 R43). -/
def Mb.get (m : Mb) : MbWord → Word
  | .cs => m.cs
  | .id => m.id
  | .data0 => m.data0
  | .data1 => m.data1

/-- Replace a word of a mailbox. -/
def Mb.set (m : Mb) (k : MbWord) (w : Word) : Mb :=
  match k with
  | .cs => { m with cs := w }
  | .id => { m with id := w }
  | .data0 => { m with data0 := w }
  | .data1 => { m with data1 := w }

/-- The stored word of a register. TIMER is 16 bits, zero-extended (10 R48). -/
def Regs.get (g : Regs) : Reg → Word
  | .mcr => g.mcr
  | .ctrl1 => g.ctrl1
  | .timer => g.timer.setWidth 32
  | .rxmgmask => g.rxmgmask
  | .rx14mask => g.rx14mask
  | .rx15mask => g.rx15mask
  | .esr => g.esr
  | .imask1 => g.imask1
  | .iflag1 => g.iflag1
  | .ctrl2 => g.ctrl2
  | .rxfgmask => g.rxfgmask
  | .rxfir => g.rxfir
  | .dbg => g.dbg
  | .mb i k => (bankGet g.mb i).get k
  | .rximr i => bankGet g.rximr i

/-- Replace the stored word of a register, with no other effect. -/
def Regs.set (g : Regs) (r : Reg) (w : Word) : Regs :=
  match r with
  | .mcr => { g with mcr := w }
  | .ctrl1 => { g with ctrl1 := w }
  | .timer => { g with timer := w.setWidth 16 }
  | .rxmgmask => { g with rxmgmask := w }
  | .rx14mask => { g with rx14mask := w }
  | .rx15mask => { g with rx15mask := w }
  | .esr => { g with esr := w }
  | .imask1 => { g with imask1 := w }
  | .iflag1 => { g with iflag1 := w }
  | .ctrl2 => { g with ctrl2 := w }
  | .rxfgmask => { g with rxfgmask := w }
  | .rxfir => { g with rxfir := w }
  | .dbg => { g with dbg := w }
  | .mb i k => { g with mb := bankSet g.mb i ((bankGet g.mb i).set k w) }
  | .rximr i => { g with rximr := bankSet g.rximr i w }

end Sys2Proof.Machine
end

