-- ==== Sys2Proof/Machine/Flags.lean ====
section
/-! DEFINITION. The flag-like functions of the state: controller modes (40 R200), the pending set and the
interrupt line (10 R42, R58), the ESR flag masks (10 R40, 45 R426), bus-off, the FIFO occupancy. -/

namespace Sys2Proof.Machine

/-- The controller modes (40 R200). -/
inductive Mode where
  | disabled | softReset | frozen | freezePending | normal
  deriving DecidableEq, Repr

/-- The mode, a function of MCR (40 R200). -/
def modeOf (mcr : Word) : Mode :=
  if getBit .lpmack mcr then .disabled
  else if getBit .softrst mcr then .softReset
  else if getBit .frzack mcr then .frozen
  else if getBit .frz mcr && getBit .halt mcr then .freezePending
  else .normal

/-- The mode of a state. -/
def State.mode (s : State) : Mode := modeOf s.regs.mcr

/-- STATUS4 = TWRNINT, RWRNINT, BOFFINT and ERRINT (10 R40). -/
def status4 : Word := oneBit 17 ||| oneBit 16 ||| oneBit 2 ||| oneBit 1

/-- The W1C flags of ESR: STATUS4 and WAKINT (10 R40, R41). -/
def esrFlags : Word := status4 ||| oneBit 0

/-- BusOff(esr) (10 R40): bit 1 of FLTCONF. -/
def busOff (esr : Word) : Bool := esr.getLsbD 5

/-- ClearMask(e) (45 R426). -/
def clearMask (p : Params) (e : Word) : Word :=
  match p.errClearScope with
  | .allFour => status4
  | .observedOnly => e &&& status4

/-- PEND (10 R42). -/
def pend (g : Regs) : Word := g.imask1 &&& g.iflag1

/-- The interrupt line (10 R58). -/
def irq (s : State) : Bool :=
  pend s.regs != 0
    || (getBit .boffint s.regs.esr && getBit .boffmsk s.regs.ctrl1)
    || (getBit .errint s.regs.esr && getBit .errmsk s.regs.ctrl1)
    || (getBit .twrnint s.regs.esr && getBit .twrnmsk s.regs.ctrl1)
    || (getBit .rwrnint s.regs.esr && getBit .rwrnmsk s.regs.ctrl1)
    || (getBit .wakint s.regs.esr && getBit .wakmsk s.regs.mcr)

/-- DBG.busIdle through DBG_BUSIDLE (10 R51). -/
def busIdle (p : Params) (dbg : Word) : Bool := (dbg &&& p.dbgMask) == p.dbgIdle

/-- MCR.MAXMB as a number (10 R36). -/
def maxMb (g : Regs) : Nat := (getField .maxmb g.mcr).toNat

/-- RFFN of a CTRL2 word, as a number (10 R39). -/
def rffnOf (ctrl2 : Word) : Nat := (getField .rffn ctrl2).toNat

/-- FifoOcc(RFFN) (10 R47). -/
def fifoOcc (r : Nat) : Nat := 8 + 2 * r

/-- CODE of a CS word (10 R43). -/
def codeOf (cs : Word) : BitVec 4 := cs.extractLsb' 24 4

/-- A busy code: bit 0 is set (10 R43). -/
def busyCode (c : BitVec 4) : Bool := c.getLsbD 0

/-- The codes HW may receive into (60 R522). -/
def rxCode (c : BitVec 4) : Bool := c == Config.rxEmpty || c == Config.rxFull || c == Config.rxOverrun

end Sys2Proof.Machine
end

