-- ==== Sys2Proof/Machine/Ops.lean ====
section
/-! DEFINITION. The named operations over the state: draws, register reads and writes with their side
effects (20 R105-R107), the frame store (10 R54), the Handle (10 R52), the refusal (10 R34), and entering and
leaving the dispatcher (60 R510, R515). The core has no exception (60 R505): the refusal and the ISR start
and return are its only changes of control. -/

namespace Sys2Proof.Machine

/-! ## Draws -/

/-- Take the next draw (log 6). -/
def drawWord (s : State) : Word × State := (Config.freeWord s.draws, { s with draws := s.draws + 1 })

/-! ## Reading a register word (20 R105) -/

/-- FIFO_AVAIL of IFLAG1. -/
def fifoAvail (g : Regs) : Bool := g.iflag1.getLsbD Config.fifoAvail

/-- No head is shown: FIFOQ is empty or FIFO_AVAIL is 0 (60 R524). -/
def noHead (s : State) : Bool := s.fifoq.isEmpty || !fifoAvail s.regs

/-- The words of MB[i] read as draws: the FIFO is on, i is one of 0..5 and no head is shown (60 R524; log 15). -/
def headHidden (i : Nat) (s : State) : Bool := getBit .rfen s.regs.mcr && decide (i ≤ 5) && noHead s

/-- The code of MB[i] is busy (60 R522). -/
def mbBusy (i : Nat) (s : State) : Bool := busyCode (codeOf (s.regs.get (.mb i .cs)))

/-- A word that reads as a draw while `hidden`, and as stored otherwise. -/
def readOrDraw (hidden : Bool) (w : Word) (s : State) : Word × State :=
  if hidden then drawWord s else (w, s)

/-- Read a register word: MB[i].CS locks mailbox i, TIMER unlocks (20 R105, 10 R60); a busy mailbox's ID and
DATA words, and the FIFO's words while no head is shown, read as draws (60 R522, R524). -/
def readReg (r : Reg) (s : State) : Word × State :=
  match r with
  | .mb i .cs => readOrDraw (headHidden i s) (s.regs.get r) { s with lock := some i }
  | .mb i _ => readOrDraw (headHidden i s || mbBusy i s) (s.regs.get r) s
  | .rxfir => readOrDraw (noHead s) (s.regs.get r) s
  | .timer => (s.regs.get r, { s with lock := none })
  | _ => (s.regs.get r, s)

/-! ## Writing a register word (20 R106, R107) -/

/-- The RO-HW fields of MCR: NOTRDY, FRZACK, LPMACK (10 R35). -/
def mcrReadOnly : Word := oneBit 27 ||| oneBit 24 ||| oneBit 20

/-- What a core write of `w` leaves in MCR: RO-HW fields keep their value (20 R107), SOFTRST is set by a 1 and
not changed by a 0 (10 R35, access SC), every other bit takes the bit written. -/
def mcrAfterWrite (old w : Word) : Word :=
  (w &&& ~~~ mcrReadOnly) ||| (old &&& (mcrReadOnly ||| oneBit 25))

/-- Note that the core wrote a word of a mailbox whose move-in is in progress (70 R620). -/
def MoveIn.note (m : MoveIn) : MbWord → MoveIn
  | .cs => { m with wroteCs := true }
  | .id => { m with wroteId := true }
  | .data0 => { m with wroteData0 := true }
  | .data1 => { m with wroteData1 := true }

/-- A core write of a register word, seen by a move-in in progress: a word of that mailbox is noted (70 R620). -/
def noteWrite (r : Reg) (s : State) : State :=
  match r with
  | .mb i k => { s with moveIn := bankSet s.moveIn i ((bankGet s.moveIn i).map (·.note k)) }
  | _ => s

/-- A write of IFLAG1: W1C, and clearing FIFO_AVAIL with the FIFO on removes the head of FIFOQ (20 R106; log 14). -/
def writeIflag (w : Word) (s : State) : State :=
  { s with
    regs := { s.regs with iflag1 := s.regs.iflag1 &&& ~~~ w }
    fifoq := if getBit .rfen s.regs.mcr && fifoAvail s.regs && w.getLsbD Config.fifoAvail then s.fifoq.tail
      else s.fifoq }

/-- A core write of a whole register word. -/
def writeReg (r : Reg) (w : Word) (s : State) : State :=
  match r with
  | .mcr => { s with regs := { s.regs with mcr := mcrAfterWrite s.regs.mcr w } }
  | .esr => { s with regs := { s.regs with esr := s.regs.esr &&& ~~~ (w &&& esrFlags) } }
  | .iflag1 => writeIflag w s
  | .timer => s
  | .rxfir => s
  | .dbg => s
  | _ => noteWrite r { s with regs := s.regs.set r w }

/-- Put field values into a word; a value that is a draw, and every timing field when `loose` (CTRL1 written
outside Frozen, 41 R264), takes a fresh draw. -/
def putFields (loose : Bool) : List FieldWrite → Word → State → Word × State
  | [], w, s => (w, s)
  | (f, v) :: t, w, s =>
    match v with
    | .val x =>
      if loose && Field.timing.contains f then
        let d := drawWord s
        putFields loose t (putField f d.1 w) d.2
      else putFields loose t (putField f x w) s
    | .draw =>
      let d := drawWord s
      putFields loose t (putField f d.1 w) d.2

/-- The write half of a read-modify-write (00 R22): the word read, with the fields replaced (41 R264 for the
timing fields). -/
def writeFields (r : Reg) (fs : List FieldWrite) (old : Word) (s : State) : State :=
  let p := putFields (decide (r = .ctrl1) && decide (s.mode ≠ .frozen)) fs old s
  writeReg r p.1 p.2

/-- The registers of the list become draws (40 R204 (d)). -/
def scramble : List Reg → State → State
  | [], s => s
  | r :: t, s =>
    let d := drawWord s
    scramble t { d.2 with regs := d.2.regs.set r d.1 }

/-- A write of EA3 while the soft reset has not ended leaves the register a draw (40 R204 (d)); it is a core write, which
a move-in in progress sees (70 R620). The W1C effect and the FIFO pop of a write are not taken (log 19). -/
def overwrite (r : Reg) (s : State) : State := noteWrite r (scramble [r] s)

/-! ## Accesses from outside (20 R102, R103) -/

/-- A sub-word or misaligned register access (20 R103); an access wider than a word, which no rule names, is taken
as one of them (log 24). -/
def badAccess (off size : Nat) : Bool := decide (size ≠ 4) || decide (off % 4 ≠ 0)

/-! ## The frame store (10 R54) -/

/-- Read a slot of a list of slots; a slot that is not listed holds the empty frame (log 11). -/
def framesGet : List (Nat × Frame) → Nat → Frame
  | [], _ => Frame.empty
  | (k, f) :: t, r => if k = r then f else framesGet t r

/-- Write a slot, keeping the slots in rising order and no slot that holds the empty frame. -/
def framesSet : List (Nat × Frame) → Nat → Frame → List (Nat × Frame)
  | [], r, f => if f = Frame.empty then [] else [(r, f)]
  | (k, g) :: t, r, f =>
    if r < k then (if f = Frame.empty then (k, g) :: t else (r, f) :: (k, g) :: t)
    else if k = r then (if f = Frame.empty then t else (r, f) :: t)
    else (k, g) :: framesSet t r f

/-- The slots listed are above `b`, rise, and hold no empty frame. -/
def framesWfAbove : Nat → List (Nat × Frame) → Bool
  | _, [] => true
  | b, (k, f) :: t => decide (b ≤ k) && decide (f ≠ Frame.empty) && framesWfAbove (k + 1) t

/-- The canonical form of the frame store. -/
def Memory.wf (l : List (Nat × Frame)) : Bool := framesWfAbove 0 l

/-- Read a frame slot of the state. -/
def readFrame (r : FrameRef) (s : State) : Frame := framesGet s.frames r

/-- Write a frame slot of the state. -/
def writeFrame (r : FrameRef) (f : Frame) (s : State) : State := { s with frames := framesSet s.frames r f }

/-! ## The Handle (10 R52) -/

/-- A logical state of the Handle. -/
def Handle.state (h : Handle) : Slot → MailboxState
  | .mb i => bankGet h.mbState i
  | .fifo => h.rxFifoState

/-- Set a logical state. -/
def Handle.setState (h : Handle) (k : Slot) (v : MailboxState) : Handle :=
  match k with
  | .mb i => { h with mbState := bankSet h.mbState i v }
  | .fifo => { h with rxFifoState := v }

/-- A frame reference of the Handle. -/
def Handle.buf (h : Handle) : Slot → Option FrameRef
  | .mb i => bankGet h.mbFrameBuf i
  | .fifo => h.rxFifoFrameBuf

/-- Set a frame reference. -/
def Handle.setBuf (h : Handle) (k : Slot) (b : Option FrameRef) : Handle :=
  match k with
  | .mb i => { h with mbFrameBuf := bankSet h.mbFrameBuf i b }
  | .fifo => { h with rxFifoFrameBuf := b }

/-- Set a time stamp. -/
def Handle.setStamp (h : Handle) (i : Nat) (t : Stamp) : Handle := { h with timestamp := bankSet h.timestamp i t }

/-- A transfer is armed: some logical state is not Idle (40 R206, Requires 2). -/
def Handle.armed (h : Handle) : Bool := h.mbState.toList.any (· != .idle) || h.rxFifoState != .idle

/-! ## TRACE, refusal, the dispatcher's entry and return -/

/-- Append an event to TRACE (10 R57). -/
def emit (e : Event) (s : State) : State := { s with trace := s.trace ++ [e] }

/-- Refuse: REFUSED is set to the reason, and nothing else changes (00 R25, 10 R34, 60 R503). -/
def refuse (r : Reason) (s : State) : State := { s with refused := some r }

/-- ISR may start (60 R510 (a), (b), (c)). -/
def isrReady (s : State) : Bool :=
  !s.isr.active && s.refused.isNone && irq s && s.handle.created && !s.fg.window

/-- ISR start (60 R510): no register access, no other state; the dispatcher begins at HI0 (45 R420). -/
def isrStart (s : State) : State := { s with isr := { active := true, code := [.read .esr .hi1] } }

/-- ISR return (60 R515). -/
def isrReturn (s : State) : State := { s with isr := { active := false, code := [] } }

/-- `return` of FG (10 R33): RET is appended and FG.op becomes None. -/
def fgReturn (r : Ret) (s : State) : State :=
  match s.fg.op with
  | some i => emit (.ret i r) { s with fg := { s.fg with op := none, code := [] } }
  | none => { s with fg := { s.fg with code := [] } }

end Sys2Proof.Machine
end

