-- ==== Sys2Proof/Machine/Operands.lean ====
section
/-! DEFINITION. Every operand form: the CS, ID and DATA words of a mailbox and the frames they carry (10
R43-R45, 42 R302, 43 R341), the filter words (42 R306, R307), the preconditions an issue checks (30 R146, 60
R504), and the operands of the operand record. -/

namespace Sys2Proof.Machine

/-! ## Mailbox words and frames -/

/-- A CS word with a time stamp (10 R43). -/
def csWord (code : BitVec 4) (srr ide rtr : Bool) (dlc : BitVec 4) (ts : Stamp) : Word :=
  (0 : BitVec 4) ++ code ++ (0 : BitVec 1) ++ BitVec.ofBool srr ++ BitVec.ofBool ide ++ BitVec.ofBool rtr ++ dlc ++ ts

/-- CSW(code, srr, ide, rtr, dlc) (42 R302). -/
def csw (code : BitVec 4) (srr ide rtr : Bool) (dlc : BitVec 4) : Word := csWord code srr ide rtr dlc 0

/-- TIMESTAMP of a CS word. -/
def stampOf (cs : Word) : Stamp := cs.extractLsb' 0 16
/-- DLC of a CS word. -/
def dlcOf (cs : Word) : BitVec 4 := cs.extractLsb' 16 4
/-- RTR of a CS word. -/
def rtrOf (cs : Word) : Bool := cs.getLsbD 20
/-- IDE of a CS word. -/
def ideOf (cs : Word) : Bool := cs.getLsbD 21

/-- IdWord (10 R44). -/
def idWord (fmt : FrameFormat) (id : Word) : Word :=
  match fmt with
  | .extended => (0 : BitVec 3) ++ id.extractLsb' 0 29
  | .standard => (0 : BitVec 3) ++ id.extractLsb' 0 11 ++ (0 : BitVec 18)

/-- IdOf (10 R44). -/
def idOfWord (fmt : FrameFormat) (w : Word) : Word :=
  match fmt with
  | .extended => (w.extractLsb' 0 29).setWidth 32
  | .standard => (w.extractLsb' 18 11).setWidth 32

/-- The payload byte at place q of the two DATA words, under PAYLOAD_ORDER (10 R45). -/
def byteAt (order : List Nat) (p : Vector Byte 8) (q : Nat) : Byte := bankGet p (order.idxOf q)

/-- Pack(payload).DATA0 (10 R45). -/
def packData0 (order : List Nat) (p : Vector Byte 8) : Word :=
  byteAt order p 0 ++ byteAt order p 1 ++ byteAt order p 2 ++ byteAt order p 3

/-- Pack(payload).DATA1 (10 R45). -/
def packData1 (order : List Nat) (p : Vector Byte 8) : Word :=
  byteAt order p 4 ++ byteAt order p 5 ++ byteAt order p 6 ++ byteAt order p 7

/-- The byte at place q of the two DATA words. -/
def placeByte (d0 d1 : Word) (q : Nat) : Byte :=
  if q < 4 then d0.extractLsb' (24 - 8 * q) 8 else d1.extractLsb' (56 - 8 * q) 8

/-- Payload byte k of the two DATA words (10 R45). -/
def unpackByte (order : List Nat) (d0 d1 : Word) (k : Nat) : Byte := placeByte d0 d1 (order.getD k 0)

/-- Unpack(DATA0, DATA1) (10 R45). -/
def unpack (order : List Nat) (d0 d1 : Word) : Vector Byte 8 :=
  let u := unpackByte order d0 d1
  #v[u 0, u 1, u 2, u 3, u 4, u 5, u 6, u 7]

/-- The format an IDE bit names. -/
def formatOf (ide : Bool) : FrameFormat := if ide then .extended else .standard
/-- The kind an RTR bit names. -/
def kindOf (rtr : Bool) : FrameKind := if rtr then .remote else .data
/-- The IDE bit of a format. -/
def ideBit (f : FrameFormat) : Bool := decide (f = .extended)
/-- The RTR bit of a kind. -/
def rtrBit (k : FrameKind) : Bool := decide (k = .remote)

/-- FrameOf(c, w, d0, d1) (43 R341). -/
def frameOf (p : Params) (c w d0 d1 : Word) : Frame :=
  { id := idOfWord (formatOf (ideOf c)) w
    format := formatOf (ideOf c)
    kind := kindOf (rtrOf c)
    length := min (dlcOf c).toNat 8
    timestamp := stampOf c
    payload := unpack p.payloadOrder d0 d1 }

/-- The frame a write takes from a slot. Its length was checked at issue (43 R340, 44 R382); where the host has raised
it above 8 since, no rule states the DLC that is written, and the length taken is a draw in 0..15 (log 36). -/
def takeFrame (f : Frame) (s : State) : Frame × State :=
  if 8 < f.length then
    let d := drawWord s
    ({ f with length := d.1.toNat % 16 }, d.2)
  else (f, s)

/-- A frame HW draws: any frame of 00 R23 (60 R522; log 7). -/
def drawFrame (s : State) : Frame × State :=
  let c := drawWord s
  let w := drawWord c.2
  let d0 := drawWord w.2
  let d1 := drawWord d0.2
  (frameOf s.par c.1 w.1 d0.1 d1.1, d1.2)

/-- The length of a frame of 00 R23: 0..8 (log 35). -/
def frameFits (f : Frame) : Bool := decide (f.length ≤ 8)

/-- The CS word of a frame to transmit: TX_DATA with SRR = IDE (43 R340 WT8, R341). -/
def txCs (f : Frame) : Word :=
  csw Config.txData (ideBit f.format) (ideBit f.format) (rtrBit f.kind) (BitVec.ofNat 4 f.length)

/-- The CS word of a received frame (60 R522): SRR = 0. -/
def rxCs (code : BitVec 4) (f : Frame) (ts : Stamp) : Word :=
  csWord code false (ideBit f.format) (rtrBit f.kind) (BitVec.ofNat 4 f.length) ts

/-- The ID word of a frame. -/
def frameIdWord (f : Frame) : Word := idWord f.format f.id

/-! ## FIFO configuration operands -/

/-- RFFN(n) (42 R306). -/
def rffnFor (n : Nat) : Nat := (n + 7) / 8 - 1

/-- The register of FILT[k] (42 R307): word k mod 4 of mailbox 6 + k/4. -/
def filterReg (k : Nat) : Reg :=
  .mb (6 + k / 4) (match k % 4 with
    | 0 => .cs
    | 1 => .id
    | 2 => .data0
    | _ => .data1)

/-- FILT[k] of a configuration: the table's word, padded with all ones (42 R304 FE3). -/
def filterWord (c : FifoConfig) (k : Nat) : Word :=
  if k < c.idFilterNum then c.idFilterTable.getD k 0 else 0xFFFFFFFF

/-- An FIFO enable that fits (42 R304 Requires 2, R306): the region lies inside the configured mailboxes, and inside the
32 there are where MAXMB reads 32 or more (00 R9; log 10). -/
def fifoFits (c : FifoConfig) (g : Regs) : Bool :=
  decide (1 ≤ c.idFilterNum) && decide (c.idFilterNum ≤ c.idFilterTable.length)
    && decide (rffnFor c.idFilterNum ≤ Config.rffnMax) && decide (fifoOcc (rffnFor c.idFilterNum) ≤ min (maxMb g + 1) Config.nmbHw)

/-! ## Preconditions (30 R146, 60 R504) -/

/-- A precondition that is broken, with its reason. -/
abbrev Check := Bool × Reason

/-- The first reason whose check is broken (60 R504). -/
def firstBroken : List Check → Option Reason
  | [] => none
  | (b, r) :: t => if b then some r else firstBroken t

/-- NoHandle: H.created is false (30 R146). -/
def needHandle (s : State) : Check := (!s.handle.created, .noHandle)

/-- OutOfRange: op.idx is above MAXMB (30 R146), or names no mailbox of the 32 there are (00 R9; log 10). -/
def needIdx (i : Nat) (s : State) : Check := (decide (maxMb s.regs < i) || decide (Config.nmbHw ≤ i), .outOfRange)

/-- MissingOperand: the operand record lacks a field (30 R146). -/
def needOperand {α : Type} (o : Option α) : Check := (o.isNone, .missingOperand)

/-- NotFrozen, under RequireFrozen only (40 R210, 41 R263). -/
def needFrozen (s : State) : Check :=
  (decide (s.par.timingWriteMode = .requireFrozen) && decide (s.mode ≠ .frozen), .notFrozen)

/-- InvalidTimingInput (41 R250). -/
def needTimingInput (baud clk : Word) : Check :=
  (decide (baud.toNat = 0) || decide (clk.toNat = 0) || decide (2 ^ 32 ≤ baud.toNat * Config.tqMax), .invalidTimingInput)

/-- ResetInLowPower (40 R206 Requires 1). -/
def needAwake (s : State) : Check := (getBit .lpmack s.regs.mcr, .resetInLowPower)

/-- ResetWhileArmed (40 R206 Requires 2). -/
def needDisarmed (s : State) : Check := (s.handle.created && s.handle.armed, .resetWhileArmed)

/-- InvalidFrame (43 R340): the frame lent has a length above 8. -/
def needFrame (ref : FrameRef) (s : State) : Check := (decide (8 < (readFrame ref s).length), .invalidFrame)

end Sys2Proof.Machine
end

