-- ==== Sys2Proof/Machine/Solver.lean ====
section
/-! DEFINITION. The bit-timing solver (41_bit_timing.md): the table search (R254, R255), the segment
distribution (R257), the two selections of the improved search (R258, R259), the jump width (R260), the
default Config (42 R311). Pure computation on naturals (R250). -/

namespace Sys2Proof.Machine

/-- An entry of the table matches: it divides exactly and its prescaler is at most 256 (41 R254 SB0). -/
def tqMatches (baud clk : Nat) (e : TqEntry) : Bool :=
  decide (clk % (baud * e.tq) = 0) && decide (clk / (baud * e.tq) ≤ 256)

/-- What the table search writes: the flag found, the entry whose segments are written, and the value put
into PRESDIV, which is a draw when no 8-bit encoding exists (41 R254, R255). -/
structure BaudResult where
  found : Bool
  entry : TqEntry
  presdiv : FieldVal
  deriving DecidableEq, Repr

/-- The fallback: the last entry and its prescaler, unvalidated (41 R255). -/
def baudFallback (table : List TqEntry) (baud clk : Nat) : BaudResult :=
  let e := table.getLastD ⟨0, 0, 0, 0⟩
  let q := clk / (baud * e.tq)
  { found := false, entry := e, presdiv := if 1 ≤ q ∧ q ≤ 256 then natVal (q - 1) else .draw }

/-- SB0 of SetBaudRate (41 R254). -/
def tableSearch (table : List TqEntry) (baud clk : Nat) : BaudResult :=
  match table.find? (tqMatches baud clk) with
  | some e => { found := true, entry := e, presdiv := natVal (clk / (baud * e.tq) - 1) }
  | none => baudFallback table baud clk

/-- The stored segments of a candidate: propSeg, phaseSeg1, phaseSeg2. -/
structure Segs where
  prop : Nat
  ps1 : Nat
  ps2 : Nat
  deriving DecidableEq, Repr

/-- The check phaseSeg1 ≤ PSEG1_MAX (41 R257, last line). -/
def fitSegs (g : Segs) : Option Segs := if Config.pseg1Max < g.ps1 then none else some g

/-- The rebalance: phaseSeg1 must not be shorter than phaseSeg2 (41 R257). -/
def rebalance (g : Segs) : Option Segs :=
  if g.ps1 < g.ps2 then
    if g.ps2 - g.ps1 ≤ g.prop then fitSegs { prop := g.prop - (g.ps2 - g.ps1), ps1 := g.ps2, ps2 := g.ps2 } else none
  else fitSegs g

/-- Segments(tq) (41 R257); none is reject. -/
def segments (tq : Nat) : Option Segs :=
  let s := tq * Config.idealSp / 1000
  let rest := s - 3
  let prop := min rest Config.propSegMax
  let ps2 := tq - s - 1
  if Config.pseg2Max < ps2 then none else rebalance { prop := prop, ps1 := rest - prop, ps2 := ps2 }

/-- The stored jump width (41 R260). -/
def jumpWidth (tq : Nat) : Nat := min ((tq + 2) / 5 - 1) Config.rjwMax

/-- One candidate of the improved search (41 R258 CI0): none when it is rejected. -/
def candidate (baud clk tq : Nat) : Option TimingConfig :=
  if clk % (baud * tq) = 0 ∧ clk / (baud * tq) ≤ Config.preDividerMax then
    (segments tq).map fun g =>
      { preDivider := clk / (baud * tq), rJumpWidth := jumpWidth tq, phaseSeg1 := g.ps1, phaseSeg2 := g.ps2,
        propSeg := g.prop }
  else none

/-- The candidate counts, from TQ_MAX down to TQ_MIN (41 R258). -/
def tqDown : List Nat := [25, 24, 23, 22, 21, 20, 19, 18, 17, 16, 15, 14, 13, 12, 11, 10, 9, 8]

/-- The distance |1000·SPC − IDEAL_SP·tq| of a config from the ideal sample point, times 1/tq (41 R259). -/
def spError (c : TimingConfig) : Nat :=
  (1000 * c.spc - Config.idealSp * c.tq) + (Config.idealSp * c.tq - 1000 * c.spc)

/-- Keep the config nearer the ideal sample point, the earlier one on a tie (41 R259). -/
def nearer (best c : TimingConfig) : TimingConfig := if spError c * best.tq < spError best * c.tq then c else best

/-- The best of a list of candidates (41 R259, ClosestSamplePoint). -/
def closest : Option TimingConfig → List TimingConfig → Option TimingConfig
  | b, [] => b
  | none, c :: t => closest (some c) t
  | some b, c :: t => closest (some (nearer b c)) t

/-- The improved search (41 R258, R259); none is failure. -/
def improvedSearch (sel : ImprovedSelect) (baud clk : Nat) : Option TimingConfig :=
  match sel with
  | .firstAccepted => tqDown.findSome? (candidate baud clk)
  | .closestSamplePoint => closest none (tqDown.filterMap (candidate baud clk))

/-- The default Config (42 R311). -/
def defaultConfig (p : Params) : ModuleConfig :=
  { clkSrc := p.defaultClksrc
    wakeupSrc := p.defaultWaksrc
    baudRate := 500000
    maxMbNum := 16
    enableLoopBack := false
    enableTimerSync := true
    enableSelfWakeup := false
    enableIndividMask := false
    disableSelfReception := false
    enableListenOnlyMode := false
    enableDoze := false
    timingConfig :=
      { preDivider := p.defaultPrediv, rJumpWidth := 1, phaseSeg1 := 3, phaseSeg2 := 2, propSeg := 1 } }

end Sys2Proof.Machine
end

