-- ==== Sys2Proof/Machine/Bodies.lean ====
section
/-! DEFINITION. The pseudocode bodies of the operations, as lists of micro-steps (files 40 to 45 of spec/), and
what is computed after an access that the next access depends on. Each list holds the accesses of its rule in
the rule's order; computation makes no micro-step (41 intro). -/

namespace Sys2Proof.Machine

/-- `REG.{F, ...} <- (v, ...)`: a read and then a write of the word (00 R22). -/
def setFields (r : Reg) (fs : List FieldWrite) : List Micro := [.read r (.modify r fs)]

/-- The field value 0. -/
def zeroVal : FieldVal := .val 0
/-- The field value 1. -/
def oneVal : FieldVal := .val 1

/-! ## Freeze and reset (40) -/

/-- EF5 and EF6 (40 R201). -/
def efTail (p : Params) : List Micro :=
  setFields .mcr [(.halt, oneVal)] ++ [.poll .mcr .frzack true (some p.frzTimeout) .done]

/-- The body of EnterFreeze, EF0 to EF6 or EA0 to EA3 (40 R201, R202, R203). -/
def enterFreezeBody (p : Params) : List Micro :=
  setFields .mcr [(.frz, oneVal)]
    ++ [.read .mcr .ef2, .poll .mcr .lpmack false (some p.frzTimeout) .done]
    ++ (if p.freezeVariant = .base then efTail p else [.read .esr .ef4])

/-- ERRATA_BACKUP in the order MCR, IMASK1, then the others in LAYOUT order (40 R204 EA0). -/
def eaOrder (p : Params) : List Reg :=
  [Reg.mcr, Reg.imask1].filter (p.errataBackup.contains ·)
    ++ Reg.layoutOrder.filter (fun r => p.errataBackup.contains r && r != .mcr && r != .imask1)

/-- EA1 and EA2 (40 R204). -/
def eaReset (p : Params) (bk : List (Reg × Word)) : List Micro :=
  setFields .mcr [(.softrst, oneVal)] ++ [.poll .mcr .softrst false (some p.frzTimeout) (.ea3 bk)]

/-- EA0: back up the registers of the list, then EA1 (40 R204). -/
def eaBackup (p : Params) (bk : List (Reg × Word)) : List Reg → List Micro
  | [] => eaReset p bk
  | r :: rest => [.read r (.ea0 r rest bk)]

/-- One whole-word write of EA3 (40 R204). A write of CTRL1 outside Frozen leaves its timing fields draws (41 R264). -/
def eaRestore (b : Reg × Word) : Micro :=
  if b.1 = .ctrl1 then .modify .ctrl1 (Field.timing.map fun f => (f, .val (getField f b.2))) b.2 else .write b.1 b.2

/-- EA3 (40 R204). When the poll of EA2 ended on its budget, each write leaves a draw, and at the end so is
every register of ERRATA_BACKUP and SOFTRST_SET (40 R204 (d), 93 I5). The lock, FIFOQ and the move-ins in progress, of
which no rule speaks there, are kept as they are (log 19). -/
def eaFinish (p : Params) (bk : List (Reg × Word)) (ok : Bool) : List Micro :=
  if ok then bk.map eaRestore
  else bk.map (fun b => .overwrite b.1) ++ [.scramble (p.errataBackup ++ p.softrstSet)]

/-- The body of ExitFreeze, XF0 to XF2 (40 R205). -/
def exitFreezeBody : List Micro :=
  setFields .mcr [(.halt, zeroVal)] ++ setFields .mcr [(.frz, zeroVal)] ++ [.poll .mcr .frzack false none .done]

/-- The body of Reset, RS0 to RS9 (40 R206). -/
def resetBody (p : Params) : List Micro :=
  setFields .mcr [(.softrst, oneVal)]
    ++ [.poll .mcr .softrst false none .done]
    ++ setFields .mcr [(.maxmb, .val (p.resetMaxmb.setWidth 32)), (.wrnen, boolVal p.resetWrnen),
        (.waksrc, boolVal p.resetWaksrc)]
    ++ [.write .ctrl1 p.ctrl1Default, .write .ctrl2 p.ctrl2Default]
    ++ (List.range p.nrximr).map (fun i => .write (.rximr i) 0)
    ++ [.write .rxmgmask 0, .write .rx14mask 0, .write .rx15mask 0]
    ++ (List.range Config.nmbHw).map (fun i => .write (.mb i .cs) 0)

/-- A freeze-gated operation's body: as it is under RequireFrozen, between the bodies of EnterFreeze and
ExitFreeze under Bracket (41 R263). -/
def gated (p : Params) (body : List Micro) : List Micro :=
  match p.timingWriteMode with
  | .requireFrozen => body
  | .bracket => enterFreezeBody p ++ body ++ exitFreezeBody

/-! ## Bit timing (41) -/

/-- SB1 of SetBaudRate (41 R254). -/
def baudBody (b : BaudResult) : List Micro :=
  setFields .ctrl1 [(.presdiv, b.presdiv), (.pseg1, natVal b.entry.s1), (.pseg2, natVal b.entry.s2),
    (.propseg, natVal b.entry.p)]

/-- ST0 of SetTimingConfig (41 R262). -/
def timingBody (c : TimingConfig) : List Micro :=
  setFields .ctrl1 [(.presdiv, natVal (c.preDivider - 1)), (.rjw, natVal c.rJumpWidth), (.pseg1, natVal c.phaseSeg1),
    (.pseg2, natVal c.phaseSeg2), (.propseg, natVal c.propSeg)]

/-- CI0 and CI1 of CalculateImprovedTimingValues (41 R258, R259). -/
def improvedBody (p : Params) (baud clk : Nat) : List Micro :=
  match improvedSearch p.improvedSelect baud clk with
  | some c => [.ret (.timing true c)]
  | none => [.retNoTiming]

/-! ## Mailboxes, FIFO and masks (42) -/

/-- ClearMb(i) (42 R302). -/
def clearMb (i : Nat) : List Micro :=
  [.write (.mb i .cs) 0, .write (.mb i .id) 0, .write (.mb i .data0) 0, .write (.mb i .data1) 0]

/-- TC0 and TC1 of SetTxMbConfig (42 R300). -/
def txMbBody (i : Nat) (en : Bool) : List Micro :=
  clearMb i ++ (if en then [.write (.mb i .cs) (csw Config.txInactive false false false 0)] else [])

/-- RC0 to RC4 of SetRxMbConfig (42 R301). -/
def rxMbBody (i : Nat) (en : Bool) (c : RxMbConfig) : List Micro :=
  clearMb i
    ++ (if en then
        [.write (.mb i .id) (idWord c.format c.id),
         .write (.mb i .cs) (csw Config.rxInactive false (ideBit c.format) (rtrBit c.kind) 0),
         .write (.mb i .cs) (csw Config.rxEmpty false (ideBit c.format) (rtrBit c.kind) 0)]
      else [])

/-- FE1 to FE6 of SetRxFifoConfig (42 R304). -/
def fifoEnableBody (c : FifoConfig) : List Micro :=
  setFields .ctrl2 [(.rffn, natVal (rffnFor c.idFilterNum))]
    ++ (List.range (8 * (rffnFor c.idFilterNum + 1))).map (fun k => .write (filterReg k) (filterWord c k))
    ++ setFields .mcr [(.idam, natVal c.idFilterType.code)]
    ++ setFields .ctrl2 [(.mrp, boolVal (decide (c.priority = .mailboxFirst)))]
    ++ setFields .mcr [(.rfen, oneVal)]

/-- FD1 and FD2 of SetRxFifoConfig (42 R304), after CTRL2 was read at FD0. -/
def fifoRelease (ctrl2 : Word) : List Micro :=
  setFields .mcr [(.rfen, zeroVal)]
    ++ (List.range (min (7 + 2 * rffnOf ctrl2) (Config.nmbHw - 1) + 1)).flatMap clearMb

/-- The body of SetRxFifoConfig (42 R304). -/
def fifoBody (en : Bool) (c : FifoConfig) : List Micro :=
  if en then fifoEnableBody c else [.read .ctrl2 .fd1]

/-- GM0 to GM2 of SetRxMbGlobalMask (42 R308). -/
def globalMaskBody (m : Word) : List Micro := [.write .rxmgmask m, .write .rx14mask m, .write .rx15mask m]

/-- The body of Init, IN0 to IN7 (42 R312). -/
def initBody (p : Params) (c : ModuleConfig) (b : BaudResult) : List Micro :=
  setFields .mcr [(.mdis, zeroVal)]
    ++ [.poll .mcr .lpmack false none .done]
    ++ resetBody p
    ++ enterFreezeBody p
    ++ setFields .mcr [(.maxmb, natVal (c.maxMbNum - 1)), (.waksrc, boolVal c.wakeupSrc),
        (.slfwak, boolVal c.enableSelfWakeup), (.irmq, boolVal c.enableIndividMask),
        (.srxdis, boolVal c.disableSelfReception), (.doze, boolVal c.enableDoze)]
    ++ setFields .ctrl1 [(.clksrc, boolVal c.clkSrc), (.lpb, boolVal c.enableLoopBack),
        (.tsyn, boolVal c.enableTimerSync), (.lom, boolVal c.enableListenOnlyMode),
        (.rjw, natVal c.timingConfig.rJumpWidth)]
    ++ baudBody b
    ++ exitFreezeBody

/-- The body of Deinit, DI0 and DI1 (42 R313). -/
def deinitBody (p : Params) : List Micro := resetBody p ++ setFields .mcr [(.mdis, oneVal)]

/-! ## Transfers (43) -/

/-- WT0 of WriteTxMb (43 R340). -/
def writeTxBody (i : Nat) (ref : FrameRef) (k : WriteCall) : List Micro := [.readFrame ref (.wt1 i k)]

/-- What follows a WriteTxMb body that returned Fail (43 R340, R345 SK1, 44 R382 SN5). -/
def writeFailed (i : Nat) : WriteCall → List Micro
  | .own => [.ret (.status .fail)]
  | .sendBlocking _ => [.ret (.status .fail)]
  | .sendNb => [.writeState (.mb i) .idle, .ret (.status .fail)]

/-- What follows a WriteTxMb body that returned Success (43 R340, R345 SK2 to SK6, 44 R382 SN6 and SN7). -/
def writeDone (i : Nat) : WriteCall → List Micro
  | .own => [.ret (.status .success)]
  | .sendBlocking ref =>
    [.poll .iflag1 (Field.ofBit i) true none .done, .write .iflag1 (oneBit i), .read (.mb i .cs) (.sk5 ref),
     .ret (.status .success)]
  | .sendNb => setFields .imask1 [(Field.ofBit i, oneVal)] ++ [.ret (.status .success)]

/-- WT4 to WT8 of WriteTxMb, and what its caller does next (43 R340). -/
def writeMailbox (p : Params) (i : Nat) (f : Frame) (k : WriteCall) : List Micro :=
  [.write (.mb i .cs) (csw Config.txInactive false false false 0),
   .write (.mb i .id) (frameIdWord f),
   .write (.mb i .data0) (packData0 p.payloadOrder f.payload),
   .write (.mb i .data1) (packData1 p.payloadOrder f.payload),
   .write (.mb i .cs) (txCs f)] ++ writeDone i k

/-- RR0 of ReadRxMb (43 R343). -/
def readRxBody (i : Nat) (ref : Option FrameRef) (k : ReadCall) : List Micro := [.read (.mb i .cs) (.rr1 i ref k)]

/-- RF0 of ReadRxFifo (43 R344). -/
def readFifoBody (ref : Option FrameRef) (k : FifoCall) : List Micro := [.read .mcr (.rf1 ref k)]

/-- The write of a frame read, where there is a slot to hold it (43 R343 RR6, 45 R424, R425). -/
def storeFrame (ref : Option FrameRef) (f : Frame) : List Micro :=
  match ref with
  | some r => [.writeFrame r f]
  | none => []

/-! ## Aborts (44) -/

/-- AS0 to AS4 of TransferAbortSend (44 R385). -/
def abortSendBody (i : Nat) : List Micro :=
  setFields .imask1 [(Field.ofBit i, zeroVal)] ++ [.read (.mb i .cs) (.as2 i), .writeState (.mb i) .idle]

/-- AR0 to AR2 of TransferAbortReceive (44 R386). -/
def abortReceiveBody (i : Nat) : List Micro :=
  setFields .imask1 [(Field.ofBit i, zeroVal)] ++ [.writeBuf (.mb i) none, .writeState (.mb i) .idle]

/-- The three FIFO bits of IMASK1 (44 R384, R387). -/
def fifoMaskFields (v : FieldVal) : List FieldWrite :=
  [(Field.ofBit Config.fifoOvf, v), (Field.ofBit Config.fifoWarn, v), (Field.ofBit Config.fifoAvail, v)]

/-- AF0 to AF2 of TransferAbortReceiveFifo (44 R387). -/
def abortFifoBody : List Micro :=
  setFields .imask1 (fifoMaskFields zeroVal) ++ [.writeBuf .fifo none, .writeState .fifo .idle]

/-- CH0 to CH6 of CreateHandle (44 R381). -/
def createHandleBody (cb : Option Nat) (ctx : Nat) : List Micro :=
  (List.range Config.nmbHw).flatMap
      (fun j => [.writeState (.mb j) .idle, .writeBuf (.mb j) none, .writeStamp j 0])
    ++ [.writeState .fifo .idle, .writeBuf .fifo none, .writeCallback cb ctx, .setCreated]
    ++ setFields .ctrl1 [(.boffmsk, boolVal cb.isSome), (.errmsk, boolVal cb.isSome), (.twrnmsk, boolVal cb.isSome),
        (.rwrnmsk, boolVal cb.isSome)]
    ++ setFields .mcr [(.wakmsk, boolVal cb.isSome)]

/-! ## The dispatcher (45) -/

/-- HI4 and HI5 (45 R420). -/
def hiCallback (st : Status) (res : Word) : List Micro := [.callback st res, .read .imask1 .hi6]

/-- S5, then HI4 and HI5, after an event at index j (45 R422, R420). -/
def resolved (st : Status) (j : Nat) : List Micro :=
  .write .iflag1 (oneBit j) :: hiCallback st (BitVec.ofNat 32 j)

/-- FifoEvent(j) (45 R424). -/
def fifoEvent (j : Nat) : List Micro :=
  if j = Config.fifoAvail then [.readBuf .fifo .fv0]
  else if j = Config.fifoOvf then resolved .rxFifoOverflow j
  else if j = Config.fifoWarn then resolved .rxFifoWarning j
  else resolved .unHandled j

/-- MV1 of MailboxEvent(j), after the logical state was read (45 R425). -/
def mailboxEvent (j : Nat) : MailboxState → List Micro
  | .rxData => [.readBuf (.mb j) (.mv1 j)]
  | .rxRemote => abortReceiveBody j ++ resolved .rxRemote j
  | .txData => abortSendBody j ++ resolved .txIdle j
  | .txRemote => .writeState (.mb j) .rxRemote :: resolved .txSwitchToRx j
  | .idle => resolved .unHandled j
  | .rxFifo => resolved .unHandled j

/-- What follows a ReadRxMb body that stored its frame (43 R343 RR7, 45 R425). -/
def readRxDone (j : Nat) (k : ReadCall) (c : Word) : List Micro :=
  let st : Status := if codeOf c = Config.rxFull then .success else .rxOverflow
  match k with
  | .own => [.ret (.status st)]
  | .dispatcher =>
    .writeStamp j (stampOf c) :: abortReceiveBody j ++ resolved (if st = .success then .rxIdle else st) j

/-- What follows a ReadRxMb body that returned Fail (43 R343 RR9, 45 R425). -/
def readRxFailed (j : Nat) : ReadCall → List Micro
  | .own => [.ret (.status .fail)]
  | .dispatcher => abortReceiveBody j ++ resolved .fail j

/-- What follows a ReadRxFifo body that stored its frame; `h` is the word of RXFIR (43 R344 RF9, R347, 45 R424). -/
def readFifoDone (k : FifoCall) (c h : Word) : List Micro :=
  match k with
  | .own => [.ret (.statusHit .success (some (getField .idhit h)))]
  | .blocking => [.write .iflag1 (oneBit Config.fifoAvail), .ret (.statusHit .success (some (getField .idhit h)))]
  | .dispatcher => .writeStamp 0 (stampOf c) :: abortFifoBody ++ resolved .rxFifoIdle Config.fifoAvail

/-- What follows a ReadRxFifo body that returned Fail (43 R344 RF1, R347, 45 R424). -/
def readFifoFailed : FifoCall → List Micro
  | .own => [.ret (.statusHit .fail none)]
  | .blocking => [.write .iflag1 (oneBit Config.fifoAvail), .ret (.statusHit .fail none)]
  | .dispatcher => abortFifoBody ++ resolved .fail Config.fifoAvail

/-! ## What is computed after an access -/

/-- The micro-steps that follow the read of the word `v`. -/
def afterRead (p : Params) (k : AfterRead) (v : Word) : List Micro :=
  match k with
  | .modify r fs => [.modify r fs v]
  | .ef2 => if getBit .mdis v then setFields .mcr [(.mdis, zeroVal)] else []
  | .ef4 => if busOff v then eaBackup p [] (eaOrder p) else efTail p
  | .ea0 r rest bk => eaBackup p (bk ++ [(r, v)]) rest
  | .fd1 => fifoRelease v
  | .wt2 i f k =>
    if codeOf v = Config.txData then writeFailed i k
    else if p.errata6032 then [.enterWindow (.e1 i f k)]
    else writeMailbox p i f k
  | .e1 i f k => [.write .imask1 0, .read .dbg (.e3 i f k v)]
  | .e3 i f k m =>
    (if busIdle p v then [.write (.mb i .cs) 0] else []) ++ .leaveWindow m :: writeMailbox p i f k
  | .rr1 i ref k =>
    if codeOf v = Config.rxFull ∨ codeOf v = Config.rxOverrun then [.read (.mb i .id) (.rr3 i ref k v)]
    else [.read .timer (.rr9 i k)]
  | .rr3 i ref k c => [.read (.mb i .data0) (.rr4 i ref k c v)]
  | .rr4 i ref k c w => [.read (.mb i .data1) (.rr5 i ref k c w v)]
  | .rr5 i ref k c w d0 => [.read .timer (.rr6 i ref k c w d0 v)]
  | .rr6 i ref k c w d0 d1 => storeFrame ref (frameOf p c w d0 d1) ++ readRxDone i k c
  | .rr9 i k => readRxFailed i k
  | .rf1 ref k => if getBit .rfen v then [.read (.mb 0 .cs) (.rf3 ref k)] else readFifoFailed k
  | .rf3 ref k => [.read (.mb 0 .id) (.rf4 ref k v)]
  | .rf4 ref k c => [.read (.mb 0 .data0) (.rf5 ref k c v)]
  | .rf5 ref k c w => [.read (.mb 0 .data1) (.rf6 ref k c w v)]
  | .rf6 ref k c w d0 => [.read .rxfir (.rf7 ref k c w d0 v)]
  | .rf7 ref k c w d0 d1 => [.read .timer (.rf8 ref k c w d0 d1 v)]
  | .rf8 ref k c w d0 d1 h => storeFrame ref (frameOf p c w d0 d1) ++ readFifoDone k c h
  | .sk5 ref => [.stampFrame ref (stampOf v)]
  | .as2 i =>
    .writeStamp i (stampOf v)
      :: (if p.abortTxDeactivate then [.write (.mb i .cs) (csw Config.txInactive false false false 0)] else [])
  | .hi1 =>
    if v &&& status4 ≠ 0 then .write .esr (clearMask p v) :: hiCallback .errorStatus v
    else if getBit .wakint v then .write .esr (oneBit 0) :: hiCallback .wakeUp v
    else [.read .imask1 (.s1Flag 0)]
  | .hi6 => [.read .iflag1 (.hi7 v)]
  | .hi7 m => if m &&& v ≠ 0 then [.read .esr .hi1] else [.isrReturn]
  | .s1Flag j => [.read .iflag1 (.s1Test j (v.getLsbD j))]
  | .s1Test j mj =>
    if mj && v.getLsbD j then [.readState .fifo (.s3 j)]
    else if j + 1 < Config.nmbHw then [.read .imask1 (.s1Flag (j + 1))]
    else hiCallback .unHandled (BitVec.ofNat 32 Config.nmbHw)
  | .s4 j fs =>
    if j < fifoOcc (rffnOf v) ∧ fs = .rxFifo then fifoEvent j else [.readState (.mb j) (.mv1 j)]

/-- The micro-steps that follow the end of a poll; `ok`: it ended on its condition. -/
def afterPoll (p : Params) (k : AfterPoll) (ok : Bool) : List Micro :=
  match k with
  | .done => []
  | .ea3 bk => eaFinish p bk ok

/-- The micro-steps that follow the read of a logical state. -/
def afterState (k : AfterState) (v : MailboxState) : List Micro :=
  match k with
  | .sn1 i ref => if v ≠ .idle then [.ret (.status .txBusy)] else [.readFrame ref (.sn3 i ref)]
  | .rn1 i ref =>
    if v ≠ .idle then [.ret (.status .rxBusy)]
    else [.writeBuf (.mb i) (some ref), .writeState (.mb i) .rxData]
      ++ setFields .imask1 [(Field.ofBit i, oneVal)] ++ [.ret (.status .success)]
  | .fn1 ref =>
    if v ≠ .idle then [.ret (.status .rxFifoBusy)]
    else [.writeBuf .fifo (some ref), .writeState .fifo .rxFifo]
      ++ setFields .imask1 (fifoMaskFields oneVal) ++ [.ret (.status .success)]
  | .s3 j => [.read .ctrl2 (.s4 j v)]
  | .mv1 j => mailboxEvent j v

/-- The micro-steps that follow the read of a frame reference. -/
def afterBuf (k : AfterBuf) (ref : Option FrameRef) : List Micro :=
  match k with
  | .fv0 => readFifoBody ref .dispatcher
  | .mv1 j => readRxBody j ref .dispatcher

/-- The micro-steps that follow the read of a frame slot. -/
def afterFrame (k : AfterFrame) (f : Frame) : List Micro :=
  match k with
  | .wt1 i k => [.read (.mb i .cs) (.wt2 i f k)]
  | .sn3 i ref =>
    .writeState (.mb i) (if f.kind = .remote then .txRemote else .txData) :: writeTxBody i ref .sendNb

end Sys2Proof.Machine
end

