-- ==== Sys2Proof/Machine/Hw.lean ====
section
/-! DEFINITION. The hardware agent (60 R520-R527, 40 R207): what each of its moves does, where it is allowed,
and the duties it has (60 R528). A move that is not allowed in a state changes nothing (log 7). -/

namespace Sys2Proof.Machine

/-- Set the bits of `m` in a register. -/
def setBits (r : Reg) (m : Word) (s : State) : State := { s with regs := s.regs.set r (s.regs.get r ||| m) }

/-- Clear the bits of `m` in a register. -/
def clearBits (r : Reg) (m : Word) (s : State) : State := { s with regs := s.regs.set r (s.regs.get r &&& ~~~ m) }

/-- Do a change where it is allowed. -/
def allow (b : Bool) (f : State → State) (s : State) : State := if b then f s else s

/-- Give the registers of the list the values they have in `vals`. -/
def takeRegs (vals : Regs) : List Reg → Regs → Regs
  | [], g => g
  | r :: t, g => takeRegs vals t (g.set r (vals.get r))

/-- Soft-reset completion (60 R521, 20 R106, 70 R601; log 18): SOFTRST_SET takes the drawn values, SOFTRST is
cleared, the lock and every move-in end, and FIFOQ restarts when MCR is in SOFTRST_SET. -/
def softResetDone (vals : Regs) (s : State) : State :=
  let g := takeRegs vals s.par.softrstSet s.regs
  { s with
    regs := { g with mcr := g.mcr &&& ~~~ oneBit 25 }
    lock := none
    moveIn := Vector.replicate 32 none
    fifoq := if s.par.softrstSet.contains .mcr then [] else s.fifoq }

/-- Mailbox i is in the FIFO region (10 R47). -/
def inFifoRegion (i : Nat) (g : Regs) : Bool := getBit .rfen g.mcr && decide (i < fifoOcc (rffnOf g.ctrl2))

/-- Mailbox i holds filter words of the FIFO (42 R307), which HW never writes (60 R527; log 17). -/
def inFilterRegion (i : Nat) (g : Regs) : Bool := inFifoRegion i g && decide (6 ≤ i)

/-- A transfer under way may complete: Normal, and FreezePending (60 R519, R523). -/
def mayComplete (s : State) : Bool := decide (s.mode = .normal) || decide (s.mode = .freezePending)

/-- The conditions of MI1(i) (60 R522). -/
def mayMoveIn (i : Nat) (s : State) : Bool :=
  decide (s.mode = .normal) && decide (i < Config.nmbHw) && decide (i ≤ maxMb s.regs) && !inFifoRegion i s.regs
    && rxCode (codeOf (s.regs.get (.mb i .cs))) && decide (s.lock ≠ some i)

/-- MI1(i) (60 R522). Where the core has rewritten CS during a move-in, a second MI1 goes on with it: what the core
wrote since the first stays noted (log 17). -/
def moveIn1 (i : Nat) (s : State) : State :=
  let cs := s.regs.get (.mb i .cs)
  { s with
    regs := s.regs.set (.mb i .cs) (cs ||| oneBit 24)
    moveIn := bankSet s.moveIn i (some { (bankGet s.moveIn i).getD default with prev := codeOf cs }) }

/-- The conditions of MI2(i) beside a move-in in progress (60 R519, R522, R527; log 17). -/
def mayMoveIn2 (i : Nat) (s : State) : Bool := mayComplete s && !inFilterRegion i s.regs

/-- Write a mailbox word; a draw when `hidden`. -/
def hwWriteMb (i : Nat) (k : MbWord) (hidden : Bool) (w : Word) (s : State) : State :=
  let d := readOrDraw hidden w s
  { d.2 with regs := d.2.regs.set (.mb i k) d.1 }

/-- The code MI2 leaves (60 R522). -/
def codeAfter (prev : BitVec 4) : BitVec 4 := if prev = Config.rxEmpty then Config.rxFull else Config.rxOverrun

/-- Set IFLAG1[i], unless i is above MAXMB (60 R522, R527; log 17). Bit 5 is set for mailbox 5 with RFEN = 1 too, where it
is FIFO_AVAIL (10 R42; log 38). -/
def flagMb (i : Nat) (s : State) : State := if i ≤ maxMb s.regs then setBits .iflag1 (oneBit i) s else s

/-- MI2(i, f) with the drawn time stamp `ts` (60 R522); a word the core wrote since MI1 is a draw (70 R620). -/
def moveIn2 (i : Nat) (f : Frame) (ts : Stamp) (m : MoveIn) (s : State) : State :=
  let s1 := hwWriteMb i .id m.wroteId (frameIdWord f) s
  let s2 := hwWriteMb i .data0 m.wroteData0 (packData0 s.par.payloadOrder f.payload) s1
  let s3 := hwWriteMb i .data1 m.wroteData1 (packData1 s.par.payloadOrder f.payload) s2
  let s4 := hwWriteMb i .cs m.wroteCs (rxCs (codeAfter m.prev) f ts) s3
  flagMb i { s4 with moveIn := bankSet s4.moveIn i none }

/-- The conditions of TX(i) (60 R523); a filter word of the FIFO is none of HW's, whatever its bits read (60 R527). -/
def mayTransmit (i : Nat) (s : State) : Bool :=
  mayComplete s && decide (i < Config.nmbHw) && decide (i ≤ maxMb s.regs) && !inFilterRegion i s.regs
    && decide (codeOf (s.regs.get (.mb i .cs)) = Config.txData)

/-- The CS word TX(i) leaves: the code by RTR, the drawn time stamp, the other fields as they were (60 R523). -/
def txDoneCs (cs : Word) (ts : Stamp) : Word :=
  let code : BitVec 4 := if rtrOf cs then Config.rxEmpty else Config.txInactive
  (cs &&& ~~~ (fieldMask .code ||| 0xFFFF)) ||| (code.setWidth 32 <<< 24) ||| ts.setWidth 32

/-- TX(i) (60 R523). It sets IFLAG1[i] whatever i is, so TX(5) sets FIFO_AVAIL with RFEN = 1 (10 R42; log 38). -/
def transmit (i : Nat) (ts : Stamp) (s : State) : State :=
  setBits .iflag1 (oneBit i) { s with regs := s.regs.set (.mb i .cs) (txDoneCs (s.regs.get (.mb i .cs)) ts) }

/-- The FIFO is running (60 R524). -/
def fifoRuns (s : State) : Bool := decide (s.mode = .normal) && getBit .rfen s.regs.mcr

/-- FA(f, h) (60 R524; log 27). -/
def fifoAppend (f : Frame) (h : Nat) (s : State) : State :=
  let t := { s with fifoq := s.fifoq ++ [⟨f, h⟩] }
  if t.fifoq.length = s.par.fifoWarnLevel then setBits .iflag1 (oneBit Config.fifoWarn) t else t

/-- FH (60 R524): the head is shown in MB[0] and RXFIR.IDHIT. -/
def showHead (e : FifoEntry) (s : State) : State :=
  let g := s.regs.set (.mb 0 .cs) (rxCs Config.rxFull e.frame e.frame.timestamp)
  let g := g.set (.mb 0 .id) (frameIdWord e.frame)
  let g := g.set (.mb 0 .data0) (packData0 s.par.payloadOrder e.frame.payload)
  let g := g.set (.mb 0 .data1) (packData1 s.par.payloadOrder e.frame.payload)
  let g := g.set .rxfir (putField .idhit (BitVec.ofNat 32 e.hit) g.rxfir)
  setBits .iflag1 (oneBit Config.fifoAvail) { s with regs := g }

/-- The ESR flags HW may set (60 R525): the warnings only when WRNEN is 1. -/
def mayRaise (mcr : Word) : Word :=
  oneBit 0 ||| oneBit 1 ||| oneBit 2 ||| (if getBit .wrnen mcr then oneBit 16 ||| oneBit 17 else 0)

/-- The ESR bits HW may change freely: FLTCONF and the six error bits (60 R525). -/
def esrFree : Word := fieldMask .fltconf ||| fieldMask .errbits

/-- One step of HW (60 R520). The ESR flags and error bits change in every mode (60 R525; log 37). -/
def hwStep (h : HwMove) (s : State) : State :=
  match h with
  | .setLpmack => allow (getBit .mdis s.regs.mcr) (setBits .mcr (oneBit 20)) s
  | .clearLpmack => allow (!getBit .mdis s.regs.mcr) (clearBits .mcr (oneBit 20)) s
  | .setFrzack =>
    allow (decide (s.mode = .freezePending) && !getBit .mdis s.regs.mcr) (setBits .mcr (oneBit 24)) s
  | .clearFrzack =>
    allow (decide (s.mode = .frozen) && !(getBit .frz s.regs.mcr && getBit .halt s.regs.mcr)
      && !getBit .mdis s.regs.mcr) (clearBits .mcr (oneBit 24)) s
  | .softReset vals => allow (getBit .softrst s.regs.mcr) (softResetDone vals) s
  | .moveIn1 i => allow (mayMoveIn i s) (moveIn1 i) s
  | .moveIn2 i f ts =>
    match bankGet s.moveIn i with
    | some m => allow (mayMoveIn2 i s && frameFits f) (moveIn2 i f ts m) s
    | none => s
  | .transmit i ts => allow (mayTransmit i s) (transmit i ts) s
  | .fifoAppend f h =>
    allow (fifoRuns s && frameFits f && decide (s.fifoq.length < s.par.fifoDepth)
      && decide (h < 8 * (rffnOf s.regs.ctrl2 + 1)))
      (fifoAppend f h) s
  | .fifoOverflow =>
    allow (fifoRuns s && decide (s.fifoq.length = s.par.fifoDepth)) (setBits .iflag1 (oneBit Config.fifoOvf)) s
  | .fifoHead =>
    match s.fifoq with
    | e :: _ => allow (fifoRuns s && !fifoAvail s.regs && decide (s.lock ≠ some 0)) (showHead e) s
    | [] => s
  | .raise m => setBits .esr (m &&& mayRaise s.regs.mcr) s
  | .errorState v => { s with regs := { s.regs with esr := (s.regs.esr &&& ~~~ esrFree) ||| (v &&& esrFree) } }
  | .timer t => { s with regs := { s.regs with timer := t } }
  | .dbg w => { s with regs := { s.regs with dbg := w } }

/-! ## Duties (40 R207, 60 R528) -/

/-- What HW must do eventually: the last column of 40 R207, and the end of a move-in (60 R528). -/
inductive Duty where
  | setLpmack
  | clearLpmack
  | softReset
  | moveIn (i : Nat)
  | setFrzack
  | clearFrzack
  deriving DecidableEq, Repr

/-- HW owes the duty in the state: its move is allowed, and for FRZACK's setting ESR does not show bus-off (40 R207,
R208). A duty owed for ever is one HW has not met. -/
def owes (s : State) (d : Duty) : Bool :=
  match d with
  | .setLpmack => getBit .mdis s.regs.mcr && !getBit .lpmack s.regs.mcr
  | .clearLpmack => getBit .lpmack s.regs.mcr && !getBit .mdis s.regs.mcr
  | .softReset => getBit .softrst s.regs.mcr
  | .moveIn i => (bankGet s.moveIn i).isSome && mayMoveIn2 i s
  | .setFrzack => decide (s.mode = .freezePending) && !getBit .mdis s.regs.mcr && !busOff s.regs.esr
  | .clearFrzack =>
    decide (s.mode = .frozen) && !(getBit .frz s.regs.mcr && getBit .halt s.regs.mcr) && !getBit .mdis s.regs.mcr

/-- The duties, in the order in which a quiet schedule has HW meet them (log 26). -/
def duties : List Duty :=
  [.setLpmack, .clearLpmack, .softReset] ++ (List.range Config.nmbHw).map .moveIn ++ [.setFrzack, .clearFrzack]

/-- The first duty HW owes. -/
def dueDuty (s : State) : Option Duty := duties.find? (owes s)

/-- HW meets a duty: the move of 60 R521 or R522, what it chooses freely being drawn (log 26). -/
def fulfil (d : Duty) (s : State) : State :=
  match d with
  | .setLpmack => hwStep .setLpmack s
  | .clearLpmack => hwStep .clearLpmack s
  | .softReset =>
    let t := scramble s.par.softrstSet s
    hwStep (.softReset t.regs) { s with draws := t.draws }
  | .moveIn i =>
    let d := drawFrame s
    hwStep (.moveIn2 i d.1 d.1.timestamp) d.2
  | .setFrzack => hwStep .setFrzack s
  | .clearFrzack => hwStep .clearFrzack s

/-- HW meets the first duty it owes, if any. -/
def meetDuty (s : State) : State :=
  match dueDuty s with
  | some d => fulfil d s
  | none => s

end Sys2Proof.Machine
end

