-- ==== Sys2Proof/Machine/Sched.lean ====
section
/-! DEFINITION. Micro-steps and the interleaving of FG, ISR, HW and the host (60 R510-R516, R530): what one
micro-step does, one turn of the schedule, a burst of turns, the issue of a command (30 R143, R146). -/

namespace Sys2Proof.Machine

/-- One micro-step of an agent: the micro-steps computed from it, which come first, and the state after. -/
def micro (m : Micro) (s : State) : List Micro × State :=
  match m with
  | .read r k => let d := readReg r s; (afterRead s.par k d.1, d.2)
  | .write r w => ([], writeReg r w s)
  | .modify r fs old => ([], writeFields r fs old s)
  | .poll r f v budget k =>
    let d := readReg r s
    if getBit f d.1 = v then (afterPoll s.par k true, d.2)
    else match budget with
      | none => ([.poll r f v none k], d.2)
      | some n => if n ≤ 1 then (afterPoll s.par k false, d.2) else ([.poll r f v (some (n - 1)) k], d.2)
  | .enterWindow k =>
    let d := readReg .imask1 { s with fg := { s.fg with window := true } }
    (afterRead s.par k d.1, d.2)
  | .leaveWindow m => ([], writeReg .imask1 m { s with fg := { s.fg with window := false } })
  | .overwrite r => ([], overwrite r s)
  | .scramble rs => ([], scramble rs s)
  | .readState k a => (afterState a (s.handle.state k), s)
  | .writeState k v => ([], { s with handle := s.handle.setState k v })
  | .readBuf k a => (afterBuf a (s.handle.buf k), s)
  | .writeBuf k b => ([], { s with handle := s.handle.setBuf k b })
  | .writeStamp i t => ([], { s with handle := s.handle.setStamp i t })
  | .writeCallback cb ctx => ([], { s with handle := { s.handle with callback := cb, context := ctx } })
  | .setCreated => ([], { s with handle := { s.handle with created := true } })
  | .readFrame r a => let d := takeFrame (readFrame r s) s; (afterFrame a d.1, d.2)
  | .writeFrame r f => ([], writeFrame r f s)
  | .stampFrame r t => ([], writeFrame r { readFrame r s with timestamp := t } s)
  | .callback st res =>
    ([], match s.handle.callback with
      | some _ => emit (.cb st res s.handle.context) s
      | none => s)
  | .ret r => ([], fgReturn r s)
  | .retNoTiming =>
    ([], fgReturn (.timing false (Config.freeTiming s.draws)) { s with draws := s.draws + 1 })
  | .isrReturn => ([], isrReturn s)

/-- FG's next micro-step (60 R530). -/
def fgStep (s : State) : State :=
  match s.fg.code with
  | [] => { s with fg := { s.fg with op := none } }
  | m :: rest =>
    let r := micro m { s with fg := { s.fg with code := rest } }
    { r.2 with fg := { r.2.fg with code := r.1 ++ r.2.fg.code } }

/-- ISR's next micro-step (60 R530). -/
def isrStep (s : State) : State :=
  match s.isr.code with
  | [] => isrReturn s
  | m :: rest =>
    let r := micro m { s with isr := { s.isr with code := rest } }
    { r.2 with isr := { r.2.isr with code := r.1 ++ r.2.isr.code } }

/-- The micro-step of the agent that can take one: ISR while it is active, FG otherwise (60 R511). -/
def agentStep (s : State) : State := if s.isr.active then isrStep s else fgStep s

/-- FG is between operations and ISR is not active: the host may issue (30 R143). -/
def idle (s : State) : Bool := s.fg.op.isNone && !s.isr.active

/-- No agent goes on by itself: idle, or refused (10 R34). -/
def atRest (s : State) : Bool := idle s || s.refused.isSome

/-- A micro-step is an unbounded poll whose condition is false: taking it changes nothing. -/
def spins (m : Micro) (s : State) : Bool :=
  match m with
  | .poll r f v none _ => getBit f (readReg r s).1 != v
  | _ => false

/-- The pending micro-steps of the agent that can take one. -/
def activeCode (s : State) : List Micro := if s.isr.active then s.isr.code else s.fg.code

/-- The active agent spins at an unbounded poll (70 R615): only HW can end it. -/
def waiting (s : State) : Bool :=
  match activeCode s with
  | m :: _ => spins m s
  | [] => false

/-- One turn of the schedule (60 R530). -/
def tick (m : Move) (s : State) : State :=
  match m with
  | .fg => if s.isr.active || s.fg.op.isNone then s else fgStep s
  | .isr => if s.isr.active then isrStep s else if isrReady s then isrStart s else s
  | .hw h => hwStep h s
  | .hostFrame r f => writeFrame r f s
  | .access off size => if badAccess off size then refuse .misaligned s else s
  | .yield => s

/-- The next turn of the schedule and the state without it: of the listed turns, then of what follows them (log 4). -/
def nextTurn (s : State) : Option (Move × State) :=
  match s.sched with
  | m :: rest => some (m, { s with sched := rest })
  | [] =>
    match s.supply with
    | .quiet => none
    | .cycle [] => none
    | .cycle (m :: rest) => some (m, { s with sched := rest })
    | .free n => some (Config.freeMove n, { s with supply := .free (n + 1) })

/-- The turn taken when no turn of the schedule is left: the active agent's, and where it spins HW's, which meets what
it owes (40 R207, 60 R528; log 26). -/
def aloneTurn (s : State) : State := if waiting s then meetDuty s else agentStep s

/-- Nothing more happens in this burst: no agent goes on by itself, or the active one spins with nothing left in the
schedule and nothing owed by HW (log 4). -/
def halted (s : State) : Bool := atRest s || ((nextTurn s).isNone && waiting s && (dueDuty s).isNone)

/-- Turns until nothing more happens, or the schedule asks for a boundary (log 4). -/
def burst : Nat → State → State
  | 0, s => s
  | n + 1, s =>
    if halted s then s
    else match nextTurn s with
      | none => burst n (aloneTurn s)
      | some (.yield, t) => t
      | some (m, t) => burst n (tick m t)

/-- Turns enough for every operation with nothing left in the schedule; an operation that takes more goes on in the next
step (log 4). -/
def runFuel (s : State) : Nat := 8192 + 4 * s.par.frzTimeout + s.sched.length

/-- FG begins an operation (30 R143). -/
def begin (i : Instr) (code : List Micro) (s : State) : State :=
  { s with fg := { s.fg with op := some i, code := code, window := false } }

/-- Issue a command (30 R143, R146): refused with the first broken precondition, or FG begins its
pseudocode and runs. -/
def issue (i : Instr) (bad : Option Reason) (code : List Micro) (s : State) : Host.Outcome State Fault Refusal :=
  match s.refused with
  | some r => .fault (.stuck r)
  | none =>
    if idle s then
      match bad with
      | some r => .next (refuse r s)
      | none => .next (burst (runFuel s) (begin i code s))
    else .fault .notIdle

end Sys2Proof.Machine
end

