-- ==== Sys2Proof/Machine/Freeze.lean ====
section
/-! DEFINITION. The freeze family: ENTER_FREEZE, EXIT_FREEZE, RESET (40_freeze_reset.md). Each meaning is the
issue of the command (30 R143, R146): its Requires, and its pseudocode up to its return. -/

namespace Sys2Proof.Machine

/-- ENTER_FREEZE (40 R201-R204): no Requires. -/
def execEnterFreeze (s : State) : Host.Outcome State Fault Refusal :=
  issue .enterFreeze none (enterFreezeBody s.par ++ [.ret .unit]) s

/-- EXIT_FREEZE (40 R205): no Requires. -/
def execExitFreeze (s : State) : Host.Outcome State Fault Refusal :=
  issue .exitFreeze none (exitFreezeBody ++ [.ret .unit]) s

/-- RESET (40 R206): ResetInLowPower, ResetWhileArmed. -/
def execReset (s : State) : Host.Outcome State Fault Refusal :=
  issue .reset (firstBroken [needAwake s, needDisarmed s]) (resetBody s.par ++ [.ret .unit]) s

end Sys2Proof.Machine
end

