-- ==== Sys2Proof/Machine/HandleCalls.lean ====
section
/-! DEFINITION. The Handle family: CREATE_HANDLE, the arm calls and the aborts (44_handle.md). -/

namespace Sys2Proof.Machine

/-- CREATE_HANDLE (44 R381): MissingOperand, HandleArmed. -/
def execCreateHandle (s : State) : Host.Outcome State Fault Refusal :=
  let o := s.fg.opnd
  issue .createHandle
    (firstBroken [needOperand o.callback, needOperand o.context, (s.handle.created && s.handle.armed, .handleArmed)])
    (createHandleBody o.callbackV o.contextV ++ [.ret .unit]) s

/-- SEND_NB (44 R382): NoHandle, OutOfRange, MissingOperand, InvalidFrame. -/
def execSendNb (idx : Nat) (s : State) : Host.Outcome State Fault Refusal :=
  let o := s.fg.opnd
  issue (.sendNb idx) (firstBroken [needHandle s, needIdx idx s, needOperand o.frame, needFrame o.frameV s])
    [.readState (.mb idx) (.sn1 idx o.frameV)] s

/-- RECEIVE_NB (44 R383): NoHandle, OutOfRange, MissingOperand. -/
def execReceiveNb (idx : Nat) (s : State) : Host.Outcome State Fault Refusal :=
  let o := s.fg.opnd
  issue (.receiveNb idx) (firstBroken [needHandle s, needIdx idx s, needOperand o.frame])
    [.readState (.mb idx) (.rn1 idx o.frameV)] s

/-- RECEIVE_FIFO_NB (44 R384): NoHandle, MissingOperand. -/
def execReceiveFifoNb (s : State) : Host.Outcome State Fault Refusal :=
  let o := s.fg.opnd
  issue .receiveFifoNb (firstBroken [needHandle s, needOperand o.frame]) [.readState .fifo (.fn1 o.frameV)] s

/-- ABORT_SEND (44 R385): NoHandle, OutOfRange. -/
def execAbortSend (idx : Nat) (s : State) : Host.Outcome State Fault Refusal :=
  issue (.abortSend idx) (firstBroken [needHandle s, needIdx idx s]) (abortSendBody idx ++ [.ret .unit]) s

/-- ABORT_RECEIVE (44 R386): NoHandle, OutOfRange. -/
def execAbortReceive (idx : Nat) (s : State) : Host.Outcome State Fault Refusal :=
  issue (.abortReceive idx) (firstBroken [needHandle s, needIdx idx s]) (abortReceiveBody idx ++ [.ret .unit]) s

/-- ABORT_RECEIVE_FIFO (44 R387): NoHandle. -/
def execAbortReceiveFifo (s : State) : Host.Outcome State Fault Refusal :=
  issue .abortReceiveFifo (firstBroken [needHandle s]) (abortFifoBody ++ [.ret .unit]) s

end Sys2Proof.Machine
end

