-- ==== Sys2Proof/Machine/Irq.lean ====
section
/-! DEFINITION. HANDLE_IRQ (45_dispatcher.md). Its pseudocode runs on ISR after an ISR start (60 R510,
Ops.isrStart); the word issued by the host to FG is refused as IsrOnly (30 R143, Fetch.issueWord). -/

namespace Sys2Proof.Machine

/-- HANDLE_IRQ (45 R420): the dispatcher starts on ISR, where 60 R510 lets it, and runs. It is ISR's instruction: what
the host issues is refused before it gets here (log 28). -/
def execHandleIrq (s : State) : Host.Outcome State Fault Refusal :=
  match s.refused with
  | some r => .fault (.stuck r)
  | none => if isrReady s then .next (burst (runFuel s) (isrStart s)) else .fault .noIsrStart

end Sys2Proof.Machine
end

