-- ==== Sys2Proof/Machine/MbConfig.lean ====
section
/-! DEFINITION. The mailbox family and the module set-up (42_mb_config.md). -/

namespace Sys2Proof.Machine

/-- SET_TX_MB_CONFIG (42 R300): OutOfRange. -/
def execSetTxMbConfig (idx : Nat) (en : Bool) (s : State) : Host.Outcome State Fault Refusal :=
  issue (.setTxMbConfig idx en) (firstBroken [needIdx idx s]) (txMbBody idx en ++ [.ret .unit]) s

/-- SET_RX_MB_CONFIG (42 R301): OutOfRange, MissingOperand when enabling. -/
def execSetRxMbConfig (idx : Nat) (en : Bool) (s : State) : Host.Outcome State Fault Refusal :=
  let o := s.fg.opnd
  issue (.setRxMbConfig idx en) (firstBroken [needIdx idx s, (en && o.rxcfg.isNone, .missingOperand)])
    (rxMbBody idx en o.rxcfgV ++ [.ret .unit]) s

/-- SET_RX_FIFO_CONFIG (42 R304-R307): MissingOperand when enabling (before NotFrozen, 60 R504; log 13),
NotFrozen, InvalidFifoConfig. -/
def execSetRxFifoConfig (en : Bool) (s : State) : Host.Outcome State Fault Refusal :=
  let o := s.fg.opnd
  issue (.setRxFifoConfig en)
    (firstBroken [(en && o.fifocfg.isNone, .missingOperand), needFrozen s,
      (en && !fifoFits o.fifocfgV s.regs, .invalidFifoConfig)])
    (gated s.par (fifoBody en o.fifocfgV) ++ [.ret .unit]) s

/-- SET_RX_MB_GLOBAL_MASK (42 R308): MissingOperand, NotFrozen. -/
def execSetRxMbGlobalMask (s : State) : Host.Outcome State Fault Refusal :=
  let o := s.fg.opnd
  issue .setRxMbGlobalMask (firstBroken [needOperand o.mask, needFrozen s])
    (gated s.par (globalMaskBody o.maskV) ++ [.ret .unit]) s

/-- SET_RX_FIFO_GLOBAL_MASK (42 R309): MissingOperand, NotFrozen. -/
def execSetRxFifoGlobalMask (s : State) : Host.Outcome State Fault Refusal :=
  let o := s.fg.opnd
  issue .setRxFifoGlobalMask (firstBroken [needOperand o.mask, needFrozen s])
    (gated s.par [.write .rxfgmask o.maskV] ++ [.ret .unit]) s

/-- SET_RX_INDIVIDUAL_MASK (42 R310): OutOfRange above MAXMB, MissingOperand, NotFrozen, OutOfRange from NRXIMR. -/
def execSetRxIndividualMask (idx : Nat) (s : State) : Host.Outcome State Fault Refusal :=
  let o := s.fg.opnd
  issue (.setRxIndividualMask idx)
    (firstBroken [needIdx idx s, needOperand o.mask, needFrozen s, (decide (s.par.nrximr ≤ idx), .outOfRange)])
    (gated s.par [.write (.rximr idx) o.maskV] ++ [.ret .unit]) s

/-- GET_DEFAULT_CONFIG (42 R311): no Requires, no access. -/
def execGetDefaultConfig (s : State) : Host.Outcome State Fault Refusal :=
  issue .getDefaultConfig none [.ret (.config (defaultConfig s.par))] s

/-- The reference configuration where the operand is absent; never used, since the issue is refused then. -/
def configOf (s : State) : ModuleConfig := s.fg.opnd.config.getD (defaultConfig s.par)

/-- INIT (42 R312): MissingOperand, InvalidConfig, InvalidTimingInput, InvalidConfig, ResetWhileArmed. -/
def execInit (s : State) : Host.Outcome State Fault Refusal :=
  let o := s.fg.opnd
  let c := configOf s
  let b := tableSearch s.par.tqTable c.baudRate.toNat o.clkV.toNat
  issue .init
    (firstBroken [needOperand o.config, needOperand o.clk,
      (decide (c.maxMbNum < 1) || decide (Config.nmbHw < c.maxMbNum), .invalidConfig),
      needTimingInput c.baudRate o.clkV,
      (decide (Config.rjwMax < c.timingConfig.rJumpWidth), .invalidConfig), needDisarmed s])
    (initBody s.par c b ++ [.ret (.found b.found)]) s

/-- DEINIT (42 R313): ResetInLowPower, ResetWhileArmed. -/
def execDeinit (s : State) : Host.Outcome State Fault Refusal :=
  issue .deinit (firstBroken [needAwake s, needDisarmed s]) (deinitBody s.par ++ [.ret .unit]) s

end Sys2Proof.Machine
end

