-- ==== Sys2Proof/Machine/Timing.lean ====
section
/-! DEFINITION. The timing family: SET_BAUD_RATE, CALC_IMPROVED_TIMING, SET_TIMING_CONFIG (41_bit_timing.md). -/

namespace Sys2Proof.Machine

/-- SET_BAUD_RATE (41 R254-R256): MissingOperand, InvalidTimingInput, NotFrozen. -/
def execSetBaudRate (s : State) : Host.Outcome State Fault Refusal :=
  let o := s.fg.opnd
  let b := tableSearch s.par.tqTable o.baudV.toNat o.clkV.toNat
  issue .setBaudRate
    (firstBroken [needOperand o.baud, needOperand o.clk, needTimingInput o.baudV o.clkV, needFrozen s])
    (gated s.par (baudBody b) ++ [.ret (.found b.found)]) s

/-- CALC_IMPROVED_TIMING (41 R258-R261): MissingOperand, InvalidTimingInput. -/
def execCalcImprovedTiming (s : State) : Host.Outcome State Fault Refusal :=
  let o := s.fg.opnd
  issue .calcImprovedTiming
    (firstBroken [needOperand o.baud, needOperand o.clk, needTimingInput o.baudV o.clkV])
    (improvedBody s.par o.baudV.toNat o.clkV.toNat) s

/-- SET_TIMING_CONFIG (41 R262): MissingOperand, InvalidTimingConfig, NotFrozen. -/
def execSetTimingConfig (s : State) : Host.Outcome State Fault Refusal :=
  let o := s.fg.opnd
  issue .setTimingConfig
    (firstBroken [needOperand o.cfg, (!o.cfgV.wf, .invalidTimingConfig), needFrozen s])
    (gated s.par (timingBody o.cfgV) ++ [.ret .unit]) s

end Sys2Proof.Machine
end

