-- ==== Sys2Proof/Machine/Transfer.lean ====
section
/-! DEFINITION. The transfer family (43_transfer_engine.md). -/

namespace Sys2Proof.Machine

/-- The checks of a write: OutOfRange, MissingOperand, InvalidFrame (43 R340). -/
def writeChecks (idx : Nat) (s : State) : List Check :=
  [needIdx idx s, needOperand s.fg.opnd.frame, needFrame s.fg.opnd.frameV s]

/-- The checks of a read: OutOfRange, MissingOperand (43 R343). -/
def readChecks (idx : Nat) (s : State) : List Check := [needIdx idx s, needOperand s.fg.opnd.out]

/-- WRITE_TX_MB (43 R340-R342). -/
def execWriteTxMb (idx : Nat) (s : State) : Host.Outcome State Fault Refusal :=
  issue (.writeTxMb idx) (firstBroken (writeChecks idx s)) (writeTxBody idx s.fg.opnd.frameV .own) s

/-- READ_RX_MB (43 R343). -/
def execReadRxMb (idx : Nat) (s : State) : Host.Outcome State Fault Refusal :=
  issue (.readRxMb idx) (firstBroken (readChecks idx s)) (readRxBody idx (some s.fg.opnd.outV) .own) s

/-- READ_RX_FIFO (43 R344): MissingOperand. -/
def execReadRxFifo (s : State) : Host.Outcome State Fault Refusal :=
  issue .readRxFifo (firstBroken [needOperand s.fg.opnd.out]) (readFifoBody (some s.fg.opnd.outV) .own) s

/-- SEND_BLOCKING (43 R345): as WRITE_TX_MB. -/
def execSendBlocking (idx : Nat) (s : State) : Host.Outcome State Fault Refusal :=
  issue (.sendBlocking idx) (firstBroken (writeChecks idx s))
    (writeTxBody idx s.fg.opnd.frameV (.sendBlocking s.fg.opnd.frameV)) s

/-- RECEIVE_BLOCKING (43 R346): as READ_RX_MB. -/
def execReceiveBlocking (idx : Nat) (s : State) : Host.Outcome State Fault Refusal :=
  issue (.receiveBlocking idx) (firstBroken (readChecks idx s))
    ([.poll .iflag1 (Field.ofBit idx) true none .done, .write .iflag1 (oneBit idx)]
      ++ readRxBody idx (some s.fg.opnd.outV) .own) s

/-- RECEIVE_FIFO_BLOCKING (43 R347): as READ_RX_FIFO. -/
def execReceiveFifoBlocking (s : State) : Host.Outcome State Fault Refusal :=
  issue .receiveFifoBlocking (firstBroken [needOperand s.fg.opnd.out])
    (.poll .iflag1 (Field.ofBit Config.fifoAvail) true none .done :: readFifoBody (some s.fg.opnd.outV) .blocking) s

end Sys2Proof.Machine
end

