-- ==== Sys2Proof/Machine/Dispatch.lean ====
section
/-! DEFINITION. Dispatch: one arm per command of the opcode map (30_encoding.md R145). -/

namespace Sys2Proof.Machine

def exec (i : Instr) (s : State) : Host.Outcome State Fault Refusal :=
  match i with
  | .enterFreeze => Sys2Proof.Machine.execEnterFreeze s
  | .exitFreeze => Sys2Proof.Machine.execExitFreeze s
  | .reset => Sys2Proof.Machine.execReset s
  | .setBaudRate => Sys2Proof.Machine.execSetBaudRate s
  | .calcImprovedTiming => Sys2Proof.Machine.execCalcImprovedTiming s
  | .setTimingConfig => Sys2Proof.Machine.execSetTimingConfig s
  | .setTxMbConfig idx en => Sys2Proof.Machine.execSetTxMbConfig idx en s
  | .setRxMbConfig idx en => Sys2Proof.Machine.execSetRxMbConfig idx en s
  | .setRxFifoConfig en => Sys2Proof.Machine.execSetRxFifoConfig en s
  | .setRxMbGlobalMask => Sys2Proof.Machine.execSetRxMbGlobalMask s
  | .setRxFifoGlobalMask => Sys2Proof.Machine.execSetRxFifoGlobalMask s
  | .setRxIndividualMask idx => Sys2Proof.Machine.execSetRxIndividualMask idx s
  | .getDefaultConfig => Sys2Proof.Machine.execGetDefaultConfig s
  | .init => Sys2Proof.Machine.execInit s
  | .deinit => Sys2Proof.Machine.execDeinit s
  | .writeTxMb idx => Sys2Proof.Machine.execWriteTxMb idx s
  | .readRxMb idx => Sys2Proof.Machine.execReadRxMb idx s
  | .readRxFifo => Sys2Proof.Machine.execReadRxFifo s
  | .sendBlocking idx => Sys2Proof.Machine.execSendBlocking idx s
  | .receiveBlocking idx => Sys2Proof.Machine.execReceiveBlocking idx s
  | .receiveFifoBlocking => Sys2Proof.Machine.execReceiveFifoBlocking s
  | .createHandle => Sys2Proof.Machine.execCreateHandle s
  | .sendNb idx => Sys2Proof.Machine.execSendNb idx s
  | .receiveNb idx => Sys2Proof.Machine.execReceiveNb idx s
  | .receiveFifoNb => Sys2Proof.Machine.execReceiveFifoNb s
  | .abortSend idx => Sys2Proof.Machine.execAbortSend idx s
  | .abortReceive idx => Sys2Proof.Machine.execAbortReceive idx s
  | .abortReceiveFifo => Sys2Proof.Machine.execAbortReceiveFifo s
  | .handleIrq => Sys2Proof.Machine.execHandleIrq s

end Sys2Proof.Machine
end

