-- ==== Sys2Proof/Machine/Fetch.lean ====
section
/-! DEFINITION. The host's issue (30 R143): taking the next command of the host's program, decoding its word
(30 R144), and one step of the whole machine (60 R530). -/

namespace Sys2Proof.Machine

/-- Take the operands of the host's next command: the command leaves the program and its operand record is
recorded (30 R143). -/
def takeCommand (c : Command) (rest : List Command) (s : State) : State :=
  { s with program := rest, fg := { s.fg with opnd := c.opnd } }

/-- The issue of a command word (30 R143, 60 R504): refused by name where it does not decode, as IsrOnly where it is
HANDLE_IRQ, which the host may not issue to FG in any state; else the command's meaning. -/
def issueWord (w : Word) (s : State) : Host.Outcome State Fault Refusal :=
  match decode w with
  | .ok i => if i = .handleIrq then .next (refuse .isrOnly s) else exec i s
  | .error r => .next (refuse r s)

/-- The host's turn: it issues the next command of its program; with none left nothing happens (60 R530). -/
def hostTurn (s : State) : Host.Outcome State Fault Refusal :=
  match s.program with
  | [] => .next s
  | c :: rest => issueWord c.word (takeCommand c rest s)

/-- A turn of the schedule while no operation is under way (60 R530): FG's is the host's, ISR's runs HANDLE_IRQ where
ISR may start. With no turn left the host issues its next command; with none of these either, HW meets what it owes
(60 R528; log 26). -/
def idleTurn (s : State) : Host.Outcome State Fault Refusal :=
  match nextTurn s with
  | none => if s.program.isEmpty then .next (meetDuty s) else hostTurn s
  | some (.fg, t) => hostTurn t
  | some (.isr, t) => if isrReady t then exec .handleIrq t else .next t
  | some (m, t) => .next (tick m t)

/-- One step of the machine (60 R530): none after a refusal (10 R34); the operation under way goes on, or a turn
of the schedule is taken. -/
def machineStep (s : State) : Host.Outcome State Fault Refusal :=
  match s.refused with
  | some r => .fault (.stuck r)
  | none => if idle s then idleTurn s else .next (burst (runFuel s) s)

/-- A full operand record: every operand a command may name (log 32). -/
def OpRec.full : OpRec where
  baud := some 500000
  clk := some 8000000
  cfg := some ⟨1, 2, 3, 3, 6⟩
  rxcfg := some ⟨0x123, .standard, .data⟩
  fifocfg := some ⟨[0, 0, 0, 0, 0, 0, 0, 0], 8, .a, .fifoFirst⟩
  mask := some 0
  config := some (defaultConfig Config.example)
  frame := some 0
  out := some 1
  callback := some (some 1)
  context := some 0

/-- The state with a command placed as the host's next one, and nothing before it: FG idle, ISR not active, no
refusal, no scheduled turn (log 5, 32). -/
def placeCommand (w : Word) (s : State) : State :=
  { s with
    program := ⟨w, OpRec.full⟩ :: s.program
    sched := []
    supply := .quiet
    refused := none
    fg := { s.fg with op := none, code := [], window := false }
    isr := { active := false, code := [] } }

end Sys2Proof.Machine
end

