-- ==== Sys2Proof/Safety.lean ====
section
/-! DEFINITION. The terms claims use: a state ready for a command, the state an operation leaves when it
returns, the invariant of the machine, the micro-steps the dispatcher may hold, a refusal. -/

namespace Sys2Proof.Machine

/-- FG may take a command, with the turns of `q` scheduled and none after them. -/
abbrev ReadyWith (q : List Move) (s : State) : Prop :=
  s.refused = none ∧ idle s = true ∧ s.sched = q ∧ s.supply = .quiet

/-- The host may issue (30 R143) and no turn is scheduled, so that the command runs alone (log 4). -/
abbrev Ready (s : State) : Prop := ReadyWith [] s

/-- The state an operation leaves at its `return` (10 R33, R57): RET is the last event, FG is idle, and `s` is
what the operation's accesses left. -/
def completed (i : Instr) (r : Ret) (s : State) : State :=
  { s with
    fg := { s.fg with op := none, code := [], window := false }
    trace := s.trace ++ [.ret i r] }

/-- The invariant every step keeps: the frame store is canonical, FIFOQ is within FIFO_DEPTH (10 R59) and holds frames
of length 0..8 (00 R23; log 35), an FG with no operation and an ISR that is not active have no pending micro-step (10 R32, R33). -/
abbrev Inv (s : State) : Prop :=
  Memory.wf s.frames = true ∧ s.fifoq.length ≤ s.par.fifoDepth
    ∧ (∀ e ∈ s.fifoq, e.frame.length ≤ 8) ∧ (s.fg.op = none → s.fg.code = []) ∧ (s.isr.active = false → s.isr.code = [])

/-! ## What the dispatcher may hold (45 R431) -/

/-- Registers the dispatcher may write: not MCR, CTRL1 or CTRL2, and of the mailboxes only a CS word (45 R431). -/
def isrWrites : Reg → Bool
  | .esr | .iflag1 | .imask1 => true
  | .mb _ .cs => true
  | _ => false

/-- Continuations of a read the dispatcher may hold. -/
def isrAfterRead : AfterRead → Bool
  | .modify r _ => decide (r = .imask1)
  | .rr1 _ _ k | .rr3 _ _ k _ | .rr4 _ _ k _ _ | .rr5 _ _ k _ _ _ | .rr6 _ _ k _ _ _ _ | .rr9 _ k => decide (k = .dispatcher)
  | .rf1 _ k | .rf3 _ k | .rf4 _ k _ | .rf5 _ k _ _ | .rf6 _ k _ _ _ | .rf7 _ k _ _ _ _ | .rf8 _ k _ _ _ _ _ =>
    decide (k = .dispatcher)
  | .as2 _ | .hi1 | .hi6 | .hi7 _ | .s1Flag _ | .s1Test _ _ | .s4 _ _ => true
  | .ef2 | .ef4 | .ea0 _ _ _ | .fd1 | .wt2 _ _ _ | .e1 _ _ _ | .e3 _ _ _ _ | .sk5 _ => false

/-- Micro-steps the dispatcher may hold (45 R420-R431). -/
def isrMicro : Micro → Bool
  | .read _ k => isrAfterRead k
  | .write r _ => isrWrites r
  | .modify r _ _ => decide (r = .imask1)
  | .readState _ k =>
    match k with
    | .s3 _ | .mv1 _ => true
    | .sn1 _ _ | .rn1 _ _ | .fn1 _ => false
  | .writeState k v => match k with
    | .mb _ => v == .idle || v == .rxRemote
    | .fifo => v == .idle
  | .readBuf _ _ | .writeBuf _ none | .writeStamp _ _ | .writeFrame _ _ | .callback _ _ | .isrReturn => true
  | .writeBuf _ (some _) | .poll _ _ _ _ _ | .enterWindow _ | .leaveWindow _ | .overwrite _ | .scramble _ | .writeCallback _ _
  | .setCreated | .readFrame _ _ | .stampFrame _ _ | .ret _ | .retNoTiming => false

/-- ISR holds only micro-steps of the dispatcher. -/
abbrev IsrSafe (s : State) : Prop := s.isr.code.all isrMicro = true

/-! ## Drain iterations (45 R421, R429) -/

/-- n micro-steps of ISR, with nothing in between. -/
def isrSteps : Nat → State → State
  | 0, s => s
  | n + 1, s => isrSteps n (isrStep s)

/-- ISR alone gets from the one state to the other. -/
abbrev IsrReaches (s t : State) : Prop := ∃ n, isrSteps n s = t

/-- ISR is at HI0, the start of an iteration. -/
abbrev AtHi0 (s : State) : Prop := s.isr = { active := true, code := [.read .esr .hi1] }

/-- The iteration that begins finds no ESR flag, and j is the lowest index pending (45 R429). -/
abbrev Resolves (j : Nat) (s : State) : Prop :=
  AtHi0 s ∧ s.regs.esr &&& esrFlags = 0 ∧ j < 32 ∧ (pend s.regs).getLsbD j = true
    ∧ ∀ k < j, (pend s.regs).getLsbD k = false

/-- Index j is an event of the FIFO (45 R423). -/
abbrev IsFifoEvent (j : Nat) (s : State) : Prop :=
  j < fifoOcc (rffnOf s.regs.ctrl2) ∧ s.handle.rxFifoState = .rxFifo

/-- The end of the iteration that reported (st, res): the callback's event is appended (45 R428), and ISR goes on at HI0
or to its return, by the loop test HI7. `s` is what the iteration's accesses left. -/
def iterated (st : Status) (res : Word) (s : State) : State :=
  { s with
    isr := { active := true, code := if pend s.regs ≠ 0 then [.read .esr .hi1] else [.isrReturn] }
    trace := if s.handle.callback.isSome then s.trace ++ [.cb st res s.handle.context] else s.trace }

/-- S5 of 45 R422: flag j is cleared; with the FIFO on, clearing FIFO_AVAIL removes the head (20 R106). -/
def flagCleared (j : Nat) (s : State) : State :=
  { s with
    regs := { s.regs with iflag1 := s.regs.iflag1 &&& ~~~ oneBit j }
    fifoq := if getBit .rfen s.regs.mcr = true ∧ j = 5 then s.fifoq.tail else s.fifoq }

/-- What the abort body of a receive leaves (44 R386). -/
def receiveAborted (j : Nat) (s : State) : State :=
  { s with
    regs := { s.regs with imask1 := s.regs.imask1 &&& ~~~ oneBit j }
    handle := (s.handle.setBuf (.mb j) none).setState (.mb j) .idle }

/-- What the abort body of the FIFO leaves (44 R387). -/
def fifoAborted (s : State) : State :=
  { s with
    regs := { s.regs with imask1 := s.regs.imask1 &&& ~~~ 0xE0 }
    handle := (s.handle.setBuf .fifo none).setState .fifo .idle }

/-- A frame read is stored where there is a slot for it (45 R424, R425). -/
def stored (ref : Option FrameRef) (f : Frame) (s : State) : State :=
  match ref with
  | some r => { s with frames := framesSet s.frames r f }
  | none => s

/-- The frame the four words of a mailbox hold (43 R341). -/
def frameAt (j : Nat) (s : State) : Frame :=
  frameOf s.par (s.regs.get (.mb j .cs)) (s.regs.get (.mb j .id)) (s.regs.get (.mb j .data0)) (s.regs.get (.mb j .data1))

/-! ## Refusals -/

/-- The command is refused with the reason: REFUSED is set and nothing else changes (00 R25, 10 R34). -/
abbrev Refuses (i : Instr) (r : Reason) (s : State) : Prop := exec i s = .next { s with refused := some r }

end Sys2Proof.Machine
end

