-- ==== Sys2Proof/Certificates/Slice0/Obligations.lean ====
section
/-! DEFINITION. The statements for the provers. A statement about a command says what `exec` answers when the host
issues it; "ready" is `Ready`: FG idle, ISR not active, nothing refused, no turn scheduled (log 4). -/

open Sys2Proof Sys2Proof.Machine

/-! ## Encoding (30) -/

/-- Every well-formed command's word decodes to the command (30 R140, R145, R148). -/
def Obligations.DecodeEncode : Prop := ∀ i : Instr, i.wf = true → decode (encode i) = .ok i

/-- A word that decodes is the word of the command it decodes to, and that command is well-formed (30 R144, R147). -/
def Obligations.EncodeDecode : Prop := ∀ (w : Word) (i : Instr), decode w = .ok i → encode i = w ∧ i.wf = true

/-- Words written out from 30 R145 and R148 (95 V7.1) decode to their commands. -/
def Obligations.DecodeWords : Prop :=
  decode 0x01000000 = .ok .enterFreeze ∧ decode 0x10000000 = .ok .setBaudRate
    ∧ decode 0x20090001 = .ok (.setTxMbConfig 9 true) ∧ decode 0x22000001 = .ok (.setRxFifoConfig true)
    ∧ decode 0x25020000 = .ok (.setRxIndividualMask 2) ∧ decode 0x33080000 = .ok (.sendBlocking 8)
    ∧ decode 0x41030000 = .ok (.sendNb 3) ∧ decode 0x50000000 = .ok .handleIrq

/-- The reserved encodings of 30 R147 are refused at decode. -/
def Obligations.ReservedRefused : Prop :=
  (∀ w : Word,
      (opcOf w = 0x00 ∨ (0x04 ≤ opcOf w ∧ opcOf w ≤ 0x0F) ∨ (0x13 ≤ opcOf w ∧ opcOf w ≤ 0x1F)
        ∨ (0x26 ≤ opcOf w ∧ opcOf w ≤ 0x27) ∨ (0x2B ≤ opcOf w ∧ opcOf w ≤ 0x2F) ∨ (0x36 ≤ opcOf w ∧ opcOf w ≤ 0x3F)
        ∨ (0x47 ≤ opcOf w ∧ opcOf w ≤ 0x4F) ∨ 0x51 ≤ opcOf w) →
      decode w = .error .illegalOpcode)
    ∧ (∀ w : Word, resOf w ≠ 0 → decode w = .error .illegalOpcode ∨ decode w = .error .reservedBits)
    ∧ (∀ (w : Word) (row : OpcRow), opcRow (opcOf w) = some row →
        ((row.takesIdx = false ∧ idxOf w ≠ 0) ∨ (row.takesEn = false ∧ enOf w = true)) →
        decode w = .error .reservedBits)

/-! ## The machine -/

/-- The next command of the program runs as `exec` of the command its word decodes to, with its operand record, but for
HANDLE_IRQ, which is ISR's (IrqIssueRefused); a word that does not decode is refused (30 R143, R144). The host's program
is the model's (log 5). -/
def Obligations.StepRunsDecoded : Prop :=
  ∀ (s : State) (c : Command) (rest : List Command), Ready s → s.program = c :: rest →
    (∀ i, decode c.word = .ok i → i ≠ .handleIrq →
      step s = exec i { s with program := rest, fg := { s.fg with opnd := c.opnd } })
    ∧ (∀ r, decode c.word = .error r →
      step s = .next { s with program := rest, fg := { s.fg with opnd := c.opnd }, refused := some r })

/-- A state with a refusal has no next state (10 R34). -/
def Obligations.RefusedIsStuck : Prop :=
  ∀ (s : State) (r : Reason), s.refused = some r →
    step s = .fault (.stuck r) ∧ ∀ (i : Instr), exec i s = .fault (.stuck r)

/-- Every step keeps the invariant: the frame store's canonical form is the model's (log 11), the bound of FIFOQ is 10 R59's,
the length of its frames 00 R23's (that HW's own frames keep it: log 35), and the two sequencers' follow 10 R32 and R33 (log 8). -/
def Obligations.StepKeepsInv : Prop := ∀ s t : State, Inv s → step s = .next t → Inv t

/-- Every step only appends to TRACE (10 R57), and keeps the parameters: the spec fixes a build's selections and TQ_TABLE
(00 R20, 40 R203, 20 R121); that every parameter stands in the state and no step writes it is the model's choice (log 3). -/
def Obligations.StepKeepsParams : Prop := ∀ s t : State, step s = .next t → t.par = s.par ∧ s.trace <+: t.trace

/-- The power-on state: the spec's values of 10 R63 and of LOCK and FIFOQ in 10 R62; and it has the invariant. -/
def Obligations.PowerOn : Prop :=
  Inv State.reset ∧ State.reset.fg.op = none ∧ State.reset.isr.active = false ∧ State.reset.refused = none ∧ State.reset.trace = []
    ∧ State.reset.handle.created = false ∧ State.reset.lock = none ∧ State.reset.fifoq = []

/-! ## Registers (10, 20) -/

/-- The lock: a read of MB[i].CS locks mailbox i, a read of TIMER unlocks, no other read changes the lock (20 R105);
while LOCK = Some i, MI1(i) does nothing, and while LOCK = Some 0 the FIFO head is not shown (10 R60). -/
def Obligations.Lock : Prop :=
  ∀ (s : State),
    (∀ i, (readReg (.mb i .cs) s).2.lock = some i) ∧ (readReg .timer s).2.lock = none
    ∧ (∀ r, (∀ i, r ≠ .mb i .cs) → r ≠ .timer → (readReg r s).2.lock = s.lock)
    ∧ (∀ i, s.lock = some i → hwStep (.moveIn1 i) s = s) ∧ (s.lock = some 0 → hwStep .fifoHead s = s)

/-- The write-one-to-clear of IFLAG1 and of ESR, bit by bit, and the FIFO pop (20 R106; the W1C flags of ESR:
10 R40, R41). That the pop needs FIFO_AVAIL to have been 1 (log 14), and that the bits of ESR no rule names are not
written (log 22), are the model's readings. -/
def Obligations.WriteOneToClear : Prop :=
  ∀ (s : State) (m : Word) (k : Nat), k < 32 →
    (writeReg .iflag1 m s).regs.iflag1.getLsbD k = (s.regs.iflag1.getLsbD k && !m.getLsbD k)
    ∧ (writeReg .esr m s).regs.esr.getLsbD k
        = (s.regs.esr.getLsbD k && !(m.getLsbD k && decide (k = 0 ∨ k = 1 ∨ k = 2 ∨ k = 16 ∨ k = 17)))
    ∧ (writeReg .iflag1 m s).fifoq
        = (if s.regs.mcr.getLsbD 29 = true ∧ s.regs.iflag1.getLsbD 5 = true ∧ m.getLsbD 5 = true then s.fifoq.tail
          else s.fifoq)

/-- A core write of MCR leaves NOTRDY, FRZACK and LPMACK, sets SOFTRST by a 1 and does not clear it, and writes
every other field (10 R35, 20 R107). That the reserved bits 7, 10 to 15 and 23, to which 10 R35 gives no access, are stored
as written is the model's reading (log 22). -/
def Obligations.McrWrite : Prop :=
  ∀ (s : State) (w : Word) (k : Nat), k < 32 →
    (writeReg .mcr w s).regs.mcr.getLsbD k
      = (if k = 27 ∨ k = 24 ∨ k = 20 then s.regs.mcr.getLsbD k
        else if k = 25 then (w.getLsbD k || s.regs.mcr.getLsbD k) else w.getLsbD k)

/-- The words the core reads as draws: ID and DATA of a busy mailbox, the words of MB[0] to MB[5] while the FIFO is
on and shows no head, RXFIR while no head is shown (60 R522, R524); every other mailbox word reads as stored. That the
mailboxes' words are hidden only with the FIFO on (log 15), and that CS of a busy mailbox reads as stored (log 16), are
the model's readings. -/
def Obligations.HiddenReads : Prop :=
  ∀ (s : State) (i : Nat) (k : MbWord), k ≠ .cs →
    (headHidden i s = true ∨ mbBusy i s = true →
      readReg (.mb i k) s = (Config.freeWord s.draws, { s with draws := s.draws + 1 }))
    ∧ (headHidden i s = false → mbBusy i s = false → readReg (.mb i k) s = (s.regs.get (.mb i k), s))
    ∧ (headHidden i s = true →
      readReg (.mb i .cs) s = (Config.freeWord s.draws, { s with lock := some i, draws := s.draws + 1 }))
    ∧ (headHidden i s = false → readReg (.mb i .cs) s = (s.regs.get (.mb i .cs), { s with lock := some i }))
    ∧ (noHead s = true → readReg .rxfir s = (Config.freeWord s.draws, { s with draws := s.draws + 1 }))
    ∧ (noHead s = false → readReg .rxfir s = (s.regs.rxfir, s))

/-! ## Freeze and reset (40) -/

/-- ENTER_FREEZE in a ready state whose ESR is not read as bus-off: FRZ and HALT are set, MDIS is cleared, nothing
else changes, and it returns with no status whether or not HW acknowledged (40 R201, R202, 00 R24). -/
def Obligations.EnterFreezeReturns : Prop :=
  ∀ s : State, Ready s → (s.par.freezeVariant = .base ∨ busOff s.regs.esr = false) →
    exec .enterFreeze s
      = .next (completed .enterFreeze .unit
          { s with
            regs := { s.regs with mcr := (s.regs.mcr ||| oneBit 30 ||| oneBit 28) &&& ~~~ oneBit 31 } })

/-- The errata tail of ENTER_FREEZE with the default ERRATA_BACKUP, when HW completes the soft reset before EA2:
IMASK1 and every writable bit of MCR are what they were at EA0 (FRZ set by EF0), SOFTRST is 0, the RO-HW bits of MCR are
what the soft reset left, and no register outside SOFTRST_SET and the backup changes (40 R204, 20 R107). That the reserved
bits of MCR are restored too (log 22), and that the completion also frees the lock, ends the move-ins and empties FIFOQ (log 18), are the
model's readings. -/
def Obligations.ErrataTailRestores : Prop :=
  ∀ (s : State) (vals : Regs),
    ReadyWith (List.replicate 9 .fg ++ [.hw (.softReset vals)]) s → s.par.freezeVariant ≠ .base →
    busOff s.regs.esr = true → getBit .mdis s.regs.mcr = false → getBit .lpmack s.regs.mcr = false →
    getBit .softrst s.regs.mcr = false → s.par.errataBackup = [.mcr, .imask1] →
    ∃ g : Regs,
      exec .enterFreeze s = .next (completed .enterFreeze .unit
        { s with
          regs := g
          lock := none
          moveIn := Vector.replicate 32 none
          fifoq := if s.par.softrstSet.contains .mcr then [] else s.fifoq
          sched := [] })
      ∧ g.imask1 = s.regs.imask1
      ∧ (∀ k < 32, k ≠ 20 → k ≠ 24 → k ≠ 25 → k ≠ 27 → g.mcr.getLsbD k = (decide (k = 30) || s.regs.mcr.getLsbD k))
      ∧ (∀ k, k = 20 ∨ k = 24 ∨ k = 27 →
          g.mcr.getLsbD k = (if .mcr ∈ s.par.softrstSet then vals.mcr.getLsbD k else s.regs.mcr.getLsbD k))
      ∧ getBit .softrst g.mcr = false
      ∧ ∀ r, r ∉ s.par.softrstSet → r ≠ .mcr → r ≠ .imask1 → g.get r = s.regs.get r

/-- EXIT_FREEZE: with FRZACK = 0, HALT and FRZ are cleared and nothing else changes; from Frozen, with HW clearing
FRZACK after XF1, FRZACK is cleared too (40 R205, R207). -/
def Obligations.ExitFreezeReturns : Prop :=
  ∀ s : State,
    (Ready s → getBit .frzack s.regs.mcr = false →
      exec .exitFreeze s
        = .next (completed .exitFreeze .unit
            { s with regs := { s.regs with mcr := s.regs.mcr &&& ~~~ (oneBit 30 ||| oneBit 28) } }))
    ∧ (ReadyWith [.fg, .fg, .fg, .fg, .hw .clearFrzack] s → s.mode = .frozen → getBit .mdis s.regs.mcr = false →
      exec .exitFreeze s
        = .next (completed .exitFreeze .unit
            { s with
              regs := { s.regs with mcr := s.regs.mcr &&& ~~~ (oneBit 30 ||| oneBit 28 ||| oneBit 24) }
              sched := [] }))

/-- RESET, with HW completing the soft reset after RS0: the state of 70 R601 (the lock, the move-ins and FIFOQ: log 18). -/
def Obligations.ResetLeaves : Prop :=
  ∀ (s : State) (vals : Regs), ReadyWith [.fg, .fg, .hw (.softReset vals)] s →
    getBit .lpmack s.regs.mcr = false → (s.handle.created = true → s.handle.armed = false) → s.par.nrximr ≤ 32 →
    ∃ g : Regs,
      exec .reset s = .next (completed .reset .unit
        { s with
          regs := g
          lock := none
          moveIn := Vector.replicate 32 none
          fifoq := if s.par.softrstSet.contains .mcr then [] else s.fifoq
          sched := [] })
      ∧ getField .maxmb g.mcr = s.par.resetMaxmb.setWidth 32 ∧ getBit .wrnen g.mcr = s.par.resetWrnen
      ∧ getBit .waksrc g.mcr = s.par.resetWaksrc ∧ getBit .softrst g.mcr = false
      ∧ (∀ k < 32, 6 < k → k ≠ 21 → k ≠ 19 → k ≠ 25 →
          g.mcr.getLsbD k = (if .mcr ∈ s.par.softrstSet then vals.mcr.getLsbD k else s.regs.mcr.getLsbD k))
      ∧ g.ctrl1 = s.par.ctrl1Default ∧ g.ctrl2 = s.par.ctrl2Default
      ∧ (∀ i < s.par.nrximr, i < 32 → g.get (.rximr i) = 0) ∧ g.rxmgmask = 0 ∧ g.rx14mask = 0 ∧ g.rx15mask = 0
      ∧ (∀ i < 32, g.get (.mb i .cs) = 0)
      ∧ (∀ i < 32, ∀ k, k ≠ .cs → .mb i k ∉ s.par.softrstSet → g.get (.mb i k) = s.regs.get (.mb i k))
      ∧ (∀ r, r = .esr ∨ r = .imask1 ∨ r = .iflag1 ∨ r = .timer ∨ r = .rxfir ∨ r = .rxfgmask →
          r ∉ s.par.softrstSet → g.get r = s.regs.get r)

/-- The refusals of the module and timing commands. RESET, DEINIT and INIT: low power before an armed transfer for RESET
and DEINIT, an armed transfer for all three (40 R206, 42 R312, R313). A search outside the input domain and a config that
is not well-formed, in every mode: before the Frozen check (41 R250, R254, R258, R262, 60 R504). -/
def Obligations.ModuleRefusals : Prop :=
  ∀ s : State, s.refused = none → idle s = true →
    (getBit .lpmack s.regs.mcr = true → Refuses .reset .resetInLowPower s ∧ Refuses .deinit .resetInLowPower s)
    ∧ (s.handle.created = true → s.handle.armed = true →
      (getBit .lpmack s.regs.mcr = false → Refuses .reset .resetWhileArmed s ∧ Refuses .deinit .resetWhileArmed s)
      ∧ ∀ c k, s.fg.opnd.config = some c → s.fg.opnd.clk = some k → 1 ≤ c.maxMbNum → c.maxMbNum ≤ 32 →
        c.baudRate ≠ 0 → k ≠ 0 → c.baudRate.toNat * 25 < 2 ^ 32 → c.timingConfig.rJumpWidth ≤ 3 →
        Refuses .init .resetWhileArmed s)
    ∧ (∀ baud clk, s.fg.opnd.baud = some baud → s.fg.opnd.clk = some clk →
      (baud = 0 ∨ clk = 0 ∨ 2 ^ 32 ≤ baud.toNat * 25) →
      Refuses .setBaudRate .invalidTimingInput s ∧ Refuses .calcImprovedTiming .invalidTimingInput s)
    ∧ ∀ c, s.fg.opnd.cfg = some c → c.wf = false → Refuses .setTimingConfig .invalidTimingConfig s

/-- DEINIT, with HW completing the soft reset after RS0: everything RESET leaves (ResetLeaves, 70 R601), and MDIS = 1
(42 R313; log 18 as for RESET). -/
def Obligations.DeinitLeaves : Prop :=
  ∀ (s : State) (vals : Regs), ReadyWith [.fg, .fg, .hw (.softReset vals)] s →
    getBit .lpmack s.regs.mcr = false → (s.handle.created = true → s.handle.armed = false) → s.par.nrximr ≤ 32 →
    ∃ g : Regs,
      exec .deinit s = .next (completed .deinit .unit
        { s with
          regs := g
          lock := none
          moveIn := Vector.replicate 32 none
          fifoq := if s.par.softrstSet.contains .mcr then [] else s.fifoq
          sched := [] })
      ∧ getBit .mdis g.mcr = true
      ∧ getField .maxmb g.mcr = s.par.resetMaxmb.setWidth 32 ∧ getBit .wrnen g.mcr = s.par.resetWrnen
      ∧ getBit .waksrc g.mcr = s.par.resetWaksrc ∧ getBit .softrst g.mcr = false
      ∧ (∀ k < 31, 6 < k → k ≠ 21 → k ≠ 19 → k ≠ 25 →
          g.mcr.getLsbD k = (if .mcr ∈ s.par.softrstSet then vals.mcr.getLsbD k else s.regs.mcr.getLsbD k))
      ∧ g.ctrl1 = s.par.ctrl1Default ∧ g.ctrl2 = s.par.ctrl2Default
      ∧ (∀ i < s.par.nrximr, i < 32 → g.get (.rximr i) = 0) ∧ g.rxmgmask = 0 ∧ g.rx14mask = 0 ∧ g.rx15mask = 0
      ∧ (∀ i < 32, g.get (.mb i .cs) = 0)
      ∧ (∀ i < 32, ∀ k, k ≠ .cs → .mb i k ∉ s.par.softrstSet → g.get (.mb i k) = s.regs.get (.mb i k))
      ∧ (∀ r, r = .esr ∨ r = .imask1 ∨ r = .iflag1 ∨ r = .timer ∨ r = .rxfir ∨ r = .rxfgmask →
          r ∉ s.par.softrstSet → g.get r = s.regs.get r)

/-! ## Bit timing (41) -/

/-- The law of the table search (41 R265): it finds an entry where one divides with a prescaler of at most 256, the
smallest, exactly; where it finds none, the last entry is taken, and the prescaler put in is P − 1 when P is in 1..256 and
a draw otherwise (41 R255). -/
def Obligations.TableSearchLaw : Prop :=
  ∀ (table : List TqEntry) (baud clk : Nat), tqTableWf table = true → 1 ≤ baud → 1 ≤ clk →
    ((∃ e ∈ table, clk % (baud * e.tq) = 0 ∧ clk / (baud * e.tq) ≤ 256) →
      (tableSearch table baud clk).found = true)
    ∧ ((tableSearch table baud clk).found = true →
      ∃ P : Nat, 1 ≤ P ∧ P ≤ 256 ∧ (tableSearch table baud clk).presdiv = natVal (P - 1)
        ∧ (tableSearch table baud clk).entry ∈ table
        ∧ P * (tableSearch table baud clk).entry.tq * baud = clk
        ∧ 4 + (tableSearch table baud clk).entry.p + (tableSearch table baud clk).entry.s1
            + (tableSearch table baud clk).entry.s2 = (tableSearch table baud clk).entry.tq
        ∧ ∀ e ∈ table, clk % (baud * e.tq) = 0 → clk / (baud * e.tq) ≤ 256 →
            (tableSearch table baud clk).entry.tq ≤ e.tq)
    ∧ ((tableSearch table baud clk).found = false →
      table.getLast? = some (tableSearch table baud clk).entry ∧ (tableSearch table baud clk).entry.tq = 25
        ∧ (tableSearch table baud clk).presdiv
            = (if 1 ≤ clk / (baud * 25) ∧ clk / (baud * 25) ≤ 256 then natVal (clk / (baud * 25) - 1) else .draw))

/-- SET_BAUD_RATE from Frozen under RequireFrozen: PSEG1, PSEG2 and PROPSEG of the entry taken and PRESDIV are
written in CTRL1, no other bit of it changes, and the flag found is returned (41 R254, R255, R256). -/
def Obligations.BaudRateWrites : Prop :=
  ∀ (s : State) (baud clk : Word), Ready s → s.fg.opnd.baud = some baud → s.fg.opnd.clk = some clk → baud ≠ 0 →
    clk ≠ 0 → baud.toNat * 25 < 2 ^ 32 → tqTableWf s.par.tqTable = true → s.par.timingWriteMode = .requireFrozen →
    s.mode = .frozen →
    ∃ w : Word,
      exec .setBaudRate s = .next (completed .setBaudRate
        (.found (tableSearch s.par.tqTable baud.toNat clk.toNat).found)
        { s with
          regs := { s.regs with ctrl1 := w }
          draws := s.draws + (if (tableSearch s.par.tqTable baud.toNat clk.toNat).presdiv = .draw then 1 else 0) })
      ∧ (getField .pseg1 w).toNat = (tableSearch s.par.tqTable baud.toNat clk.toNat).entry.s1
      ∧ (getField .pseg2 w).toNat = (tableSearch s.par.tqTable baud.toNat clk.toNat).entry.s2
      ∧ (getField .propseg w).toNat = (tableSearch s.par.tqTable baud.toNat clk.toNat).entry.p
      ∧ (∀ x, (tableSearch s.par.tqTable baud.toNat clk.toNat).presdiv = .val x → getField .presdiv w = x)
      ∧ ∀ k, (2 < k ∧ k < 16) ∨ k = 22 ∨ k = 23 → w.getLsbD k = s.regs.ctrl1.getLsbD k

/-- The segments of a candidate that is not rejected: they sum to tq, fit their fields, keep the sample point, and
phase segment 1 is not shorter than phase segment 2 (41 R257); and the table of 41 R261. -/
def Obligations.SegmentsLaw : Prop :=
  (∀ (tq : Nat) (g : Segs), 8 ≤ tq → tq ≤ 25 → segments tq = some g →
    4 + g.prop + g.ps1 + g.ps2 = tq ∧ g.prop ≤ 7 ∧ g.ps1 ≤ 7 ∧ g.ps2 ≤ 7 ∧ g.ps2 ≤ g.ps1
      ∧ 3 + g.prop + g.ps1 = tq * 750 / 1000)
  ∧ (List.range 18).map (fun k => (segments (8 + k)).map fun g => (g.prop, g.ps1, g.ps2, jumpWidth (8 + k)))
    = [some (2, 1, 1, 1), some (1, 2, 2, 1), some (2, 2, 2, 1), some (3, 2, 2, 1), some (4, 2, 2, 1),
       some (3, 3, 3, 2), some (4, 3, 3, 2), some (5, 3, 3, 2), some (6, 3, 3, 2), some (5, 4, 4, 2),
       some (6, 4, 4, 3), some (7, 4, 4, 3), some (7, 5, 4, 3), some (7, 5, 5, 3), some (7, 6, 5, 3),
       some (7, 7, 5, 3), none, none]

/-- What the improved search returns (41 R258, R259). Under either selection: a well-formed config that gives the
requested rate exactly, with a jump width no longer than phase segment 2, at a count of at most 23; and none only when no
candidate of 8..25 is accepted. FirstAccepted returns the accepted candidate of the largest count; ClosestSamplePoint one
of the least distance |1000·SPC − 750·tq| / tq, and of those the one of the largest count. -/
def Obligations.ImprovedSearchLaw : Prop :=
  ∀ (baud clk : Nat), 1 ≤ baud → 1 ≤ clk →
    (∀ (sel : ImprovedSelect) (c : TimingConfig), improvedSearch sel baud clk = some c →
      c.wf = true ∧ c.preDivider * c.tq * baud = clk ∧ c.rJumpWidth ≤ c.phaseSeg2 ∧ 8 ≤ c.tq ∧ c.tq ≤ 23
        ∧ candidate baud clk c.tq = some c)
    ∧ (∀ sel : ImprovedSelect, improvedSearch sel baud clk = none ↔
        ∀ tq, 8 ≤ tq → tq ≤ 25 → candidate baud clk tq = none)
    ∧ (∀ c, improvedSearch .firstAccepted baud clk = some c →
        ∀ tq, c.tq < tq → tq ≤ 25 → candidate baud clk tq = none)
    ∧ ∀ c, improvedSearch .closestSamplePoint baud clk = some c →
        ∀ tq d, 8 ≤ tq → tq ≤ 25 → candidate baud clk tq = some d →
          spError c * tq < spError d * c.tq ∨ (spError c * tq = spError d * c.tq ∧ tq ≤ c.tq)

/-- CALC_IMPROVED_TIMING returns the search's config, or failure with a config nothing constrains, and writes
nothing (41 R258; log 6). -/
def Obligations.CalcReturns : Prop :=
  ∀ (s : State) (baud clk : Word), Ready s → s.fg.opnd.baud = some baud → s.fg.opnd.clk = some clk → baud ≠ 0 →
    clk ≠ 0 → baud.toNat * 25 < 2 ^ 32 →
    exec .calcImprovedTiming s
      = .next (match improvedSearch s.par.improvedSelect baud.toNat clk.toNat with
        | some c => completed .calcImprovedTiming (.timing true c) s
        | none => completed .calcImprovedTiming (.timing false (Config.freeTiming s.draws))
            { s with draws := s.draws + 1 })

/-- SET_TIMING_CONFIG from Frozen under RequireFrozen writes the five timing fields of CTRL1, and no other bit
changes (41 R262, 30 R142). -/
def Obligations.TimingConfigWrites : Prop :=
  ∀ (s : State) (c : TimingConfig), Ready s → s.fg.opnd.cfg = some c → c.wf = true →
    s.par.timingWriteMode = .requireFrozen → s.mode = .frozen →
    ∃ w : Word,
      exec .setTimingConfig s
        = .next (completed .setTimingConfig .unit { s with regs := { s.regs with ctrl1 := w } })
      ∧ (getField .presdiv w).toNat + 1 = c.preDivider ∧ (getField .rjw w).toNat = c.rJumpWidth
      ∧ (getField .pseg1 w).toNat = c.phaseSeg1 ∧ (getField .pseg2 w).toNat = c.phaseSeg2
      ∧ (getField .propseg w).toNat = c.propSeg
      ∧ ∀ k < 16, 2 < k → w.getLsbD k = s.regs.ctrl1.getLsbD k

/-- Under Bracket, with no freeze acknowledgement: the operation runs between a freeze entry that fails silently and an
exit, which leave FRZ = HALT = MDIS = 0. SET_TIMING_CONFIG then leaves each of the five timing fields a draw and no other
bit of CTRL1 changed, and the FIFO mask is written all the same (41 R263, R264, 42 R309, 00 R24; logs 6 and 20). -/
def Obligations.BracketWrites : Prop :=
  ∀ s : State, Ready s → s.par.timingWriteMode = .bracket →
    (s.par.freezeVariant = .base ∨ busOff s.regs.esr = false) → getBit .frzack s.regs.mcr = false →
    (∀ c : TimingConfig, s.fg.opnd.cfg = some c → c.wf = true →
      ∃ w : Word,
        exec .setTimingConfig s = .next (completed .setTimingConfig .unit
          { s with
            regs := { s.regs with ctrl1 := w, mcr := s.regs.mcr &&& ~~~ (oneBit 31 ||| oneBit 30 ||| oneBit 28) }
            draws := s.draws + 5 })
        ∧ getField .presdiv w = Config.freeWord s.draws &&& 0xFF
        ∧ getField .rjw w = Config.freeWord (s.draws + 1) &&& 3
        ∧ getField .pseg1 w = Config.freeWord (s.draws + 2) &&& 7
        ∧ getField .pseg2 w = Config.freeWord (s.draws + 3) &&& 7
        ∧ getField .propseg w = Config.freeWord (s.draws + 4) &&& 7
        ∧ ∀ k < 16, 2 < k → w.getLsbD k = s.regs.ctrl1.getLsbD k)
    ∧ ∀ m : Word, s.fg.opnd.mask = some m →
      exec .setRxFifoGlobalMask s = .next (completed .setRxFifoGlobalMask .unit
        { s with
          regs := { s.regs with
            rxfgmask := m
            mcr := s.regs.mcr &&& ~~~ (oneBit 31 ||| oneBit 30 ||| oneBit 28) } })

/-! ## Mailboxes, FIFO, masks, module (42) -/

/-- SET_TX_MB_CONFIG: the mailbox's four words, and nothing else but the notes of a move-in (42 R300, R302). -/
def Obligations.TxMbConfigWrites : Prop :=
  ∀ (s : State) (i : Nat) (en : Bool), Ready s → i ≤ maxMb s.regs → i < 32 →
    ∃ mv : Vector (Option MoveIn) 32,
      exec (.setTxMbConfig i en) s = .next (completed (.setTxMbConfig i en) .unit
        { s with
          regs := { s.regs with
            mb := bankSet s.regs.mb i ⟨if en then csw Config.txInactive false false false 0 else 0, 0, 0, 0⟩ }
          moveIn := mv })
      ∧ (∀ j, j ≠ i → bankGet mv j = bankGet s.moveIn j) ∧ (bankGet s.moveIn i = none → mv = s.moveIn)

/-- SET_RX_MB_CONFIG: the mailbox's four words, and nothing else but the notes of a move-in (42 R301, R302, R303). -/
def Obligations.RxMbConfigWrites : Prop :=
  ∀ (s : State) (i : Nat) (en : Bool) (c : RxMbConfig), Ready s → i ≤ maxMb s.regs → i < 32 →
    (en = true → s.fg.opnd.rxcfg = some c) →
    ∃ mv : Vector (Option MoveIn) 32,
      exec (.setRxMbConfig i en) s = .next (completed (.setRxMbConfig i en) .unit
        { s with
          regs := { s.regs with
            mb := bankSet s.regs.mb i
              (if en then ⟨csw Config.rxEmpty false (ideBit c.format) (rtrBit c.kind) 0, idWord c.format c.id, 0, 0⟩
              else ⟨0, 0, 0, 0⟩) }
          moveIn := mv })
      ∧ (∀ j, j ≠ i → bankGet mv j = bankGet s.moveIn j) ∧ (bankGet s.moveIn i = none → mv = s.moveIn)

/-- The FIFO occupancy law (42 R305), and RFFN as the smallest group count that covers the filters (42 R306). -/
def Obligations.FifoOccupancy : Prop :=
  (∀ n, 1 ≤ n → n ≤ 8 → rffnFor n = 0 ∧ fifoOcc (rffnFor n) = 8)
    ∧ (∀ n, 9 ≤ n → n ≤ 16 → rffnFor n = 1 ∧ fifoOcc (rffnFor n) = 10)
    ∧ ∀ n, 1 ≤ n → n ≤ 8 * (rffnFor n + 1) ∧ ∀ r, n ≤ 8 * (r + 1) → rffnFor n ≤ r

/-- SET_RX_FIFO_CONFIG en=1 from Frozen: RFFN, the filter words with their padding, IDAM, MRP and RFEN are
written, and no other bit of CTRL2 or MCR and no other mailbox word changes (42 R304, R306, R307).
That the region also lies inside the 32 mailboxes where MAXMB reads 32 or more is the model's reading (log 10). -/
def Obligations.FifoEnableWrites : Prop :=
  ∀ (s : State) (c : FifoConfig), Ready s → s.fg.opnd.fifocfg = some c → fifoFits c s.regs = true →
    s.par.timingWriteMode = .requireFrozen → s.mode = .frozen →
    ∃ (g : Regs) (mv : Vector (Option MoveIn) 32),
      exec (.setRxFifoConfig true) s
        = .next (completed (.setRxFifoConfig true) .unit { s with regs := g, moveIn := mv })
      ∧ g = { s.regs with mcr := g.mcr, ctrl2 := g.ctrl2, mb := g.mb }
      ∧ rffnOf g.ctrl2 = rffnFor c.idFilterNum ∧ getBit .mrp g.ctrl2 = decide (c.priority = .mailboxFirst)
      ∧ (∀ k < 32, k < 24 ∨ 27 < k → k ≠ 18 → g.ctrl2.getLsbD k = s.regs.ctrl2.getLsbD k)
      ∧ getBit .rfen g.mcr = true ∧ (getField .idam g.mcr).toNat = c.idFilterType.code
      ∧ (∀ k < 32, k ≠ 29 → k ≠ 8 → k ≠ 9 → g.mcr.getLsbD k = s.regs.mcr.getLsbD k)
      ∧ (∀ k < 8 * (rffnFor c.idFilterNum + 1), g.get (filterReg k) = filterWord c k)
      ∧ (∀ i k, i < 6 ∨ 7 + 2 * rffnFor c.idFilterNum < i → g.get (.mb i k) = s.regs.get (.mb i k))

/-- SET_RX_FIFO_CONFIG en=0 from Frozen: RFEN is cleared and mailboxes 0 to 7 + 2·RFFN are cleared; no other
register changes (42 R304). -/
def Obligations.FifoDisableWrites : Prop :=
  ∀ s : State, Ready s → s.par.timingWriteMode = .requireFrozen → s.mode = .frozen →
    ∃ (g : Regs) (mv : Vector (Option MoveIn) 32),
      exec (.setRxFifoConfig false) s
        = .next (completed (.setRxFifoConfig false) .unit { s with regs := g, moveIn := mv })
      ∧ g = { s.regs with mcr := s.regs.mcr &&& ~~~ oneBit 29, mb := g.mb }
      ∧ ∀ i < 32, ∀ k,
          g.get (.mb i k) = if i ≤ 7 + 2 * rffnOf s.regs.ctrl2 then 0 else s.regs.get (.mb i k)

/-- The three mask setters from Frozen write their registers, and nothing else (42 R308, R309, R310). -/
def Obligations.MaskWrites : Prop :=
  ∀ (s : State) (m : Word), Ready s → s.fg.opnd.mask = some m → s.par.timingWriteMode = .requireFrozen →
    s.mode = .frozen →
    exec .setRxMbGlobalMask s = .next (completed .setRxMbGlobalMask .unit
        { s with regs := { s.regs with rxmgmask := m, rx14mask := m, rx15mask := m } })
    ∧ exec .setRxFifoGlobalMask s = .next (completed .setRxFifoGlobalMask .unit
        { s with regs := { s.regs with rxfgmask := m } })
    ∧ ∀ i, i ≤ maxMb s.regs → i < 32 → i < s.par.nrximr →
        exec (.setRxIndividualMask i) s = .next (completed (.setRxIndividualMask i) .unit
          { s with regs := { s.regs with rximr := bankSet s.regs.rximr i m } })

/-- The freeze-gated commands are refused outside Frozen under RequireFrozen, their operands being in order
(40 R210). That a missing operand is refused before NotFrozen is the model's reading of 60 R504 (log 13). -/
def Obligations.NotFrozenRefused : Prop :=
  ∀ s : State, s.refused = none → idle s = true → s.par.timingWriteMode = .requireFrozen → s.mode ≠ .frozen →
    (∀ c, s.fg.opnd.cfg = some c → c.wf = true → Refuses .setTimingConfig .notFrozen s)
    ∧ (∀ b k, s.fg.opnd.baud = some b → s.fg.opnd.clk = some k → b ≠ 0 → k ≠ 0 → b.toNat * 25 < 2 ^ 32 →
        Refuses .setBaudRate .notFrozen s)
    ∧ (∀ m, s.fg.opnd.mask = some m →
        Refuses .setRxMbGlobalMask .notFrozen s ∧ Refuses .setRxFifoGlobalMask .notFrozen s
        ∧ ∀ i, i ≤ maxMb s.regs → i < 32 → Refuses (.setRxIndividualMask i) .notFrozen s)
    ∧ Refuses (.setRxFifoConfig false) .notFrozen s
    ∧ ∀ c, s.fg.opnd.fifocfg = some c → Refuses (.setRxFifoConfig true) .notFrozen s

/-- GET_DEFAULT_CONFIG returns the record of 42 R311 and changes nothing else. -/
def Obligations.DefaultConfigReturned : Prop :=
  ∀ s : State, Ready s →
    exec .getDefaultConfig s = .next (completed .getDefaultConfig (.config
      { clkSrc := s.par.defaultClksrc
        wakeupSrc := s.par.defaultWaksrc
        baudRate := 500000
        maxMbNum := 16
        enableLoopBack := false
        enableTimerSync := true
        enableSelfWakeup := false
        enableIndividMask := false
        disableSelfReception := false
        enableListenOnlyMode := false
        enableDoze := false
        timingConfig := ⟨s.par.defaultPrediv, 1, 3, 2, 1⟩ }) s)

/-- INIT, with the module enabled, HW completing the soft reset after RS0 with a drawn MCR that acknowledges the
freeze, and HW clearing FRZACK at the end: mode Normal, the fields of the Config, and the flag found of the
table search (42 R312, 70 R602; log 18 as for RESET). -/
def Obligations.InitLeaves : Prop :=
  ∀ (s : State) (vals : Regs) (c : ModuleConfig) (clk : Word) (n : Nat),
    ReadyWith ([.fg, .fg, .fg, .fg, .fg, .hw (.softReset vals)] ++ List.replicate n .fg ++ [.hw .clearFrzack]) s →
    s.fg.opnd.config = some c → s.fg.opnd.clk = some clk → 1 ≤ c.maxMbNum → c.maxMbNum ≤ 32 → c.baudRate ≠ 0 →
    clk ≠ 0 → c.baudRate.toNat * 25 < 2 ^ 32 → c.timingConfig.rJumpWidth ≤ 3 →
    (s.handle.created = true → s.handle.armed = false) → tqTableWf s.par.tqTable = true → s.par.nrximr ≤ 32 →
    s.par.freezeVariant = .base → .mcr ∈ s.par.softrstSet → getBit .lpmack s.regs.mcr = false →
    getBit .mdis vals.mcr = false → getBit .lpmack vals.mcr = false → getBit .frzack vals.mcr = true → 100 ≤ n →
    ∃ (g : Regs) (d : Nat),
      exec .init s = .next (completed .init (.found (tableSearch s.par.tqTable c.baudRate.toNat clk.toNat).found)
        { s with regs := g, lock := none, moveIn := Vector.replicate 32 none, fifoq := [], draws := d, sched := [] })
      ∧ modeOf g.mcr = .normal ∧ getBit .mdis g.mcr = false ∧ getBit .frz g.mcr = false ∧ getBit .halt g.mcr = false
      ∧ maxMb g + 1 = c.maxMbNum ∧ getBit .waksrc g.mcr = c.wakeupSrc ∧ getBit .slfwak g.mcr = c.enableSelfWakeup
      ∧ getBit .irmq g.mcr = c.enableIndividMask ∧ getBit .srxdis g.mcr = c.disableSelfReception
      ∧ getBit .doze g.mcr = c.enableDoze
      ∧ getBit .clksrc g.ctrl1 = c.clkSrc ∧ getBit .lpb g.ctrl1 = c.enableLoopBack
      ∧ getBit .tsyn g.ctrl1 = c.enableTimerSync ∧ getBit .lom g.ctrl1 = c.enableListenOnlyMode
      ∧ (getField .rjw g.ctrl1).toNat = c.timingConfig.rJumpWidth
      ∧ (getField .pseg1 g.ctrl1).toNat = (tableSearch s.par.tqTable c.baudRate.toNat clk.toNat).entry.s1
      ∧ (getField .pseg2 g.ctrl1).toNat = (tableSearch s.par.tqTable c.baudRate.toNat clk.toNat).entry.s2
      ∧ (getField .propseg g.ctrl1).toNat = (tableSearch s.par.tqTable c.baudRate.toNat clk.toNat).entry.p
      ∧ (∀ x, (tableSearch s.par.tqTable c.baudRate.toNat clk.toNat).presdiv = .val x → getField .presdiv g.ctrl1 = x)
      ∧ g.ctrl2 = s.par.ctrl2Default ∧ (∀ i < 32, g.get (.mb i .cs) = 0)

/-! ## Transfers (43) -/

/-- WRITE_TX_MB on a mailbox whose code does not read TX_DATA: the four words of the frame, with or without the
erratum routine; the lock stays at the mailbox and IMASK1 is as before (43 R340, R341, R342, 70 R619). -/
def Obligations.WriteTxMbWrites : Prop :=
  ∀ (s : State) (i : Nat) (ref : FrameRef), Ready s → i ≤ maxMb s.regs → i < 32 → s.fg.opnd.frame = some ref →
    (readFrame ref s).length ≤ 8 → headHidden i s = false → codeOf (s.regs.get (.mb i .cs)) ≠ Config.txData →
    ∃ mv : Vector (Option MoveIn) 32,
      exec (.writeTxMb i) s = .next (completed (.writeTxMb i) (.status .success)
        { s with
          regs := { s.regs with
            mb := bankSet s.regs.mb i
              ⟨txCs (readFrame ref s), frameIdWord (readFrame ref s),
                packData0 s.par.payloadOrder (readFrame ref s).payload,
                packData1 s.par.payloadOrder (readFrame ref s).payload⟩ }
          lock := some i
          moveIn := mv })
      ∧ (∀ j, j ≠ i → bankGet mv j = bankGet s.moveIn j) ∧ (bankGet s.moveIn i = none → mv = s.moveIn)

/-- WRITE_TX_MB, SEND_BLOCKING and, on an Idle mailbox, SEND_NB where the code reads TX_DATA: Fail is returned, no
register is written and the logical state is Idle again (43 R340, R345, 44 R382). -/
def Obligations.WriteInUseFails : Prop :=
  ∀ (s : State) (i : Nat) (ref : FrameRef), Ready s → i ≤ maxMb s.regs → i < 32 → s.fg.opnd.frame = some ref →
    (readFrame ref s).length ≤ 8 → headHidden i s = false → codeOf (s.regs.get (.mb i .cs)) = Config.txData →
    exec (.writeTxMb i) s = .next (completed (.writeTxMb i) (.status .fail) { s with lock := some i })
    ∧ exec (.sendBlocking i) s = .next (completed (.sendBlocking i) (.status .fail) { s with lock := some i })
    ∧ (s.handle.created = true → s.handle.state (.mb i) = .idle →
      exec (.sendNb i) s = .next (completed (.sendNb i) (.status .fail) { s with lock := some i }))

/-- The refusals of the transfer and Handle commands. OutOfRange above MAXMB, then MissingOperand, then InvalidFrame (43
R340, R343, 60 R504); a Handle command before CREATE_HANDLE as NoHandle, whatever its index, and CREATE_HANDLE with a
transfer armed as HandleArmed (30 R146, 44 R381). -/
def Obligations.TransferRefusals : Prop :=
  (∀ (s : State) (i : Nat), s.refused = none → idle s = true →
    (maxMb s.regs < i →
      Refuses (.writeTxMb i) .outOfRange s ∧ Refuses (.sendBlocking i) .outOfRange s
      ∧ Refuses (.readRxMb i) .outOfRange s ∧ Refuses (.receiveBlocking i) .outOfRange s)
    ∧ (i ≤ maxMb s.regs → i < 32 →
      (s.fg.opnd.frame = none → Refuses (.writeTxMb i) .missingOperand s ∧ Refuses (.sendBlocking i) .missingOperand s)
      ∧ (s.fg.opnd.out = none → Refuses (.readRxMb i) .missingOperand s ∧ Refuses (.receiveBlocking i) .missingOperand s)
      ∧ ∀ ref, s.fg.opnd.frame = some ref → 8 < (readFrame ref s).length →
          Refuses (.writeTxMb i) .invalidFrame s ∧ Refuses (.sendBlocking i) .invalidFrame s))
  ∧ ∀ s : State, s.refused = none → idle s = true →
    (s.handle.created = false →
      (∀ i, Refuses (.sendNb i) .noHandle s ∧ Refuses (.receiveNb i) .noHandle s ∧ Refuses (.abortSend i) .noHandle s
        ∧ Refuses (.abortReceive i) .noHandle s)
      ∧ Refuses .receiveFifoNb .noHandle s ∧ Refuses .abortReceiveFifo .noHandle s)
    ∧ ∀ cb ctx, s.fg.opnd.callback = some cb → s.fg.opnd.context = some ctx → s.handle.created = true →
        s.handle.armed = true → Refuses .createHandle .handleArmed s

/-- READ_RX_MB: with a code RX_FULL or RX_OVERRUN the frame of the four words is stored and Success or RxOverflow
is returned; with any other code Fail is returned and nothing is stored; the mailbox ends unlocked (43 R343). Of a
FIFO word with no head shown the same holds of the words drawn (60 R524). -/
def Obligations.ReadRxMbReturns : Prop :=
  ∀ (s : State) (i : Nat) (out : FrameRef), Ready s → i ≤ maxMb s.regs → i < 32 → s.fg.opnd.out = some out →
    (headHidden i s = false →
      exec (.readRxMb i) s = .next (
        if codeOf (s.regs.get (.mb i .cs)) = Config.rxFull ∨ codeOf (s.regs.get (.mb i .cs)) = Config.rxOverrun then
          completed (.readRxMb i)
            (.status (if codeOf (s.regs.get (.mb i .cs)) = Config.rxFull then .success else .rxOverflow))
            { s with
              lock := none
              frames := framesSet s.frames out (frameOf s.par (s.regs.get (.mb i .cs)) (s.regs.get (.mb i .id))
                (s.regs.get (.mb i .data0)) (s.regs.get (.mb i .data1))) }
        else completed (.readRxMb i) (.status .fail) { s with lock := none }))
    ∧ (headHidden i s = true →
      exec (.readRxMb i) s = .next (
        if codeOf (Config.freeWord s.draws) = Config.rxFull ∨ codeOf (Config.freeWord s.draws) = Config.rxOverrun then
          completed (.readRxMb i)
            (.status (if codeOf (Config.freeWord s.draws) = Config.rxFull then .success else .rxOverflow))
            { s with
              lock := none
              draws := s.draws + 4
              frames := framesSet s.frames out (frameOf s.par (Config.freeWord s.draws) (Config.freeWord (s.draws + 1))
                (Config.freeWord (s.draws + 2)) (Config.freeWord (s.draws + 3))) }
        else completed (.readRxMb i) (.status .fail) { s with lock := none, draws := s.draws + 1 }))

/-- READ_RX_FIFO: Fail with no effect while RFEN = 0; with the head shown, its frame is stored, Success and the
filter-hit index are returned, the FIFO keeps its head and MB[0] ends unlocked; with no head shown, Success with
whatever was drawn (43 R344). -/
def Obligations.ReadRxFifoReturns : Prop :=
  ∀ (s : State) (out : FrameRef), Ready s → s.fg.opnd.out = some out →
    (getBit .rfen s.regs.mcr = false →
      exec .readRxFifo s = .next (completed .readRxFifo (.statusHit .fail none) s))
    ∧ (getBit .rfen s.regs.mcr = true → noHead s = false → mbBusy 0 s = false →
      exec .readRxFifo s = .next (completed .readRxFifo
        (.statusHit .success (some (getField .idhit s.regs.rxfir)))
        { s with
          lock := none
          frames := framesSet s.frames out (frameOf s.par (s.regs.get (.mb 0 .cs)) (s.regs.get (.mb 0 .id))
            (s.regs.get (.mb 0 .data0)) (s.regs.get (.mb 0 .data1))) }))
    ∧ (getBit .rfen s.regs.mcr = true → noHead s = true →
      exec .readRxFifo s = .next (completed .readRxFifo
        (.statusHit .success (some (getField .idhit (Config.freeWord (s.draws + 4)))))
        { s with
          lock := none
          draws := s.draws + 5
          frames := framesSet s.frames out (frameOf s.par (Config.freeWord s.draws) (Config.freeWord (s.draws + 1))
            (Config.freeWord (s.draws + 2)) (Config.freeWord (s.draws + 3))) }))

/-- SEND_BLOCKING, the mailbox outside the FIFO's region, HW completing the transmission while it waits: Success, the frame's time
stamp is back-filled, the flag is cleared, and the mailbox has the code HW left (43 R345, 60 R523). -/
def Obligations.SendBlockingReturns : Prop :=
  ∀ (s : State) (i n : Nat) (ref : FrameRef) (ts : Stamp),
    ReadyWith (List.replicate n .fg ++ [.hw (.transmit i ts)]) s → 12 ≤ n → i ≤ maxMb s.regs → i < 32 →
    s.fg.opnd.frame = some ref → (readFrame ref s).length ≤ 8 → inFifoRegion i s.regs = false →
    s.mode = .normal → codeOf (s.regs.get (.mb i .cs)) ≠ Config.txData → s.regs.iflag1.getLsbD i = false →
    ∃ mv : Vector (Option MoveIn) 32,
      exec (.sendBlocking i) s = .next (completed (.sendBlocking i) (.status .success)
        { s with
          regs := { s.regs with
            mb := bankSet s.regs.mb i
              ⟨csWord (if (readFrame ref s).kind = .remote then Config.rxEmpty else Config.txInactive)
                  (ideBit (readFrame ref s).format) (ideBit (readFrame ref s).format) (rtrBit (readFrame ref s).kind)
                  (BitVec.ofNat 4 (readFrame ref s).length) ts,
                frameIdWord (readFrame ref s), packData0 s.par.payloadOrder (readFrame ref s).payload,
                packData1 s.par.payloadOrder (readFrame ref s).payload⟩ }
          frames := framesSet s.frames ref { readFrame ref s with timestamp := ts }
          lock := some i
          moveIn := mv
          sched := [] })
      ∧ ∀ j, j ≠ i → bankGet mv j = bankGet s.moveIn j

/-- RECEIVE_BLOCKING with the flag set, the FIFO off or the mailbox above its words: the flag is cleared, and the read is that of READ_RX_MB
(43 R346, R343). -/
def Obligations.ReceiveBlockingReturns : Prop :=
  ∀ (s : State) (i : Nat) (out : FrameRef), Ready s → i ≤ maxMb s.regs → i < 32 → s.fg.opnd.out = some out →
    (getBit .rfen s.regs.mcr = true → 5 < i) → s.regs.iflag1.getLsbD i = true →
    exec (.receiveBlocking i) s = .next (
      if codeOf (s.regs.get (.mb i .cs)) = Config.rxFull ∨ codeOf (s.regs.get (.mb i .cs)) = Config.rxOverrun then
        completed (.receiveBlocking i)
          (.status (if codeOf (s.regs.get (.mb i .cs)) = Config.rxFull then .success else .rxOverflow))
          { s with
            regs := { s.regs with iflag1 := s.regs.iflag1 &&& ~~~ oneBit i }
            lock := none
            frames := framesSet s.frames out (frameOf s.par (s.regs.get (.mb i .cs)) (s.regs.get (.mb i .id))
              (s.regs.get (.mb i .data0)) (s.regs.get (.mb i .data1))) }
      else completed (.receiveBlocking i) (.status .fail)
        { s with regs := { s.regs with iflag1 := s.regs.iflag1 &&& ~~~ oneBit i }, lock := none })

/-- RECEIVE_FIFO_BLOCKING with the flag set: with the head shown, the head's frame is stored before the flag is
cleared, and clearing it removes the head; with RFEN = 0, Fail is returned and the flag is cleared (43 R347, 20
R106). -/
def Obligations.ReceiveFifoBlockingReturns : Prop :=
  ∀ (s : State) (out : FrameRef), Ready s → s.fg.opnd.out = some out →
    (getBit .rfen s.regs.mcr = true → noHead s = false → mbBusy 0 s = false →
      exec .receiveFifoBlocking s = .next (completed .receiveFifoBlocking
        (.statusHit .success (some (getField .idhit s.regs.rxfir)))
        { s with
          regs := { s.regs with iflag1 := s.regs.iflag1 &&& ~~~ oneBit 5 }
          fifoq := s.fifoq.tail
          lock := none
          frames := framesSet s.frames out (frameOf s.par (s.regs.get (.mb 0 .cs)) (s.regs.get (.mb 0 .id))
            (s.regs.get (.mb 0 .data0)) (s.regs.get (.mb 0 .data1))) }))
    ∧ (getBit .rfen s.regs.mcr = false → s.regs.iflag1.getLsbD 5 = true →
      exec .receiveFifoBlocking s = .next (completed .receiveFifoBlocking (.statusHit .fail none)
        { s with regs := { s.regs with iflag1 := s.regs.iflag1 &&& ~~~ oneBit 5 } }))

/-- The unbounded polls hang (70 R613, R615): EXIT_FREEZE with FRZACK = 1 while MDIS = 1, whatever HW owes beside;
RECEIVE_BLOCKING and RECEIVE_FIFO_BLOCKING with their flag 0, which change nothing but FG, where HW owes nothing. The next
step changes nothing. That FG stays at its poll while nothing is scheduled is the model's (log 4). -/
def Obligations.PollsHang : Prop :=
  ∀ s : State, Ready s →
    (getBit .frzack s.regs.mcr = true → getBit .mdis s.regs.mcr = true → getBit .softrst s.regs.mcr = false →
      ∃ t, exec .exitFreeze s = .next t ∧ t.fg.op = some .exitFreeze ∧ t.trace = s.trace ∧ step t = .next t)
    ∧ ∀ out, s.fg.opnd.out = some out → dueDuty s = none →
      (∀ i, i ≤ maxMb s.regs → i < 32 → s.regs.iflag1.getLsbD i = false →
        ∃ t, exec (.receiveBlocking i) s = .next t ∧ t = { s with fg := t.fg } ∧ t.fg.op = some (.receiveBlocking i)
          ∧ step t = .next t)
      ∧ (s.regs.iflag1.getLsbD 5 = false →
        ∃ t, exec .receiveFifoBlocking s = .next t ∧ t = { s with fg := t.fg } ∧ t.fg.op = some .receiveFifoBlocking
          ∧ step t = .next t)

/-- The round trip of a frame through a mailbox's four words (43 R341, 10 R44, R45): everything but the time stamp
comes back, with the id masked to its format, under every PAYLOAD_ORDER that is a bijection. -/
def Obligations.FrameRoundTrip : Prop :=
  ∀ (p : Params) (f : Frame) (code : BitVec 4) (ts : Stamp), payloadOrderWf p.payloadOrder = true → f.length ≤ 8 →
    frameOf p (rxCs code f ts) (frameIdWord f) (packData0 p.payloadOrder f.payload)
        (packData1 p.payloadOrder f.payload)
      = { f with
          id := (match f.format with
            | .extended => f.id &&& 0x1FFFFFFF
            | .standard => f.id &&& 0x7FF)
          timestamp := ts }

/-! ## The Handle (44) -/

/-- CREATE_HANDLE: the Handle of 70 R603, the four status-class enables and WAKMSK equal to callback ≠ None, and
nothing else (44 R381). -/
def Obligations.CreateHandleLeaves : Prop :=
  ∀ (s : State) (cb : Option Nat) (ctx : Nat), Ready s → s.fg.opnd.callback = some cb → s.fg.opnd.context = some ctx →
    (s.handle.created = true → s.handle.armed = false) →
    ∃ m c : Word,
      exec .createHandle s = .next (completed .createHandle .unit
        { s with
          handle :=
            { created := true, mbState := Vector.replicate 32 .idle, rxFifoState := .idle,
              mbFrameBuf := Vector.replicate 32 none, rxFifoFrameBuf := none, timestamp := Vector.replicate 32 0,
              callback := cb, context := ctx }
          regs := { s.regs with mcr := m, ctrl1 := c } })
      ∧ (∀ k < 32, m.getLsbD k = if k = 26 then cb.isSome else s.regs.mcr.getLsbD k)
      ∧ (∀ k < 32, c.getLsbD k
          = if k = 15 ∨ k = 14 ∨ k = 11 ∨ k = 10 then cb.isSome else s.regs.ctrl1.getLsbD k)

/-- SEND_NB on an Idle mailbox whose code does not read TX_DATA: the logical state by the frame's kind, the four
words, and the mailbox's interrupt enabled (44 R382). -/
def Obligations.SendNbArms : Prop :=
  ∀ (s : State) (i : Nat) (ref : FrameRef), Ready s → s.handle.created = true → i ≤ maxMb s.regs → i < 32 →
    s.fg.opnd.frame = some ref → (readFrame ref s).length ≤ 8 → s.handle.state (.mb i) = .idle →
    headHidden i s = false → codeOf (s.regs.get (.mb i .cs)) ≠ Config.txData →
    ∃ mv : Vector (Option MoveIn) 32,
      exec (.sendNb i) s = .next (completed (.sendNb i) (.status .success)
        { s with
          regs := { s.regs with
            imask1 := s.regs.imask1 ||| oneBit i
            mb := bankSet s.regs.mb i
              ⟨txCs (readFrame ref s), frameIdWord (readFrame ref s),
                packData0 s.par.payloadOrder (readFrame ref s).payload,
                packData1 s.par.payloadOrder (readFrame ref s).payload⟩ }
          handle := s.handle.setState (.mb i) (if (readFrame ref s).kind = .remote then .txRemote else .txData)
          lock := some i
          moveIn := mv })
      ∧ ∀ j, j ≠ i → bankGet mv j = bankGet s.moveIn j

/-- An arm call on a target that is not Idle returns its Busy status and changes nothing. RECEIVE_NB on an Idle mailbox
records the slot, sets RxData and enables the interrupt; RECEIVE_FIFO_NB on an Idle FIFO records the slot, sets RxFifo and
enables the three FIFO interrupts (44 R382, R383, R384). -/
def Obligations.ArmCalls : Prop :=
  ∀ (s : State) (ref : FrameRef), Ready s → s.handle.created = true → s.fg.opnd.frame = some ref →
    (∀ i, i ≤ maxMb s.regs → i < 32 → s.handle.state (.mb i) ≠ .idle →
      ((readFrame ref s).length ≤ 8 →
        exec (.sendNb i) s = .next (completed (.sendNb i) (.status .txBusy) s))
      ∧ exec (.receiveNb i) s = .next (completed (.receiveNb i) (.status .rxBusy) s))
    ∧ (s.handle.rxFifoState ≠ .idle →
      exec .receiveFifoNb s = .next (completed .receiveFifoNb (.status .rxFifoBusy) s))
    ∧ (∀ i, i ≤ maxMb s.regs → i < 32 → s.handle.state (.mb i) = .idle →
      exec (.receiveNb i) s = .next (completed (.receiveNb i) (.status .success)
        { s with
          regs := { s.regs with imask1 := s.regs.imask1 ||| oneBit i }
          handle := { s.handle with
            mbState := bankSet s.handle.mbState i .rxData
            mbFrameBuf := bankSet s.handle.mbFrameBuf i (some ref) } }))
    ∧ (s.handle.rxFifoState = .idle →
      exec .receiveFifoNb s = .next (completed .receiveFifoNb (.status .success)
        { s with
          regs := { s.regs with imask1 := s.regs.imask1 ||| 0xE0 }
          handle := { s.handle with rxFifoState := .rxFifo, rxFifoFrameBuf := some ref } }))

/-- The aborts. ABORT_SEND disables the interrupt, records the mailbox's time stamp, writes TX_INACTIVE where
ABORT_TX_DEACTIVATE is set, and sets Idle; ABORT_RECEIVE and ABORT_RECEIVE_FIFO disable the interrupts, forget the slot
and set Idle (44 R385, R386, R387). -/
def Obligations.AbortsLeave : Prop :=
  ∀ s : State, Ready s → s.handle.created = true →
    (∀ i, i ≤ maxMb s.regs → i < 32 → headHidden i s = false →
    ∃ mv : Vector (Option MoveIn) 32,
      exec (.abortSend i) s = .next (completed (.abortSend i) .unit
        { s with
          regs := { s.regs with
            imask1 := s.regs.imask1 &&& ~~~ oneBit i
            mb := if s.par.abortTxDeactivate then
                bankSet s.regs.mb i { bankGet s.regs.mb i with cs := csw Config.txInactive false false false 0 }
              else s.regs.mb }
          handle := { s.handle with
            mbState := bankSet s.handle.mbState i .idle
            timestamp := bankSet s.handle.timestamp i (stampOf (s.regs.get (.mb i .cs))) }
          lock := some i
          moveIn := mv })
      ∧ ∀ j, j ≠ i → bankGet mv j = bankGet s.moveIn j)
    ∧ (∀ i, i ≤ maxMb s.regs → i < 32 →
      exec (.abortReceive i) s = .next (completed (.abortReceive i) .unit
        { s with
          regs := { s.regs with imask1 := s.regs.imask1 &&& ~~~ oneBit i }
          handle := { s.handle with
            mbState := bankSet s.handle.mbState i .idle
            mbFrameBuf := bankSet s.handle.mbFrameBuf i none } }))
    ∧ exec .abortReceiveFifo s = .next (completed .abortReceiveFifo .unit
        { s with
          regs := { s.regs with imask1 := s.regs.imask1 &&& ~~~ 0xE0 }
          handle := { s.handle with rxFifoState := .idle, rxFifoFrameBuf := none } })

/-! ## The dispatcher (45, 60) -/

/-- HANDLE_IRQ issued by the host is refused as IsrOnly, whatever turns follow, ISR's own among them (30 R143, 60 R504).
That the host's next command is the head of the program is the model's (log 5). -/
def Obligations.IrqIssueRefused : Prop :=
  ∀ (s : State) (c : Command) (rest : List Command), s.refused = none → idle s = true → s.program = c :: rest →
    decode c.word = .ok .handleIrq →
    (Ready s →
      step s = .next
        { s with program := rest, fg := { s.fg with opnd := c.opnd }, refused := some .isrOnly })
    ∧ ∀ q, s.sched = .fg :: q →
      step s = .next
        { s with program := rest, fg := { s.fg with opnd := c.opnd }, sched := q, refused := some .isrOnly }

/-- ISR start: where 60 R510's conditions hold, ISR's turn makes it active at HI0 and changes nothing else; where
they do not and ISR is not active, nothing changes, and HANDLE_IRQ has no start (log 28). HANDLE_IRQ, nothing else
scheduled and no operation under way, is the run of ISR's micro-steps from there to its return (45 R420, 60 R515). -/
def Obligations.IsrStart : Prop :=
  ∀ s : State, s.isr.active = false →
    (s.refused = none → irq s = true → s.handle.created = true → s.fg.window = false →
      tick .isr s = { s with isr := { active := true, code := [.read .esr .hi1] } })
    ∧ ((s.refused ≠ none ∨ irq s = false ∨ s.handle.created = false ∨ s.fg.window = true) →
      tick .isr s = s ∧ (s.refused = none → exec .handleIrq s = .fault .noIsrStart))
    ∧ (Ready s → irq s = true → s.handle.created = true → s.fg.window = false →
      ∀ (n : Nat) (t : State), n ≤ 8192 → isrSteps n (isrStart s) = t → t.isr.active = false →
        (∀ m < n, (isrSteps m (isrStart s)).isr.active = true) → exec .handleIrq s = .next t)

/-- HANDLE_IRQ (log 28) with no enabled mailbox flag. With a status-class flag set: ESR is cleared by ClearMask, the
callback gets ErrorStatus with the whole ESR word, and the dispatcher returns; with none set and WAKINT set: WAKINT is
cleared and WakeUp is reported with the whole ESR word (45 R420, R426, R427, R428). -/
def Obligations.DispatchStatus : Prop :=
  ∀ s : State, Ready s → irq s = true → s.handle.created = true → s.fg.window = false → pend s.regs = 0 →
    (s.regs.esr &&& status4 ≠ 0 →
      exec .handleIrq s = .next
        { s with
          regs := { s.regs with esr := s.regs.esr &&& ~~~ (clearMask s.par s.regs.esr) }
          isr := { active := false, code := [] }
          trace := (if s.handle.callback.isSome then s.trace ++ [.cb .errorStatus s.regs.esr s.handle.context]
            else s.trace) })
    ∧ (s.regs.esr &&& status4 = 0 → s.regs.esr.getLsbD 0 = true →
      exec .handleIrq s = .next
        { s with
          regs := { s.regs with esr := s.regs.esr &&& ~~~ oneBit 0 }
          isr := { active := false, code := [] }
          trace := (if s.handle.callback.isSome then s.trace ++ [.cb .wakeUp s.regs.esr s.handle.context]
            else s.trace) })

/-- The dispatcher on a transmission. ISR alone, at HI0 with no ESR flag set and j the lowest of the bits pending (45 R429),
j no FIFO event: an iteration resolves j. A data frame sent (TxData): TxIdle is reported, the transfer is aborted with its
time stamp kept, and the flag is cleared; a remote frame sent (TxRemote): the state becomes RxRemote without an abort,
TxSwitchToRx is reported and the flag is cleared (45 R422, R425, R427). And HANDLE_IRQ (log 28) with j alone pending and
TxData, from start to return. -/
def Obligations.DispatchTxDone : Prop :=
  (∀ (s : State) (j : Nat), Resolves j s → ¬ IsFifoEvent j s →
    (s.handle.state (.mb j) = .txData → headHidden j s = false →
      ∃ mv : Vector (Option MoveIn) 32,
        IsrReaches s (iterated .txIdle (BitVec.ofNat 32 j) (flagCleared j
          { s with
            regs := { s.regs with
              imask1 := s.regs.imask1 &&& ~~~ oneBit j
              mb := if s.par.abortTxDeactivate then
                  bankSet s.regs.mb j { bankGet s.regs.mb j with cs := csw Config.txInactive false false false 0 }
                else s.regs.mb }
            handle := { s.handle with
              mbState := bankSet s.handle.mbState j .idle
              timestamp := bankSet s.handle.timestamp j (stampOf (s.regs.get (.mb j .cs))) }
            lock := some j
            moveIn := mv }))
        ∧ ∀ k, k ≠ j → bankGet mv k = bankGet s.moveIn k)
    ∧ (s.handle.state (.mb j) = .txRemote →
      IsrReaches s (iterated .txSwitchToRx (BitVec.ofNat 32 j) (flagCleared j
        { s with handle := s.handle.setState (.mb j) .rxRemote }))))
  ∧ ∀ (s : State) (j : Nat), Ready s → s.handle.created = true → s.fg.window = false → j < 32 →
    s.regs.esr &&& esrFlags = 0 → pend s.regs = oneBit j → s.handle.state (.mb j) = .txData →
    s.handle.rxFifoState = .idle → (getBit .rfen s.regs.mcr = true → 5 < j) →
    ∃ mv : Vector (Option MoveIn) 32,
      exec .handleIrq s = .next
        { s with
          regs := { s.regs with
            imask1 := s.regs.imask1 &&& ~~~ oneBit j
            iflag1 := s.regs.iflag1 &&& ~~~ oneBit j
            mb := if s.par.abortTxDeactivate then
                bankSet s.regs.mb j { bankGet s.regs.mb j with cs := csw Config.txInactive false false false 0 }
              else s.regs.mb }
          handle := { s.handle with
            mbState := bankSet s.handle.mbState j .idle
            timestamp := bankSet s.handle.timestamp j (stampOf (s.regs.get (.mb j .cs))) }
          lock := some j
          moveIn := mv
          isr := { active := false, code := [] }
          trace := (if s.handle.callback.isSome then
              s.trace ++ [.cb .txIdle (BitVec.ofNat 32 j) s.handle.context]
            else s.trace) }

/-- The dispatcher on a reception by a mailbox, as in DispatchTxDone. RxData: with a code RX_FULL or RX_OVERRUN the frame
of the four words is stored, its time stamp kept, and RxIdle or RxOverflow reported; with any other code Fail is reported
and nothing stored; the mailbox ends unlocked. RxRemote: RxRemote is reported with no read. Each time the transfer is
aborted and the flag cleared (45 R425, R427, 43 R343, 44 R386). -/
def Obligations.DispatchRxDone : Prop :=
  ∀ (s : State) (j : Nat), Resolves j s → ¬ IsFifoEvent j s →
    (s.handle.state (.mb j) = .rxData → headHidden j s = false →
      (codeOf (s.regs.get (.mb j .cs)) = Config.rxFull ∨ codeOf (s.regs.get (.mb j .cs)) = Config.rxOverrun →
        IsrReaches s (iterated (if codeOf (s.regs.get (.mb j .cs)) = Config.rxFull then .rxIdle else .rxOverflow)
          (BitVec.ofNat 32 j) (flagCleared j (receiveAborted j (stored (s.handle.buf (.mb j)) (frameAt j s)
            { s with lock := none, handle := s.handle.setStamp j (stampOf (s.regs.get (.mb j .cs))) })))))
      ∧ (codeOf (s.regs.get (.mb j .cs)) ≠ Config.rxFull → codeOf (s.regs.get (.mb j .cs)) ≠ Config.rxOverrun →
        IsrReaches s (iterated .fail (BitVec.ofNat 32 j) (flagCleared j (receiveAborted j { s with lock := none })))))
    ∧ (s.handle.state (.mb j) = .rxRemote →
      IsrReaches s (iterated .rxRemote (BitVec.ofNat 32 j) (flagCleared j (receiveAborted j s))))

/-- The dispatcher on the FIFO's events, as in DispatchTxDone: index j inside the region with the FIFO armed. A frame
shown: it is stored, its time stamp kept in slot 0, RxFifoIdle reported, the FIFO aborted, and clearing the flag removes
the head; with RFEN = 0 Fail is reported and the FIFO aborted. Overflow, warning and any other index are reported as
RxFifoOverflow, RxFifoWarning and UnHandled, and the FIFO stays armed (45 R423, R424, R427, 44 R387, 20 R106). -/
def Obligations.DispatchFifo : Prop :=
  ∀ (s : State) (j : Nat), Resolves j s → IsFifoEvent j s →
    (j = 5 → getBit .rfen s.regs.mcr = true → noHead s = false → mbBusy 0 s = false →
      IsrReaches s (iterated .rxFifoIdle 5 (flagCleared 5 (fifoAborted (stored s.handle.rxFifoFrameBuf (frameAt 0 s)
        { s with lock := none, handle := s.handle.setStamp 0 (stampOf (s.regs.get (.mb 0 .cs))) })))))
    ∧ (j = 5 → getBit .rfen s.regs.mcr = false → IsrReaches s (iterated .fail 5 (flagCleared 5 (fifoAborted s))))
    ∧ (j ≠ 5 →
      IsrReaches s (iterated (if j = 7 then .rxFifoOverflow else if j = 6 then .rxFifoWarning else .unHandled)
        (BitVec.ofNat 32 j) (flagCleared j s)))

/-- What the dispatcher reports as UnHandled: an event of a mailbox whose logical state is Idle, whose flag is cleared; and
an iteration that finds no flag at all, with the result 32 and nothing cleared (45 R422, R425, R427). -/
def Obligations.DispatchUnHandled : Prop :=
  ∀ s : State,
    (∀ j, Resolves j s → ¬ IsFifoEvent j s → s.handle.state (.mb j) = .idle →
      IsrReaches s (iterated .unHandled (BitVec.ofNat 32 j) (flagCleared j s)))
    ∧ (AtHi0 s → s.regs.esr &&& esrFlags = 0 → pend s.regs = 0 → IsrReaches s (iterated .unHandled 32 s))

/-- The drain loop need not end (45 R430, 70 R630, 60 R505): with the FIFO armed and full, its overflow the lowest bit
pending, and HW dropping a frame in every iteration after the flag was cleared, a step of the machine is an iteration that
leaves the state it began in, but for TRACE. That the schedule is a list repeated for ever is the model's (log 4). -/
def Obligations.DrainNeverEnds : Prop :=
  ∀ s : State, s.refused = none → s.sched = [] →
    s.supply = .cycle (List.replicate 20 .isr ++ [.hw .fifoOverflow, .isr, .isr, .isr, .yield]) →
    Resolves 7 s → s.handle.rxFifoState = .rxFifo → s.mode = .normal → getBit .rfen s.regs.mcr = true →
    s.fifoq.length = s.par.fifoDepth →
    step s = .next
      { s with
        trace := if s.handle.callback.isSome then s.trace ++ [.cb .rxFifoOverflow 7 s.handle.context] else s.trace }

/-- The dispatcher never writes MCR, CTRL1, CTRL2, a mask, or a mailbox's ID or DATA words, and leaves FG alone; its
micro-steps lead only to its own (45 R431, 60 R511). -/
def Obligations.DispatcherWrites : Prop :=
  ∀ s : State, IsrSafe s → s.isr.active = true →
    IsrSafe (isrStep s) ∧ (isrStep s).fg = s.fg ∧ (isrStep s).refused = s.refused
      ∧ ∀ r, isrWrites r = false → (isrStep s).regs.get r = s.regs.get r

/-! ## HW (60) -/

/-- What HW never does, a soft reset apart: write a register or an MCR bit of access RW, change the Handle, the lock,
the frame store, FG or TRACE, clear a W1C flag, set IFLAG1[k] above MAXMB but for the FIFO bits, or write a
filter word of the FIFO (60 R527). And outside Normal and FreezePending it touches no mailbox, no flag of IFLAG1 and not the
FIFO's queue (60 R519). That a move-in begun before ends neither there nor on a filter word is the model's reading (log 17). -/
def Obligations.HwNeverWrites : Prop :=
  ∀ (s : State) (h : HwMove), (∀ v, h ≠ .softReset v) →
    (∀ r, r = .ctrl1 ∨ r = .ctrl2 ∨ r = .imask1 ∨ r = .rxmgmask ∨ r = .rx14mask ∨ r = .rx15mask ∨ r = .rxfgmask
        ∨ (∃ i, r = .rximr i) → (hwStep h s).regs.get r = s.regs.get r)
    ∧ (∀ k < 32, k ≠ 20 → k ≠ 24 → (hwStep h s).regs.mcr.getLsbD k = s.regs.mcr.getLsbD k)
    ∧ (hwStep h s).handle = s.handle ∧ (hwStep h s).frames = s.frames ∧ (hwStep h s).lock = s.lock
    ∧ (hwStep h s).fg = s.fg ∧ (hwStep h s).trace = s.trace
    ∧ (∀ k < 32, s.regs.iflag1.getLsbD k = true → (hwStep h s).regs.iflag1.getLsbD k = true)
    ∧ (∀ k < 32, esrFlags.getLsbD k = true → s.regs.esr.getLsbD k = true → (hwStep h s).regs.esr.getLsbD k = true)
    ∧ (∀ k < 32, maxMb s.regs < k → k ≠ 5 → k ≠ 6 → k ≠ 7 →
        (hwStep h s).regs.iflag1.getLsbD k = s.regs.iflag1.getLsbD k)
    ∧ (∀ i k, inFilterRegion i s.regs = true → (hwStep h s).regs.get (.mb i k) = s.regs.get (.mb i k))
    ∧ (s.mode ≠ .normal → s.mode ≠ .freezePending →
        (hwStep h s).regs.mb = s.regs.mb ∧ (hwStep h s).regs.iflag1 = s.regs.iflag1 ∧ (hwStep h s).fifoq = s.fifoq)

/-- HW's duties (40 R207, R208, 60 R528). Each one, met, is owed no more, and leaves the Handle, the frame store, FG, ISR and
TRACE. EXIT_FREEZE from Frozen with MDIS = 0 returns, FRZACK cleared, and RESET returns, SOFTRST cleared and every CS word
0, with nothing scheduled: HW meets what it owes while they wait. A machine with nothing to do has HW meet the first duty
owed, and then stands still. That a schedule with no turn left has HW meet its duties is the model's (log 26). -/
def Obligations.DutiesMet : Prop :=
  (∀ (s : State) (d : Duty), owes s d = true → owes (fulfil d s) d = false
    ∧ (fulfil d s).handle = s.handle ∧ (fulfil d s).frames = s.frames ∧ (fulfil d s).fg = s.fg
    ∧ (fulfil d s).isr = s.isr ∧ (fulfil d s).trace = s.trace)
  ∧ (∀ s : State, Ready s → s.mode = .frozen → getBit .mdis s.regs.mcr = false →
      exec .exitFreeze s = .next (completed .exitFreeze .unit
        { s with
          regs := { s.regs with mcr := s.regs.mcr &&& ~~~ (oneBit 30 ||| oneBit 28 ||| oneBit 24) } }))
  ∧ (∀ s : State, Ready s → getBit .lpmack s.regs.mcr = false → (s.handle.created = true → s.handle.armed = false) →
      s.par.nrximr ≤ 32 →
      ∃ t, exec .reset s = .next t ∧ t.fg.op = none ∧ t.trace = s.trace ++ [.ret .reset .unit]
        ∧ getBit .softrst t.regs.mcr = false ∧ ∀ i < 32, t.regs.get (.mb i .cs) = 0)
  ∧ ∀ s : State, Ready s → s.program = [] →
      (∀ d, dueDuty s = some d → step s = .next (fulfil d s)) ∧ (dueDuty s = none → step s = .next s)
end

