-- ==== Sys2Proof/Laws/State.lean ====
section
/-! SUPPORT. One lemma per field per update of the state, true by rfl, so that no proof unfolds a record update. -/

namespace Sys2Proof.Machine

/-! ### emit -/

@[simp] theorem emit_par (s : State) (e : Event) : (emit e s).par = s.par := rfl
@[simp] theorem emit_regs (s : State) (e : Event) : (emit e s).regs = s.regs := rfl
@[simp] theorem emit_handle (s : State) (e : Event) : (emit e s).handle = s.handle := rfl
@[simp] theorem emit_frames (s : State) (e : Event) : (emit e s).frames = s.frames := rfl
@[simp] theorem emit_fg (s : State) (e : Event) : (emit e s).fg = s.fg := rfl
@[simp] theorem emit_isr (s : State) (e : Event) : (emit e s).isr = s.isr := rfl
@[simp] theorem emit_refused (s : State) (e : Event) : (emit e s).refused = s.refused := rfl
@[simp] theorem emit_trace (s : State) (e : Event) : (emit e s).trace = s.trace ++ [e] := rfl
@[simp] theorem emit_lock (s : State) (e : Event) : (emit e s).lock = s.lock := rfl
@[simp] theorem emit_fifoq (s : State) (e : Event) : (emit e s).fifoq = s.fifoq := rfl
@[simp] theorem emit_moveIn (s : State) (e : Event) : (emit e s).moveIn = s.moveIn := rfl
@[simp] theorem emit_draws (s : State) (e : Event) : (emit e s).draws = s.draws := rfl
@[simp] theorem emit_program (s : State) (e : Event) : (emit e s).program = s.program := rfl
@[simp] theorem emit_sched (s : State) (e : Event) : (emit e s).sched = s.sched := rfl
@[simp] theorem emit_supply (s : State) (e : Event) : (emit e s).supply = s.supply := rfl

/-! ### refuse -/

@[simp] theorem refuse_par (s : State) (r : Reason) : (refuse r s).par = s.par := rfl
@[simp] theorem refuse_regs (s : State) (r : Reason) : (refuse r s).regs = s.regs := rfl
@[simp] theorem refuse_handle (s : State) (r : Reason) : (refuse r s).handle = s.handle := rfl
@[simp] theorem refuse_frames (s : State) (r : Reason) : (refuse r s).frames = s.frames := rfl
@[simp] theorem refuse_fg (s : State) (r : Reason) : (refuse r s).fg = s.fg := rfl
@[simp] theorem refuse_isr (s : State) (r : Reason) : (refuse r s).isr = s.isr := rfl
@[simp] theorem refuse_refused (s : State) (r : Reason) : (refuse r s).refused = some r := rfl
@[simp] theorem refuse_trace (s : State) (r : Reason) : (refuse r s).trace = s.trace := rfl
@[simp] theorem refuse_lock (s : State) (r : Reason) : (refuse r s).lock = s.lock := rfl
@[simp] theorem refuse_fifoq (s : State) (r : Reason) : (refuse r s).fifoq = s.fifoq := rfl
@[simp] theorem refuse_moveIn (s : State) (r : Reason) : (refuse r s).moveIn = s.moveIn := rfl
@[simp] theorem refuse_draws (s : State) (r : Reason) : (refuse r s).draws = s.draws := rfl
@[simp] theorem refuse_program (s : State) (r : Reason) : (refuse r s).program = s.program := rfl
@[simp] theorem refuse_sched (s : State) (r : Reason) : (refuse r s).sched = s.sched := rfl
@[simp] theorem refuse_supply (s : State) (r : Reason) : (refuse r s).supply = s.supply := rfl

/-! ### isrStart -/

@[simp] theorem isrStart_par (s : State) : (isrStart s).par = s.par := rfl
@[simp] theorem isrStart_regs (s : State) : (isrStart s).regs = s.regs := rfl
@[simp] theorem isrStart_handle (s : State) : (isrStart s).handle = s.handle := rfl
@[simp] theorem isrStart_frames (s : State) : (isrStart s).frames = s.frames := rfl
@[simp] theorem isrStart_fg (s : State) : (isrStart s).fg = s.fg := rfl
@[simp] theorem isrStart_isr (s : State) : (isrStart s).isr = { active := true, code := [.read .esr .hi1] } := rfl
@[simp] theorem isrStart_refused (s : State) : (isrStart s).refused = s.refused := rfl
@[simp] theorem isrStart_trace (s : State) : (isrStart s).trace = s.trace := rfl
@[simp] theorem isrStart_lock (s : State) : (isrStart s).lock = s.lock := rfl
@[simp] theorem isrStart_fifoq (s : State) : (isrStart s).fifoq = s.fifoq := rfl
@[simp] theorem isrStart_moveIn (s : State) : (isrStart s).moveIn = s.moveIn := rfl
@[simp] theorem isrStart_draws (s : State) : (isrStart s).draws = s.draws := rfl
@[simp] theorem isrStart_program (s : State) : (isrStart s).program = s.program := rfl
@[simp] theorem isrStart_sched (s : State) : (isrStart s).sched = s.sched := rfl
@[simp] theorem isrStart_supply (s : State) : (isrStart s).supply = s.supply := rfl

/-! ### isrReturn -/

@[simp] theorem isrReturn_par (s : State) : (isrReturn s).par = s.par := rfl
@[simp] theorem isrReturn_regs (s : State) : (isrReturn s).regs = s.regs := rfl
@[simp] theorem isrReturn_handle (s : State) : (isrReturn s).handle = s.handle := rfl
@[simp] theorem isrReturn_frames (s : State) : (isrReturn s).frames = s.frames := rfl
@[simp] theorem isrReturn_fg (s : State) : (isrReturn s).fg = s.fg := rfl
@[simp] theorem isrReturn_isr (s : State) : (isrReturn s).isr = { active := false, code := [] } := rfl
@[simp] theorem isrReturn_refused (s : State) : (isrReturn s).refused = s.refused := rfl
@[simp] theorem isrReturn_trace (s : State) : (isrReturn s).trace = s.trace := rfl
@[simp] theorem isrReturn_lock (s : State) : (isrReturn s).lock = s.lock := rfl
@[simp] theorem isrReturn_fifoq (s : State) : (isrReturn s).fifoq = s.fifoq := rfl
@[simp] theorem isrReturn_moveIn (s : State) : (isrReturn s).moveIn = s.moveIn := rfl
@[simp] theorem isrReturn_draws (s : State) : (isrReturn s).draws = s.draws := rfl
@[simp] theorem isrReturn_program (s : State) : (isrReturn s).program = s.program := rfl
@[simp] theorem isrReturn_sched (s : State) : (isrReturn s).sched = s.sched := rfl
@[simp] theorem isrReturn_supply (s : State) : (isrReturn s).supply = s.supply := rfl

/-! ### writeFrame -/

@[simp] theorem writeFrame_par (s : State) (r : FrameRef) (f : Frame) : (writeFrame r f s).par = s.par := rfl
@[simp] theorem writeFrame_regs (s : State) (r : FrameRef) (f : Frame) : (writeFrame r f s).regs = s.regs := rfl
@[simp] theorem writeFrame_handle (s : State) (r : FrameRef) (f : Frame) : (writeFrame r f s).handle = s.handle := rfl
@[simp] theorem writeFrame_frames (s : State) (r : FrameRef) (f : Frame) : (writeFrame r f s).frames = framesSet s.frames r f := rfl
@[simp] theorem writeFrame_fg (s : State) (r : FrameRef) (f : Frame) : (writeFrame r f s).fg = s.fg := rfl
@[simp] theorem writeFrame_isr (s : State) (r : FrameRef) (f : Frame) : (writeFrame r f s).isr = s.isr := rfl
@[simp] theorem writeFrame_refused (s : State) (r : FrameRef) (f : Frame) : (writeFrame r f s).refused = s.refused := rfl
@[simp] theorem writeFrame_trace (s : State) (r : FrameRef) (f : Frame) : (writeFrame r f s).trace = s.trace := rfl
@[simp] theorem writeFrame_lock (s : State) (r : FrameRef) (f : Frame) : (writeFrame r f s).lock = s.lock := rfl
@[simp] theorem writeFrame_fifoq (s : State) (r : FrameRef) (f : Frame) : (writeFrame r f s).fifoq = s.fifoq := rfl
@[simp] theorem writeFrame_moveIn (s : State) (r : FrameRef) (f : Frame) : (writeFrame r f s).moveIn = s.moveIn := rfl
@[simp] theorem writeFrame_draws (s : State) (r : FrameRef) (f : Frame) : (writeFrame r f s).draws = s.draws := rfl
@[simp] theorem writeFrame_program (s : State) (r : FrameRef) (f : Frame) : (writeFrame r f s).program = s.program := rfl
@[simp] theorem writeFrame_sched (s : State) (r : FrameRef) (f : Frame) : (writeFrame r f s).sched = s.sched := rfl
@[simp] theorem writeFrame_supply (s : State) (r : FrameRef) (f : Frame) : (writeFrame r f s).supply = s.supply := rfl

/-! ### drawWord -/

@[simp] theorem drawWord_par (s : State) : ((drawWord s).2).par = s.par := rfl
@[simp] theorem drawWord_regs (s : State) : ((drawWord s).2).regs = s.regs := rfl
@[simp] theorem drawWord_handle (s : State) : ((drawWord s).2).handle = s.handle := rfl
@[simp] theorem drawWord_frames (s : State) : ((drawWord s).2).frames = s.frames := rfl
@[simp] theorem drawWord_fg (s : State) : ((drawWord s).2).fg = s.fg := rfl
@[simp] theorem drawWord_isr (s : State) : ((drawWord s).2).isr = s.isr := rfl
@[simp] theorem drawWord_refused (s : State) : ((drawWord s).2).refused = s.refused := rfl
@[simp] theorem drawWord_trace (s : State) : ((drawWord s).2).trace = s.trace := rfl
@[simp] theorem drawWord_lock (s : State) : ((drawWord s).2).lock = s.lock := rfl
@[simp] theorem drawWord_fifoq (s : State) : ((drawWord s).2).fifoq = s.fifoq := rfl
@[simp] theorem drawWord_moveIn (s : State) : ((drawWord s).2).moveIn = s.moveIn := rfl
@[simp] theorem drawWord_draws (s : State) : ((drawWord s).2).draws = s.draws + 1 := rfl
@[simp] theorem drawWord_program (s : State) : ((drawWord s).2).program = s.program := rfl
@[simp] theorem drawWord_sched (s : State) : ((drawWord s).2).sched = s.sched := rfl
@[simp] theorem drawWord_supply (s : State) : ((drawWord s).2).supply = s.supply := rfl

/-! ### writeIflag -/

@[simp] theorem writeIflag_par (s : State) (w : Word) : (writeIflag w s).par = s.par := rfl
@[simp] theorem writeIflag_regs (s : State) (w : Word) : (writeIflag w s).regs = { s.regs with iflag1 := s.regs.iflag1 &&& ~~~ w } := rfl
@[simp] theorem writeIflag_handle (s : State) (w : Word) : (writeIflag w s).handle = s.handle := rfl
@[simp] theorem writeIflag_frames (s : State) (w : Word) : (writeIflag w s).frames = s.frames := rfl
@[simp] theorem writeIflag_fg (s : State) (w : Word) : (writeIflag w s).fg = s.fg := rfl
@[simp] theorem writeIflag_isr (s : State) (w : Word) : (writeIflag w s).isr = s.isr := rfl
@[simp] theorem writeIflag_refused (s : State) (w : Word) : (writeIflag w s).refused = s.refused := rfl
@[simp] theorem writeIflag_trace (s : State) (w : Word) : (writeIflag w s).trace = s.trace := rfl
@[simp] theorem writeIflag_lock (s : State) (w : Word) : (writeIflag w s).lock = s.lock := rfl
@[simp] theorem writeIflag_fifoq (s : State) (w : Word) : (writeIflag w s).fifoq = (if getBit .rfen s.regs.mcr && fifoAvail s.regs && w.getLsbD Config.fifoAvail then s.fifoq.tail
      else s.fifoq) := rfl
@[simp] theorem writeIflag_moveIn (s : State) (w : Word) : (writeIflag w s).moveIn = s.moveIn := rfl
@[simp] theorem writeIflag_draws (s : State) (w : Word) : (writeIflag w s).draws = s.draws := rfl
@[simp] theorem writeIflag_program (s : State) (w : Word) : (writeIflag w s).program = s.program := rfl
@[simp] theorem writeIflag_sched (s : State) (w : Word) : (writeIflag w s).sched = s.sched := rfl
@[simp] theorem writeIflag_supply (s : State) (w : Word) : (writeIflag w s).supply = s.supply := rfl

/-! ### begin -/

@[simp] theorem begin_par (s : State) (i : Instr) (code : List Micro) : (begin i code s).par = s.par := rfl
@[simp] theorem begin_regs (s : State) (i : Instr) (code : List Micro) : (begin i code s).regs = s.regs := rfl
@[simp] theorem begin_handle (s : State) (i : Instr) (code : List Micro) : (begin i code s).handle = s.handle := rfl
@[simp] theorem begin_frames (s : State) (i : Instr) (code : List Micro) : (begin i code s).frames = s.frames := rfl
@[simp] theorem begin_fg (s : State) (i : Instr) (code : List Micro) : (begin i code s).fg = { s.fg with op := some i, code := code, window := false } := rfl
@[simp] theorem begin_isr (s : State) (i : Instr) (code : List Micro) : (begin i code s).isr = s.isr := rfl
@[simp] theorem begin_refused (s : State) (i : Instr) (code : List Micro) : (begin i code s).refused = s.refused := rfl
@[simp] theorem begin_trace (s : State) (i : Instr) (code : List Micro) : (begin i code s).trace = s.trace := rfl
@[simp] theorem begin_lock (s : State) (i : Instr) (code : List Micro) : (begin i code s).lock = s.lock := rfl
@[simp] theorem begin_fifoq (s : State) (i : Instr) (code : List Micro) : (begin i code s).fifoq = s.fifoq := rfl
@[simp] theorem begin_moveIn (s : State) (i : Instr) (code : List Micro) : (begin i code s).moveIn = s.moveIn := rfl
@[simp] theorem begin_draws (s : State) (i : Instr) (code : List Micro) : (begin i code s).draws = s.draws := rfl
@[simp] theorem begin_program (s : State) (i : Instr) (code : List Micro) : (begin i code s).program = s.program := rfl
@[simp] theorem begin_sched (s : State) (i : Instr) (code : List Micro) : (begin i code s).sched = s.sched := rfl
@[simp] theorem begin_supply (s : State) (i : Instr) (code : List Micro) : (begin i code s).supply = s.supply := rfl

/-! ### setBits -/

@[simp] theorem setBits_par (s : State) (r : Reg) (m : Word) : (setBits r m s).par = s.par := rfl
@[simp] theorem setBits_regs (s : State) (r : Reg) (m : Word) : (setBits r m s).regs = s.regs.set r (s.regs.get r ||| m) := rfl
@[simp] theorem setBits_handle (s : State) (r : Reg) (m : Word) : (setBits r m s).handle = s.handle := rfl
@[simp] theorem setBits_frames (s : State) (r : Reg) (m : Word) : (setBits r m s).frames = s.frames := rfl
@[simp] theorem setBits_fg (s : State) (r : Reg) (m : Word) : (setBits r m s).fg = s.fg := rfl
@[simp] theorem setBits_isr (s : State) (r : Reg) (m : Word) : (setBits r m s).isr = s.isr := rfl
@[simp] theorem setBits_refused (s : State) (r : Reg) (m : Word) : (setBits r m s).refused = s.refused := rfl
@[simp] theorem setBits_trace (s : State) (r : Reg) (m : Word) : (setBits r m s).trace = s.trace := rfl
@[simp] theorem setBits_lock (s : State) (r : Reg) (m : Word) : (setBits r m s).lock = s.lock := rfl
@[simp] theorem setBits_fifoq (s : State) (r : Reg) (m : Word) : (setBits r m s).fifoq = s.fifoq := rfl
@[simp] theorem setBits_moveIn (s : State) (r : Reg) (m : Word) : (setBits r m s).moveIn = s.moveIn := rfl
@[simp] theorem setBits_draws (s : State) (r : Reg) (m : Word) : (setBits r m s).draws = s.draws := rfl
@[simp] theorem setBits_program (s : State) (r : Reg) (m : Word) : (setBits r m s).program = s.program := rfl
@[simp] theorem setBits_sched (s : State) (r : Reg) (m : Word) : (setBits r m s).sched = s.sched := rfl
@[simp] theorem setBits_supply (s : State) (r : Reg) (m : Word) : (setBits r m s).supply = s.supply := rfl

/-! ### clearBits -/

@[simp] theorem clearBits_par (s : State) (r : Reg) (m : Word) : (clearBits r m s).par = s.par := rfl
@[simp] theorem clearBits_regs (s : State) (r : Reg) (m : Word) : (clearBits r m s).regs = s.regs.set r (s.regs.get r &&& ~~~ m) := rfl
@[simp] theorem clearBits_handle (s : State) (r : Reg) (m : Word) : (clearBits r m s).handle = s.handle := rfl
@[simp] theorem clearBits_frames (s : State) (r : Reg) (m : Word) : (clearBits r m s).frames = s.frames := rfl
@[simp] theorem clearBits_fg (s : State) (r : Reg) (m : Word) : (clearBits r m s).fg = s.fg := rfl
@[simp] theorem clearBits_isr (s : State) (r : Reg) (m : Word) : (clearBits r m s).isr = s.isr := rfl
@[simp] theorem clearBits_refused (s : State) (r : Reg) (m : Word) : (clearBits r m s).refused = s.refused := rfl
@[simp] theorem clearBits_trace (s : State) (r : Reg) (m : Word) : (clearBits r m s).trace = s.trace := rfl
@[simp] theorem clearBits_lock (s : State) (r : Reg) (m : Word) : (clearBits r m s).lock = s.lock := rfl
@[simp] theorem clearBits_fifoq (s : State) (r : Reg) (m : Word) : (clearBits r m s).fifoq = s.fifoq := rfl
@[simp] theorem clearBits_moveIn (s : State) (r : Reg) (m : Word) : (clearBits r m s).moveIn = s.moveIn := rfl
@[simp] theorem clearBits_draws (s : State) (r : Reg) (m : Word) : (clearBits r m s).draws = s.draws := rfl
@[simp] theorem clearBits_program (s : State) (r : Reg) (m : Word) : (clearBits r m s).program = s.program := rfl
@[simp] theorem clearBits_sched (s : State) (r : Reg) (m : Word) : (clearBits r m s).sched = s.sched := rfl
@[simp] theorem clearBits_supply (s : State) (r : Reg) (m : Word) : (clearBits r m s).supply = s.supply := rfl

end Sys2Proof.Machine
end

