-- ==== Sys2Proof/Laws/Frames.lean ====
section
/-! SUPPORT. The laws of the frame store: reads after writes, the canonical form, and that every write keeps it. -/

namespace Sys2Proof.Machine

theorem framesGet_low (l : List (Nat × Frame)) (b r : Nat) (h : framesWfAbove b l = true) (hr : r < b) :
    framesGet l r = Frame.empty := by
  induction l generalizing b with
  | nil => rfl
  | cons a t ih =>
    obtain ⟨k, f⟩ := a
    simp only [framesWfAbove, Bool.and_eq_true, decide_eq_true_eq] at h
    have hk : k ≠ r := by omega
    simp only [framesGet, hk, ↓reduceIte]
    exact ih (k + 1) h.2 (by omega)

theorem framesWfAbove_mono (l : List (Nat × Frame)) {b c : Nat} (h : framesWfAbove c l = true) (hb : b ≤ c) :
    framesWfAbove b l = true := by
  cases l with
  | nil => rfl
  | cons a t =>
    obtain ⟨k, f⟩ := a
    simp only [framesWfAbove, Bool.and_eq_true, decide_eq_true_eq] at h ⊢
    exact ⟨⟨by omega, h.1.2⟩, h.2⟩

theorem framesSet_wfAbove (l : List (Nat × Frame)) (b r : Nat) (f : Frame) (h : framesWfAbove b l = true) (hr : b ≤ r) :
    framesWfAbove b (framesSet l r f) = true := by
  induction l generalizing b with
  | nil =>
    simp only [framesSet]
    split
    · rfl
    · simp [framesWfAbove, *]
  | cons a t ih =>
    obtain ⟨k, g⟩ := a
    simp only [framesWfAbove, Bool.and_eq_true, decide_eq_true_eq] at h
    simp only [framesSet]
    split
    · split
      · simp [framesWfAbove, h]
      · simp only [framesWfAbove, Bool.and_eq_true, decide_eq_true_eq]
        exact ⟨⟨hr, by assumption⟩, ⟨⟨by omega, h.1.2⟩, h.2⟩⟩
    · split
      · split
        · exact framesWfAbove_mono t h.2 (by omega)
        · simp only [framesWfAbove, Bool.and_eq_true, decide_eq_true_eq]
          subst_vars
          exact ⟨⟨hr, by assumption⟩, h.2⟩
      · simp only [framesWfAbove, Bool.and_eq_true, decide_eq_true_eq]
        exact ⟨h.1, ih (k + 1) h.2 (by omega)⟩

/-- Every write keeps the canonical form. -/
theorem framesSet_wf (l : List (Nat × Frame)) (r : Nat) (f : Frame) (h : Memory.wf l = true) :
    Memory.wf (framesSet l r f) = true := framesSet_wfAbove l 0 r f h (Nat.zero_le r)

/-- A read of the slot written gives the frame written. -/
theorem framesGet_framesSet_self (l : List (Nat × Frame)) (b r : Nat) (f : Frame) (h : framesWfAbove b l = true) :
    framesGet (framesSet l r f) r = f := by
  induction l generalizing b with
  | nil =>
    simp only [framesSet]
    split <;> simp [framesGet, *]
  | cons a t ih =>
    obtain ⟨k, g⟩ := a
    simp only [framesWfAbove, Bool.and_eq_true, decide_eq_true_eq] at h
    simp only [framesSet]
    split
    · have hk : k ≠ r := by omega
      split
      · simp only [framesGet, hk, ↓reduceIte]
        rw [framesGet_low t (k + 1) r h.2 (by omega)]; symm; assumption
      · simp [framesGet]
    · split
      · split
        · subst_vars
          exact framesGet_low t _ _ h.2 (Nat.lt_succ_self _)
        · simp [framesGet]
      · rename_i hk
        simp only [framesGet, hk, ↓reduceIte]
        exact ih (k + 1) h.2

/-- A write leaves every other slot as it was. -/
theorem framesGet_framesSet_ne (l : List (Nat × Frame)) {r r' : Nat} (f : Frame) (hr : r ≠ r') :
    framesGet (framesSet l r f) r' = framesGet l r' := by
  induction l with
  | nil =>
    simp only [framesSet]
    split <;> simp [framesGet, hr]
  | cons a t ih =>
    obtain ⟨k, g⟩ := a
    simp only [framesSet]
    split
    · split
      · rfl
      · simp [framesGet, hr]
    · split
      · split <;> simp_all [framesGet]
      · simp only [framesGet, ih]

/-- The power-on frame store has the canonical form. -/
theorem reset_frames_wf : Memory.wf State.reset.frames = true := rfl

/-- A read of the frame slot written, and of every other one, in terms of the state. -/
theorem readFrame_writeFrame (r r' : FrameRef) (f : Frame) (s : State) (h : Memory.wf s.frames = true) :
    readFrame r' (writeFrame r f s) = if r' = r then f else readFrame r' s := by
  split
  · subst_vars; exact framesGet_framesSet_self _ 0 _ _ h
  · exact framesGet_framesSet_ne _ _ (by intro h; exact absurd h.symm (by assumption))

end Sys2Proof.Machine
end

