-- ==== Sys2Proof/Laws/Registers.lean ====
section
/-! SUPPORT. The laws of the register resource: banks, register words, what a read and a write of a register
can do (20 R105-R107, 10 R60), and what a field write leaves. -/

namespace Sys2Proof.Machine

/-! ### Banks -/

@[simp] theorem bankGet_bankSet_self {α : Type} [Inhabited α] {n : Nat} (v : Vector α n) {i : Nat} (h : i < n) (x : α) :
    bankGet (bankSet v i x) i = x := by
  simp [bankGet, bankSet, h]

theorem bankGet_bankSet_ne {α : Type} [Inhabited α] {n : Nat} (v : Vector α n) {i j : Nat} (h : i ≠ j) (x : α) :
    bankGet (bankSet v i x) j = bankGet v j := by
  simp [bankGet, bankSet, h]

theorem bankSet_oob {α : Type} {n : Nat} (v : Vector α n) {i : Nat} (h : n ≤ i) (x : α) : bankSet v i x = v := by
  simp [bankSet, Vector.setIfInBounds_eq_of_size_le, h]

/-- Writing an entry with the value it holds changes nothing. -/
theorem bankSet_bankGet {α : Type} [Inhabited α] {n : Nat} (v : Vector α n) (i : Nat) : bankSet v i (bankGet v i) = v := by
  by_cases h : i < n
  · ext j hj
    by_cases hij : i = j
    · subst hij; simp [bankSet, bankGet, h]
    · simp [bankSet, hij]
  · exact bankSet_oob v (by omega) _

/-- A second write of an entry replaces the first. -/
@[simp] theorem bankSet_bankSet {α : Type} {n : Nat} (v : Vector α n) (i : Nat) (x y : α) :
    bankSet (bankSet v i x) i y = bankSet v i y := by
  ext j hj
  by_cases hij : i = j <;> simp [bankSet, hij]

/-! ### Mailbox words and register words -/

@[simp] theorem Mb.get_set_self (m : Mb) (k : MbWord) (w : Word) : (m.set k w).get k = w := by cases k <;> rfl

theorem Mb.get_set_ne (m : Mb) {k k' : MbWord} (h : k ≠ k') (w : Word) : (m.set k w).get k' = m.get k' := by
  cases k <;> cases k' <;> first | rfl | exact absurd rfl h

/-- A register that exists reads the word stored in it; TIMER keeps 16 bits of it (10 R48). -/
theorem Regs.get_set_self (g : Regs) (r : Reg) (w : Word) (hv : r.valid = true) (ht : r ≠ .timer) :
    (g.set r w).get r = w := by
  cases r <;> first
    | rfl
    | exact absurd rfl ht
    | (simp only [Reg.valid, decide_eq_true_eq] at hv; simp [Regs.get, Regs.set, hv])

/-- Writing a register leaves every other register word as it was. -/
theorem Regs.get_set_ne (g : Regs) {r r' : Reg} (w : Word) (h : r ≠ r') : (g.set r w).get r' = g.get r' := by
  cases r <;> cases r' <;> first
    | rfl
    | exact absurd rfl h
    | skip
  · rename_i i k i' k'
    by_cases hi : i = i'
    · subst hi
      have hk : k ≠ k' := by rintro rfl; exact h rfl
      by_cases hb : i < 32
      · simp [Regs.get, Regs.set, hb, Mb.get_set_ne _ hk]
      · simp [Regs.get, Regs.set, bankSet_oob g.mb (by omega : 32 ≤ i)]
    · simp [Regs.get, Regs.set, bankGet_bankSet_ne _ hi]
  · rename_i i i'
    have hi : i ≠ i' := by rintro rfl; exact h rfl
    simp [Regs.get, Regs.set, bankGet_bankSet_ne _ hi]

/-! ### Reading a register -/

theorem readOrDraw_cases (b : Bool) (w : Word) (s : State) :
    (b = false ∧ readOrDraw b w s = (w, s)) ∨
      (b = true ∧ readOrDraw b w s = (Config.freeWord s.draws, { s with draws := s.draws + 1 })) := by
  cases b
  · exact .inl ⟨rfl, rfl⟩
  · exact .inr ⟨rfl, rfl⟩

/-- A register read changes at most the lock and the count of draws. -/
theorem readReg_state (r : Reg) (s : State) :
    (readReg r s).2 = { s with lock := (readReg r s).2.lock, draws := (readReg r s).2.draws } := by
  unfold readReg
  split <;> simp only [readOrDraw] <;> (try split) <;> rfl

/-- The words no read of which is ever a draw. -/
theorem readReg_plain (r : Reg) (s : State) (h : ∀ i k, r ≠ .mb i k) (h1 : r ≠ .rxfir) (h2 : r ≠ .timer) :
    readReg r s = (s.regs.get r, s) := by
  cases r <;> first
    | rfl
    | exact absurd rfl h1
    | exact absurd rfl h2
    | exact absurd rfl (h _ _)

@[simp] theorem readReg_mcr (s : State) : readReg .mcr s = (s.regs.mcr, s) := rfl
@[simp] theorem readReg_ctrl1 (s : State) : readReg .ctrl1 s = (s.regs.ctrl1, s) := rfl
@[simp] theorem readReg_ctrl2 (s : State) : readReg .ctrl2 s = (s.regs.ctrl2, s) := rfl
@[simp] theorem readReg_esr (s : State) : readReg .esr s = (s.regs.esr, s) := rfl
@[simp] theorem readReg_imask1 (s : State) : readReg .imask1 s = (s.regs.imask1, s) := rfl
@[simp] theorem readReg_iflag1 (s : State) : readReg .iflag1 s = (s.regs.iflag1, s) := rfl
@[simp] theorem readReg_dbg (s : State) : readReg .dbg s = (s.regs.dbg, s) := rfl
@[simp] theorem readReg_timer (s : State) :
    readReg .timer s = (s.regs.timer.setWidth 32, { s with lock := none }) := rfl

/-- The CS word of a mailbox that is not a hidden FIFO head reads as stored, and its read takes the lock. -/
theorem readReg_cs (i : Nat) (s : State) (h : headHidden i s = false) :
    readReg (.mb i .cs) s = (s.regs.get (.mb i .cs), { s with lock := some i }) := by
  have h' : headHidden i { s with lock := some i } = false := h
  simp [readReg, readOrDraw, h]

/-- The other words of a mailbox that is neither hidden nor busy read as stored. -/
theorem readReg_word (i : Nat) (k : MbWord) (s : State) (hk : k ≠ .cs) (h : headHidden i s = false)
    (hb : mbBusy i s = false) : readReg (.mb i k) s = (s.regs.get (.mb i k), s) := by
  cases k <;> first
    | exact absurd rfl hk
    | simp [readReg, readOrDraw, h, hb]

/-! ### Writing a register -/

/-- A register write changes at most the registers, the FIFO's queue and the notes on a move-in. -/
theorem writeReg_state (r : Reg) (w : Word) (s : State) :
    writeReg r w s =
      { s with regs := (writeReg r w s).regs, fifoq := (writeReg r w s).fifoq, moveIn := (writeReg r w s).moveIn } := by
  cases r <;> rfl

/-- Every register that no rule gives a special write (20 R106, R107) takes the word. -/
theorem writeReg_plain (r : Reg) (w : Word) (s : State) (h1 : r ≠ .mcr) (h2 : r ≠ .esr) (h3 : r ≠ .iflag1)
    (h4 : r ≠ .timer) (h5 : r ≠ .rxfir) (h6 : r ≠ .dbg) (h7 : ∀ i k, r ≠ .mb i k) :
    writeReg r w s = { s with regs := s.regs.set r w } := by
  cases r <;> first
    | rfl
    | exact absurd rfl h1
    | exact absurd rfl h2
    | exact absurd rfl h3
    | exact absurd rfl h4
    | exact absurd rfl h5
    | exact absurd rfl h6
    | exact absurd rfl (h7 _ _)

/-- A word of a mailbox with no move-in under way takes the word written, and nothing else changes. -/
theorem writeReg_mb (i : Nat) (k : MbWord) (w : Word) (s : State) (h : bankGet s.moveIn i = none) :
    writeReg (.mb i k) w s = { s with regs := s.regs.set (.mb i k) w } := by
  have : bankSet s.moveIn i ((bankGet s.moveIn i).map (·.note k)) = s.moveIn := by
    rw [h, Option.map_none, ← h, bankSet_bankGet]
  simp [writeReg, noteWrite, this]

/-- The note of a write changes at most the notes on a move-in. -/
theorem noteWrite_state (r : Reg) (s : State) : noteWrite r s = { s with moveIn := (noteWrite r s).moveIn } := by
  cases r <;> rfl

/-- The scramble of registers changes at most the registers and the count of draws. -/
theorem scramble_state (rs : List Reg) (s : State) :
    scramble rs s = { s with regs := (scramble rs s).regs, draws := (scramble rs s).draws } := by
  induction rs generalizing s with
  | nil => rfl
  | cons r t ih => rw [scramble, ih]; rfl

/-- The overwrite of a register changes at most the registers, the notes on a move-in and the count of draws. -/
theorem overwrite_state (r : Reg) (s : State) :
    overwrite r s =
      { s with regs := (overwrite r s).regs, moveIn := (overwrite r s).moveIn, draws := (overwrite r s).draws } := by
  rw [overwrite, noteWrite_state, scramble_state]

/-- Taking a frame changes at most the count of draws; a frame of length 0..8 is taken as it is (00 R23; log 36). -/
theorem takeFrame_state (f : Frame) (s : State) : (takeFrame f s).2 = { s with draws := (takeFrame f s).2.draws } := by
  simp only [takeFrame]
  split <;> rfl

@[simp] theorem takeFrame_fits (f : Frame) (s : State) (h : f.length ≤ 8) : takeFrame f s = (f, s) := by
  simp [takeFrame, Nat.not_lt.mpr h]

/-- A frame HW draws is a frame of 00 R23, and the draw changes the count of draws alone. -/
theorem drawFrame_fits (s : State) : frameFits (drawFrame s).1 = true := by
  simp [frameFits, drawFrame, frameOf]

theorem drawFrame_state (s : State) : (drawFrame s).2 = { s with draws := s.draws + 4 } := rfl

/-- Putting field values into a word changes at most the count of draws. -/
theorem putFields_state (loose : Bool) (fs : List FieldWrite) (w : Word) (s : State) :
    (putFields loose fs w s).2 = { s with draws := (putFields loose fs w s).2.draws } := by
  induction fs generalizing w s with
  | nil => rfl
  | cons a t ih =>
    obtain ⟨f, v⟩ := a
    cases v with
    | val x =>
      simp only [putFields]
      split
      · rw [ih]; rfl
      · exact ih _ _
    | draw => simp only [putFields]; rw [ih]; rfl

/-- A field write changes at most the registers, the FIFO's queue, the notes on a move-in and the count of draws. -/
theorem writeFields_state (r : Reg) (fs : List FieldWrite) (old : Word) (s : State) :
    writeFields r fs old s =
      { s with
        regs := (writeFields r fs old s).regs
        fifoq := (writeFields r fs old s).fifoq
        moveIn := (writeFields r fs old s).moveIn
        draws := (writeFields r fs old s).draws } := by
  simp only [writeFields]
  rw [writeReg_state, putFields_state]

/-- The word a field write computes when none of its values is a draw. -/
def plainFields : List (Field × Word) → Word → Word
  | [], w => w
  | (f, x) :: t, w => plainFields t (putField f x w)

/-- Values that are no draws are put in as they are: the word is not CTRL1, the mode is Frozen, or no timing
field is among them (41 R264). -/
theorem putFields_val (loose : Bool) (fs : List (Field × Word)) (w : Word) (s : State)
    (h : loose = false ∨ ∀ p ∈ fs, Field.timing.contains p.1 = false) :
    putFields loose (fs.map fun p => (p.1, .val p.2)) w s = (plainFields fs w, s) := by
  induction fs generalizing w with
  | nil => rfl
  | cons a t ih =>
    have hc : (loose && Field.timing.contains a.1) = false := by
      rcases h with h | h
      · simp [h]
      · rw [h a (by simp), Bool.and_false]
    simp only [List.map_cons, putFields, hc, plainFields, Bool.false_eq_true, ↓reduceIte]
    exact ih _ (h.imp id fun h p hp => h p (by simp [hp]))

/-! ### Fields -/

/-- The bits of a field, by their number. -/
theorem getLsbD_fieldMask (f : Field) (k : Nat) (hk : k < 32) :
    (fieldMask f).getLsbD k = decide (f.lo ≤ k ∧ k ≤ f.hi) := by
  simp only [fieldMask, BitVec.getLsbD_ofNat, hk, decide_true, Bool.true_and, Nat.testBit_mul_two_pow,
    Nat.testBit_two_pow_sub_one]
  by_cases h : f.lo ≤ k <;> simp [h] <;> omega

/-- What a field write leaves in each bit: the value's bit inside the field, the old bit outside. -/
theorem getLsbD_putField (f : Field) (v w : Word) (k : Nat) (hk : k < 32) :
    (putField f v w).getLsbD k = if f.lo ≤ k ∧ k ≤ f.hi then v.getLsbD (k - f.lo) else w.getLsbD k := by
  simp only [putField, BitVec.getLsbD_or, BitVec.getLsbD_and, BitVec.getLsbD_not, BitVec.getLsbD_shiftLeft,
    getLsbD_fieldMask f k hk, hk, decide_true, Bool.true_and]
  by_cases h : f.lo ≤ k ∧ k ≤ f.hi
  · have : ¬ k < f.lo := by omega
    simp [h, this]
  · simp [h]

/-- The bits of the word with bit i set. -/
theorem getLsbD_oneBit (i k : Nat) (hi : i < 32) : (oneBit i).getLsbD k = decide (k = i) := by
  simp only [oneBit, BitVec.getLsbD_ofNat, Nat.testBit_two_pow]
  by_cases h : i = k
  · subst h; simp [hi]
  · simp [h, Ne.symm h]

/-- What a core write of MCR leaves in each bit (10 R35, 20 R107). -/
theorem getLsbD_mcrAfterWrite (old w : Word) (k : Nat) (hk : k < 32) :
    (mcrAfterWrite old w).getLsbD k
      = if k = 27 ∨ k = 24 ∨ k = 20 then old.getLsbD k
        else if k = 25 then (w.getLsbD k || old.getLsbD k) else w.getLsbD k := by
  simp only [mcrAfterWrite, mcrReadOnly, BitVec.getLsbD_or, BitVec.getLsbD_and, BitVec.getLsbD_not, hk, decide_true,
    Bool.true_and, getLsbD_oneBit _ k (by decide : 27 < 32), getLsbD_oneBit _ k (by decide : 24 < 32),
    getLsbD_oneBit _ k (by decide : 20 < 32), getLsbD_oneBit _ k (by decide : 25 < 32)]
  by_cases h1 : k = 27
  · simp [h1]
  by_cases h2 : k = 24
  · simp [h2]
  by_cases h3 : k = 20
  · simp [h3]
  by_cases h4 : k = 25
  · simp [h4]
  · simp [h1, h2, h3, h4]

/-- Writing back the MCR word read leaves MCR as it was. -/
theorem mcrAfterWrite_self (w : Word) : mcrAfterWrite w w = w := by
  ext k hk
  simp only [BitVec.getElem_eq_testBit_toNat]
  have := getLsbD_mcrAfterWrite w w k hk
  simp only [BitVec.getLsbD] at this
  rw [this]
  split
  · rfl
  · split <;> simp

end Sys2Proof.Machine
end

