-- ==== Sys2Proof/Laws/Run.lean ====
section
/-! SUPPORT. How a burst runs: one turn, a chain of turns, the turns of an operation that FG has begun. A proof
about an instruction shows a chain of turns from `begin` to the state it leaves, and closes with `issue_runs`. -/

namespace Sys2Proof.Machine

/-! ### One turn and a burst of turns -/

/-- The turn a burst takes. -/
def turn (s : State) : State :=
  match nextTurn s with
  | none => aloneTurn s
  | some (m, t) => tick m t

/-- The next turn is a boundary. -/
def atYield (s : State) : Bool := (nextTurn s).map (·.1) == some .yield

theorem burst_halted (n : Nat) (s : State) (h : halted s = true) : burst n s = s := by
  cases n with
  | zero => rfl
  | succ n => simp [burst, h]

theorem burst_succ (n : Nat) (s : State) (h : halted s = false) (hy : atYield s = false) :
    burst (n + 1) s = burst n (turn s) := by
  rw [burst, if_neg (by simp [h])]
  unfold turn
  cases hs : nextTurn s with
  | none => rfl
  | some p =>
    obtain ⟨m, t⟩ := p
    cases m <;> first | rfl | (simp [atYield, hs] at hy)

/-- No turn is listed and none follows: the agents and HW's duties go on alone. -/
abbrev Alone (s : State) : Prop := s.sched = [] ∧ s.supply = .quiet

theorem Alone.nextTurn {s : State} (h : Alone s) : nextTurn s = none := by simp [Machine.nextTurn, h.1, h.2]

theorem nextTurn_cons {s : State} {m : Move} {q : List Move} (h : s.sched = m :: q) :
    nextTurn s = some (m, { s with sched := q }) := by simp [nextTurn, h]

/-- A chain of k turns from one state to another. -/
inductive Reach : Nat → State → State → Prop where
  | refl (s : State) : Reach 0 s s
  | step {k : Nat} {s t : State} (h : halted s = false) (hy : atYield s = false) (hr : Reach k (turn s) t) :
    Reach (k + 1) s t

theorem Reach.trans {j k : Nat} {s t u : State} (h : Reach j s t) (h' : Reach k t u) : Reach (j + k) s u := by
  induction h with
  | refl => simpa using h'
  | step hh hy _ ih => rw [Nat.add_right_comm]; exact .step hh hy (ih h')

/-- A burst with turns enough ends where the chain ends. -/
theorem burst_of_reach {k n : Nat} {s t : State} (h : Reach k s t) (ht : halted t = true) (hn : k ≤ n) :
    burst n s = t := by
  induction h generalizing n with
  | refl => exact burst_halted _ _ ht
  | step hh hy _ ih =>
    obtain ⟨m, rfl⟩ : ∃ m, n = m + 1 := ⟨n - 1, by omega⟩
    rw [burst_succ _ _ hh hy]
    exact ih ht (by omega)

/-! ### What a micro-step never changes -/

/-- No micro-step changes the parameters, the program, the schedule or the refusal mark. -/
theorem micro_frame (m : Micro) (s : State) :
    (micro m s).2.par = s.par ∧ (micro m s).2.program = s.program ∧ (micro m s).2.sched = s.sched
      ∧ (micro m s).2.supply = s.supply ∧ (micro m s).2.refused = s.refused := by
  cases m <;> simp only [micro]
  case read r k => rw [readReg_state]; exact ⟨rfl, rfl, rfl, rfl, rfl⟩
  case write r w => rw [writeReg_state]; exact ⟨rfl, rfl, rfl, rfl, rfl⟩
  case modify r fs old => rw [writeFields_state]; exact ⟨rfl, rfl, rfl, rfl, rfl⟩
  case poll r f v b k =>
    split
    · rw [readReg_state]; exact ⟨rfl, rfl, rfl, rfl, rfl⟩
    · split
      · rw [readReg_state]; exact ⟨rfl, rfl, rfl, rfl, rfl⟩
      · split <;> rw [readReg_state] <;> exact ⟨rfl, rfl, rfl, rfl, rfl⟩
  case leaveWindow m => rw [writeReg_state]; exact ⟨rfl, rfl, rfl, rfl, rfl⟩
  case readFrame r a => rw [takeFrame_state]; exact ⟨rfl, rfl, rfl, rfl, rfl⟩
  case overwrite r => rw [overwrite_state]; exact ⟨rfl, rfl, rfl, rfl, rfl⟩
  case scramble rs => rw [scramble_state]; exact ⟨rfl, rfl, rfl, rfl, rfl⟩
  case callback st res => split <;> exact ⟨rfl, rfl, rfl, rfl, rfl⟩
  case ret r => simp only [fgReturn]; split <;> exact ⟨rfl, rfl, rfl, rfl, rfl⟩
  case retNoTiming => simp only [fgReturn]; split <;> exact ⟨rfl, rfl, rfl, rfl, rfl⟩
  all_goals simp

/-- Micro-steps that neither read nor write the state of FG or ISR: every access, but for the erratum's window
and the returns. -/
def plainMicro : Micro → Bool
  | .enterWindow _ | .leaveWindow _ | .ret _ | .retNoTiming | .isrReturn => false
  | .read _ _ | .write _ _ | .modify _ _ _ | .poll _ _ _ _ _ | .overwrite _ | .scramble _ | .readState _ _ | .writeState _ _ | .readBuf _ _
  | .writeBuf _ _ | .writeStamp _ _ | .writeCallback _ _ | .setCreated | .readFrame _ _ | .writeFrame _ _
  | .stampFrame _ _ | .callback _ _ => true

theorem readOrDraw_fg (b : Bool) (w : Word) (s : State) (f : Fg) :
    readOrDraw b w { s with fg := f } = ((readOrDraw b w s).1, { (readOrDraw b w s).2 with fg := f }) := by
  cases b <;> rfl

theorem readReg_fg (r : Reg) (s : State) (f : Fg) :
    readReg r { s with fg := f } = ((readReg r s).1, { (readReg r s).2 with fg := f }) := by
  cases r <;> try rfl
  case mb i k =>
    cases k with
    | cs => exact readOrDraw_fg (headHidden i s) _ { s with lock := some i } f
    | id => exact readOrDraw_fg (headHidden i s || mbBusy i s) _ s f
    | data0 => exact readOrDraw_fg (headHidden i s || mbBusy i s) _ s f
    | data1 => exact readOrDraw_fg (headHidden i s || mbBusy i s) _ s f
  case rxfir => exact readOrDraw_fg (noHead s) _ s f

theorem writeReg_fg (r : Reg) (w : Word) (s : State) (f : Fg) :
    writeReg r w { s with fg := f } = { writeReg r w s with fg := f } := by
  cases r <;> rfl

theorem scramble_fg (rs : List Reg) (s : State) (f : Fg) :
    scramble rs { s with fg := f } = { scramble rs s with fg := f } := by
  induction rs generalizing s with
  | nil => rfl
  | cons r t ih => simp only [scramble, drawWord]; rw [← ih]

theorem overwrite_fg (r : Reg) (s : State) (f : Fg) :
    overwrite r { s with fg := f } = { overwrite r s with fg := f } := by
  cases r <;> rfl

theorem putFields_fg (loose : Bool) (fs : List FieldWrite) (w : Word) (s : State) (f : Fg) :
    putFields loose fs w { s with fg := f }
      = ((putFields loose fs w s).1, { (putFields loose fs w s).2 with fg := f }) := by
  induction fs generalizing w s with
  | nil => rfl
  | cons a t ih =>
    obtain ⟨g, v⟩ := a
    cases v with
    | val x =>
      simp only [putFields]
      split
      · simp only [drawWord]; rw [← ih]
      · exact ih _ _
    | draw => simp only [putFields, drawWord]; rw [← ih]

theorem writeFields_fg (r : Reg) (fs : List FieldWrite) (old : Word) (s : State) (f : Fg) :
    writeFields r fs old { s with fg := f } = { writeFields r fs old s with fg := f } := by
  simp only [writeFields, State.mode]
  rw [putFields_fg]
  exact writeReg_fg _ _ _ _

theorem takeFrame_fg (g : Frame) (s : State) (f : Fg) :
    takeFrame g { s with fg := f } = ((takeFrame g s).1, { (takeFrame g s).2 with fg := f }) := by
  simp only [takeFrame]
  split <;> rfl

/-- A plain micro-step does the same whatever FG's state is, and leaves it. -/
theorem micro_fg (m : Micro) (s : State) (f : Fg) (h : plainMicro m = true) :
    micro m { s with fg := f } = ((micro m s).1, { (micro m s).2 with fg := f }) := by
  cases m <;> simp only [plainMicro, Bool.false_eq_true] at h <;> simp only [micro]
  case read r k => rw [readReg_fg]
  case write r w => rw [writeReg_fg]
  case modify r fs old => rw [writeFields_fg]
  case poll r f v b k =>
    rw [readReg_fg]
    split
    · rfl
    · split
      · rfl
      · split <;> rfl
  case overwrite r => rw [overwrite_fg]
  case scramble rs => rw [scramble_fg]
  case readFrame r a =>
    rw [show readFrame r { s with fg := f } = readFrame r s from rfl, takeFrame_fg]
  case stampFrame r t => rfl
  case callback st res => split <;> rfl
  all_goals rfl

/-- A plain micro-step leaves ISR's state. -/
theorem micro_isr (m : Micro) (s : State) (h : plainMicro m = true) : (micro m s).2.isr = s.isr := by
  cases m <;> simp only [plainMicro, Bool.false_eq_true] at h <;> simp only [micro]
  case read r k => rw [readReg_state]
  case write r w => rw [writeReg_state]
  case modify r fs old => rw [writeFields_state]
  case poll r f v b k =>
    split
    · rw [readReg_state]
    · split
      · rw [readReg_state]
      · split <;> rw [readReg_state]
  case readFrame r a => rw [takeFrame_state]
  case overwrite r => rw [overwrite_state]
  case scramble rs => rw [scramble_state]
  case callback st res => split <;> rfl
  all_goals rfl

/-! ### Turns of an operation of FG -/

/-- FG can go on: no refusal, ISR not active. -/
def FgFree (s : State) : Prop := s.refused = none ∧ s.isr.active = false

theorem micro_fgFree (m : Micro) (s : State) (h : plainMicro m = true) (hs : FgFree s) : FgFree (micro m s).2 :=
  ⟨(micro_frame m s).2.2.2.2.trans hs.1, by rw [micro_isr m s h]; exact hs.2⟩

theorem fgStep_begin (i : Instr) (m : Micro) (rest : List Micro) (s : State) (h : plainMicro m = true) :
    fgStep (begin i (m :: rest) s) = begin i ((micro m s).1 ++ rest) (micro m s).2 := by
  have hfg : (micro m s).2.fg = s.fg := by
    have := congrArg (fun p => p.2.fg) (micro_fg m s s.fg h)
    simpa using this
  simp only [fgStep, begin_fg]
  have : ({ begin i (m :: rest) s with fg := { s.fg with op := some i, code := rest, window := false } } : State)
      = { s with fg := { s.fg with op := some i, code := rest, window := false } } := rfl
  rw [this, micro_fg m s _ h]
  simp [begin, hfg]

/-- An operation under way alone has no next turn in the schedule. -/
theorem nextTurn_begin_alone (i : Instr) (code : List Micro) {s : State} (h : Alone s) :
    nextTurn (begin i code s) = none := Alone.nextTurn (s := begin i code s) h

/-- The next turn while an operation is under way. -/
theorem nextTurn_begin_cons (i : Instr) (code : List Micro) {s : State} {m : Move} {q : List Move} (h : s.sched = m :: q) :
    nextTurn (begin i code s) = some (m, begin i code { s with sched := q }) := nextTurn_cons (s := begin i code s) h

theorem not_atRest_begin (i : Instr) (code : List Micro) (s : State) (hs : FgFree s) :
    atRest (begin i code s) = false := by simp [atRest, idle, hs.1]

/-- A turn of a schedule is taken while FG is in an operation. -/
theorem Reach.turn {k : Nat} {i : Instr} {code : List Micro} {m : Move} {q : List Move} {s t : State} (hs : FgFree s)
    (hq : s.sched = m :: q) (hm : m ≠ .yield) (h : Reach k (tick m (begin i code { s with sched := q })) t) :
    Reach (k + 1) (begin i code s) t := by
  have hn := nextTurn_begin_cons i code hq
  refine .step ?_ ?_ ?_
  · simp [halted, not_atRest_begin i code s hs, hn]
  · simp [atYield, hn, hm]
  · simpa only [Machine.turn, hn] using h

/-- With nothing scheduled, an operation takes its next micro-step, unless that one spins. -/
theorem Reach.fg {k : Nat} {i : Instr} {m : Micro} {rest : List Micro} {s t : State} (hs : FgFree s)
    (hq : Alone s) (hm : plainMicro m = true) (hp : spins m s = false)
    (h : Reach k (begin i ((micro m s).1 ++ rest) (micro m s).2) t) : Reach (k + 1) (begin i (m :: rest) s) t := by
  have hn := nextTurn_begin_alone i (m :: rest) hq
  have hp' : spins m (begin i (m :: rest) s) = false := by
    unfold spins at hp ⊢
    split
    · simp only [begin] at *; rw [readReg_fg]; exact hp
    · rfl
  have hw : waiting (begin i (m :: rest) s) = false := by simp [waiting, activeCode, hs.2, hp']
  refine .step ?_ (by simp [atYield, hn]) ?_
  · simp [halted, not_atRest_begin i _ s hs, hw]
  · simpa [Machine.turn, hn, aloneTurn, hw, agentStep, hs.2, fgStep_begin _ _ _ _ hm] using h

/-- With nothing scheduled, an operation that spins waits for HW to meet the first duty it owes (40 R207, 60 R528). -/
theorem Reach.duty {k : Nat} {i : Instr} {m : Micro} {rest : List Micro} {d : Duty} {s t : State} (hs : FgFree s)
    (hq : Alone s) (hp : spins m s = true) (hd : dueDuty s = some d)
    (h : Reach k (fulfil d (begin i (m :: rest) s)) t) : Reach (k + 1) (begin i (m :: rest) s) t := by
  have hn := nextTurn_begin_alone i (m :: rest) hq
  have hp' : spins m (begin i (m :: rest) s) = true := by
    unfold spins at hp ⊢
    split
    · simp only [begin] at *; rw [readReg_fg]; exact hp
    · simp at hp
  have hw : waiting (begin i (m :: rest) s) = true := by simp [waiting, activeCode, hs.2, hp']
  have hd' : dueDuty (begin i (m :: rest) s) = some d := hd
  refine .step ?_ (by simp [atYield, hn]) ?_
  · simp [halted, not_atRest_begin i _ s hs, hd']
  · simpa [Machine.turn, hn, aloneTurn, hw, meetDuty, hd'] using h

/-- A scheduled turn of FG takes its next micro-step. -/
theorem Reach.fgTurn {k : Nat} {i : Instr} {m : Micro} {rest : List Micro} {q : List Move} {s t : State} (hs : FgFree s)
    (hq : s.sched = .fg :: q) (hm : plainMicro m = true)
    (h : Reach k (begin i ((micro m { s with sched := q }).1 ++ rest) (micro m { s with sched := q }).2) t) :
    Reach (k + 1) (begin i (m :: rest) s) t := by
  refine .turn hs hq (by simp) ?_
  have e : tick .fg (begin i (m :: rest) { s with sched := q }) = fgStep (begin i (m :: rest) { s with sched := q }) := by
    simp only [tick, begin_isr, hs.2, begin_fg]
    rfl
  rw [e, fgStep_begin _ _ _ _ hm]
  exact h

/-- A scheduled step of HW. -/
theorem Reach.hw {k : Nat} {i : Instr} {code : List Micro} {mv : HwMove} {q : List Move} {s t : State} (hs : FgFree s)
    (hq : s.sched = .hw mv :: q) (h : Reach k (hwStep mv (begin i code { s with sched := q })) t) :
    Reach (k + 1) (begin i code s) t := .turn hs hq (by simp) h

/-- `return`: the operation is completed. -/
theorem Reach.ret (i : Instr) (r : Ret) (s : State) (hs : FgFree s) (hq : Alone s) :
    Reach 1 (begin i [.ret r] s) (completed i r s) := by
  have hn := nextTurn_begin_alone i [.ret r] hq
  have hw : waiting (begin i [.ret r] s) = false := by simp [waiting, activeCode, hs.2, spins]
  refine .step ?_ (by simp [atYield, hn]) ?_
  · simp [halted, not_atRest_begin i _ s hs, hw]
  · have : Machine.turn (begin i [.ret r] s) = completed i r s := by
      simp only [Machine.turn, hn, aloneTurn, hw]
      simp [agentStep, hs.2, fgStep, micro, fgReturn, emit, completed, begin]
    rw [this]; exact .refl _

theorem halted_completed (i : Instr) (r : Ret) (s : State) (hs : FgFree s) : halted (completed i r s) = true := by
  simp [halted, atRest, idle, completed, hs.2]

/-- Any list of whole-word writes runs in order. -/
theorem Reach.writes {k : Nat} {i : Instr} {rest : List Micro} {t : State} (ws : List (Reg × Word)) (s : State)
    (hs : FgFree s) (hq : Alone s)
    (h : Reach k (begin i rest (ws.foldl (fun s p => writeReg p.1 p.2 s) s)) t) :
    Reach (k + ws.length) (begin i (ws.map (fun p => .write p.1 p.2) ++ rest) s) t := by
  induction ws generalizing s with
  | nil => exact h
  | cons a ws ih =>
    have hf : FgFree (writeReg a.1 a.2 s) := micro_fgFree (.write a.1 a.2) s rfl hs
    have hq' : Alone (writeReg a.1 a.2 s) := by rw [writeReg_state]; exact hq
    exact .fg (m := .write a.1 a.2) hs hq rfl rfl (ih _ hf hq' h)

/-- A field write of a register whose read is plain: two micro-steps, and the word is written with the fields
replaced (00 R22). -/
theorem Reach.setFields {k : Nat} {i : Instr} {r : Reg} {fs : List FieldWrite} {rest : List Micro} {s t : State}
    (hs : FgFree s) (hq : Alone s) (hr : readReg r s = (s.regs.get r, s))
    (h : Reach k (begin i rest (writeFields r fs (s.regs.get r) s)) t) :
    Reach (k + 2) (begin i (Machine.setFields r fs ++ rest) s) t := by
  refine .fg (m := .read r (.modify r fs)) hs hq rfl rfl ?_
  have e : micro (.read r (.modify r fs)) s = ([.modify r fs (s.regs.get r)], s) := by simp [micro, hr, afterRead]
  rw [e]
  exact .fg (m := .modify r fs (s.regs.get r)) (rest := rest) hs hq rfl rfl h

/-- A poll whose condition holds at its first evaluation. -/
theorem Reach.pollDone {k : Nat} {i : Instr} {r : Reg} {f : Field} {v : Bool} {b : Option Nat} {a : AfterPoll}
    {rest : List Micro} {s t : State} (hs : FgFree s) (hq : Alone s) (hr : readReg r s = (s.regs.get r, s))
    (hv : getBit f (s.regs.get r) = v) (h : Reach k (begin i (afterPoll s.par a true ++ rest) s) t) :
    Reach (k + 1) (begin i (.poll r f v b a :: rest) s) t := by
  refine .fg (m := .poll r f v b a) hs hq rfl ?_ ?_
  · cases b <;> simp [spins, hr, hv]
  · simpa [micro, hr, hv] using h

/-- A bounded poll whose condition does not hold makes its reads and goes on (00 R24). -/
theorem Reach.pollOut {k : Nat} {i : Instr} {r : Reg} {f : Field} {v : Bool} (b : Nat) {a : AfterPoll}
    {rest : List Micro} {s t : State} (hs : FgFree s) (hq : Alone s) (hr : readReg r s = (s.regs.get r, s))
    (hv : getBit f (s.regs.get r) ≠ v) (h : Reach k (begin i (afterPoll s.par a false ++ rest) s) t) :
    Reach (k + max b 1) (begin i (.poll r f v (some b) a :: rest) s) t := by
  induction b with
  | zero =>
    refine .fg (m := .poll r f v (some 0) a) hs hq rfl rfl ?_
    simpa [micro, hr, hv] using h
  | succ n ih =>
    rcases Nat.eq_zero_or_pos n with rfl | hn
    · refine .fg (m := .poll r f v (some 1) a) hs hq rfl rfl ?_
      simpa [micro, hr, hv] using h
    · have e : k + max (n + 1) 1 = k + max n 1 + 1 := by omega
      rw [e]
      refine .fg (m := .poll r f v (some (n + 1)) a) hs hq rfl rfl ?_
      have hn' : ¬ n + 1 ≤ 1 := by omega
      simpa [micro, hr, hv, hn', Nat.pos_iff_ne_zero.mp hn] using ih

theorem allow_fg (b : Bool) (g : State → State) (s : State) (f : Fg) (h : g { s with fg := f } = { g s with fg := f }) :
    allow b g { s with fg := f } = { allow b g s with fg := f } := by
  cases b
  · rfl
  · exact h

theorem hwWriteMb_fg (i : Nat) (k : MbWord) (b : Bool) (w : Word) (s : State) (f : Fg) :
    hwWriteMb i k b w { s with fg := f } = { hwWriteMb i k b w s with fg := f } := by
  cases b <;> rfl

theorem flagMb_fg (i : Nat) (s : State) (f : Fg) : flagMb i { s with fg := f } = { flagMb i s with fg := f } := by
  simp only [flagMb]
  split <;> rfl

theorem moveIn2_fg (i : Nat) (g : Frame) (ts : Stamp) (m : MoveIn) (s : State) (f : Fg) :
    moveIn2 i g ts m { s with fg := f } = { moveIn2 i g ts m s with fg := f } := by
  simp only [moveIn2]
  rw [hwWriteMb_fg i .id _ _ s f, hwWriteMb_fg i .data0 _ _ _ f, hwWriteMb_fg i .data1 _ _ _ f,
    hwWriteMb_fg i .cs _ _ _ f]
  generalize hwWriteMb i .cs _ _ _ = u
  exact flagMb_fg i { u with moveIn := bankSet u.moveIn i none } f

/-- A step of HW does the same whatever FG's state is, and leaves it. -/
theorem hwStep_fg (h : HwMove) (s : State) (f : Fg) :
    hwStep h { s with fg := f } = { hwStep h s with fg := f } := by
  cases h with
  | moveIn2 i g ts =>
    simp only [hwStep]
    split
    · exact allow_fg _ _ s f (moveIn2_fg i g ts _ s f)
    · rfl
  | fifoAppend g h =>
    refine allow_fg _ _ s f ?_
    simp only [fifoAppend]
    split <;> rfl
  | fifoHead =>
    simp only [hwStep]
    split
    · exact allow_fg _ _ s f rfl
    · rfl
  | setLpmack => exact allow_fg _ _ s f rfl
  | clearLpmack => exact allow_fg _ _ s f rfl
  | setFrzack => exact allow_fg _ _ s f rfl
  | clearFrzack => exact allow_fg _ _ s f rfl
  | softReset v => exact allow_fg _ _ s f rfl
  | moveIn1 i => exact allow_fg _ _ s f rfl
  | transmit i ts => exact allow_fg _ _ s f rfl
  | fifoOverflow => exact allow_fg _ _ s f rfl
  | raise m => rfl
  | errorState v => rfl
  | timer t => rfl
  | dbg w => rfl

/-- Meeting a duty does the same whatever FG's state is, and leaves it. -/
theorem fulfil_fg (d : Duty) (s : State) (f : Fg) : fulfil d { s with fg := f } = { fulfil d s with fg := f } := by
  cases d with
  | softReset =>
    simp only [fulfil]
    rw [scramble_fg]
    exact hwStep_fg _ { s with draws := (scramble s.par.softrstSet s).draws } f
  | moveIn i => exact hwStep_fg (.moveIn2 i (drawFrame s).1 (drawFrame s).1.timestamp) (drawFrame s).2 f
  | setLpmack => exact hwStep_fg .setLpmack s f
  | clearLpmack => exact hwStep_fg .clearLpmack s f
  | setFrzack => exact hwStep_fg .setFrzack s f
  | clearFrzack => exact hwStep_fg .clearFrzack s f

/-- Meeting a duty while an operation is under way. -/
theorem fulfil_begin (d : Duty) (i : Instr) (code : List Micro) (s : State) (h : (fulfil d s).fg = s.fg) :
    fulfil d (begin i code s) = begin i code (fulfil d s) := by
  simp only [begin]
  rw [fulfil_fg, h]

/-- A duty is met by a move HW may take, after the draws it needs (60 R528). -/
theorem fulfil_hwStep (d : Duty) (s : State) : ∃ h n, fulfil d s = hwStep h { s with draws := n } := by
  cases d with
  | setLpmack => exact ⟨.setLpmack, s.draws, rfl⟩
  | clearLpmack => exact ⟨.clearLpmack, s.draws, rfl⟩
  | softReset => exact ⟨.softReset _, _, rfl⟩
  | moveIn i => exact ⟨.moveIn2 i (drawFrame s).1 (drawFrame s).1.timestamp, s.draws + 4, rfl⟩
  | setFrzack => exact ⟨.setFrzack, s.draws, rfl⟩
  | clearFrzack => exact ⟨.clearFrzack, s.draws, rfl⟩

/-- The first duty owed is owed. -/
theorem owes_of_dueDuty {s : State} {d : Duty} (h : dueDuty s = some d) : owes s d = true := List.find?_some h

/-- HW owes nothing when no duty is due. -/
theorem dueDuty_none {s : State} (h : dueDuty s = none) : ∀ d ∈ duties, owes s d = false := by
  simpa [dueDuty, List.find?_eq_none] using h

/-- Taking a turn from the schedule changes the schedule alone. -/
theorem nextTurn_state {s t : State} {m : Move} (h : nextTurn s = some (m, t)) :
    t = { s with sched := t.sched, supply := t.supply } := by
  unfold nextTurn at h
  split at h
  · cases h; rfl
  · split at h <;> cases h <;> rfl

/-- A command whose preconditions hold runs to where its chain of turns ends. -/
theorem issue_runs {k : Nat} {i : Instr} {code : List Micro} {q : List Move} {s t : State} (hs : ReadyWith q s)
    (h : Reach k (begin i code s) t) (ht : halted t = true) (hk : k ≤ 8192 + 4 * s.par.frzTimeout + q.length) :
    issue i none code s = .next t := by
  obtain ⟨h1, h2, h3, -⟩ := hs
  simp only [issue, h1, h2, ↓reduceIte]
  rw [burst_of_reach h ht (by rw [runFuel, h3]; exact hk)]

/-- A command with a broken precondition is refused. -/
theorem issue_refuses (i : Instr) (r : Reason) (code : List Micro) (s : State) (h : s.refused = none)
    (hi : idle s = true) : issue i (some r) code s = .next (refuse r s) := by
  simp [issue, h, hi]

/-- What an issue can answer: a stop where 10 R34 or 30 R143 says so, a refusal, or the operation's burst. -/
theorem issue_cases (i : Instr) (bad : Option Reason) (code : List Micro) (s : State) :
    (∃ r, s.refused = some r ∧ issue i bad code s = .fault (.stuck r))
      ∨ (s.refused = none ∧ idle s = false ∧ issue i bad code s = .fault .notIdle)
      ∨ (s.refused = none ∧ idle s = true ∧ ∃ r, bad = some r ∧ issue i bad code s = .next (refuse r s))
      ∨ (s.refused = none ∧ idle s = true ∧ bad = none
          ∧ issue i bad code s = .next (burst (runFuel s) (begin i code s))) := by
  cases hr : s.refused with
  | some r => exact .inl ⟨r, rfl, by simp [issue, hr]⟩
  | none =>
    cases hi : idle s with
    | false => exact .inr (.inl ⟨rfl, rfl, by simp [issue, hr, hi]⟩)
    | true =>
      cases bad with
      | some r => exact .inr (.inr (.inl ⟨rfl, rfl, r, rfl, by simp [issue, hr, hi]⟩))
      | none => exact .inr (.inr (.inr ⟨rfl, rfl, rfl, by simp [issue, hr, hi]⟩))

/-- Checks all of which hold break nothing. -/
theorem firstBroken_none (l : List Check) : firstBroken l = none ↔ ∀ c ∈ l, c.1 = false := by
  induction l with
  | nil => simp [firstBroken]
  | cons a t ih => obtain ⟨b, r⟩ := a; cases b <;> simp [firstBroken, ih]

end Sys2Proof.Machine
end

