-- ==== Sys2Proof/Laws/Bodies.lean ====
section
/-! SUPPORT. What the shared bodies do when they run alone: the single-bit writes of MCR and the tail of the freeze
entry. -/

namespace Sys2Proof.Machine

/-- A state the host may issue in leaves FG free. -/
theorem Ready.fgFree {s : State} (h : Ready s) : FgFree s :=
  ⟨h.1, by have := h.2.1; simp [idle] at this; exact this.2⟩

/-- Set or clear bit b of a word. -/
def withBit (b : Nat) (v : Bool) (w : Word) : Word := if v then w ||| oneBit b else w &&& ~~~ oneBit b

theorem getLsbD_withBit (b : Nat) (v : Bool) (w : Word) (k : Nat) (hb : b < 32) (hk : k < 32) :
    (withBit b v w).getLsbD k = if k = b then v else w.getLsbD k := by
  cases v <;> simp only [withBit, Bool.false_eq_true, if_false, if_true, BitVec.getLsbD_or, BitVec.getLsbD_and,
    BitVec.getLsbD_not, getLsbD_oneBit b k hb, hk, decide_true, Bool.true_and]
  · by_cases h : k = b <;> simp only [h, decide_true, decide_false, if_true, if_false, Bool.not_true, Bool.not_false,
      Bool.and_false, Bool.and_true]
  · by_cases h : k = b <;> simp only [h, decide_true, decide_false, if_true, if_false, Bool.or_true, Bool.or_false]

/-- A one-bit field write sets or clears that bit. -/
theorem putField_bit (b : Nat) (v : Bool) (w : Word) (hb : b < 32) :
    putField ⟨b, b⟩ (if v then 1 else 0) w = withBit b v w := by
  apply BitVec.eq_of_getLsbD_eq
  intro k hk
  rw [getLsbD_putField _ _ _ _ hk, getLsbD_withBit _ _ _ _ hb hk]
  by_cases h : k = b
  · subst h; cases v <;> simp
  · have h' : ¬ (b ≤ k ∧ k ≤ b) := by omega
    simp [h, h']

/-- A write of MCR that changes one RW bit changes that bit alone; SOFTRST may only be set. -/
theorem mcrAfterWrite_bit (b : Nat) (v : Bool) (w : Word) (hb : b < 32) (h : b ≠ 27 ∧ b ≠ 24 ∧ b ≠ 20)
    (h25 : b = 25 → v = true) : mcrAfterWrite w (withBit b v w) = withBit b v w := by
  apply BitVec.eq_of_getLsbD_eq
  intro k hk
  rw [getLsbD_mcrAfterWrite _ _ _ hk, getLsbD_withBit _ _ _ _ hb hk]
  by_cases hkb : k = b
  · subst hkb
    have h1 : ¬ (k = 27 ∨ k = 24 ∨ k = 20) := by omega
    by_cases h2 : k = 25
    · simp [h25 h2, h1]
    · simp [h1, h2]
  · simp [hkb]

/-- The read-modify-write of one RW bit of MCR, with nothing in between. -/
theorem writeFields_mcrBit (b : Nat) (v : Bool) (s : State) (hb : b < 32) (h : b ≠ 27 ∧ b ≠ 24 ∧ b ≠ 20)
    (h25 : b = 25 → v = true) :
    writeFields .mcr [(⟨b, b⟩, .val (if v then 1 else 0))] s.regs.mcr s
      = { s with regs := { s.regs with mcr := withBit b v s.regs.mcr } } := by
  have e := mcrAfterWrite_bit b v s.regs.mcr hb h h25
  rw [← putField_bit b v _ hb] at e
  have e2 := putField_bit b v s.regs.mcr hb
  simp only [writeFields, putFields, reduceCtorEq, decide_false, Bool.false_and, Bool.false_eq_true, if_false, writeReg]
  rw [e, e2]

/-- The same as two micro-steps of FG running alone. -/
theorem Reach.mcrBit {k : Nat} {i : Instr} {rest : List Micro} {s t : State} (b : Nat) (v : Bool) (hs : FgFree s)
    (hq : Alone s) (hb : b < 32) (h : b ≠ 27 ∧ b ≠ 24 ∧ b ≠ 20) (h25 : b = 25 → v = true)
    (ht : Reach k (begin i rest { s with regs := { s.regs with mcr := withBit b v s.regs.mcr } }) t) :
    Reach (k + 2) (begin i (Machine.setFields .mcr [(⟨b, b⟩, .val (if v then 1 else 0))] ++ rest) s) t := by
  refine .setFields hs hq rfl ?_
  rw [show s.regs.get .mcr = s.regs.mcr from rfl, writeFields_mcrBit b v s hb h h25]
  exact ht

/-- EF5 and EF6 with nothing else scheduled: HALT is set, whether or not HW acknowledges (40 R201, 00 R24). -/
theorem Reach.efTail {k : Nat} {i : Instr} {rest : List Micro} {s t : State} (hs : FgFree s) (hq : Alone s)
    (h : Reach k (begin i rest { s with regs := { s.regs with mcr := withBit 28 true s.regs.mcr } }) t) :
    ∃ j, j ≤ k + 2 + (1 + s.par.frzTimeout) ∧ Reach j (begin i (Machine.efTail s.par ++ rest) s) t := by
  by_cases ha : getBit .frzack (withBit 28 true s.regs.mcr) = true
  · refine ⟨k + 1 + 2, by omega, ?_⟩
    simp only [Machine.efTail, List.append_assoc]
    exact .mcrBit 28 true hs hq (by decide) (by decide) (by decide) (.pollDone hs hq rfl ha h)
  · refine ⟨k + max s.par.frzTimeout 1 + 2, by omega, ?_⟩
    simp only [Machine.efTail, List.append_assoc]
    exact .mcrBit 28 true hs hq (by decide) (by decide) (by decide) (.pollOut _ hs hq rfl ha h)

end Sys2Proof.Machine
end

