-- ==== Sys2Proof/Laws/PerInstr.lean ====
section
/-! SUPPORT. What holds of the word of every command: its reserved bits are 0 and its opcode is a row of the opcode
map (30 R140, R145). -/

namespace Sys2Proof.Laws

/-- The opcode field of a word laid out by 30 R148. -/
theorem opcOf_cmdWord (opc idx : Nat) (en : Bool) : opcOf (cmdWord opc idx en) = opc % 256 := by
  have h : (cmdWord opc idx en).extractLsb' 24 8 = BitVec.ofNat 8 opc := by
    apply BitVec.eq_of_getLsbD_eq
    intro k hk
    simp only [cmdWord, BitVec.getLsbD_extractLsb', BitVec.getLsbD_append, BitVec.getLsbD_ofNat, BitVec.getLsbD_ofBool]
    simp only [show ¬ 24 + k < 1 by omega, show 24 + k - 1 - 15 = 8 + k by omega, show ¬ 24 + k - 1 < 15 by omega,
      show ¬ 8 + k < 8 by omega, show 8 + k - 8 = k by omega, if_false, hk]
    rfl
  rw [opcOf, h, BitVec.toNat_ofNat]

/-- The reserved field of a word laid out by 30 R148. -/
theorem resOf_cmdWord (opc idx : Nat) (en : Bool) : resOf (cmdWord opc idx en) = 0 := by
  apply BitVec.eq_of_getLsbD_eq
  intro k hk
  simp only [resOf, cmdWord, BitVec.getLsbD_extractLsb', BitVec.getLsbD_append, BitVec.getLsbD_ofBool]
  simp only [show ¬ 1 + k < 1 by omega, show 1 + k - 1 < 15 by omega, if_false, if_true]
  simp

end Sys2Proof.Laws

namespace Sys2Proof.Laws.EncodeShape

/-- The word's reserved bits are 0 and its opcode names a row of the opcode map. -/
def Statement (i : Instr) : Prop := resOf (encode i) = 0 ∧ (opcRow (opcOf (encode i))).isSome = true

theorem of_cmdWord {i : Instr} {opc idx : Nat} {en : Bool} (h : encode i = cmdWord opc idx en)
    (ho : (opcRow (opc % 256)).isSome = true) : Statement i := by
  rw [Statement, h, resOf_cmdWord, opcOf_cmdWord]
  exact ⟨rfl, ho⟩

theorem enterFreeze : Statement (.enterFreeze) := of_cmdWord rfl rfl
theorem exitFreeze : Statement (.exitFreeze) := of_cmdWord rfl rfl
theorem reset : Statement (.reset) := of_cmdWord rfl rfl
theorem setBaudRate : Statement (.setBaudRate) := of_cmdWord rfl rfl
theorem calcImprovedTiming : Statement (.calcImprovedTiming) := of_cmdWord rfl rfl
theorem setTimingConfig : Statement (.setTimingConfig) := of_cmdWord rfl rfl
theorem setTxMbConfig (idx : Nat) (en : Bool) : Statement (.setTxMbConfig idx en) := of_cmdWord rfl rfl
theorem setRxMbConfig (idx : Nat) (en : Bool) : Statement (.setRxMbConfig idx en) := of_cmdWord rfl rfl
theorem setRxFifoConfig (en : Bool) : Statement (.setRxFifoConfig en) := of_cmdWord rfl rfl
theorem setRxMbGlobalMask : Statement (.setRxMbGlobalMask) := of_cmdWord rfl rfl
theorem setRxFifoGlobalMask : Statement (.setRxFifoGlobalMask) := of_cmdWord rfl rfl
theorem setRxIndividualMask (idx : Nat) : Statement (.setRxIndividualMask idx) := of_cmdWord rfl rfl
theorem getDefaultConfig : Statement (.getDefaultConfig) := of_cmdWord rfl rfl
theorem init : Statement (.init) := of_cmdWord rfl rfl
theorem deinit : Statement (.deinit) := of_cmdWord rfl rfl
theorem writeTxMb (idx : Nat) : Statement (.writeTxMb idx) := of_cmdWord rfl rfl
theorem readRxMb (idx : Nat) : Statement (.readRxMb idx) := of_cmdWord rfl rfl
theorem readRxFifo : Statement (.readRxFifo) := of_cmdWord rfl rfl
theorem sendBlocking (idx : Nat) : Statement (.sendBlocking idx) := of_cmdWord rfl rfl
theorem receiveBlocking (idx : Nat) : Statement (.receiveBlocking idx) := of_cmdWord rfl rfl
theorem receiveFifoBlocking : Statement (.receiveFifoBlocking) := of_cmdWord rfl rfl
theorem createHandle : Statement (.createHandle) := of_cmdWord rfl rfl
theorem sendNb (idx : Nat) : Statement (.sendNb idx) := of_cmdWord rfl rfl
theorem receiveNb (idx : Nat) : Statement (.receiveNb idx) := of_cmdWord rfl rfl
theorem receiveFifoNb : Statement (.receiveFifoNb) := of_cmdWord rfl rfl
theorem abortSend (idx : Nat) : Statement (.abortSend idx) := of_cmdWord rfl rfl
theorem abortReceive (idx : Nat) : Statement (.abortReceive idx) := of_cmdWord rfl rfl
theorem abortReceiveFifo : Statement (.abortReceiveFifo) := of_cmdWord rfl rfl
theorem handleIrq : Statement (.handleIrq) := of_cmdWord rfl rfl

end Sys2Proof.Laws.EncodeShape
end

