-- ==== Sys2Proof/Tests/Slice0.lean ====
section
/-! SUPPORT. The model's own tests: WellFormed with an ill-formed term for each check, words written out from the
spec's encoding, and at most two one-step tests per command, each with its expected result from a vector of
95_test_vectors.md or an example of the command's rule. -/

namespace Sys2Proof.Tests

open Sys2Proof Sys2Proof.Machine

/-! ## WellFormed -/

theorem test_wf_idx : [Instr.setTxMbConfig 256 true, .setRxMbConfig 256 true, .setRxIndividualMask 256, .writeTxMb 256,
    .readRxMb 256, .sendBlocking 256, .receiveBlocking 256, .sendNb 256, .receiveNb 256, .abortSend 256,
    .abortReceive 256].any Instr.wf = false := by decide

theorem test_wf_accepts : [Instr.init, .writeTxMb 255, .setRxFifoConfig true, .handleIrq].all Instr.wf = true := by decide

/-- 95 V1.4 rows d, e, f and g, and the other two bounds of 41 R252; row b is well-formed. -/
theorem test_wf_timing : ([⟨0, 1, 1, 1, 1⟩, ⟨257, 1, 1, 1, 1⟩, ⟨1, 4, 1, 1, 1⟩, ⟨1, 1, 8, 1, 1⟩, ⟨1, 1, 1, 8, 1⟩,
    ⟨1, 1, 1, 1, 8⟩] : List TimingConfig).any TimingConfig.wf = false
    ∧ TimingConfig.wf ⟨256, 0, 0, 0, 0⟩ = true := by decide

/-- 41 R251: a sum that is not tq, each segment too long, a sample point below 68% and above 78%. -/
theorem test_wf_tqEntry : ([⟨9, 2, 1, 1⟩, ⟨14, 8, 1, 1⟩, ⟨14, 1, 8, 1⟩, ⟨14, 1, 1, 8⟩, ⟨9, 1, 2, 2⟩, ⟨14, 7, 2, 1⟩] :
    List TqEntry).any TqEntry.wf = false := by decide

/-- 41 R251, R266: EX_TQ is well-formed; a table with a gap in the order, without its first or its last entry is not. -/
theorem test_wf_tqTable : tqTableWf Config.exTq = true ∧ tqAscending [⟨9, 3, 1, 1⟩, ⟨8, 2, 1, 1⟩] = false
    ∧ tqTableWf (Config.exTq.drop 1) = false ∧ tqTableWf (Config.exTq.take 17) = false
    ∧ tqTableWf (Config.exTq ++ [⟨25, 7, 7, 7⟩]) = false ∧ tqTableWf [] = false := by decide +kernel

theorem test_wf_reg : Reg.valid (.mb 32 .id) = false ∧ Reg.valid (.rximr 32) = false ∧ Reg.valid (.mb 31 .cs) = true := by
  decide

theorem test_wf_payloadOrder : payloadOrderWf [0, 1, 2, 3, 4, 5, 6, 7] = true
    ∧ payloadOrderWf [0, 1, 2, 3, 4, 5, 6] = false ∧ payloadOrderWf [0, 1, 2, 3, 4, 5, 6, 8] = false
    ∧ payloadOrderWf [0, 0, 2, 3, 4, 5, 6, 7] = false := by decide +kernel

/-- 00 section 4: the example's parameters are in their ranges, and each range is checked. -/
theorem test_wf_params : Config.example.wf = true
    ∧ [{ Config.example with frzTimeout := 0 }, { Config.example with nrximr := 15 }, { Config.example with nrximr := 33 },
       { Config.example with tqTable := [] }, { Config.example with errataBackup := [.mb 32 .cs] },
       { Config.example with softrstSet := [.rximr 32] }, { Config.example with payloadOrder := [] },
       { Config.example with fifoWarnLevel := 0 }, { Config.example with fifoWarnLevel := 7 },
       { Config.example with resetMaxmb := 32 }].any Params.wf = false := by decide +kernel

/-! ## Decoding: 95 V7.1 and V7.2 -/

/-- A word decodes to the command. -/
abbrev reads (w : Word) (i : Instr) : Prop := decode w = .ok i

theorem test_decode_freeze : reads 0x01000000 .enterFreeze ∧ reads 0x02000000 .exitFreeze ∧ reads 0x03000000 .reset :=
  ⟨rfl, rfl, rfl⟩

theorem test_decode_timing : reads 0x10000000 .setBaudRate ∧ reads 0x11000000 .calcImprovedTiming
    ∧ reads 0x12000000 .setTimingConfig := ⟨rfl, rfl, rfl⟩

theorem test_decode_mailbox : reads 0x20090001 (.setTxMbConfig 9 true) ∧ reads 0x21040001 (.setRxMbConfig 4 true)
    ∧ reads 0x22000001 (.setRxFifoConfig true) ∧ reads 0x22000000 (.setRxFifoConfig false)
    ∧ reads 0x23000000 .setRxMbGlobalMask ∧ reads 0x24000000 .setRxFifoGlobalMask
    ∧ reads 0x25020000 (.setRxIndividualMask 2) ∧ reads 0x28000000 .getDefaultConfig ∧ reads 0x29000000 .init
    ∧ reads 0x2A000000 .deinit := ⟨rfl, rfl, rfl, rfl, rfl, rfl, rfl, rfl, rfl, rfl⟩

theorem test_decode_transfer : reads 0x30030000 (.writeTxMb 3) ∧ reads 0x31050000 (.readRxMb 5)
    ∧ reads 0x32000000 .readRxFifo ∧ reads 0x33080000 (.sendBlocking 8) ∧ reads 0x34050000 (.receiveBlocking 5)
    ∧ reads 0x35000000 .receiveFifoBlocking := ⟨rfl, rfl, rfl, rfl, rfl, rfl⟩

theorem test_decode_handle : reads 0x40000000 .createHandle ∧ reads 0x41030000 (.sendNb 3)
    ∧ reads 0x42050000 (.receiveNb 5) ∧ reads 0x43000000 .receiveFifoNb ∧ reads 0x44030000 (.abortSend 3)
    ∧ reads 0x45050000 (.abortReceive 5) ∧ reads 0x46000000 .abortReceiveFifo ∧ reads 0x50000000 .handleIrq :=
  ⟨rfl, rfl, rfl, rfl, rfl, rfl, rfl, rfl⟩

theorem test_decode_illegal : decode 0x00000000 = .error .illegalOpcode ∧ decode 0x00000002 = .error .illegalOpcode
    ∧ decode 0x04000000 = .error .illegalOpcode ∧ decode 0x26000000 = .error .illegalOpcode
    ∧ decode 0x47000000 = .error .illegalOpcode ∧ decode 0xFF000000 = .error .illegalOpcode :=
  ⟨rfl, rfl, rfl, rfl, rfl, rfl⟩

theorem test_decode_reserved : decode 0x01000002 = .error .reservedBits ∧ decode 0x41038000 = .error .reservedBits
    ∧ decode 0x01050000 = .error .reservedBits ∧ decode 0x01000001 = .error .reservedBits
    ∧ decode 0x30030001 = .error .reservedBits ∧ decode 0x22050001 = .error .reservedBits :=
  ⟨rfl, rfl, rfl, rfl, rfl, rfl⟩

/-- 30 R148: the words of the two lines the rule encodes. -/
theorem test_encode : encode (.sendNb 3) = 0x41030000 ∧ encode (.setTxMbConfig 9 true) = 0x20090001 := by decide

/-! ## One step of each command -/

/-- The power-on state with MCR and CTRL1 replaced. -/
def tS (mcr ctrl1 : Word) : State :=
  { State.reset with regs := { Regs.reset with mcr := mcr, ctrl1 := ctrl1 } }

/-- A state in mode Normal with MAXMB = 15 (95 V2.1). -/
def tNormal : State := tS 0x0000000F 0
/-- A frozen state (95 V2.1, V1.4). -/
def tFrozen : State := tS 0x5100000F 0x01490022

/-- A state with an operand record. -/
def withOp (o : OpRec) (s : State) : State := { s with fg := { s.fg with opnd := o } }
/-- A state with the turns of a schedule. -/
def withSched (q : List Move) (s : State) : State := { s with sched := q }
/-- A state with the four words of a mailbox. -/
def withMb (i : Nat) (cs id d0 d1 : Word) (s : State) : State :=
  { s with regs := { s.regs with mb := bankSet s.regs.mb i ⟨cs, id, d0, d1⟩ } }
/-- A state with IMASK1 and IFLAG1. -/
def withIrqs (m f : Word) (s : State) : State := { s with regs := { s.regs with imask1 := m, iflag1 := f } }
/-- A created Handle with callback and context 7 (95 V5). -/
def withHandle (s : State) : State :=
  { s with handle := { Handle.reset with created := true, callback := some 1, context := 7 } }
/-- A Handle's logical state and frame reference of a mailbox. -/
def withArm (i : Nat) (st : MailboxState) (b : Option FrameRef) (s : State) : State :=
  { s with handle := (s.handle.setState (.mb i) st).setBuf (.mb i) b }

/-- F0 of 95 P2. -/
def tF0 : Frame := ⟨0x123, .standard, .data, 2, 0, #v[0xAB, 0xCD, 0, 0, 0, 0, 0, 0]⟩
/-- A state whose slot 0 holds F0. -/
def withF0 (s : State) : State := { s with frames := [(0, tF0)] }

/-- The answer is a next state with the property. -/
def leaves (o : Host.Outcome State Fault Refusal) (p : State → Bool) : Bool :=
  match o with
  | .next t => p t
  | .fault _ => false
  | .refused _ => false

/-- n turns of FG. -/
def fgs (n : Nat) : List Move := List.replicate n .fg

/-- 95 V2.2: EnterFreeze from Normal with prompt HW. -/
theorem test_enterFreeze_acknowledged :
    leaves (exec .enterFreeze (withSched (fgs 6 ++ [.hw .setFrzack]) tNormal))
      (fun t => t.regs.mcr == 0x5100000F && t.trace == [.ret .enterFreeze .unit]) = true := by decide +kernel

/-- 95 V2.6: the errata tail; HW's soft reset takes the FlexCAN values. -/
theorem test_enterFreeze_errata :
    leaves (exec .enterFreeze
        { tNormal with
          par := { Config.example with freezeVariant := .errataA }
          regs := { Regs.reset with mcr := 0x0000000F, imask1 := 0x210, esr := 0x20 }
          sched := fgs 9 ++ [.hw (.softReset Regs.reset)] })
      (fun t => t.regs.mcr == 0x4810000F && t.regs.imask1 == 0x210 && t.regs.esr == 0) = true := by
  decide +kernel

/-- 95 V2.7: ExitFreeze with prompt HW, FRZACK cleared after XF0. -/
theorem test_exitFreeze :
    leaves (exec .exitFreeze (withSched (fgs 2 ++ [.hw .clearFrzack]) (tS 0x5100000F 0)))
      (fun t => t.regs.mcr == 0x0000000F && t.trace == [.ret .exitFreeze .unit]) = true := by decide +kernel

/-- 95 V2.8: Reset with prompt HW. -/
theorem test_reset :
    leaves (exec .reset (withSched (fgs 2 ++ [.hw (.softReset Regs.reset)])
        (withMb 5 0x0C020000 7 8 9 (tS 0x0000001F 0x55))))
      (fun t => t.regs.mcr == 0xD890000F && t.regs.ctrl1 == 0 && t.regs.get (.mb 5 .cs) == 0
        && t.regs.get (.mb 5 .id) == 7) = true := by decide +kernel

/-- 95 V2.8: both refusals apply, and the first listed is recorded. -/
theorem test_reset_refused :
    leaves (exec .reset (withArm 3 .txData none (withHandle State.reset)))
      (fun t => t.refused == some .resetInLowPower) = true := by decide +kernel

/-- 95 V1.1 row a, with its register image. -/
theorem test_setBaudRate :
    leaves (exec .setBaudRate
        (withOp { OpRec.empty with baud := some 500000, clk := some 8000000 } (tS 0x5100000F 0x00400020)))
      (fun t => t.regs.ctrl1 == 0x01490022 && t.trace == [.ret .setBaudRate (.found true)]) = true := by decide +kernel

/-- 95 V1.1 row i: the fallback, PRESDIV 0 and the last entry's segments. -/
theorem test_setBaudRate_fallback :
    leaves (exec .setBaudRate
        (withOp { OpRec.empty with baud := some 500000, clk := some 14500000 } (tS 0x5100000F 0x00400020)))
      (fun t => t.regs.ctrl1 == 0x007F0027 && t.trace == [.ret .setBaudRate (.found false)]) = true := by decide +kernel

/-- 95 V1.2 row e. -/
theorem test_calcImprovedTiming :
    leaves (exec .calcImprovedTiming
        (withOp { OpRec.empty with baud := some 400000, clk := some 8000000 } tNormal))
      (fun t => t.trace == [.ret .calcImprovedTiming (.timing true ⟨1, 3, 5, 4, 7⟩)]) = true := by decide +kernel

/-- 95 V1.3: the two selections at 36 MHz. -/
theorem test_improved_select : improvedSearch .firstAccepted 500000 36000000 = some ⟨4, 3, 4, 4, 6⟩
    ∧ improvedSearch .closestSamplePoint 500000 36000000 = some ⟨6, 1, 2, 2, 4⟩ := by decide +kernel

/-- 95 V1.4 row a. -/
theorem test_setTimingConfig :
    leaves (exec .setTimingConfig (withOp { OpRec.empty with cfg := some ⟨1, 2, 3, 3, 6⟩ } tFrozen))
      (fun t => t.regs.ctrl1 == 0x009B0026) = true := by decide +kernel

/-- 95 V1.4 row h. -/
theorem test_setTimingConfig_notFrozen :
    leaves (exec .setTimingConfig (withOp { OpRec.empty with cfg := some ⟨1, 2, 3, 3, 6⟩ } tNormal))
      (fun t => t.refused == some .notFrozen) = true := by decide +kernel

/-- 95 V3.6. -/
theorem test_setTxMbConfig :
    leaves (exec (.setTxMbConfig 9 true) (withMb 9 1 2 3 4 tNormal))
      (fun t => bankGet t.regs.mb 9 == ⟨0x08000000, 0, 0, 0⟩) = true := by decide +kernel

/-- 95 V3.5: the extended remote row. -/
theorem test_setRxMbConfig :
    leaves (exec (.setRxMbConfig 4 true)
        (withOp { OpRec.empty with rxcfg := some ⟨0x3FFFFFFF, .extended, .remote⟩ } tNormal))
      (fun t => bankGet t.regs.mb 4 == ⟨0x04300000, 0x1FFFFFFF, 0, 0⟩) = true := by decide +kernel

/-- 95 V3.5: with MAXMB = 15, index 16 is out of range. -/
theorem test_setRxMbConfig_range :
    leaves (exec (.setRxMbConfig 16 true) tNormal) (fun t => t.refused == some .outOfRange) = true := by decide +kernel

/-- 95 V3.3: enable with nine filters. -/
theorem test_setRxFifoConfig_enable :
    leaves (exec (.setRxFifoConfig true)
        (withOp { OpRec.empty with fifocfg := some ⟨[1, 2, 3, 4, 5, 6, 7, 8, 9], 9, .a, .fifoFirst⟩ } (tS 0x5980000F 0)))
      (fun t => t.regs.mcr == 0x7980000F && t.regs.ctrl2 == 0x01000000
        && bankGet t.regs.mb 8 == ⟨9, 0xFFFFFFFF, 0xFFFFFFFF, 0xFFFFFFFF⟩) = true := by decide +kernel

/-- 95 V3.4: disable clears mailboxes 0 to 9 and leaves mailbox 10. -/
theorem test_setRxFifoConfig_disable :
    leaves (exec (.setRxFifoConfig false)
        { withMb 10 1 2 3 4 (withMb 9 1 2 3 4 (tS 0x7980000F 0)) with
          regs := { (withMb 10 1 2 3 4 (withMb 9 1 2 3 4 (tS 0x7980000F 0))).regs with ctrl2 := 0x01000000 } })
      (fun t => t.regs.mcr == 0x5980000F && bankGet t.regs.mb 9 == ⟨0, 0, 0, 0⟩
        && bankGet t.regs.mb 10 == ⟨1, 2, 3, 4⟩) = true := by decide +kernel

/-- 95 V3.7. -/
theorem test_setRxMbGlobalMask :
    leaves (exec .setRxMbGlobalMask (withOp { OpRec.empty with mask := some 0x1FFFFFFF } tFrozen))
      (fun t => t.regs.rxmgmask == 0x1FFFFFFF && t.regs.rx14mask == 0x1FFFFFFF && t.regs.rx15mask == 0x1FFFFFFF)
      = true := by decide +kernel

/-- 42 R309. -/
theorem test_setRxFifoGlobalMask :
    leaves (exec .setRxFifoGlobalMask (withOp { OpRec.empty with mask := some 5 } tFrozen))
      (fun t => t.regs.rxfgmask == 5) = true := by decide +kernel

/-- 95 V3.7. -/
theorem test_setRxIndividualMask :
    leaves (exec (.setRxIndividualMask 2) (withOp { OpRec.empty with mask := some 0xFFFF0000 } tFrozen))
      (fun t => bankGet t.regs.rximr 2 == 0xFFFF0000) = true := by decide +kernel

/-- 95 V3.7: with MAXMB = 31, index 16 is not below NRXIMR = 16. -/
theorem test_setRxIndividualMask_range :
    leaves (exec (.setRxIndividualMask 16) (withOp { OpRec.empty with mask := some 0 } (tS 0x5100001F 0)))
      (fun t => t.refused == some .outOfRange) = true := by decide +kernel

/-- 95 V3.1. -/
theorem test_getDefaultConfig :
    leaves (exec .getDefaultConfig tNormal)
      (fun t => t.trace == [.ret .getDefaultConfig (.config ⟨false, false, 500000, 16, false, true, false, false, false,
        false, false, ⟨1, 1, 3, 2, 1⟩⟩)]) = true := by decide +kernel

/-- 95 P1: INIT from power-on with prompt HW. -/
theorem test_init :
    leaves (exec .init
        (withSched (fgs 2 ++ [.hw .clearLpmack] ++ fgs 3 ++ [.hw (.softReset Regs.reset)] ++ fgs 61
            ++ [.hw .clearLpmack] ++ fgs 3 ++ [.hw .setFrzack] ++ fgs 9 ++ [.hw .clearFrzack])
          (withOp { OpRec.empty with config := some (defaultConfig Config.example), clk := some 8000000 } State.reset)))
      (fun t => t.regs.mcr == 0x0880000F && t.regs.ctrl1 == 0x01490022 && t.trace == [.ret .init (.found true)])
      = true := by decide +kernel

/-- 95 V3.8: maxMbNum = 33. -/
theorem test_init_refused :
    leaves (exec .init
        (withOp { OpRec.empty with
          config := some { defaultConfig Config.example with maxMbNum := 33 }, clk := some 8000000 } State.reset))
      (fun t => t.refused == some .invalidConfig) = true := by decide +kernel

/-- 95 V3.9: Deinit from the end state of P1. -/
theorem test_deinit :
    leaves (exec .deinit (withSched (fgs 2 ++ [.hw (.softReset { Regs.reset with mcr := 0x0880000F })])
        (tS 0x0880000F 0x01490022)))
      (fun t => t.regs.mcr == 0x8880000F && t.regs.ctrl1 == 0) = true := by decide +kernel

/-- 43 R340's example. -/
theorem test_writeTxMb :
    leaves (exec (.writeTxMb 3) (withF0 (withOp { OpRec.empty with frame := some 0 } (withMb 3 0x08000000 0 0 0 tNormal))))
      (fun t => bankGet t.regs.mb 3 == ⟨0x0C020000, 0x048C0000, 0xABCD0000, 0⟩ && t.lock == some 3
        && t.trace == [.ret (.writeTxMb 3) (.status .success)]) = true := by decide +kernel

/-- 95 V6.2. -/
theorem test_writeTxMb_inUse :
    leaves (exec (.writeTxMb 3) (withF0 (withOp { OpRec.empty with frame := some 0 } (withMb 3 0x0C020000 0 0 0 tNormal))))
      (fun t => bankGet t.regs.mb 3 == ⟨0x0C020000, 0, 0, 0⟩ && t.trace == [.ret (.writeTxMb 3) (.status .fail)])
      = true := by decide +kernel

/-- 95 V6.4, row 1. -/
theorem test_readRxMb :
    leaves (exec (.readRxMb 5)
        (withOp { OpRec.empty with out := some 1 } (withMb 5 0x02021234 0x048C0000 0xABCD0000 0 tNormal)))
      (fun t => readFrame 1 t == { tF0 with timestamp := 0x1234 } && t.lock == none
        && t.trace == [.ret (.readRxMb 5) (.status .success)]) = true := by decide +kernel

/-- 95 V6.4, row 6: DLC 12 is read as length 8. -/
theorem test_readRxMb_dlc :
    leaves (exec (.readRxMb 5) (withOp { OpRec.empty with out := some 1 } (withMb 5 0x022C0000 0 0 0 tNormal)))
      (fun t => (readFrame 1 t).length == 8 && (readFrame 1 t).format == .extended) = true := by decide +kernel

/-- 95 V6.5: the FIFO off. -/
theorem test_readRxFifo_off :
    leaves (exec .readRxFifo (withOp { OpRec.empty with out := some 1 } tNormal))
      (fun t => t.trace == [.ret .readRxFifo (.statusHit .fail none)] && t.frames == []) = true := by decide +kernel

/-- A FIFO with one frame shown, filter hit 3 (95 V5.10, V6.5). -/
def tFifo : State :=
  hwStep .fifoHead { tS 0x2000000F 0 with fifoq := [⟨{ tF0 with timestamp := 0x0200 }, 3⟩] }

/-- 95 V6.5: the head is read and stays. -/
theorem test_readRxFifo :
    leaves (exec .readRxFifo (withOp { OpRec.empty with out := some 1 } tFifo))
      (fun t => t.trace == [.ret .readRxFifo (.statusHit .success (some 3))]
        && readFrame 1 t == { tF0 with timestamp := 0x0200 } && t.fifoq.length == 1) = true := by decide +kernel

/-- 95 P2, command 2. -/
theorem test_sendBlocking :
    leaves (exec (.sendBlocking 8)
        (withSched (fgs 8 ++ [.hw (.transmit 8 0x0042)])
          (withF0 (withOp { OpRec.empty with frame := some 0 } (withMb 8 0x08000000 0 0 0 tNormal)))))
      (fun t => bankGet t.regs.mb 8 == ⟨0x08020042, 0x048C0000, 0xABCD0000, 0⟩ && t.regs.iflag1 == 0
        && t.lock == some 8 && readFrame 0 t == { tF0 with timestamp := 0x0042 }) = true := by decide +kernel

/-- 95 V6.6: a receive while it waits. -/
theorem test_receiveBlocking :
    leaves (exec (.receiveBlocking 5)
        (withSched [.fg, .hw (.moveIn1 5), .fg, .hw (.moveIn2 5 tF0 0x0777)]
          (withOp { OpRec.empty with out := some 1 } (withMb 5 0x04000000 0 0 0 tNormal))))
      (fun t => readFrame 1 t == { tF0 with timestamp := 0x0777 } && t.regs.iflag1 == 0
        && t.trace == [.ret (.receiveBlocking 5) (.status .success)]) = true := by decide +kernel

/-- 95 V6.6: the FIFO's blocking receive pops the head. -/
theorem test_receiveFifoBlocking :
    leaves (exec .receiveFifoBlocking (withOp { OpRec.empty with out := some 1 } tFifo))
      (fun t => t.fifoq == [] && t.regs.iflag1 == 0 && readFrame 1 t == { tF0 with timestamp := 0x0200 }
        && t.trace == [.ret .receiveFifoBlocking (.statusHit .success (some 3))]) = true := by decide +kernel

/-- 95 V4.6. -/
theorem test_createHandle :
    leaves (exec .createHandle
        (withOp { OpRec.empty with callback := some (some 1), context := some 7 } (tS 0x0880000F 0x01490022)))
      (fun t => t.regs.ctrl1 == 0x0149CC22 && t.regs.mcr == 0x0C80000F && t.handle.created && t.handle.context == 7)
      = true := by decide +kernel

/-- 95 V4.1. -/
theorem test_sendNb_busy :
    leaves (exec (.sendNb 3)
        (withArm 3 .txData none (withHandle (withF0 (withOp { OpRec.empty with frame := some 0 }
          (withMb 3 0x0C020000 0 0 0 tNormal))))))
      (fun t => t.trace == [.ret (.sendNb 3) (.status .txBusy)] && t.lock == none) = true := by decide +kernel

/-- 95 V4.4: a remote frame. -/
theorem test_sendNb_remote :
    leaves (exec (.sendNb 6)
        { withHandle (withOp { OpRec.empty with frame := some 2 } (withMb 6 0x08000000 0 0 0 tNormal)) with
          frames := [(2, { Frame.empty with id := 0x0F0, kind := .remote })] })
      (fun t => bankGet t.regs.mb 6 == ⟨0x0C100000, 0x03C00000, 0, 0⟩ && t.regs.imask1 == 0x40
        && t.handle.state (.mb 6) == .txRemote) = true := by decide +kernel

/-- 95 V4.4. -/
theorem test_receiveNb :
    leaves (exec (.receiveNb 5) (withHandle (withOp { OpRec.empty with frame := some 1 } tNormal)))
      (fun t => t.handle.state (.mb 5) == .rxData && t.handle.buf (.mb 5) == some 1 && t.regs.imask1 == 0x20) = true := by
  decide +kernel

/-- 95 V4.4. -/
theorem test_receiveFifoNb :
    leaves (exec .receiveFifoNb (withHandle (withOp { OpRec.empty with frame := some 2 } tNormal)))
      (fun t => t.handle.rxFifoState == .rxFifo && t.regs.imask1 == 0xE0) = true := by decide +kernel

/-- 95 V4.5 and V4.2 (a). -/
theorem test_abortSend :
    leaves (exec (.abortSend 3) (withIrqs 8 0 (withArm 3 .txData none (withHandle (withMb 3 0x0C020042 0 0 0 tNormal)))))
      (fun t => t.regs.imask1 == 0 && bankGet t.handle.timestamp 3 == 0x0042 && t.regs.get (.mb 3 .cs) == 0x08000000
        && t.handle.state (.mb 3) == .idle) = true := by decide +kernel

/-- 95 V4.5. -/
theorem test_abortReceive :
    leaves (exec (.abortReceive 5) (withIrqs 0x20 0 (withArm 5 .rxData (some 1) (withHandle tNormal))))
      (fun t => t.regs.imask1 == 0 && t.handle.buf (.mb 5) == none && t.handle.state (.mb 5) == .idle) = true := by
  decide +kernel

/-- 95 V4.5, and V4.7's refusal before CREATE_HANDLE. -/
theorem test_abortReceiveFifo :
    leaves (exec .abortReceiveFifo (withIrqs 0xE1 0 (withHandle tNormal)))
      (fun t => t.regs.imask1 == 1 && t.handle.rxFifoState == .idle) = true
    ∧ leaves (exec .abortReceiveFifo tNormal) (fun t => t.refused == some .noHandle) = true := by decide +kernel

/-- The start state of 95 V5.1. -/
def tDrain : State :=
  withIrqs 0x88 0x88 (withArm 7 .rxData (some 7) (withArm 3 .rxData (some 3) (withHandle
    (withMb 7 0x02012222 0x0C840000 0x5A000000 0 (withMb 3 0x02021111 0x048C0000 0xABCD0000 0 tNormal)))))

/-- 95 V5.1: priority and drain. -/
theorem test_handleIrq_drains :
    leaves (exec .handleIrq tDrain)
      (fun t => t.trace == [.cb .rxIdle 3 7, .cb .rxIdle 7 7] && t.regs.imask1 == 0 && t.regs.iflag1 == 0
        && readFrame 3 t == { tF0 with timestamp := 0x1111 } && bankGet t.handle.timestamp 7 == 0x2222
        && !t.isr.active && t.lock == none) = true := by decide +kernel

/-- 95 V5.2: ErrorStatus, AllFour. The host's own issue is refused, though ISR's turn is next (30 R143, 95 V7.3), and on
ISR's turn the dispatcher runs. -/
theorem test_handleIrq_status :
    leaves (exec .handleIrq
        { withHandle tNormal with regs := { tNormal.regs with esr := 0x8024, ctrl1 := 0x8000 } })
      (fun t => t.regs.esr == 0x8020 && t.trace == [.cb .errorStatus 0x8024 7]) = true
    ∧ leaves (step { withSched [.fg, .isr] tDrain with program := [⟨0x50000000, OpRec.empty⟩] })
      (fun t => t.refused == some .isrOnly && t.trace == [] && t.sched == [.isr]) = true
    ∧ leaves (step (withSched [.isr] tDrain)) (fun t => t.trace == [.cb .rxIdle 3 7, .cb .rxIdle 7 7]) = true := by
  decide +kernel

/-- 95 V5.6, step 1, and V5.10's head: HW's own moves. -/
theorem test_hw_moves :
    ((hwStep (.transmit 4 0x1234) (withMb 4 0x0C100000 0 0 0 tNormal)).regs.get (.mb 4 .cs) == 0x04101234) = true
    ∧ (tFifo.regs.iflag1 == 0x20 && tFifo.regs.get (.mb 0 .cs) == 0x02020200 && tFifo.regs.rxfir == 3) = true := by
  decide +kernel

/-- A move-in of mailbox 5 in progress, in the mode of `mcr`. -/
def tMoving (mcr : Word) : State :=
  { hwStep (.moveIn1 5) (withMb 5 0x04000000 0 0 0 tNormal) with
    regs := { (hwStep (.moveIn1 5) (withMb 5 0x04000000 0 0 0 tNormal)).regs with mcr := mcr } }

/-- 60 R519: a move-in completes in Normal and FreezePending, not in Frozen or Disabled; 00 R23: with a frame of length
0..8 alone. -/
theorem test_hw_modes :
    [0x0000000F, 0x5000000F, 0x5100000F, 0x8010000F].map
        (fun m => (hwStep (.moveIn2 5 tF0 0) (tMoving m)).regs.iflag1)
      = [0x20, 0x20, 0, 0]
    ∧ (hwStep (.moveIn2 5 { tF0 with length := 9 } 0) (tMoving 0x0000000F)).regs.iflag1 = 0
    ∧ (hwStep (.fifoAppend { tF0 with length := 9 } 0) (tS 0x2000000F 0)).fifoq = [] := by decide +kernel

/-- 70 R620: EA3's write of mailbox 5's ID word during a move-in is a core write, so MI2 leaves a draw there and the
frame's words elsewhere; a soft reset's registers are no core writes. -/
theorem test_overwrite_noted :
    (bankGet (overwrite (.mb 5 .id) (tMoving 0x0000000F)).moveIn 5).map (fun m => (m.wroteId, m.wroteCs)) = some (true, false)
    ∧ (hwStep (.moveIn2 5 tF0 0) (overwrite (.mb 5 .id) (tMoving 0x0000000F))).draws = 2
    ∧ (hwStep (.moveIn2 5 tF0 0) (scramble [.mb 5 .id] (tMoving 0x0000000F))).draws = 1
    ∧ eaFinish tNormal.par [(.mb 5 .id, 0)] false
      = [.overwrite (.mb 5 .id), .scramble (tNormal.par.errataBackup ++ tNormal.par.softrstSet)] := by decide +kernel

/-- 60 R527: a filter word whose bits read TX_DATA is not HW's with the FIFO on, and is a mailbox's with it off. -/
theorem test_hw_filter :
    mayTransmit 7 (withMb 7 0x0C000000 0 0 0 (tS 0x2000000F 0)) = false
    ∧ mayTransmit 8 (withMb 8 0x0C000000 0 0 0 (tS 0x2000000F 0)) = true
    ∧ mayTransmit 7 (withMb 7 0x0C000000 0 0 0 tNormal) = true := by decide +kernel

/-- 40 R207: each duty with the state one bit away in which HW does not owe it; R208: bus-off frees HW of FRZACK. -/
theorem test_duties :
    owes (tS 0x8000000F 0) .setLpmack = true ∧ owes (tS 0x8010000F 0) .setLpmack = false
    ∧ owes (tS 0x0010000F 0) .clearLpmack = true ∧ owes (tS 0x8010000F 0) .clearLpmack = false
    ∧ owes (tS 0x0200000F 0) .softReset = true ∧ owes (tMoving 0x0000000F) (.moveIn 5) = true
    ∧ owes (tMoving 0x5100000F) (.moveIn 5) = false
    ∧ owes (tS 0x5000000F 0) .setFrzack = true
    ∧ owes { tS 0x5000000F 0 with regs := { (tS 0x5000000F 0).regs with esr := 0x20 } } .setFrzack = false
    ∧ owes (tS 0x0100000F 0) .clearFrzack = true ∧ owes (tS 0x5100000F 0) .clearFrzack = false
    ∧ owes (tS 0x8100000F 0) .clearFrzack = false := by decide +kernel

/-- 95 V2.7: ExitFreeze from Frozen with nothing scheduled: HW clears FRZACK. -/
theorem test_exitFreeze_duty :
    leaves (exec .exitFreeze (tS 0x5100000F 0))
      (fun t => t.regs.mcr == 0x0000000F && t.trace == [.ret .exitFreeze .unit]) = true := by decide +kernel

/-- 43 R340: the host raises the slot's length after the issue: the write runs, and the DLC
alone is a draw. -/
theorem test_writeTxMb_raised :
    leaves (exec (.writeTxMb 3)
        (withSched [.hostFrame 0 { tF0 with length := 20 }]
          (withF0 (withOp { OpRec.empty with frame := some 0 } (withMb 3 0x08000000 0 0 0 tNormal)))))
      (fun t => t.regs.get (.mb 3 .id) == 0x048C0000 && t.draws == 1 && t.trace == [.ret (.writeTxMb 3) (.status .success)]) = true := by decide +kernel

/-- 95 V2.1: the mode function, row by row. -/
theorem test_modes : [0x0000000F, 0x4000000F, 0x1000000F, 0x5000000F, 0x5100000F, 0x0100000F, 0x0200000F, 0x5300000F,
      0xD890000F, 0x8010000F].map modeOf
    = [.normal, .normal, .normal, .freezePending, .frozen, .frozen, .softReset, .softReset, .disabled, .disabled] := by
  decide

/-- The step issues the command placed, from power-on: GET_DEFAULT_CONFIG returns (95 P1, command 1), and a word
that does not decode is refused. -/
theorem test_step_issues :
    leaves (step (State.reset.withFetchWord 32 0x28000000)) (fun t => t.trace.length == 1 && t.program == []) = true
    ∧ leaves (step (State.reset.withFetchWord 32 0x04000000)) (fun t => t.refused == some .illegalOpcode) = true := by
  decide +kernel

/-! ## Witnesses: each meets the hypotheses of the statement it is named after, a boundary value for each clause -/

/-- Every operand a command may name. -/
def tOp (s : State) : State := withOp OpRec.full s
/-- The machine with a different parameter record. -/
def withPar (p : Params) (s : State) : State := { s with par := p }
/-- The parameters with TIMING_WRITE_MODE = Bracket. -/
def tBracket : Params := { Config.example with timingWriteMode := .bracket }
/-- The parameters with the errata variant of the freeze entry. -/
def tErrata : Params := { Config.example with freezeVariant := .errataA, errata6032 := true }

theorem witness_DecodeEncode : (Instr.setTxMbConfig 255 true).wf = true ∧ (Instr.abortReceive 0).wf = true := by decide

theorem witness_EncodeDecode : decode 0x20FF0001 = .ok (.setTxMbConfig 255 true) := rfl

theorem witness_ReservedRefused :
    ([0x00000000, 0x04000000, 0x0F000000, 0x13000000, 0x1F000000, 0x26000000, 0x27000000, 0x2B000000, 0x2F000000,
        0x36000000, 0x3F000000, 0x47000000, 0x4F000000, 0x51000000, 0xFF000000] : List Word).all (fun w =>
      decide (opcOf w = 0x00 ∨ (0x04 ≤ opcOf w ∧ opcOf w ≤ 0x0F) ∨ (0x13 ≤ opcOf w ∧ opcOf w ≤ 0x1F)
        ∨ (0x26 ≤ opcOf w ∧ opcOf w ≤ 0x27) ∨ (0x2B ≤ opcOf w ∧ opcOf w ≤ 0x2F) ∨ (0x36 ≤ opcOf w ∧ opcOf w ≤ 0x3F)
        ∨ (0x47 ≤ opcOf w ∧ opcOf w ≤ 0x4F) ∨ 0x51 ≤ opcOf w)) = true
    ∧ resOf 0x01000002 ≠ 0 ∧ resOf 0x01008000 ≠ 0
    ∧ ((opcRow (opcOf 0x01010000)).map (·.takesIdx) = some false ∧ idxOf 0x01010000 ≠ 0)
    ∧ ((opcRow (opcOf 0x30030001)).map (·.takesEn) = some false ∧ enOf 0x30030001 = true) := by decide

theorem witness_StepRunsDecoded :
    Ready { tOp tNormal with program := [⟨0x28000000, OpRec.full⟩] } ∧ decode 0x28000000 = .ok .getDefaultConfig
    ∧ Ready { tNormal with program := [⟨0x26000000, OpRec.empty⟩] } ∧ decode 0x26000000 = .error .illegalOpcode := by
  decide +kernel

theorem witness_RefusedIsStuck : ({ tNormal with refused := some .noHandle } : State).refused = some .noHandle := rfl

theorem witness_StepKeepsInv :
    Inv (withF0 ((tOp tNormal).withFetchWord 32 0x31050000))
    ∧ leaves (step (withF0 ((tOp tNormal).withFetchWord 32 0x31050000))) (fun t => t.trace.length == 1) = true
    ∧ Inv { tFifo with sched := [.hw (.fifoAppend tF0 0)] } := by decide +kernel

theorem witness_StepKeepsParams :
    leaves (step ((tOp tNormal).withFetchWord 32 0x30030000)) (fun _ => true) = true
    ∧ leaves (step tNormal) (fun _ => true) = true := by decide +kernel

/-- Each move is blocked by the lock alone: without it the move is allowed. -/
theorem witness_Lock :
    mayMoveIn 15 (withMb 15 0x04000000 0 0 0 tNormal) = true
    ∧ ({ withMb 15 0x04000000 0 0 0 tNormal with lock := some 15 } : State).lock = some 15
    ∧ hwStep .fifoHead { tFifo with regs := { tFifo.regs with iflag1 := 0 } }
        ≠ { tFifo with regs := { tFifo.regs with iflag1 := 0 } }
    ∧ ({ tFifo with lock := some 0 } : State).lock = some 0
    ∧ (Reg.mb 3 .id ≠ .mb 3 .cs ∧ Reg.mb 3 .id ≠ .timer) := by decide +kernel

theorem witness_WriteOneToClear : 0 < 32 ∧ 31 < 32
    ∧ (tFifo.regs.mcr.getLsbD 29 = true ∧ tFifo.regs.iflag1.getLsbD 5 = true ∧ (0x20 : Word).getLsbD 5 = true)
    ∧ ¬ (tNormal.regs.mcr.getLsbD 29 = true) := by decide +kernel

theorem witness_McrWrite : (27 < 32 ∧ (27 = 27 ∨ 27 = 24 ∨ 27 = 20)) ∧ (25 < 32 ∧ ¬ (25 = 27 ∨ 25 = 24 ∨ 25 = 20))
    ∧ (31 < 32 ∧ ¬ (31 = 27 ∨ 31 = 24 ∨ 31 = 20) ∧ 31 ≠ 25) := by decide

theorem witness_HiddenReads : MbWord.id ≠ .cs ∧ headHidden 5 (tS 0x2000000F 0) = true
    ∧ (headHidden 6 (tS 0x2000000F 0) = false ∧ mbBusy 6 (tS 0x2000000F 0) = false)
    ∧ mbBusy 6 (withMb 6 0x05000000 0 0 0 tNormal) = true ∧ noHead tNormal = true ∧ noHead tFifo = false := by
  decide +kernel

theorem witness_EnterFreezeReturns :
    (Ready tNormal ∧ tNormal.par.freezeVariant = .base)
    ∧ (Ready (withPar tErrata State.reset) ∧ busOff (withPar tErrata State.reset).regs.esr = false) := by decide +kernel

/-- The state of the errata tail (95 V2.6). -/
def tErrataTail : State :=
  { withPar tErrata tNormal with
    regs := { Regs.reset with mcr := 0x0000000F, imask1 := 0x210, esr := 0x20 }
    sched := List.replicate 9 .fg ++ [.hw (.softReset Regs.reset)] }

theorem witness_ErrataTailRestores :
    ReadyWith (List.replicate 9 .fg ++ [.hw (.softReset Regs.reset)]) tErrataTail
    ∧ tErrataTail.par.freezeVariant ≠ .base ∧ busOff tErrataTail.regs.esr = true
    ∧ getBit .mdis tErrataTail.regs.mcr = false ∧ getBit .lpmack tErrataTail.regs.mcr = false
    ∧ getBit .softrst tErrataTail.regs.mcr = false ∧ tErrataTail.par.errataBackup = [.mcr, .imask1]
    ∧ Reg.rximr 3 ∉ tErrataTail.par.softrstSet := by decide +kernel

/-- A frozen state with the turns of ExitFreeze. -/
def tLeaving : State := withSched [.fg, .fg, .fg, .fg, .hw .clearFrzack] tFrozen

theorem witness_ExitFreezeReturns :
    (Ready tNormal ∧ getBit .frzack tNormal.regs.mcr = false)
    ∧ (ReadyWith [.fg, .fg, .fg, .fg, .hw .clearFrzack] tLeaving ∧ tLeaving.mode = .frozen
      ∧ getBit .mdis tLeaving.regs.mcr = false) := by decide +kernel

/-- A state with the turns of Reset. -/
def tResetting : State := withSched [.fg, .fg, .hw (.softReset Regs.reset)] (withHandle tNormal)

theorem witness_ResetLeaves :
    ReadyWith [.fg, .fg, .hw (.softReset Regs.reset)] tResetting ∧ getBit .lpmack tResetting.regs.mcr = false
    ∧ (tResetting.handle.created = true ∧ tResetting.handle.armed = false) ∧ tResetting.par.nrximr ≤ 32
    ∧ Reg.mb 31 .id ∉ tResetting.par.softrstSet ∧ Reg.rxfgmask ∉ tResetting.par.softrstSet := by decide +kernel

theorem witness_DeinitLeaves :
    ReadyWith [.fg, .fg, .hw (.softReset Regs.reset)] tResetting ∧ getBit .lpmack tResetting.regs.mcr = false
    ∧ (tResetting.handle.created = true ∧ tResetting.handle.armed = false) ∧ tResetting.par.nrximr ≤ 32 := by
  decide +kernel

/-- A state with a transfer armed on mailbox 15 and every operand given. -/
def tArmed : State := tOp (withArm 15 .txData none (withHandle tNormal))

theorem witness_ModuleRefusals :
    (State.reset.refused = none ∧ idle State.reset = true ∧ getBit .lpmack State.reset.regs.mcr = true)
    ∧ (tArmed.refused = none ∧ idle tArmed = true ∧ tArmed.handle.created = true ∧ tArmed.handle.armed = true
      ∧ getBit .lpmack tArmed.regs.mcr = false)
    ∧ (tArmed.fg.opnd.config = some (defaultConfig Config.example) ∧ tArmed.fg.opnd.clk = some 8000000
      ∧ 1 ≤ (defaultConfig Config.example).maxMbNum ∧ (defaultConfig Config.example).maxMbNum ≤ 32
      ∧ (defaultConfig Config.example).baudRate ≠ 0 ∧ (8000000 : Word) ≠ 0
      ∧ (defaultConfig Config.example).baudRate.toNat * 25 < 2 ^ 32
      ∧ (defaultConfig Config.example).timingConfig.rJumpWidth ≤ 3)
    ∧ (withOp { OpRec.empty with baud := some 171798692, clk := some 1 } tNormal).refused = none
    ∧ idle (withOp { OpRec.empty with baud := some 171798692, clk := some 1 } tNormal) = true
    ∧ 2 ^ 32 ≤ (171798692 : Word).toNat * 25
    ∧ TimingConfig.wf ⟨257, 3, 7, 7, 7⟩ = false
    ∧ (withOp { OpRec.empty with cfg := some ⟨257, 3, 7, 7, 7⟩ } tNormal).fg.opnd.cfg = some ⟨257, 3, 7, 7, 7⟩ := by
  decide +kernel

theorem witness_TableSearchLaw : tqTableWf Config.exTq = true
    ∧ (∃ e ∈ Config.exTq, 8000000 % (500000 * e.tq) = 0 ∧ 8000000 / (500000 * e.tq) ≤ 256)
    ∧ (tableSearch Config.exTq 500000 8000000).found = true ∧ (tableSearch Config.exTq 1 2048).found = true
    ∧ ((tableSearch Config.exTq 500000 14500000).found = false ∧ 1 ≤ 14500000 / (500000 * 25))
    ∧ ((tableSearch Config.exTq 1 4294967295).found = false ∧ ¬ 4294967295 / (1 * 25) ≤ 256) := by
  decide +kernel

theorem witness_BaudRateWrites :
    Ready (tOp tFrozen) ∧ (tOp tFrozen).fg.opnd.baud = some 500000 ∧ (tOp tFrozen).fg.opnd.clk = some 8000000
    ∧ (500000 : Word) ≠ 0 ∧ (8000000 : Word) ≠ 0 ∧ (171798691 : Word).toNat * 25 < 2 ^ 32
    ∧ (500000 : Word).toNat * 25 < 2 ^ 32 ∧ tqTableWf (tOp tFrozen).par.tqTable = true
    ∧ (tOp tFrozen).par.timingWriteMode = .requireFrozen ∧ (tOp tFrozen).mode = .frozen
    ∧ (tableSearch Config.exTq 1 4294967295).presdiv = .draw := by decide +kernel

theorem witness_SegmentsLaw : segments 8 = some ⟨2, 1, 1⟩ ∧ segments 23 = some ⟨7, 7, 5⟩ := by decide

/-- 95 V1.3's rate, at which the two selections differ, and a clock at which nothing is accepted. -/
theorem witness_ImprovedSearchLaw : 1 ≤ 500000 ∧ improvedSearch .firstAccepted 500000 36000000 = some ⟨4, 3, 4, 4, 6⟩
    ∧ improvedSearch .closestSamplePoint 500000 36000000 = some ⟨6, 1, 2, 2, 4⟩
    ∧ candidate 500000 36000000 18 = some ⟨4, 3, 4, 4, 6⟩
    ∧ improvedSearch .firstAccepted 500000 1 = none := by decide +kernel

theorem witness_CalcReturns :
    Ready (tOp tNormal) ∧ (tOp tNormal).fg.opnd.baud = some 500000 ∧ (tOp tNormal).fg.opnd.clk = some 8000000
    ∧ (500000 : Word) ≠ 0 ∧ (8000000 : Word) ≠ 0 ∧ (500000 : Word).toNat * 25 < 2 ^ 32
    ∧ improvedSearch .firstAccepted 500000 1 = none := by decide +kernel

theorem witness_TimingConfigWrites :
    Ready (tOp tFrozen) ∧ (tOp tFrozen).fg.opnd.cfg = some ⟨1, 2, 3, 3, 6⟩ ∧ TimingConfig.wf ⟨1, 2, 3, 3, 6⟩ = true
    ∧ TimingConfig.wf ⟨256, 3, 7, 7, 7⟩ = true ∧ (tOp tFrozen).par.timingWriteMode = .requireFrozen
    ∧ (tOp tFrozen).mode = .frozen := by decide +kernel

theorem witness_BracketWrites :
    Ready (tOp (withPar tBracket tNormal)) ∧ (tOp (withPar tBracket tNormal)).fg.opnd.cfg = some ⟨1, 2, 3, 3, 6⟩
    ∧ (tOp (withPar tBracket tNormal)).fg.opnd.mask = some 0 ∧ TimingConfig.wf ⟨1, 2, 3, 3, 6⟩ = true ∧ tBracket.timingWriteMode = .bracket ∧ tBracket.freezeVariant = .base
    ∧ busOff tNormal.regs.esr = false ∧ getBit .frzack tNormal.regs.mcr = false := by decide +kernel

theorem witness_TxMbConfigWrites : Ready tNormal ∧ 15 ≤ maxMb tNormal.regs ∧ 15 < 32
    ∧ Ready (tS 0x0000001F 0) ∧ 31 ≤ maxMb (tS 0x0000001F 0).regs ∧ bankGet tNormal.moveIn 15 = none := by
  decide +kernel

theorem witness_RxMbConfigWrites : Ready (tOp (tS 0x0000001F 0)) ∧ 31 ≤ maxMb (tS 0x0000001F 0).regs ∧ 31 < 32
    ∧ (tOp (tS 0x0000001F 0)).fg.opnd.rxcfg = some ⟨0x123, .standard, .data⟩
    ∧ bankGet (tS 0x0000001F 0).moveIn 31 = none := by decide +kernel

theorem witness_FifoOccupancy : (1 ≤ 8 ∧ 8 ≤ 8) ∧ (9 ≤ 9 ∧ 9 ≤ 16) ∧ 1 ≤ 17 ∧ 17 ≤ 8 * (2 + 1) := by decide

/-- The largest filter table 32 mailboxes hold: 104 filters, RFFN = 12. -/
def tFifoMax : FifoConfig := ⟨List.replicate 104 7, 104, .d, .mailboxFirst⟩

theorem witness_FifoEnableWrites :
    Ready (withOp { OpRec.empty with fifocfg := some tFifoMax } (tS 0x5100001F 0))
    ∧ fifoFits tFifoMax (tS 0x5100001F 0).regs = true
    ∧ (tS 0x5100001F 0).par.timingWriteMode = .requireFrozen ∧ (tS 0x5100001F 0).mode = .frozen
    ∧ fifoFits ⟨List.replicate 105 7, 105, .d, .mailboxFirst⟩ (tS 0x5100001F 0).regs = false
    ∧ maxMb (tS 0x5100007F 0).regs = 127 ∧ fifoFits tFifoMax (tS 0x5100007F 0).regs = true
    ∧ fifoFits ⟨List.replicate 105 7, 105, .d, .mailboxFirst⟩ (tS 0x5100007F 0).regs = false := by decide +kernel

theorem witness_FifoDisableWrites : Ready tFrozen ∧ tFrozen.par.timingWriteMode = .requireFrozen
    ∧ tFrozen.mode = .frozen := by decide +kernel

theorem witness_MaskWrites : Ready (tOp tFrozen) ∧ (tOp tFrozen).fg.opnd.mask = some 0
    ∧ tFrozen.par.timingWriteMode = .requireFrozen ∧ tFrozen.mode = .frozen ∧ 15 ≤ maxMb tFrozen.regs
    ∧ 15 < tFrozen.par.nrximr := by decide +kernel

theorem witness_NotFrozenRefused :
    (tOp tNormal).refused = none ∧ idle (tOp tNormal) = true ∧ tNormal.par.timingWriteMode = .requireFrozen
    ∧ tNormal.mode ≠ .frozen ∧ (tOp tNormal).fg.opnd.cfg = some ⟨1, 2, 3, 3, 6⟩
    ∧ TimingConfig.wf ⟨1, 2, 3, 3, 6⟩ = true ∧ (tOp tNormal).fg.opnd.baud = some 500000
    ∧ (tOp tNormal).fg.opnd.clk = some 8000000 ∧ (500000 : Word).toNat * 25 < 2 ^ 32
    ∧ (tOp tNormal).fg.opnd.mask = some 0 ∧ 15 ≤ maxMb tNormal.regs
    ∧ (tOp tNormal).fg.opnd.fifocfg.isSome = true := by decide +kernel

theorem witness_DefaultConfigReturned : Ready tNormal := by decide +kernel

/-- The register values HW's soft reset draws in the run of INIT: the freeze is acknowledged. -/
def tDrawn : Regs := { Regs.reset with mcr := 0x5900000F }

/-- The turns of INIT. -/
def tInitTurns (n : Nat) : List Move :=
  [.fg, .fg, .fg, .fg, .fg, .hw (.softReset tDrawn)] ++ List.replicate n .fg ++ [.hw .clearFrzack]

theorem witness_InitLeaves :
    ReadyWith (tInitTurns 100) (withSched (tInitTurns 100) (tOp tNormal))
    ∧ (tOp tNormal).fg.opnd.config = some (defaultConfig Config.example)
    ∧ (tOp tNormal).fg.opnd.clk = some 8000000 ∧ (defaultConfig Config.example).baudRate ≠ 0
    ∧ (defaultConfig Config.example).baudRate.toNat * 25 < 2 ^ 32
    ∧ (defaultConfig Config.example).timingConfig.rJumpWidth ≤ 3 ∧ tNormal.handle.created = false
    ∧ tqTableWf tNormal.par.tqTable = true ∧ tNormal.par.nrximr ≤ 32 ∧ tNormal.par.freezeVariant = .base
    ∧ .mcr ∈ tNormal.par.softrstSet ∧ getBit .lpmack tNormal.regs.mcr = false ∧ getBit .mdis tDrawn.mcr = false
    ∧ getBit .lpmack tDrawn.mcr = false ∧ getBit .frzack tDrawn.mcr = true := by decide +kernel

/-- A state that may write mailbox 15, the last one under MAXMB = 15. -/
def tWrite : State := withF0 (tOp (withHandle (withMb 15 0x08000000 0 0 0 tNormal)))

theorem witness_WriteTxMbWrites : Ready tWrite ∧ 15 ≤ maxMb tWrite.regs ∧ tWrite.fg.opnd.frame = some 0
    ∧ (readFrame 0 tWrite).length ≤ 8 ∧ headHidden 15 tWrite = false
    ∧ codeOf (tWrite.regs.get (.mb 15 .cs)) ≠ Config.txData ∧ bankGet tWrite.moveIn 15 = none := by decide +kernel

theorem witness_WriteInUseFails : Ready (withMb 15 0x0C000000 0 0 0 tWrite)
    ∧ headHidden 15 (withMb 15 0x0C000000 0 0 0 tWrite) = false
    ∧ codeOf ((withMb 15 0x0C000000 0 0 0 tWrite).regs.get (.mb 15 .cs)) = Config.txData
    ∧ tWrite.handle.created = true ∧ tWrite.handle.state (.mb 15) = .idle ∧ 15 ≤ maxMb tWrite.regs
    ∧ tWrite.fg.opnd.frame = some 0 ∧ (readFrame 0 tWrite).length ≤ 8 := by decide +kernel

theorem witness_TransferRefusals :
    (tNormal.refused = none ∧ idle tNormal = true ∧ maxMb tNormal.regs < 16)
    ∧ (15 ≤ maxMb tNormal.regs ∧ tNormal.fg.opnd.frame = none ∧ tNormal.fg.opnd.out = none)
    ∧ ((tOp { tNormal with frames := [(0, { tF0 with length := 9 })] }).fg.opnd.frame = some 0
      ∧ 8 < (readFrame 0 { tNormal with frames := [(0, { tF0 with length := 9 })] }).length)
    ∧ (tNormal.refused = none ∧ idle tNormal = true ∧ tNormal.handle.created = false)
    ∧ (tArmed.fg.opnd.callback = some (some 1) ∧ tArmed.fg.opnd.context = some 0 ∧ tArmed.handle.created = true
      ∧ tArmed.handle.armed = true ∧ idle tArmed = true) := by decide +kernel

theorem witness_ReadRxMbReturns :
    (Ready tWrite ∧ 15 ≤ maxMb tWrite.regs ∧ tWrite.fg.opnd.out = some 1 ∧ headHidden 15 tWrite = false)
    ∧ (Ready (tOp (tS 0x2000000F 0)) ∧ 5 ≤ maxMb (tS 0x2000000F 0).regs ∧ headHidden 5 (tS 0x2000000F 0) = true) := by
  decide +kernel

theorem witness_ReadRxFifoReturns :
    (Ready (tOp tNormal) ∧ (tOp tNormal).fg.opnd.out = some 1 ∧ getBit .rfen tNormal.regs.mcr = false)
    ∧ (Ready (tOp tFifo) ∧ getBit .rfen tFifo.regs.mcr = true ∧ noHead tFifo = false ∧ mbBusy 0 tFifo = false)
    ∧ (Ready (tOp (tS 0x2000000F 0)) ∧ getBit .rfen (tS 0x2000000F 0).regs.mcr = true
      ∧ noHead (tS 0x2000000F 0) = true) := by decide +kernel

theorem witness_SendBlockingReturns :
    ReadyWith (List.replicate 12 .fg ++ [.hw (.transmit 15 0x42)])
      (withSched (List.replicate 12 .fg ++ [.hw (.transmit 15 0x42)]) tWrite)
    ∧ 15 ≤ maxMb tWrite.regs ∧ tWrite.fg.opnd.frame = some 0 ∧ (readFrame 0 tWrite).length ≤ 8
    ∧ inFifoRegion 15 tWrite.regs = false ∧ inFifoRegion 8 (tS 0x2000000F 0).regs = false ∧ tWrite.mode = .normal
    ∧ codeOf (tWrite.regs.get (.mb 15 .cs)) ≠ Config.txData ∧ tWrite.regs.iflag1.getLsbD 15 = false := by decide +kernel

theorem witness_ReceiveBlockingReturns :
    (Ready (withIrqs 0 0x8000 tWrite) ∧ 15 ≤ maxMb tWrite.regs ∧ tWrite.fg.opnd.out = some 1
      ∧ getBit .rfen tWrite.regs.mcr = false ∧ (withIrqs 0 0x8000 tWrite).regs.iflag1.getLsbD 15 = true)
    ∧ (Ready (withIrqs 0 0x40 (tOp (tS 0x2000000F 0))) ∧ getBit .rfen (tS 0x2000000F 0).regs.mcr = true ∧ 5 < 6
      ∧ (withIrqs 0 0x40 (tOp (tS 0x2000000F 0))).regs.iflag1.getLsbD 6 = true) := by decide +kernel

theorem witness_ReceiveFifoBlockingReturns :
    (Ready (tOp tFifo) ∧ (tOp tFifo).fg.opnd.out = some 1 ∧ getBit .rfen tFifo.regs.mcr = true ∧ noHead tFifo = false
      ∧ mbBusy 0 tFifo = false)
    ∧ (Ready (withIrqs 0 0x20 (tOp tNormal)) ∧ getBit .rfen tNormal.regs.mcr = false
      ∧ (withIrqs 0 0x20 (tOp tNormal)).regs.iflag1.getLsbD 5 = true) := by decide +kernel

theorem witness_PollsHang :
    (Ready (tS 0xC100000F 0) ∧ getBit .frzack (tS 0xC100000F 0).regs.mcr = true
      ∧ getBit .mdis (tS 0xC100000F 0).regs.mcr = true ∧ getBit .softrst (tS 0xC100000F 0).regs.mcr = false)
    ∧ (Ready (tOp tNormal) ∧ (tOp tNormal).fg.opnd.out = some 1 ∧ dueDuty tNormal = none ∧ 15 ≤ maxMb tNormal.regs
      ∧ tNormal.regs.iflag1.getLsbD 15 = false ∧ tNormal.regs.iflag1.getLsbD 5 = false) := by decide +kernel

theorem witness_FrameRoundTrip : payloadOrderWf [7, 6, 5, 4, 3, 2, 1, 0] = true
    ∧ ({ tF0 with length := 8, format := .extended } : Frame).length ≤ 8 := by decide

theorem witness_CreateHandleLeaves :
    (Ready (tOp (withHandle tNormal)) ∧ (tOp (withHandle tNormal)).fg.opnd.callback = some (some 1)
      ∧ (tOp (withHandle tNormal)).fg.opnd.context = some 0 ∧ (withHandle tNormal).handle.armed = false)
    ∧ (withOp { OpRec.empty with callback := some none, context := some 7 } tNormal).fg.opnd.callback = some none := by
  decide +kernel

theorem witness_SendNbArms : Ready tWrite ∧ tWrite.handle.created = true ∧ 15 ≤ maxMb tWrite.regs
    ∧ tWrite.fg.opnd.frame = some 0 ∧ (readFrame 0 tWrite).length ≤ 8 ∧ tWrite.handle.state (.mb 15) = .idle
    ∧ headHidden 15 tWrite = false ∧ codeOf (tWrite.regs.get (.mb 15 .cs)) ≠ Config.txData := by decide +kernel

theorem witness_ArmCalls :
    (Ready tArmed ∧ tArmed.handle.created = true ∧ tArmed.fg.opnd.frame = some 0
    ∧ 15 ≤ maxMb tArmed.regs ∧ tArmed.handle.state (.mb 15) ≠ .idle ∧ (readFrame 0 tArmed).length ≤ 8
    ∧ ({ tArmed with handle := tArmed.handle.setState .fifo .rxFifo } : State).handle.rxFifoState ≠ .idle)
    ∧ (Ready tWrite ∧ tWrite.handle.created = true ∧ tWrite.fg.opnd.frame = some 0
    ∧ 15 ≤ maxMb tWrite.regs ∧ tWrite.handle.state (.mb 15) = .idle ∧ tWrite.handle.rxFifoState = .idle) := by decide +kernel

theorem witness_AbortsLeave : Ready tArmed ∧ tArmed.handle.created = true ∧ 15 ≤ maxMb tArmed.regs
    ∧ headHidden 15 tArmed = false := by decide +kernel

theorem witness_IrqIssueRefused :
    (Ready { tNormal with program := [⟨0x50000000, OpRec.empty⟩] } ∧ decode 0x50000000 = .ok .handleIrq)
    ∧ ({ withSched [.fg, .isr] tDrain with program := [⟨0x50000000, OpRec.empty⟩] } : State).sched = .fg :: [.isr]
    ∧ tDrain.refused = none ∧ idle tDrain = true := by decide +kernel

/-- BOFFINT raised and enabled. -/
def tStatus : State :=
  { withHandle tNormal with regs := { tNormal.regs with esr := 0x8024, ctrl1 := 0x8000 } }

theorem witness_IsrStart :
    (tDrain.isr.active = false ∧ tDrain.refused = none ∧ irq tDrain = true ∧ tDrain.handle.created = true
      ∧ tDrain.fg.window = false)
    ∧ (tNormal.isr.active = false ∧ irq tNormal = false)
    ∧ (Ready tStatus ∧ irq tStatus = true ∧ tStatus.handle.created = true ∧ tStatus.fg.window = false
      ∧ (isrSteps 6 (isrStart tStatus)).isr.active = false
      ∧ ∀ m < 6, (isrSteps m (isrStart tStatus)).isr.active = true) := by decide +kernel

/-- WAKINT raised and enabled. -/
def tWake : State :=
  { withHandle (tS 0x0400000F 0) with regs := { (tS 0x0400000F 0).regs with esr := 0x8001 } }

theorem witness_DispatchStatus :
    (Ready tStatus ∧ irq tStatus = true ∧ tStatus.handle.created = true ∧ tStatus.fg.window = false
      ∧ pend tStatus.regs = 0 ∧ tStatus.regs.esr &&& status4 ≠ 0)
    ∧ (Ready tWake ∧ irq tWake = true ∧ tWake.handle.created = true ∧ tWake.fg.window = false ∧ pend tWake.regs = 0
      ∧ tWake.regs.esr &&& status4 = 0 ∧ tWake.regs.esr.getLsbD 0 = true) := by decide +kernel

/-- Mailbox j sent and alone pending. -/
def tSent (j : Nat) : State := withIrqs (oneBit j) (oneBit j) (withArm j .txData none (withHandle tNormal))

/-- ISR at HI0 with j and 31 pending, mailbox j in the logical state, its CS word given. -/
def tIter (j : Nat) (st : MailboxState) (cs : Word) : State :=
  isrStart (withIrqs (oneBit j ||| oneBit 31) (oneBit j ||| oneBit 31)
    (withArm j st (some 1) (withHandle (withMb j cs 0 0 0 tNormal))))

theorem witness_DispatchTxDone :
    (Resolves 0 (tIter 0 .txData 0x08000042) ∧ ¬ IsFifoEvent 0 (tIter 0 .txData 0x08000042)
      ∧ (tIter 0 .txData 0x08000042).handle.state (.mb 0) = .txData ∧ headHidden 0 (tIter 0 .txData 0x08000042) = false)
    ∧ (Resolves 5 (tIter 5 .txRemote 0x04100000) ∧ ¬ IsFifoEvent 5 (tIter 5 .txRemote 0x04100000)
      ∧ (tIter 5 .txRemote 0x04100000).handle.state (.mb 5) = .txRemote)
    ∧ (Ready (tSent 31) ∧ (tSent 31).handle.created = true ∧ (tSent 31).fg.window = false
      ∧ (tSent 31).regs.esr &&& esrFlags = 0 ∧ pend (tSent 31).regs = oneBit 31
      ∧ (tSent 31).handle.state (.mb 31) = .txData ∧ (tSent 31).handle.rxFifoState = .idle
      ∧ getBit .rfen (tSent 31).regs.mcr = false)
    ∧ pend (tSent 0).regs = oneBit 0 := by decide +kernel

theorem witness_DispatchRxDone :
    (Resolves 5 (tIter 5 .rxData 0x02000000) ∧ ¬ IsFifoEvent 5 (tIter 5 .rxData 0x02000000)
      ∧ (tIter 5 .rxData 0x02000000).handle.state (.mb 5) = .rxData ∧ headHidden 5 (tIter 5 .rxData 0x02000000) = false
      ∧ codeOf ((tIter 5 .rxData 0x02000000).regs.get (.mb 5 .cs)) = Config.rxFull)
    ∧ codeOf ((tIter 5 .rxData 0x06000000).regs.get (.mb 5 .cs)) = Config.rxOverrun
    ∧ (Resolves 9 (tIter 9 .rxData 0x05000000)
      ∧ codeOf ((tIter 9 .rxData 0x05000000).regs.get (.mb 9 .cs)) ≠ Config.rxFull
      ∧ codeOf ((tIter 9 .rxData 0x05000000).regs.get (.mb 9 .cs)) ≠ Config.rxOverrun)
    ∧ (Resolves 3 (tIter 3 .rxRemote 0x02000000) ∧ (tIter 3 .rxRemote 0x02000000).handle.state (.mb 3) = .rxRemote) := by
  decide +kernel

/-- ISR at HI0 with index j pending and the FIFO armed. -/
def tFifoIter (j : Nat) (s : State) : State :=
  isrStart (withIrqs (oneBit j) (oneBit j)
    { s with handle := { Handle.reset with created := true, rxFifoState := .rxFifo, rxFifoFrameBuf := some 1 } })

theorem witness_DispatchFifo :
    (Resolves 5 (tFifoIter 5 tFifo) ∧ IsFifoEvent 5 (tFifoIter 5 tFifo)
      ∧ getBit .rfen (tFifoIter 5 tFifo).regs.mcr = true ∧ noHead (tFifoIter 5 tFifo) = false
      ∧ mbBusy 0 (tFifoIter 5 tFifo) = false)
    ∧ (Resolves 5 (tFifoIter 5 tNormal) ∧ IsFifoEvent 5 (tFifoIter 5 tNormal)
      ∧ getBit .rfen (tFifoIter 5 tNormal).regs.mcr = false)
    ∧ (∀ j ∈ [0, 4, 6, 7], Resolves j (tFifoIter j tFifo) ∧ IsFifoEvent j (tFifoIter j tFifo))
    ∧ ¬ IsFifoEvent 8 (tFifoIter 8 tFifo) := by decide +kernel

theorem witness_DispatchUnHandled :
    (Resolves 31 (tIter 31 .idle 0) ∧ ¬ IsFifoEvent 31 (tIter 31 .idle 0)
      ∧ (tIter 31 .idle 0).handle.state (.mb 31) = .idle)
    ∧ (AtHi0 (isrStart tNormal) ∧ (isrStart tNormal).regs.esr &&& esrFlags = 0 ∧ pend (isrStart tNormal).regs = 0) := by
  decide +kernel

/-- ISR at HI0, the FIFO armed and full, its overflow pending, and HW dropping a frame in every iteration. -/
def tOverflow : State :=
  { tFifoIter 7 (tS 0x2000000F 0) with
    fifoq := List.replicate 6 ⟨tF0, 0⟩
    supply := .cycle (List.replicate 20 .isr ++ [.hw .fifoOverflow, .isr, .isr, .isr, .yield]) }

theorem witness_DrainNeverEnds :
    tOverflow.refused = none ∧ tOverflow.sched = []
    ∧ tOverflow.supply = .cycle (List.replicate 20 .isr ++ [.hw .fifoOverflow, .isr, .isr, .isr, .yield])
    ∧ Resolves 7 tOverflow ∧ tOverflow.handle.rxFifoState = .rxFifo ∧ tOverflow.mode = .normal
    ∧ getBit .rfen tOverflow.regs.mcr = true ∧ tOverflow.fifoq.length = tOverflow.par.fifoDepth := by decide +kernel

theorem witness_DispatcherWrites : IsrSafe (isrStart tDrain) ∧ (isrStart tDrain).isr.active = true
    ∧ isrWrites .mcr = false ∧ isrWrites (.mb 3 .id) = false := by decide +kernel

theorem witness_HwNeverWrites : (∀ v, HwMove.transmit 15 0 ≠ .softReset v) ∧ mayTransmit 15 (withMb 15 0x0C000000 0 0 0 tNormal) = true
    ∧ maxMb tNormal.regs < 16 ∧ tFifo.regs.iflag1.getLsbD 5 = true ∧ esrFlags.getLsbD 2 = true
    ∧ inFilterRegion 6 (tS 0x2000000F 0).regs = true ∧ inFilterRegion 7 (tS 0x2000000F 0).regs = true
    ∧ (tFrozen.mode ≠ .normal ∧ tFrozen.mode ≠ .freezePending) :=
  ⟨fun _ h => (by cases h), by decide +kernel⟩

theorem witness_DutiesMet :
    owes (tMoving 0x0000000F) (.moveIn 5) = true
    ∧ (Ready tFrozen ∧ tFrozen.mode = .frozen ∧ getBit .mdis tFrozen.regs.mcr = false)
    ∧ (Ready (withHandle tNormal) ∧ getBit .lpmack (withHandle tNormal).regs.mcr = false
      ∧ (withHandle tNormal).handle.armed = false ∧ (withHandle tNormal).par.nrximr ≤ 32)
    ∧ (Ready (tS 0x8000000F 0) ∧ (tS 0x8000000F 0).program = [] ∧ dueDuty (tS 0x8000000F 0) = some .setLpmack)
    ∧ dueDuty tNormal = none := by decide +kernel

end Sys2Proof.Tests
end

section
/-! PROOFS. What every step keeps: the invariant, the parameters, the events of TRACE.

`Keeps s t` is what every turn of the machine owes: it is reflexive and transitive, so a burst keeps it because each of
its turns does, and both StepKeepsInv and StepKeepsParams are read off it. -/

namespace Sys2Proof.Machine

/-! ### The invariant, taken apart -/

/-- The clauses of `Inv` about FIFOQ (10 R59, 00 R23). -/
def FifoOk (s : State) : Prop := s.fifoq.length ≤ s.par.fifoDepth ∧ ∀ e ∈ s.fifoq, e.frame.length ≤ 8

/-- The clauses of `Inv` about the two sequencers (10 R32, R33). -/
def SeqOk (s : State) : Prop := (s.fg.op = none → s.fg.code = []) ∧ (s.isr.active = false → s.isr.code = [])

theorem inv_iff (s : State) : Inv s ↔ Memory.wf s.frames = true ∧ FifoOk s ∧ SeqOk s :=
  ⟨fun ⟨hw, hl, hf, hs⟩ => ⟨hw, ⟨hl, hf⟩, hs⟩, fun ⟨hw, ⟨hl, hf⟩, hs⟩ => ⟨hw, hl, hf, hs⟩⟩

/-- The parameters are kept, TRACE is appended to, the frame store and FIFOQ stay well-formed. -/
structure KeepsStores (s t : State) : Prop where
  par : t.par = s.par
  trace : s.trace <+: t.trace
  frames : Memory.wf s.frames = true → Memory.wf t.frames = true
  fifo : FifoOk s → FifoOk t

/-- `KeepsStores`, and the two sequencers keep their part of the invariant too. -/
structure Keeps (s t : State) : Prop extends KeepsStores s t where
  seq : SeqOk s → SeqOk t

theorem KeepsStores.trans {s t u : State} (h : KeepsStores s t) (h' : KeepsStores t u) : KeepsStores s u :=
  ⟨h'.par.trans h.par, h.trace.trans h'.trace, h'.frames ∘ h.frames, h'.fifo ∘ h.fifo⟩

theorem Keeps.refl (s : State) : Keeps s s := ⟨⟨rfl, List.prefix_rfl, id, id⟩, id⟩

theorem Keeps.trans {s t u : State} (h : Keeps s t) (h' : Keeps t u) : Keeps s u :=
  ⟨h.toKeepsStores.trans h'.toKeepsStores, h'.seq ∘ h.seq⟩

theorem Keeps.inv {s t : State} (h : Keeps s t) (hs : Inv s) : Inv t := by
  obtain ⟨hw, hf, hq⟩ := (inv_iff s).1 hs
  exact (inv_iff t).2 ⟨h.frames hw, h.fifo hf, h.seq hq⟩

/-- FIFOQ may only lose frames at its head. -/
theorem KeepsStores.of_suffix {s t : State} (hp : t.par = s.par) (ht : t.trace = s.trace) (hf : t.frames = s.frames)
    (hq : t.fifoq <:+ s.fifoq) : KeepsStores s t where
  par := hp
  trace := ht ▸ List.prefix_rfl
  frames := hf ▸ id
  fifo := fun ⟨hl, he⟩ => ⟨hp ▸ hq.length_le.trans hl, fun e h => he e (hq.mem h)⟩

/-- An update that touches none of the four. -/
theorem KeepsStores.of_eq {s t : State} (hp : t.par = s.par) (ht : t.trace = s.trace) (hf : t.frames = s.frames)
    (hq : t.fifoq = s.fifoq) : KeepsStores s t := .of_suffix hp ht hf (hq ▸ List.suffix_rfl)

/-- An update that leaves the sequencers as they are. -/
theorem KeepsStores.keeps {s t : State} (h : KeepsStores s t) (hg : t.fg = s.fg) (hi : t.isr = s.isr) : Keeps s t :=
  ⟨h, by simp only [SeqOk, hg, hi]; exact id⟩

theorem Keeps.of_eq {s t : State} (hp : t.par = s.par) (ht : t.trace = s.trace) (hf : t.frames = s.frames)
    (hq : t.fifoq = s.fifoq) (hg : t.fg = s.fg) (hi : t.isr = s.isr) : Keeps s t :=
  (KeepsStores.of_eq hp ht hf hq).keeps hg hi

/-! ### What a micro-step does to the stores and to the sequencers -/

/-- A register write removes at most the head of FIFOQ (20 R106). -/
theorem writeReg_fifoq (r : Reg) (w : Word) (s : State) : (writeReg r w s).fifoq <:+ s.fifoq := by
  cases r with
  | iflag1 =>
    simp only [writeReg, writeIflag_fifoq]
    split
    · exact List.tail_suffix _
    · exact List.suffix_rfl
  | _ => exact List.suffix_rfl

theorem writeReg_keepsStores (r : Reg) (w : Word) (s : State) : KeepsStores s (writeReg r w s) := by
  have hq := writeReg_fifoq r w s
  rw [writeReg_state] at hq ⊢
  exact .of_suffix rfl rfl rfl hq

theorem writeFields_keepsStores (r : Reg) (fs : List FieldWrite) (old : Word) (s : State) :
    KeepsStores s (writeFields r fs old s) := by
  refine .trans ?_ (writeReg_keepsStores r _ _)
  rw [putFields_state]
  exact .of_eq rfl rfl rfl rfl

theorem readReg_keepsStores (r : Reg) (s : State) : KeepsStores s (readReg r s).2 := by
  rw [readReg_state]
  exact .of_eq rfl rfl rfl rfl

theorem writeFrame_keepsStores (r : FrameRef) (f : Frame) (s : State) : KeepsStores s (writeFrame r f s) :=
  ⟨rfl, List.prefix_rfl, framesSet_wf s.frames r f, id⟩

theorem emit_keepsStores (e : Event) (s : State) : KeepsStores s (emit e s) :=
  ⟨rfl, List.prefix_append _ _, id, id⟩

theorem fgReturn_keepsStores (r : Ret) (s : State) : KeepsStores s (fgReturn r s) := by
  unfold fgReturn
  split
  · refine .trans ?_ (emit_keepsStores _ _)
    exact .of_eq rfl rfl rfl rfl
  · exact .of_eq rfl rfl rfl rfl

theorem micro_keepsStores (m : Micro) (s : State) : KeepsStores s (micro m s).2 := by
  cases m <;> simp only [micro]
  case read r k => exact readReg_keepsStores r s
  case write r w => exact writeReg_keepsStores r w s
  case modify r fs old => exact writeFields_keepsStores r fs old s
  case poll r f v b k =>
    split
    · exact readReg_keepsStores r s
    · split
      · exact readReg_keepsStores r s
      · split <;> exact readReg_keepsStores r s
  case leaveWindow m =>
    refine .trans ?_ (writeReg_keepsStores .imask1 m _)
    exact .of_eq rfl rfl rfl rfl
  case overwrite r => rw [overwrite_state]; exact .of_eq rfl rfl rfl rfl
  case scramble rs => rw [scramble_state]; exact .of_eq rfl rfl rfl rfl
  case readFrame r a => rw [takeFrame_state]; exact .of_eq rfl rfl rfl rfl
  case writeFrame r f => exact writeFrame_keepsStores r f s
  case stampFrame r t => exact writeFrame_keepsStores r _ s
  case callback st res =>
    split
    · exact emit_keepsStores _ s
    · exact .of_eq rfl rfl rfl rfl
  case ret r => exact fgReturn_keepsStores r s
  case retNoTiming =>
    refine .trans ?_ (fgReturn_keepsStores _ _)
    exact .of_eq rfl rfl rfl rfl
  all_goals exact .of_eq rfl rfl rfl rfl

/-- A `return` of FG leaves it with no operation and no micro-step. -/
theorem fgReturn_fg (r : Ret) (s : State) : (fgReturn r s).fg = { s.fg with op := none, code := [] } := by
  unfold fgReturn
  split
  · rfl
  · next h => rw [← h]

theorem fgReturn_isr (r : Ret) (s : State) : (fgReturn r s).isr = s.isr := by
  unfold fgReturn
  split <;> rfl

/-- A micro-step leaves FG's operation and pending micro-steps, or ends the operation and computes no more. -/
theorem micro_fg_cases (m : Micro) (s : State) :
    ((micro m s).2.fg.op = s.fg.op ∧ (micro m s).2.fg.code = s.fg.code)
      ∨ ((micro m s).2.fg.op = none ∧ (micro m s).2.fg.code = [] ∧ (micro m s).1 = []) := by
  by_cases hm : plainMicro m = true
  · have h : (micro m s).2.fg = s.fg := congrArg (fun p => p.2.fg) (micro_fg m s s.fg hm)
    exact .inl ⟨by rw [h], by rw [h]⟩
  · cases m <;> simp only [plainMicro, Bool.false_eq_true, not_false_eq_true, not_true_eq_false] at hm
    case enterWindow k => exact .inl ⟨rfl, rfl⟩
    case leaveWindow m => exact .inl ⟨rfl, rfl⟩
    case ret r => exact .inr ⟨by simp [micro, fgReturn_fg], by simp [micro, fgReturn_fg], rfl⟩
    case retNoTiming => exact .inr ⟨by simp [micro, fgReturn_fg], by simp [micro, fgReturn_fg], rfl⟩
    case isrReturn => exact .inl ⟨rfl, rfl⟩

/-- A micro-step leaves ISR as it is, or is the ISR return and computes no more. -/
theorem micro_isr_cases (m : Micro) (s : State) :
    (micro m s).2.isr = s.isr ∨ ((micro m s).2.isr = { active := false, code := [] } ∧ (micro m s).1 = []) := by
  by_cases hm : plainMicro m = true
  · exact .inl (micro_isr m s hm)
  · cases m <;> simp only [plainMicro, Bool.false_eq_true, not_false_eq_true, not_true_eq_false] at hm
    case enterWindow k => exact .inl rfl
    case leaveWindow m => exact .inl rfl
    case ret r => exact .inl (fgReturn_isr r s)
    case retNoTiming => exact .inl (fgReturn_isr _ _)
    case isrReturn => exact .inr ⟨rfl, rfl⟩

/-! ### What a turn keeps -/

theorem fgStep_keeps (s : State) : Keeps s (fgStep s) := by
  cases hc : s.fg.code with
  | nil =>
    simp only [fgStep, hc]
    exact ⟨.of_eq rfl rfl rfl rfl, fun h => ⟨fun _ => rfl, h.2⟩⟩
  | cons m rest =>
    let u : State := { s with fg := { s.fg with code := rest } }
    have hst : KeepsStores s (micro m u).2 := .trans (t := u) (.of_eq rfl rfl rfl rfl) (micro_keepsStores m u)
    simp only [fgStep, hc]
    refine ⟨.trans hst (.of_eq rfl rfl rfl rfl), fun hs => ⟨fun hop => ?_, ?_⟩⟩
    · rcases micro_fg_cases m u with ⟨h, -⟩ | ⟨-, h, h'⟩
      · exact absurd (hs.1 (h.symm.trans hop)) (by simp [hc])
      · exact List.append_eq_nil_iff.2 ⟨h', h⟩
    · rcases micro_isr_cases m u with h | ⟨h, -⟩
      · exact fun hact => (congrArg Isr.code h).trans (hs.2 ((congrArg Isr.active h).symm.trans hact))
      · exact fun _ => congrArg Isr.code h

theorem isrStep_keeps (s : State) : Keeps s (isrStep s) := by
  cases hc : s.isr.code with
  | nil =>
    simp only [isrStep, hc]
    exact ⟨.of_eq rfl rfl rfl rfl, fun h => ⟨h.1, fun _ => rfl⟩⟩
  | cons m rest =>
    let u : State := { s with isr := { s.isr with code := rest } }
    have hst : KeepsStores s (micro m u).2 := .trans (t := u) (.of_eq rfl rfl rfl rfl) (micro_keepsStores m u)
    simp only [isrStep, hc]
    refine ⟨.trans hst (.of_eq rfl rfl rfl rfl), fun hs => ⟨?_, fun hact => ?_⟩⟩
    · rcases micro_fg_cases m u with ⟨h, h'⟩ | ⟨-, h, -⟩
      · exact fun hop => h'.trans (hs.1 (h.symm.trans hop))
      · exact fun _ => h
    · rcases micro_isr_cases m u with h | ⟨h, h'⟩
      · exact absurd (hs.2 ((congrArg Isr.active h).symm.trans hact)) (by simp [hc])
      · exact List.append_eq_nil_iff.2 ⟨h', congrArg Isr.code h⟩

/-! #### HW -/

theorem allow_keeps {b : Bool} {f : State → State} {s : State} (h : b = true → Keeps s (f s)) :
    Keeps s (allow b f s) := by
  unfold allow
  split
  · next hb => exact h hb
  · exact .refl s

theorem setBits_keeps (r : Reg) (m : Word) (s : State) : Keeps s (setBits r m s) := .of_eq rfl rfl rfl rfl rfl rfl

theorem clearBits_keeps (r : Reg) (m : Word) (s : State) : Keeps s (clearBits r m s) := .of_eq rfl rfl rfl rfl rfl rfl

theorem hwWriteMb_keeps (i : Nat) (k : MbWord) (b : Bool) (w : Word) (s : State) : Keeps s (hwWriteMb i k b w s) := by
  cases b <;> exact .of_eq rfl rfl rfl rfl rfl rfl

theorem flagMb_keeps (i : Nat) (s : State) : Keeps s (flagMb i s) := by
  unfold flagMb
  split
  · exact setBits_keeps _ _ s
  · exact .refl s

theorem moveIn2_keeps (i : Nat) (f : Frame) (ts : Stamp) (m : MoveIn) (s : State) : Keeps s (moveIn2 i f ts m s) := by
  unfold moveIn2
  extract_lets s1 s2 s3 s4
  have h1 : Keeps s s1 := hwWriteMb_keeps i .id _ _ s
  have h2 : Keeps s1 s2 := hwWriteMb_keeps i .data0 _ _ s1
  have h3 : Keeps s2 s3 := hwWriteMb_keeps i .data1 _ _ s2
  have h4 : Keeps s3 s4 := hwWriteMb_keeps i .cs _ _ s3
  have h5 : Keeps s4 { s4 with moveIn := bankSet s4.moveIn i none } := .of_eq rfl rfl rfl rfl rfl rfl
  exact h1.trans (h2.trans (h3.trans (h4.trans (h5.trans (flagMb_keeps i _)))))

/-- FA needs room in FIFOQ, and takes a frame of length 0..8 (60 R524; log 35). -/
theorem fifoAppend_keeps (f : Frame) (h : Nat) (s : State) (hf : frameFits f = true)
    (hl : s.fifoq.length < s.par.fifoDepth) : Keeps s (fifoAppend f h s) := by
  have happ : Keeps s { s with fifoq := s.fifoq ++ [⟨f, h⟩] } := by
    refine ⟨⟨rfl, List.prefix_rfl, id, fun ⟨_, he⟩ => ⟨?_, fun e hm => ?_⟩⟩, id⟩
    · simpa using hl
    · rcases List.mem_append.1 hm with hm | hm
      · exact he e hm
      · simpa [List.mem_singleton.1 hm, frameFits] using hf
  unfold fifoAppend
  dsimp only
  split
  · exact happ.trans (setBits_keeps _ _ _)
  · exact happ

/-- The soft reset leaves FIFOQ or empties it (60 R521). -/
theorem softResetDone_keeps (vals : Regs) (s : State) : Keeps s (softResetDone vals s) := by
  refine KeepsStores.keeps (.of_suffix rfl rfl rfl ?_) rfl rfl
  simp only [softResetDone]
  split
  · exact List.nil_suffix
  · exact List.suffix_rfl

theorem showHead_keeps (e : FifoEntry) (s : State) : Keeps s (showHead e s) := by
  unfold showHead
  extract_lets g1 g2 g3 g4 g5
  have h : Keeps s { s with regs := g5 } := .of_eq rfl rfl rfl rfl rfl rfl
  exact h.trans (setBits_keeps _ _ _)

theorem hwStep_keeps (h : HwMove) (s : State) : Keeps s (hwStep h s) := by
  cases h <;> simp only [hwStep]
  case setLpmack => exact allow_keeps fun _ => setBits_keeps _ _ s
  case clearLpmack => exact allow_keeps fun _ => clearBits_keeps _ _ s
  case setFrzack => exact allow_keeps fun _ => setBits_keeps _ _ s
  case clearFrzack => exact allow_keeps fun _ => clearBits_keeps _ _ s
  case softReset vals => exact allow_keeps fun _ => softResetDone_keeps vals s
  case moveIn1 i => exact allow_keeps fun _ => .of_eq rfl rfl rfl rfl rfl rfl
  case moveIn2 i f ts =>
    split
    · exact allow_keeps fun _ => moveIn2_keeps i f ts _ s
    · exact .refl s
  case transmit i ts => exact allow_keeps fun _ => .of_eq rfl rfl rfl rfl rfl rfl
  case fifoAppend f h =>
    refine allow_keeps fun hc => ?_
    simp only [Bool.and_eq_true, decide_eq_true_eq] at hc
    obtain ⟨⟨⟨-, hf⟩, hl⟩, -⟩ := hc
    exact fifoAppend_keeps f h s hf hl
  case fifoOverflow => exact allow_keeps fun _ => setBits_keeps _ _ s
  case fifoHead =>
    split
    · exact allow_keeps fun _ => showHead_keeps _ s
    · exact .refl s
  case raise m => exact setBits_keeps _ _ s
  all_goals exact .of_eq rfl rfl rfl rfl rfl rfl

theorem fulfil_keeps (d : Duty) (s : State) : Keeps s (fulfil d s) := by
  obtain ⟨h, n, e⟩ := fulfil_hwStep d s
  rw [e]
  refine .trans ?_ (hwStep_keeps h _)
  exact .of_eq rfl rfl rfl rfl rfl rfl

theorem meetDuty_keeps (s : State) : Keeps s (meetDuty s) := by
  unfold meetDuty
  split
  · exact fulfil_keeps _ s
  · exact .refl s

/-! #### Turns, bursts and issues -/

theorem refuse_keeps (r : Reason) (s : State) : Keeps s (refuse r s) :=
  .of_eq rfl rfl rfl rfl rfl rfl

theorem isrStart_keeps (s : State) : Keeps s (isrStart s) :=
  ⟨.of_eq rfl rfl rfl rfl, fun h => ⟨h.1, by simp⟩⟩

theorem begin_keeps (i : Instr) (code : List Micro) (s : State) : Keeps s (begin i code s) :=
  ⟨.of_eq rfl rfl rfl rfl, fun h => ⟨by simp, h.2⟩⟩

theorem takeCommand_keeps (c : Command) (rest : List Command) (s : State) : Keeps s (takeCommand c rest s) :=
  ⟨.of_eq rfl rfl rfl rfl, id⟩

theorem nextTurn_keeps {s t : State} {m : Move} (h : nextTurn s = some (m, t)) : Keeps s t := by
  rw [nextTurn_state h]
  exact .of_eq rfl rfl rfl rfl rfl rfl

theorem tick_keeps (m : Move) (s : State) : Keeps s (tick m s) := by
  cases m <;> simp only [tick]
  case fg =>
    split
    · exact .refl s
    · exact fgStep_keeps s
  case isr =>
    split
    · exact isrStep_keeps s
    · split
      · exact isrStart_keeps s
      · exact .refl s
  case hw h => exact hwStep_keeps h s
  case hostFrame r f => exact (writeFrame_keepsStores r f s).keeps rfl rfl
  case access off size =>
    split
    · exact refuse_keeps _ s
    · exact .refl s
  case yield => exact .refl s

theorem agentStep_keeps (s : State) : Keeps s (agentStep s) := by
  unfold agentStep
  split
  · exact isrStep_keeps s
  · exact fgStep_keeps s

theorem aloneTurn_keeps (s : State) : Keeps s (aloneTurn s) := by
  unfold aloneTurn
  split
  · exact meetDuty_keeps s
  · exact agentStep_keeps s

theorem burst_keeps (n : Nat) (s : State) : Keeps s (burst n s) := by
  induction n generalizing s with
  | zero => exact .refl s
  | succ n ih =>
    unfold burst
    split
    · exact .refl s
    · split
      · exact (aloneTurn_keeps s).trans (ih _)
      · next h => exact nextTurn_keeps h
      · next h => exact (nextTurn_keeps h).trans ((tick_keeps _ _).trans (ih _))

theorem issue_keeps {i : Instr} {bad : Option Reason} {code : List Micro} {s t : State}
    (h : issue i bad code s = .next t) : Keeps s t := by
  rcases issue_cases i bad code s with ⟨r, -, e⟩ | ⟨-, -, e⟩ | ⟨-, -, r, -, e⟩ | ⟨-, -, -, e⟩ <;>
    rw [e] at h <;> cases h
  · exact refuse_keeps r s
  · exact (begin_keeps i code s).trans (burst_keeps _ _)

/-- Every command but HANDLE_IRQ is an issue of its own pseudocode (30 R143). -/
theorem exec_eq_issue {i : Instr} (hi : i ≠ .handleIrq) (s : State) : ∃ bad code, exec i s = issue i bad code s := by
  cases i
  case handleIrq => exact absurd rfl hi
  case enterFreeze => exact ⟨none, _, rfl⟩
  case exitFreeze => exact ⟨none, _, rfl⟩
  case getDefaultConfig => exact ⟨none, _, rfl⟩
  all_goals exact ⟨_, _, rfl⟩

theorem execHandleIrq_keeps {s t : State} (h : execHandleIrq s = .next t) : Keeps s t := by
  unfold execHandleIrq at h
  split at h
  · cases h
  · split at h <;> cases h
    exact (isrStart_keeps s).trans (burst_keeps _ _)

theorem exec_keeps {i : Instr} {s t : State} (h : exec i s = .next t) : Keeps s t := by
  by_cases hi : i = .handleIrq
  · subst hi; exact execHandleIrq_keeps h
  · obtain ⟨bad, code, e⟩ := exec_eq_issue hi s
    exact issue_keeps (e ▸ h)

theorem issueWord_keeps {w : Word} {s t : State} (h : issueWord w s = .next t) : Keeps s t := by
  unfold issueWord at h
  split at h
  · split at h
    · cases h; exact refuse_keeps _ s
    · exact exec_keeps h
  · cases h; exact refuse_keeps _ s

theorem hostTurn_keeps {s t : State} (h : hostTurn s = .next t) : Keeps s t := by
  unfold hostTurn at h
  split at h
  · cases h; exact .refl s
  · exact (takeCommand_keeps _ _ s).trans (issueWord_keeps h)

theorem idleTurn_keeps {s t : State} (h : idleTurn s = .next t) : Keeps s t := by
  unfold idleTurn at h
  split at h
  · split at h
    · cases h; exact meetDuty_keeps s
    · exact hostTurn_keeps h
  · next hn => exact (nextTurn_keeps hn).trans (hostTurn_keeps h)
  · next hn =>
    refine (nextTurn_keeps hn).trans ?_
    split at h
    · exact exec_keeps h
    · cases h; exact .refl _
  · next hn => cases h; exact (nextTurn_keeps hn).trans (tick_keeps _ _)

theorem step_keeps {s t : State} (h : step s = .next t) : Keeps s t := by
  unfold step machineStep at h
  split at h
  · cases h
  · split at h
    · exact idleTurn_keeps h
    · cases h; exact burst_keeps _ s

end Sys2Proof.Machine

open Sys2Proof Sys2Proof.Machine

/-- Settles O7: a step is a chain of turns, and every turn keeps each clause of the invariant. -/
theorem stepKeepsInv : Obligations.StepKeepsInv := fun _ _ hs h => (step_keeps h).inv hs

/-- Settles O8: a step is a chain of turns, and every turn keeps the parameters and only appends to TRACE. -/
theorem stepKeepsParams : Obligations.StepKeepsParams := fun _ _ h => ⟨(step_keeps h).par, (step_keeps h).trace⟩

end

section
/-! PROOFS. A refusal, power-on, the lock and the writes with a side effect (10 R34, R60, R62, 20 R105-R107). -/

namespace Sys2Proof.Machine

/-! ### Refusal and power-on -/

theorem issue_stuck (i : Instr) (bad : Option Reason) (code : List Micro) {s : State} {r : Reason}
    (h : s.refused = some r) : issue i bad code s = .fault (.stuck r) := by simp [issue, h]

theorem exec_stuck (i : Instr) {s : State} {r : Reason} (h : s.refused = some r) :
    exec i s = .fault (.stuck r) := by
  by_cases hi : i = .handleIrq
  · subst hi
    simp [exec, execHandleIrq, h]
  · obtain ⟨bad, code, e⟩ := exec_eq_issue hi s
    rw [e, issue_stuck i bad code h]

theorem step_stuck {s : State} {r : Reason} (h : s.refused = some r) : step s = .fault (.stuck r) := by
  simp [step, machineStep, h]

theorem inv_reset : Inv State.reset :=
  ⟨reset_frames_wf, Nat.zero_le _, fun _ h => absurd h List.not_mem_nil, fun _ => rfl, fun _ => rfl⟩

/-! ### The lock -/

@[simp] theorem readOrDraw_lock (b : Bool) (w : Word) (s : State) : (readOrDraw b w s).2.lock = s.lock := by
  cases b <;> rfl

theorem readReg_cs_lock (i : Nat) (s : State) : (readReg (.mb i .cs) s).2.lock = some i := readOrDraw_lock _ _ _

theorem readReg_lock_ne {r : Reg} (s : State) (hcs : ∀ i, r ≠ .mb i .cs) (ht : r ≠ .timer) :
    (readReg r s).2.lock = s.lock := by
  cases r
  case mb i k =>
    cases k
    case cs => exact absurd rfl (hcs i)
    all_goals exact readOrDraw_lock _ _ s
  case timer => exact absurd rfl ht
  case rxfir => exact readOrDraw_lock _ _ s
  all_goals rfl

theorem hwStep_moveIn1_locked {i : Nat} {s : State} (h : s.lock = some i) : hwStep (.moveIn1 i) s = s := by
  simp [hwStep, allow, mayMoveIn, h]

theorem hwStep_fifoHead_locked {s : State} (h : s.lock = some 0) : hwStep .fifoHead s = s := by
  simp only [hwStep]
  split
  · simp [allow, h]
  · rfl

/-! ### Write-one-to-clear -/

theorem getLsbD_andNot (a b : Word) {k : Nat} (hk : k < 32) :
    (a &&& ~~~ b).getLsbD k = (a.getLsbD k && !b.getLsbD k) := by
  simp [hk]

/-- The W1C flags of ESR, by their number (10 R40, R41). -/
theorem getLsbD_esrFlags {k : Nat} :
    esrFlags.getLsbD k = decide (k = 0 ∨ k = 1 ∨ k = 2 ∨ k = 16 ∨ k = 17) := by
  have h (i : Nat) (hi : i < 32) := getLsbD_oneBit i k hi
  simp only [esrFlags, status4, BitVec.getLsbD_or, h 0 (by decide), h 1 (by decide), h 2 (by decide),
    h 16 (by decide), h 17 (by decide), Bool.decide_or]
  ac_rfl

theorem writeReg_iflag1_bit (m : Word) (s : State) {k : Nat} (hk : k < 32) :
    (writeReg .iflag1 m s).regs.iflag1.getLsbD k = (s.regs.iflag1.getLsbD k && !m.getLsbD k) :=
  getLsbD_andNot _ _ hk

theorem writeReg_esr_bit (m : Word) (s : State) {k : Nat} (hk : k < 32) :
    (writeReg .esr m s).regs.esr.getLsbD k
      = (s.regs.esr.getLsbD k && !(m.getLsbD k && decide (k = 0 ∨ k = 1 ∨ k = 2 ∨ k = 16 ∨ k = 17))) := by
  rw [← getLsbD_esrFlags, ← BitVec.getLsbD_and]
  exact getLsbD_andNot _ _ hk

theorem writeReg_iflag1_fifoq (m : Word) (s : State) :
    (writeReg .iflag1 m s).fifoq
      = (if s.regs.mcr.getLsbD 29 = true ∧ s.regs.iflag1.getLsbD 5 = true ∧ m.getLsbD 5 = true then s.fifoq.tail
        else s.fifoq) := by
  simp only [writeReg, writeIflag_fifoq, Bool.and_eq_true, and_assoc]
  rfl

end Sys2Proof.Machine

open Sys2Proof Sys2Proof.Machine

/-- Settles O6: every command is an issue, and neither an issue nor a step goes on from a refusal. -/
theorem refusedIsStuck : Obligations.RefusedIsStuck := fun _ _ h => ⟨step_stuck h, fun i => exec_stuck i h⟩

/-- Settles O9, by evaluation of the power-on state. -/
theorem powerOn : Obligations.PowerOn := ⟨inv_reset, rfl, rfl, rfl, rfl, rfl, rfl, rfl⟩

/-- Settles O10: only a read of a CS word or of TIMER touches the lock, and each move's guard asks for it. -/
theorem lock : Obligations.Lock := fun s =>
  ⟨fun i => readReg_cs_lock i s, rfl, fun _ hcs ht => readReg_lock_ne s hcs ht, fun _ h => hwStep_moveIn1_locked h,
    hwStep_fifoHead_locked⟩

/-- Settles O11, bit by bit. -/
theorem writeOneToClear : Obligations.WriteOneToClear := fun s m _ hk =>
  ⟨writeReg_iflag1_bit m s hk, writeReg_esr_bit m s hk, writeReg_iflag1_fifoq m s⟩

/-- Settles O12, bit by bit. -/
theorem mcrWrite : Obligations.McrWrite := fun s w k hk => getLsbD_mcrAfterWrite s.regs.mcr w k hk

end

section
/-! PROOFS. A frame laid out in the four words of a mailbox and read back (10 R43-R45, 43 R341). -/

namespace Sys2Proof.Machine

/-! ### The fields of a CS word -/

section CsWord
variable (code dlc : BitVec 4) (srr ide rtr : Bool) (ts : Stamp)

@[simp] theorem stampOf_csWord : stampOf (csWord code srr ide rtr dlc ts) = ts :=
  (BitVec.extractLsb'_append_eq_of_add_le (by decide)).trans BitVec.extractLsb'_eq_self

@[simp] theorem dlcOf_csWord : dlcOf (csWord code srr ide rtr dlc ts) = dlc :=
  (BitVec.extractLsb'_append_eq_of_le (by decide)).trans
    ((BitVec.extractLsb'_append_eq_of_add_le (by decide)).trans BitVec.extractLsb'_eq_self)

@[simp] theorem rtrOf_csWord : rtrOf (csWord code srr ide rtr dlc ts) = rtr := by
  simp only [rtrOf, csWord, BitVec.getLsbD_append, BitVec.getLsbD_ofBool]
  simp

@[simp] theorem ideOf_csWord : ideOf (csWord code srr ide rtr dlc ts) = ide := by
  simp only [ideOf, csWord, BitVec.getLsbD_append, BitVec.getLsbD_ofBool]
  simp

end CsWord

@[simp] theorem formatOf_ideBit (f : FrameFormat) : formatOf (ideBit f) = f := by cases f <;> rfl

@[simp] theorem kindOf_rtrBit (k : FrameKind) : kindOf (rtrBit k) = k := by cases k <;> rfl

/-! ### The id -/

/-- Masking a word to its low n bits is taking them out. -/
theorem and_lowMask (w : Word) (n : Nat) : w &&& BitVec.ofNat 32 (2 ^ n - 1) = (w.extractLsb' 0 n).setWidth 32 := by
  apply BitVec.eq_of_getLsbD_eq
  intro k hk
  simp only [BitVec.getLsbD_and, BitVec.getLsbD_ofNat, BitVec.getLsbD_setWidth, BitVec.getLsbD_extractLsb',
    Nat.testBit_two_pow_sub_one, hk, decide_true, Bool.true_and, Nat.zero_add, Bool.and_comm]

theorem idOfWord_idWord_standard (id : Word) : idOfWord .standard (idWord .standard id) = id &&& 0x7FF := by
  have h : (idWord .standard id).extractLsb' 18 11 = id.extractLsb' 0 11 :=
    (BitVec.extractLsb'_append_eq_of_le (by decide)).trans
      ((BitVec.extractLsb'_append_eq_of_add_le (by decide)).trans BitVec.extractLsb'_eq_self)
  exact (congrArg (BitVec.setWidth 32) h).trans (and_lowMask id 11).symm

theorem idOfWord_idWord_extended (id : Word) : idOfWord .extended (idWord .extended id) = id &&& 0x1FFFFFFF := by
  have h : (idWord .extended id).extractLsb' 0 29 = id.extractLsb' 0 29 :=
    (BitVec.extractLsb'_append_eq_of_add_le (by decide)).trans BitVec.extractLsb'_eq_self
  exact (congrArg (BitVec.setWidth 32) h).trans (and_lowMask id 29).symm

/-! ### The payload -/

/-- The four bytes a word is laid out from. -/
theorem extractLsb'_fourBytes (a b c d : Byte) :
    (a ++ b ++ c ++ d).extractLsb' 24 8 = a ∧ (a ++ b ++ c ++ d).extractLsb' 16 8 = b
      ∧ (a ++ b ++ c ++ d).extractLsb' 8 8 = c ∧ (a ++ b ++ c ++ d).extractLsb' 0 8 = d := by
  have hi {v start : Nat} (x : BitVec v) (y : Byte) :
      (x ++ y).extractLsb' (start + 8) 8 = x.extractLsb' start 8 := BitVec.extractLsb'_append_eq_of_le (by omega)
  have lo {v : Nat} (x : BitVec v) (y : Byte) : (x ++ y).extractLsb' 0 8 = y :=
    (BitVec.extractLsb'_append_eq_of_add_le (by omega)).trans BitVec.extractLsb'_eq_self
  exact ⟨(hi _ d).trans ((hi _ c).trans ((hi a b).trans BitVec.extractLsb'_eq_self)),
    (hi _ d).trans ((hi _ c).trans (lo a b)), (hi _ d).trans (lo _ c), lo _ d⟩

/-- Each of the eight places of the DATA words holds its byte (10 R45). -/
theorem placeByte_pack (order : List Nat) (p : Vector Byte 8) {q : Nat} (hq : q < 8) :
    placeByte (packData0 order p) (packData1 order p) q = byteAt order p q := by
  obtain ⟨h0, h1, h2, h3⟩ :=
    extractLsb'_fourBytes (byteAt order p 0) (byteAt order p 1) (byteAt order p 2) (byteAt order p 3)
  obtain ⟨h4, h5, h6, h7⟩ :=
    extractLsb'_fourBytes (byteAt order p 4) (byteAt order p 5) (byteAt order p 6) (byteAt order p 7)
  interval_cases q
  exacts [h0, h1, h2, h3, h4, h5, h6, h7]

theorem payloadOrderWf_iff (order : List Nat) :
    payloadOrderWf order = true ↔ order.length = 8 ∧ (∀ q ∈ order, q < 8) ∧ order.Nodup := by
  simp [payloadOrderWf, and_assoc]

/-- Byte k lies at place `order[k]`, and at no other, since the order is a bijection. -/
theorem unpackByte_pack {order : List Nat} (h : payloadOrderWf order = true) (p : Vector Byte 8) {k : Nat}
    (hk : k < 8) : unpackByte order (packData0 order p) (packData1 order p) k = p[k] := by
  obtain ⟨hlen, hlt, hnd⟩ := (payloadOrderWf_iff order).1 h
  have hk' : k < order.length := hlen ▸ hk
  rw [unpackByte, List.getD_eq_getElem _ _ hk', placeByte_pack order p (hlt _ (List.getElem_mem hk')), byteAt,
    hnd.idxOf_getElem]
  simp [bankGet, hk]

theorem unpack_pack {order : List Nat} (h : payloadOrderWf order = true) (p : Vector Byte 8) :
    unpack order (packData0 order p) (packData1 order p) = p := by
  ext1 k hk
  have hb := unpackByte_pack h p hk
  interval_cases k <;> exact hb

/-! ### The frame -/

/-- What FrameOf reads back from a received frame's four words (43 R341). -/
theorem frameOf_rxCs (p : Params) (f : Frame) (code : BitVec 4) (ts : Stamp) (hp : payloadOrderWf p.payloadOrder = true)
    (hl : f.length ≤ 8) :
    frameOf p (rxCs code f ts) (frameIdWord f) (packData0 p.payloadOrder f.payload) (packData1 p.payloadOrder f.payload)
      = { f with id := idOfWord f.format (idWord f.format f.id), timestamp := ts } := by
  simp only [frameOf, rxCs, frameIdWord, stampOf_csWord, dlcOf_csWord, rtrOf_csWord, ideOf_csWord, formatOf_ideBit,
    kindOf_rtrBit, unpack_pack hp, Frame.mk.injEq, true_and, and_true, BitVec.toNat_ofNat]
  omega

end Sys2Proof.Machine

open Sys2Proof Sys2Proof.Machine

/-- Settles O45: FrameOf undoes the layout of each word, and `idOfWord` undoes `idWord` up to the format's mask. -/
theorem frameRoundTrip : Obligations.FrameRoundTrip := by
  intro p f code ts hp hl
  rw [frameOf_rxCs p f code ts hp hl]
  obtain ⟨id, fmt, kind, len, stamp, payload⟩ := f
  cases fmt
  · rw [idOfWord_idWord_standard]
  · rw [idOfWord_idWord_extended]

end

section
/-! PROOFS. Decoding and encoding of command words (30 R140, R144, R145, R147, R148). -/

namespace Sys2Proof

/-! ### The fields of a command word -/

theorem opcOf_cmdWord_of_lt {opc : Nat} (h : opc < 256) (idx : Nat) (en : Bool) : opcOf (cmdWord opc idx en) = opc :=
  (Laws.opcOf_cmdWord opc idx en).trans (Nat.mod_eq_of_lt h)

theorem idxOf_cmdWord {idx : Nat} (h : idx < 256) (opc : Nat) (en : Bool) : idxOf (cmdWord opc idx en) = idx := by
  have e : (cmdWord opc idx en).extractLsb' 16 8 = BitVec.ofNat 8 idx :=
    (BitVec.extractLsb'_append_eq_of_le (by decide)).trans
      ((BitVec.extractLsb'_append_eq_of_le (by decide)).trans
        ((BitVec.extractLsb'_append_eq_of_add_le (by decide)).trans BitVec.extractLsb'_eq_self))
  rw [idxOf, e, BitVec.toNat_ofNat, Nat.mod_eq_of_lt h]

theorem enOf_cmdWord (opc idx : Nat) (en : Bool) : enOf (cmdWord opc idx en) = en := by
  simp only [enOf, cmdWord, BitVec.getLsbD_append, BitVec.getLsbD_ofBool]
  simp

/-- A word whose reserved bits are 0 is laid out from its own fields. -/
theorem cmdWord_fields {w : Word} (h : resOf w = 0) : cmdWord (opcOf w) (idxOf w) (enOf w) = w := by
  have hen : BitVec.ofBool (enOf w) = w.extractLsb' 0 1 := by
    ext k hk
    simp [enOf, show k = 0 by omega]
  calc cmdWord (opcOf w) (idxOf w) (enOf w)
      = w.extractLsb' 24 8 ++ w.extractLsb' 16 8 ++ w.extractLsb' 1 15 ++ w.extractLsb' 0 1 := by
        simp only [cmdWord, opcOf, idxOf, BitVec.ofNat_toNat, BitVec.setWidth_eq, hen, ← h, resOf]
    _ = w := by
        rw [BitVec.extractLsb'_append_extractLsb'_eq_extractLsb' (show 24 = 16 + 8 from rfl),
          BitVec.extractLsb'_append_extractLsb'_eq_extractLsb' (show 16 = 1 + 15 from rfl),
          BitVec.extractLsb'_append_extractLsb'_eq_extractLsb' (show 1 = 0 + 1 from rfl)]
        exact BitVec.extractLsb'_eq_self

/-! ### The rows of the opcode map -/

/-- The row takes the operands: those it does not take are 0 (30 R144). -/
abbrev OpcRow.Takes (row : OpcRow) (idx : Nat) (en : Bool) : Prop :=
  (row.takesIdx = false → idx = 0) ∧ (row.takesEn = false → en = false)

/-- The word of the command a row names has the row's opcode and the operands it takes. -/
theorem encode_build {opc : Nat} {row : OpcRow} (h : opcRow opc = some row) {idx : Nat} {en : Bool}
    (ht : row.Takes idx en) : encode (row.build idx en) = cmdWord opc idx en := by
  obtain ⟨hi, he⟩ := ht
  unfold opcRow at h
  split at h <;> cases h
  all_goals
    simp only [reduceCtorEq, IsEmpty.forall_iff, forall_const] at hi he
    subst_vars
    rfl

theorem wf_build {opc : Nat} {row : OpcRow} (h : opcRow opc = some row) {idx : Nat} (hi : idx < 256) (en : Bool) :
    (row.build idx en).wf = true := by
  unfold opcRow at h
  split at h <;> cases h
  all_goals simp [Instr.wf, idxFits, hi]

/-- No row has an opcode of 30 R147's list. -/
theorem opcRow_reserved {opc : Nat}
    (h : opc = 0x00 ∨ (0x04 ≤ opc ∧ opc ≤ 0x0F) ∨ (0x13 ≤ opc ∧ opc ≤ 0x1F) ∨ (0x26 ≤ opc ∧ opc ≤ 0x27)
      ∨ (0x2B ≤ opc ∧ opc ≤ 0x2F) ∨ (0x36 ≤ opc ∧ opc ≤ 0x3F) ∨ (0x47 ≤ opc ∧ opc ≤ 0x4F) ∨ 0x51 ≤ opc) :
    opcRow opc = none := by
  cases hrow : opcRow opc with
  | none => rfl
  | some row =>
    unfold opcRow at hrow
    split at hrow <;> cases hrow
    all_goals omega

/-! ### The decoder -/

theorem decode_of_no_row {w : Word} (h : opcRow (opcOf w) = none) : decode w = .error .illegalOpcode := by
  simp [decode, h]

/-- A word decodes when its opcode has a row, its reserved field is 0 and the row takes its operands. -/
theorem decode_of_takes {w : Word} {row : OpcRow} (h : opcRow (opcOf w) = some row) (hr : resOf w = 0)
    (ht : row.Takes (idxOf w) (enOf w)) : decode w = .ok (row.build (idxOf w) (enOf w)) := by
  obtain ⟨hi, he⟩ := ht
  have hi' : ¬ (row.takesIdx = false ∧ idxOf w ≠ 0) := fun ⟨hf, hne⟩ => hne (hi hf)
  have he' : ¬ (row.takesEn = false ∧ enOf w = true) := fun ⟨hf, hen⟩ => by simp [he hf] at hen
  simp only [decode, h, hr, hi', he', ne_eq, not_true_eq_false, if_false]

/-- A word whose opcode has a row is refused when its reserved field is not 0 or the row does not take its operands. -/
theorem decode_reservedBits {w : Word} {row : OpcRow} (h : opcRow (opcOf w) = some row)
    (hn : resOf w ≠ 0 ∨ ¬ row.Takes (idxOf w) (enOf w)) : decode w = .error .reservedBits := by
  simp only [decode, h]
  split_ifs with hr hi he
  · rfl
  · rfl
  · rfl
  · rcases hn with hne | hnt
    · exact absurd hne hr
    · exact absurd ⟨fun hf => by_contra fun hne => hi ⟨hf, hne⟩,
        fun hf => Bool.eq_false_iff.2 fun hen => he ⟨hf, hen⟩⟩ hnt

theorem decode_eq_ok_iff {w : Word} {i : Instr} :
    decode w = .ok i ↔ ∃ row, opcRow (opcOf w) = some row ∧ resOf w = 0 ∧ row.Takes (idxOf w) (enOf w)
      ∧ row.build (idxOf w) (enOf w) = i := by
  constructor
  · intro hd
    cases h : opcRow (opcOf w) with
    | none => simp [decode_of_no_row h] at hd
    | some row =>
      by_cases hn : resOf w ≠ 0 ∨ ¬ row.Takes (idxOf w) (enOf w)
      · simp [decode_reservedBits h hn] at hd
      · obtain ⟨hr, ht⟩ : resOf w = 0 ∧ row.Takes (idxOf w) (enOf w) := by tauto
        rw [decode_of_takes h hr ht, Except.ok.injEq] at hd
        exact ⟨row, rfl, hr, ht, hd⟩
  · rintro ⟨row, h, hr, ht, rfl⟩
    exact decode_of_takes h hr ht

/-- A command laid out with the opcode of its row and operands the row takes is decoded from its word. -/
theorem decode_encode_of_row {i : Instr} {opc idx : Nat} {en : Bool} {row : OpcRow} (he : encode i = cmdWord opc idx en)
    (h : opcRow opc = some row) (hb : row.build idx en = i) (ho : opc < 256) (hi : idx < 256)
    (ht : row.Takes idx en) : decode (encode i) = .ok i := by
  refine decode_eq_ok_iff.2 ⟨row, ?_⟩
  rw [he, opcOf_cmdWord_of_lt ho, idxOf_cmdWord hi, enOf_cmdWord]
  exact ⟨h, Laws.resOf_cmdWord _ _ _, ht, hb⟩

theorem decode_encode {i : Instr} (h : i.wf = true) : decode (encode i) = .ok i := by
  cases i
  case setTxMbConfig idx en | setRxMbConfig idx en =>
    exact decode_encode_of_row rfl rfl rfl (by decide) (of_decide_eq_true h) ⟨nofun, nofun⟩
  case setRxFifoConfig en =>
    exact decode_encode_of_row rfl rfl rfl (by decide) (by decide) ⟨fun _ => rfl, nofun⟩
  case setRxIndividualMask idx | writeTxMb idx | readRxMb idx | sendBlocking idx | receiveBlocking idx | sendNb idx
      | receiveNb idx | abortSend idx | abortReceive idx =>
    exact decode_encode_of_row rfl rfl rfl (by decide) (of_decide_eq_true h) ⟨nofun, fun _ => rfl⟩
  all_goals exact decode_encode_of_row rfl rfl rfl (by decide) (by decide) ⟨fun _ => rfl, fun _ => rfl⟩

theorem encode_decode {w : Word} {i : Instr} (h : decode w = .ok i) : encode i = w ∧ i.wf = true := by
  obtain ⟨row, hrow, hr, ht, rfl⟩ := decode_eq_ok_iff.1 h
  exact ⟨(encode_build hrow ht).trans (cmdWord_fields hr), wf_build hrow (BitVec.isLt _) _⟩

end Sys2Proof

open Sys2Proof

/-- Settles O1: the command's word has the opcode of the command's row and operands that row takes. -/
theorem decodeEncode : Obligations.DecodeEncode := fun _ => decode_encode

/-- Settles O2: the word's fields are those of its command's word, and its reserved bits are 0. -/
theorem encodeDecode : Obligations.EncodeDecode := fun _ _ => encode_decode

/-- Settles O4: no reserved opcode has a row, and of a word with a row the reserved field and the operands the row does
not take are checked. -/
theorem reservedRefused : Obligations.ReservedRefused := by
  refine ⟨fun w h => decode_of_no_row (opcRow_reserved h), fun w hr => ?_, fun w row h hop => ?_⟩
  · cases h : opcRow (opcOf w) with
    | none => exact .inl (decode_of_no_row h)
    | some row => exact .inr (decode_reservedBits h (.inl hr))
  · refine decode_reservedBits h (.inr fun ⟨hi, he⟩ => ?_)
    rcases hop with ⟨hf, hne⟩ | ⟨hf, hen⟩
    · exact hne (hi hf)
    · simp [he hf] at hen

/-- Settles O3: each word is the word of its command. -/
theorem decodeWords : Obligations.DecodeWords :=
  ⟨decode_encode (i := .enterFreeze) rfl, decode_encode (i := .setBaudRate) rfl,
    decode_encode (i := .setTxMbConfig 9 true) rfl, decode_encode (i := .setRxFifoConfig true) rfl,
    decode_encode (i := .setRxIndividualMask 2) rfl, decode_encode (i := .sendBlocking 8) rfl,
    decode_encode (i := .sendNb 3) rfl, decode_encode (i := .handleIrq) rfl⟩

end

section
/-! PROOFS. The host's issue and the refusals of the transfer and Handle commands (30 R143, R146, 43 R340, R343, 44
R381, 60 R504). -/

namespace Sys2Proof.Machine

/-! ### The host's turn -/

section HostTurn
variable {s : State} {c : Command} {rest : List Command} (hr : s.refused = none) (hi : idle s = true)
  (hp : s.program = c :: rest)
include hr hi hp

/-- With no turn left the host issues its next command. -/
theorem step_issues_alone (h : Alone s) : step s = issueWord c.word (takeCommand c rest s) := by
  simp only [step, machineStep, hr, hi, if_true, idleTurn, h.nextTurn, hostTurn, hp, List.isEmpty_cons]
  rfl

/-- FG's turn while no operation is under way is the host's. -/
theorem step_issues_fgTurn {q : List Move} (h : s.sched = .fg :: q) :
    step s = issueWord c.word (takeCommand c rest { s with sched := q }) := by
  simp only [step, machineStep, hr, hi, if_true, idleTurn, nextTurn_cons h, hostTurn, hp]

end HostTurn

theorem issueWord_ok {w : Word} {i : Instr} (h : decode w = .ok i) (hi : i ≠ .handleIrq) (s : State) :
    issueWord w s = exec i s := by simp only [issueWord, h, hi, if_false]

theorem issueWord_handleIrq {w : Word} (h : decode w = .ok .handleIrq) (s : State) :
    issueWord w s = .next (refuse .isrOnly s) := by simp only [issueWord, h, if_true]

theorem issueWord_error {w : Word} {r : Reason} (h : decode w = .error r) (s : State) :
    issueWord w s = .next (refuse r s) := by simp only [issueWord, h]

/-! ### The first broken precondition -/

theorem firstBroken_of_broken {b : Bool} (h : b = true) (r : Reason) (t : List Check) :
    firstBroken ((b, r) :: t) = some r := if_pos h

theorem firstBroken_of_holds {b : Bool} (h : b = false) (r : Reason) (t : List Check) :
    firstBroken ((b, r) :: t) = firstBroken t := by subst h; rfl

theorem refuses_of_firstBroken {i : Instr} {l : List Check} {code : List Micro} {r : Reason} {s : State}
    (he : exec i s = issue i (firstBroken l) code s) (hl : firstBroken l = some r) (hr : s.refused = none)
    (hi : idle s = true) : Refuses i r s := by
  rw [Refuses, he, hl]
  exact issue_refuses i r code s hr hi

section Checks
variable {i : Nat} {s : State}

theorem firstBroken_needHandle (h : s.handle.created = false) (t : List Check) :
    firstBroken (needHandle s :: t) = some .noHandle := firstBroken_of_broken (by simp [h]) _ t

theorem firstBroken_needIdx_above (h : maxMb s.regs < i) (t : List Check) :
    firstBroken (needIdx i s :: t) = some .outOfRange := firstBroken_of_broken (by simp [h]) _ t

theorem firstBroken_needIdx_within (h : i ≤ maxMb s.regs) (h32 : i < 32) (t : List Check) :
    firstBroken (needIdx i s :: t) = firstBroken t :=
  firstBroken_of_holds (Bool.or_eq_false_iff.2 ⟨decide_eq_false h.not_gt, decide_eq_false h32.not_ge⟩) _ t

theorem firstBroken_needOperand_none {α : Type} {o : Option α} (h : o = none) (t : List Check) :
    firstBroken (needOperand o :: t) = some .missingOperand := firstBroken_of_broken (by simp [h]) _ t

theorem firstBroken_needOperand_some {α : Type} {o : Option α} {a : α} (h : o = some a) (t : List Check) :
    firstBroken (needOperand o :: t) = firstBroken t := firstBroken_of_holds (by simp [h]) _ t

theorem firstBroken_needFrame_long {ref : FrameRef} (h : 8 < (readFrame ref s).length) (t : List Check) :
    firstBroken (needFrame ref s :: t) = some .invalidFrame := firstBroken_of_broken (by simp [h]) _ t

/-! ### The transfer and Handle commands -/

theorem writeChecks_invalidFrame {ref : FrameRef} (h : i ≤ maxMb s.regs) (h32 : i < 32)
    (hf : s.fg.opnd.frame = some ref) (hlen : 8 < (readFrame ref s).length) :
    firstBroken (writeChecks i s) = some .invalidFrame := by
  rw [writeChecks, firstBroken_needIdx_within h h32, firstBroken_needOperand_some hf, OpRec.frameV, hf,
    Option.getD_some, firstBroken_needFrame_long hlen]

theorem writeChecks_missingOperand (h : i ≤ maxMb s.regs) (h32 : i < 32) (hf : s.fg.opnd.frame = none) :
    firstBroken (writeChecks i s) = some .missingOperand := by
  rw [writeChecks, firstBroken_needIdx_within h h32, firstBroken_needOperand_none hf]

theorem readChecks_missingOperand (h : i ≤ maxMb s.regs) (h32 : i < 32) (ho : s.fg.opnd.out = none) :
    firstBroken (readChecks i s) = some .missingOperand := by
  rw [readChecks, firstBroken_needIdx_within h h32, firstBroken_needOperand_none ho]

end Checks

section Refused
variable {s : State} (hr : s.refused = none) (hi : idle s = true)
include hr hi

/-- What a write's checks refuse, both commands that write refuse. -/
theorem writes_refused {i : Nat} {r : Reason} (h : firstBroken (writeChecks i s) = some r) :
    Refuses (.writeTxMb i) r s ∧ Refuses (.sendBlocking i) r s :=
  ⟨refuses_of_firstBroken rfl h hr hi, refuses_of_firstBroken rfl h hr hi⟩

/-- What a read's checks refuse, both commands that read refuse. -/
theorem reads_refused {i : Nat} {r : Reason} (h : firstBroken (readChecks i s) = some r) :
    Refuses (.readRxMb i) r s ∧ Refuses (.receiveBlocking i) r s :=
  ⟨refuses_of_firstBroken rfl h hr hi, refuses_of_firstBroken rfl h hr hi⟩

/-- A command whose first check is the Handle's is refused while there is none. -/
theorem refuses_noHandle {i : Instr} {t : List Check} {code : List Micro} (h : s.handle.created = false)
    (he : exec i s = issue i (firstBroken (needHandle s :: t)) code s) : Refuses i .noHandle s :=
  refuses_of_firstBroken he (firstBroken_needHandle h t) hr hi

theorem createHandle_refuses_armed {cb : Option Nat} {ctx : Nat} (hcb : s.fg.opnd.callback = some cb)
    (hctx : s.fg.opnd.context = some ctx) (hc : s.handle.created = true) (ha : s.handle.armed = true) :
    Refuses .createHandle .handleArmed s := by
  refine refuses_of_firstBroken rfl ?_ hr hi
  rw [firstBroken_needOperand_some hcb, firstBroken_needOperand_some hctx, firstBroken_of_broken (by simp [hc, ha])]

end Refused

end Sys2Proof.Machine

open Sys2Proof Sys2Proof.Machine

/-- Settles O5: the host's turn takes the head of its program, and its word is issued. -/
theorem stepRunsDecoded : Obligations.StepRunsDecoded := by
  intro s c rest ⟨hr, hi, ha⟩ hp
  rw [step_issues_alone hr hi hp ha]
  exact ⟨fun i hd hne => issueWord_ok hd hne _, fun r hd => issueWord_error hd _⟩

/-- Settles O38: each command's checks, in their order. -/
theorem transferRefusals : Obligations.TransferRefusals := by
  refine
    ⟨fun s i hr hi =>
      ⟨fun h => ?above, fun h h32 => ⟨fun hf => ?noFrame, fun ho => ?noOut, fun ref hf hlen => ?long⟩⟩,
    fun s hr hi => ⟨fun hc => ?noHandle, fun cb ctx hcb hctx hc ha => ?armed⟩⟩
  case above =>
    obtain ⟨hw, hsb⟩ := writes_refused hr hi (firstBroken_needIdx_above h _)
    exact ⟨hw, hsb, reads_refused hr hi (firstBroken_needIdx_above h _)⟩
  case noFrame => exact writes_refused hr hi (writeChecks_missingOperand h h32 hf)
  case noOut => exact reads_refused hr hi (readChecks_missingOperand h h32 ho)
  case long => exact writes_refused hr hi (writeChecks_invalidFrame h h32 hf hlen)
  case noHandle =>
    exact ⟨fun i => ⟨refuses_noHandle hr hi hc rfl, refuses_noHandle hr hi hc rfl, refuses_noHandle hr hi hc rfl,
      refuses_noHandle hr hi hc rfl⟩, refuses_noHandle hr hi hc rfl, refuses_noHandle hr hi hc rfl⟩
  case armed => exact createHandle_refuses_armed hr hi hcb hctx hc ha

/-- Settles O50: the host's turn, with no turn left or with FG's turn next, refuses the word. -/
theorem irqIssueRefused : Obligations.IrqIssueRefused := by
  intro s c rest hr hi hp hd
  refine ⟨fun hready => ?_, fun q hq => ?_⟩
  · rw [step_issues_alone hr hi hp hready.2.2, issueWord_handleIrq hd]
    rfl
  · rw [step_issues_fgTurn hr hi hp hq, issueWord_handleIrq hd]
    rfl

end

section
/-! PROOFS. The refusals of the module, timing and freeze-gated commands (40 R206, R210, 41 R250, R262, 42 R312, R313,
60 R504). -/

namespace Sys2Proof.Machine

/-! ### Operands given -/

theorem OpRec.baudV_of_some {o : OpRec} {b : Word} (h : o.baud = some b) : o.baudV = b := by simp [OpRec.baudV, h]

theorem OpRec.clkV_of_some {o : OpRec} {k : Word} (h : o.clk = some k) : o.clkV = k := by simp [OpRec.clkV, h]

theorem OpRec.cfgV_of_some {o : OpRec} {c : TimingConfig} (h : o.cfg = some c) : o.cfgV = c := by simp [OpRec.cfgV, h]

theorem configOf_of_some {s : State} {c : ModuleConfig} (h : s.fg.opnd.config = some c) : configOf s = c := by
  simp [configOf, h]

/-! ### The checks -/

section Checks
variable {s : State} {baud clk : Word}

theorem firstBroken_needAwake_lowPower (h : getBit .lpmack s.regs.mcr = true) (t : List Check) :
    firstBroken (needAwake s :: t) = some .resetInLowPower := firstBroken_of_broken h _ t

theorem firstBroken_needAwake_awake (h : getBit .lpmack s.regs.mcr = false) (t : List Check) :
    firstBroken (needAwake s :: t) = firstBroken t := firstBroken_of_holds h _ t

theorem firstBroken_needDisarmed_armed (hc : s.handle.created = true) (ha : s.handle.armed = true) (t : List Check) :
    firstBroken (needDisarmed s :: t) = some .resetWhileArmed := firstBroken_of_broken (by simp [hc, ha]) _ t

theorem firstBroken_needDisarmed_disarmed (h : s.handle.created = true → s.handle.armed = false) (t : List Check) :
    firstBroken (needDisarmed s :: t) = firstBroken t := firstBroken_of_holds (by simpa using h) _ t

theorem firstBroken_needTimingInput_outside (h : baud = 0 ∨ clk = 0 ∨ 2 ^ 32 ≤ baud.toNat * 25) (t : List Check) :
    firstBroken (needTimingInput baud clk :: t) = some .invalidTimingInput := by
  refine firstBroken_of_broken ?_ _ t
  have hmax : Config.tqMax = 25 := rfl
  simp only [Bool.or_eq_true, decide_eq_true_eq, hmax]
  rcases h with rfl | rfl | h
  · exact .inl (.inl rfl)
  · exact .inl (.inr rfl)
  · exact .inr h

theorem firstBroken_needTimingInput_within (hb : baud ≠ 0) (hk : clk ≠ 0) (h : baud.toNat * 25 < 2 ^ 32)
    (t : List Check) : firstBroken (needTimingInput baud clk :: t) = firstBroken t := by
  refine firstBroken_of_holds ?_ _ t
  have hmax : Config.tqMax = 25 := rfl
  simp only [Bool.or_eq_false_iff, decide_eq_false_iff_not, hmax]
  exact ⟨⟨fun e => hb (BitVec.eq_of_toNat_eq e), fun e => hk (BitVec.eq_of_toNat_eq e)⟩, h.not_ge⟩

theorem firstBroken_needFrozen_outside (hm : s.par.timingWriteMode = .requireFrozen) (hf : s.mode ≠ .frozen)
    (t : List Check) : firstBroken (needFrozen s :: t) = some .notFrozen := firstBroken_of_broken (by simp [hm, hf]) _ t

end Checks

section Refused
variable {s : State} (hr : s.refused = none) (hi : idle s = true)
include hr hi

/-! ### The module commands -/

/-- What the checks of RESET refuse, DEINIT refuses too (42 R313). -/
theorem resets_refused {r : Reason} (h : firstBroken [needAwake s, needDisarmed s] = some r) :
    Refuses .reset r s ∧ Refuses .deinit r s :=
  ⟨refuses_of_firstBroken rfl h hr hi, refuses_of_firstBroken rfl h hr hi⟩

/-- INIT with its operands in order is refused while a transfer is armed (42 R312). -/
theorem init_refuses_armed {c : ModuleConfig} {k : Word} (hcfg : s.fg.opnd.config = some c)
    (hclk : s.fg.opnd.clk = some k) (hmb : 1 ≤ c.maxMbNum ∧ c.maxMbNum ≤ 32) (hb : c.baudRate ≠ 0) (hk : k ≠ 0)
    (hbk : c.baudRate.toNat * 25 < 2 ^ 32) (hj : c.timingConfig.rJumpWidth ≤ 3) (hc : s.handle.created = true)
    (ha : s.handle.armed = true) : Refuses .init .resetWhileArmed s := by
  refine refuses_of_firstBroken rfl ?_ hr hi
  have hmax : (decide (c.maxMbNum < 1) || decide (Config.nmbHw < c.maxMbNum)) = false :=
    Bool.or_eq_false_iff.2 ⟨decide_eq_false hmb.1.not_gt, decide_eq_false hmb.2.not_gt⟩
  have hjump : decide (Config.rjwMax < c.timingConfig.rJumpWidth) = false := decide_eq_false hj.not_gt
  rw [firstBroken_needOperand_some hcfg, firstBroken_needOperand_some hclk, configOf_of_some hcfg,
    OpRec.clkV_of_some hclk, firstBroken_of_holds hmax, firstBroken_needTimingInput_within hb hk hbk,
    firstBroken_of_holds hjump, firstBroken_needDisarmed_armed hc ha]

/-! ### The timing commands -/

/-- A search outside the input domain is refused by both searches (41 R250). -/
theorem searches_refuse_outside {baud clk : Word} (hb : s.fg.opnd.baud = some baud) (hk : s.fg.opnd.clk = some clk)
    (h : baud = 0 ∨ clk = 0 ∨ 2 ^ 32 ≤ baud.toNat * 25) :
    Refuses .setBaudRate .invalidTimingInput s ∧ Refuses .calcImprovedTiming .invalidTimingInput s := by
  have hl (t : List Check) : firstBroken (needOperand s.fg.opnd.baud :: needOperand s.fg.opnd.clk
      :: needTimingInput s.fg.opnd.baudV s.fg.opnd.clkV :: t) = some .invalidTimingInput := by
    rw [firstBroken_needOperand_some hb, firstBroken_needOperand_some hk, OpRec.baudV_of_some hb,
      OpRec.clkV_of_some hk, firstBroken_needTimingInput_outside h]
  exact ⟨refuses_of_firstBroken rfl (hl _) hr hi, refuses_of_firstBroken rfl (hl _) hr hi⟩

theorem setTimingConfig_refuses_malformed {c : TimingConfig} (hc : s.fg.opnd.cfg = some c) (hw : c.wf = false) :
    Refuses .setTimingConfig .invalidTimingConfig s := by
  refine refuses_of_firstBroken rfl ?_ hr hi
  rw [firstBroken_needOperand_some hc, OpRec.cfgV_of_some hc, firstBroken_of_broken (by simp [hw])]

end Refused

end Sys2Proof.Machine

open Sys2Proof Sys2Proof.Machine

/-- Settles O18: each command's checks, in their order. -/
theorem moduleRefusals : Obligations.ModuleRefusals := by
  refine fun s hr hi => ⟨fun hlp => ?lowPower, fun hc ha => ⟨fun hlp => ?armed, ?init⟩, ?search, ?config⟩
  case lowPower => exact resets_refused hr hi (firstBroken_needAwake_lowPower hlp _)
  case armed =>
    exact resets_refused hr hi
      ((firstBroken_needAwake_awake hlp _).trans (firstBroken_needDisarmed_armed hc ha []))
  case init =>
    intro c k hcfg hclk h1 h32 hb hk hbk hj
    exact init_refuses_armed hr hi hcfg hclk ⟨h1, h32⟩ hb hk hbk hj hc ha
  case search => exact fun baud clk hb hk h => searches_refuse_outside hr hi hb hk h
  case config => exact fun c hc hw => setTimingConfig_refuses_malformed hr hi hc hw

/-- Settles O33: with its operands in order, every freeze-gated command reaches the gate. -/
theorem notFrozenRefused : Obligations.NotFrozenRefused := by
  intro s hr hi hm hf
  have gate := firstBroken_needFrozen_outside hm hf
  refine ⟨fun c hc hw => ?timing, fun b k hb hk hb0 hk0 hbk => ?baud,
    fun m hmask => ⟨?globalMask, ?fifoMask, fun i hmax h32 => ?mask⟩, ?fifoOff, fun c hc => ?fifoOn⟩
  all_goals refine refuses_of_firstBroken rfl ?_ hr hi
  case timing =>
    rw [firstBroken_needOperand_some hc, OpRec.cfgV_of_some hc, firstBroken_of_holds (by simp [hw]), gate]
  case baud =>
    rw [firstBroken_needOperand_some hb, firstBroken_needOperand_some hk, OpRec.baudV_of_some hb,
      OpRec.clkV_of_some hk, firstBroken_needTimingInput_within hb0 hk0 hbk, gate]
  case globalMask => rw [firstBroken_needOperand_some hmask, gate]
  case fifoMask => rw [firstBroken_needOperand_some hmask, gate]
  case mask => rw [firstBroken_needIdx_within hmax h32, firstBroken_needOperand_some hmask, gate]
  case fifoOff => rw [firstBroken_of_holds (Bool.false_and _), gate]
  case fifoOn => rw [firstBroken_of_holds (by simp [hc]), gate]

end

section
/-! PROOFS. ENTER_FREEZE and EXIT_FREEZE, alone and with the turns of HW (40 R201-R205, R207). The bodies' runs end
where the caller's `rest` begins, so that a gated command and INIT can use them too. -/

namespace Sys2Proof.Machine

theorem ReadyWith.fgFree {q : List Move} {s : State} (h : ReadyWith q s) : FgFree s :=
  let ⟨hr, hi, _⟩ := h
  ⟨hr, by simpa using (Bool.and_eq_true_iff.1 hi).2⟩

theorem Ready.alone {s : State} (h : Ready s) : Alone s :=
  let ⟨_, _, ha⟩ := h
  ha

/-! ### Single bits of MCR -/

/-- The state with bit b of MCR set or cleared. -/
def mcrWith (b : Nat) (v : Bool) (s : State) : State :=
  { s with regs := { s.regs with mcr := withBit b v s.regs.mcr } }

@[simp] theorem mcrWith_mcr (b : Nat) (v : Bool) (s : State) : (mcrWith b v s).regs.mcr = withBit b v s.regs.mcr := rfl
@[simp] theorem mcrWith_par (b : Nat) (v : Bool) (s : State) : (mcrWith b v s).par = s.par := rfl

theorem get_mcrWith (b : Nat) (v : Bool) (s : State) {r : Reg} (hr : r ≠ .mcr) :
    (mcrWith b v s).regs.get r = s.regs.get r := Regs.get_set_ne s.regs _ (Ne.symm hr)

theorem withBit_of_bit {b : Nat} {v : Bool} {w : Word} (hb : b < 32) (h : w.getLsbD b = v) : withBit b v w = w := by
  apply BitVec.eq_of_getLsbD_eq
  intro k hk
  rw [getLsbD_withBit b v w k hb hk]
  split
  · next e => rw [e, h]
  · rfl

theorem mcrWith_of_bit {b : Nat} {v : Bool} {s : State} (hb : b < 32) (h : s.regs.mcr.getLsbD b = v) :
    mcrWith b v s = s := by rw [mcrWith, withBit_of_bit hb h]

theorem getBit_withBit {f : Field} {b : Nat} (v : Bool) (w : Word) (hb : b < 32) (hf : f.lo < 32) :
    getBit f (withBit b v w) = if f.lo = b then v else getBit f w := getLsbD_withBit b v w f.lo hb hf

/-- EF0, EF2 and EF5 (40 R201), as one word. -/
theorem withBit_enterFreeze (w : Word) :
    withBit 28 true (withBit 31 false (withBit 30 true w)) = (w ||| oneBit 30 ||| oneBit 28) &&& ~~~ oneBit 31 := by
  have h : oneBit 28 &&& ~~~ oneBit 31 = oneBit 28 := by decide
  simp only [withBit, Bool.false_eq_true, if_true, if_false]
  rw [BitVec.and_comm (w ||| oneBit 30 ||| oneBit 28), BitVec.and_or_distrib_left, BitVec.and_comm _ (oneBit 28), h,
    BitVec.and_comm]

/-- XF0 and XF1 (40 R205), as one word. -/
theorem withBit_exitFreeze (w : Word) :
    withBit 30 false (withBit 28 false w) = w &&& ~~~ (oneBit 30 ||| oneBit 28) := by
  simp only [withBit, Bool.false_eq_true, if_false, BitVec.not_or]
  ac_rfl

/-- XF0 and XF1, and HW's answer, as one word. -/
theorem withBit_leaveFreeze (w : Word) :
    withBit 24 false (withBit 30 false (withBit 28 false w))
      = w &&& ~~~ (oneBit 30 ||| oneBit 28 ||| oneBit 24) := by
  simp only [withBit, Bool.false_eq_true, if_false, BitVec.not_or]
  ac_rfl

/-! ### The modes -/

theorem mode_eq_frozen_iff (s : State) :
    s.mode = .frozen ↔ getBit .lpmack s.regs.mcr = false ∧ getBit .softrst s.regs.mcr = false
      ∧ getBit .frzack s.regs.mcr = true := by
  simp only [State.mode, modeOf]
  split_ifs <;> simp [*]

/-! ### Turns -/

/-- An unbounded poll for a 0 spins while the bit is 1. -/
theorem spins_mcrPoll {f : Field} {a : AfterPoll} {s : State} (h : getBit f s.regs.mcr = true) :
    spins (.poll .mcr f false none a) s = true := by simp [spins, h]

section Turns
variable {k : Nat} {i : Instr} {rest : List Micro} {s t : State} (hs : FgFree s)
include hs

/-- The read-modify-write of one RW bit of MCR, in two scheduled turns of FG. -/
theorem Reach.mcrBitTurns {q : List Move} (b : Nat) (v : Bool) (hq : s.sched = .fg :: .fg :: q) (hb : b < 32)
    (h : b ≠ 27 ∧ b ≠ 24 ∧ b ≠ 20) (h25 : b = 25 → v = true)
    (ht : Reach k (begin i rest (mcrWith b v { s with sched := q })) t) :
    Reach (k + 2) (begin i (Machine.setFields .mcr [(⟨b, b⟩, .val (if v then 1 else 0))] ++ rest) s) t := by
  refine .fgTurn (m := .read .mcr (.modify .mcr _)) hs hq rfl ?_
  refine .fgTurn (m := .modify .mcr _ s.regs.mcr) (rest := rest) (s := { s with sched := .fg :: q }) hs rfl rfl ?_
  have e := writeFields_mcrBit b v { s with sched := q } hb h h25
  simp only [micro]
  rw [e]
  exact ht

variable (hq : Alone s)
include hq

/-- A poll of MCR whose condition holds. -/
theorem Reach.mcrPollDone {f : Field} {v : Bool} (b : Option Nat) (hv : getBit f s.regs.mcr = v)
    (h : Reach k (begin i rest s) t) : Reach (k + 1) (begin i (.poll .mcr f v b .done :: rest) s) t :=
  .pollDone hs hq (readReg_mcr s) hv h

/-- A bounded poll of MCR goes on, whether or not its condition comes to hold (00 R24). -/
theorem Reach.pollBounded (f : Field) (v : Bool) (b : Nat) (h : Reach k (begin i rest s) t) :
    ∃ j ≤ k + (1 + b), Reach j (begin i (.poll .mcr f v (some b) .done :: rest) s) t := by
  by_cases hv : getBit f s.regs.mcr = v
  · exact ⟨k + 1, by omega, .mcrPollDone hs hq _ hv h⟩
  · exact ⟨k + max b 1, by omega, .pollOut b hs hq rfl hv h⟩

/-- EF1 and EF2: MDIS is cleared if it is set (40 R201). -/
theorem Reach.clearMdis (h : Reach k (begin i rest (mcrWith 31 false s)) t) :
    ∃ j ≤ k + 3, Reach j (begin i (.read .mcr .ef2 :: rest) s) t := by
  cases hm : getBit .mdis s.regs.mcr with
  | true =>
    refine ⟨k + 2 + 1, le_rfl, .fg hs hq rfl rfl ?_⟩
    simp only [micro, readReg_mcr, afterRead, hm, if_true]
    exact .mcrBit 31 false hs hq (by decide) (by decide) (by decide) h
  | false =>
    refine ⟨k + 1, by omega, .fg hs hq rfl rfl ?_⟩
    simp only [micro, readReg_mcr, afterRead, hm, Bool.false_eq_true, if_false]
    rw [mcrWith_of_bit (b := 31) (by decide) hm] at h
    exact h

/-- EF4 to EF6, off the errata path (40 R201, R203). -/
theorem Reach.freezeTail (hv : s.par.freezeVariant = .base ∨ busOff s.regs.esr = false)
    (h : Reach k (begin i rest (mcrWith 28 true s)) t) :
    ∃ j ≤ k + (4 + s.par.frzTimeout), Reach j
      (begin i ((if s.par.freezeVariant = .base then Machine.efTail s.par else [.read .esr .ef4]) ++ rest) s) t := by
  obtain ⟨j, hj, hr⟩ := Reach.efTail hs hq h
  split
  · exact ⟨j, by omega, hr⟩
  · next hne =>
    refine ⟨j + 1, by omega, .fg hs hq rfl rfl ?_⟩
    simp only [micro, readReg_esr, afterRead, hv.resolve_left hne, Bool.false_eq_true, if_false]
    exact hr

/-- The body of EnterFreeze alone, off the errata path (40 R201, R202). -/
theorem Reach.enterFreeze (hv : s.par.freezeVariant = .base ∨ busOff s.regs.esr = false)
    (h : Reach k (begin i rest (mcrWith 28 true (mcrWith 31 false (mcrWith 30 true s)))) t) :
    ∃ j ≤ k + (10 + 2 * s.par.frzTimeout), Reach j (begin i (enterFreezeBody s.par ++ rest) s) t := by
  obtain ⟨j₁, hj₁, h₁⟩ := Reach.freezeTail (s := mcrWith 31 false (mcrWith 30 true s)) hs hq hv h
  obtain ⟨j₂, hj₂, h₂⟩ :=
    Reach.pollBounded (s := mcrWith 31 false (mcrWith 30 true s)) hs hq .lpmack false s.par.frzTimeout h₁
  obtain ⟨j₃, hj₃, h₃⟩ := Reach.clearMdis (s := mcrWith 30 true s) hs hq h₂
  refine ⟨j₃ + 2, ?_, ?_⟩
  · simp only [mcrWith_par] at hj₁
    omega
  · simp only [enterFreezeBody, List.append_assoc]
    exact .mcrBit 30 true hs hq (by decide) (by decide) (by decide) h₃

end Turns

/-! ### The exit (40 R205), and HW's answer (40 R207) -/

/-- What XF0 and XF1 leave. -/
abbrev freezeCleared (s : State) : State := mcrWith 30 false (mcrWith 28 false s)

theorem getBit_freezeCleared {f : Field} (s : State) (hlo : f.lo < 32) (h : f.lo ≠ 30 ∧ f.lo ≠ 28) :
    getBit f (freezeCleared s).regs.mcr = getBit f s.regs.mcr := by
  simp only [mcrWith_mcr]
  rw [getBit_withBit _ _ (by decide) hlo, getBit_withBit _ _ (by decide) hlo, if_neg h.1, if_neg h.2]

/-- From Frozen with MDIS = 0, HW owes the end of the acknowledgement after XF1. -/
theorem owes_clearFrzack_freezeCleared {s : State} (hf : s.mode = .frozen) (hm : getBit .mdis s.regs.mcr = false) :
    owes (freezeCleared s) .clearFrzack = true := by
  obtain ⟨hlp, hsr, hack⟩ := (mode_eq_frozen_iff s).1 hf
  have hf' : (freezeCleared s).mode = .frozen := by
    rw [mode_eq_frozen_iff, getBit_freezeCleared (f := .lpmack) s (by decide) (by decide),
      getBit_freezeCleared (f := .softrst) s (by decide) (by decide),
      getBit_freezeCleared (f := .frzack) s (by decide) (by decide)]
    exact ⟨hlp, hsr, hack⟩
  have hfrz : getBit .frz (freezeCleared s).regs.mcr = false := getBit_withBit _ _ (by decide) (by decide)
  have hm' : getBit .mdis (freezeCleared s).regs.mcr = false :=
    (getBit_freezeCleared s (by decide) (by decide)).trans hm
  simp only [owes, hf', hfrz, hm', decide_true, Bool.false_and, Bool.not_false, Bool.and_self]

/-- Where the acknowledgement's end is owed, HW's move clears FRZACK. -/
theorem hwStep_clearFrzack {s : State} (h : owes s .clearFrzack = true) :
    hwStep .clearFrzack s = mcrWith 24 false s := if_pos h

/-- A move of HW leaves FG, so it is the same move while an operation is under way. -/
theorem hwStep_begin (mv : HwMove) (i : Instr) (code : List Micro) (s : State) :
    hwStep mv (begin i code s) = begin i code (hwStep mv s) := by
  have hfg : (hwStep mv s).fg = s.fg := congrArg (·.fg) (hwStep_fg mv s s.fg)
  simp only [begin]
  rw [hwStep_fg, hfg]

/-- In Frozen with MDIS = 0, HW owes at most the end of the acknowledgement (40 R207). -/
theorem owes_of_frozen {s : State} {d : Duty} (hf : s.mode = .frozen) (hm : getBit .mdis s.regs.mcr = false)
    (h : owes s d = true) : d = .clearFrzack := by
  obtain ⟨hlp, hsr, -⟩ := (mode_eq_frozen_iff s).1 hf
  cases d with
  | setLpmack => simp [owes, hm] at h
  | clearLpmack => simp [owes, hlp] at h
  | softReset => simp [owes, hsr] at h
  | moveIn i => simp [owes, mayMoveIn2, mayComplete, hf] at h
  | setFrzack => simp [owes, hf] at h
  | clearFrzack => rfl

/-- The end of the acknowledgement, where it is owed, is the duty due. -/
theorem dueDuty_clearFrzack {s : State} (h : owes s .clearFrzack = true) : dueDuty s = some .clearFrzack := by
  have ⟨hf, hm⟩ : s.mode = .frozen ∧ getBit .mdis s.regs.mcr = false := by
    simp only [owes, Bool.and_eq_true, decide_eq_true_eq, Bool.not_eq_true'] at h
    have ⟨⟨hf, _⟩, hm⟩ := h
    exact ⟨hf, hm⟩
  cases hd : dueDuty s with
  | none =>
    have hmem : .clearFrzack ∈ duties := List.mem_append_right _ (List.mem_cons_of_mem _ (List.mem_singleton.2 rfl))
    exact absurd h (Bool.eq_false_iff.1 (dueDuty_none hd _ hmem))
  | some d => rw [owes_of_frozen hf hm (owes_of_dueDuty hd)]

section Exit
variable {k : Nat} {i : Instr} {rest : List Micro} {s t : State} (hs : FgFree s)
include hs

/-- The body of ExitFreeze alone, from a state that is not acknowledged. -/
theorem Reach.exitFreeze (hq : Alone s) (hack : getBit .frzack s.regs.mcr = false)
    (h : Reach k (begin i rest (freezeCleared s)) t) : Reach (k + 5) (begin i (exitFreezeBody ++ rest) s) t := by
  have hack' : getBit .frzack (freezeCleared s).regs.mcr = false :=
    (getBit_freezeCleared s (by decide) (by decide)).trans hack
  have h₁ := Reach.mcrPollDone (s := freezeCleared s) hs hq none hack' h
  simp only [exitFreezeBody, List.append_assoc]
  exact .mcrBit 28 false hs hq (by decide) (by decide) (by decide)
    (.mcrBit (s := mcrWith 28 false s) 30 false hs hq (by decide) (by decide) (by decide) h₁)

variable (hf : s.mode = .frozen) (hm : getBit .mdis s.regs.mcr = false)
include hf hm

/-- XF2 from Frozen alone: HW meets its duty while the poll spins, and the poll ends. -/
theorem Reach.exitFreezeDuty (hq : Alone s) (h : Reach k (begin i rest (mcrWith 24 false (freezeCleared s))) t) :
    Reach (k + 6) (begin i (exitFreezeBody ++ rest) s) t := by
  have hack : getBit .frzack (mcrWith 24 false (freezeCleared s)).regs.mcr = false :=
    getBit_withBit _ _ (by decide) (by decide)
  have howes := owes_clearFrzack_freezeCleared hf hm
  obtain ⟨-, -, hset⟩ := (mode_eq_frozen_iff s).1 hf
  have hspins : spins (.poll .mcr .frzack false none .done) (freezeCleared s) = true :=
    spins_mcrPoll ((getBit_freezeCleared s (by decide) (by decide)).trans hset)
  have h₁ := Reach.mcrPollDone (s := mcrWith 24 false (freezeCleared s)) hs hq none hack h
  have h₂ : Reach (k + 2) (begin i (.poll .mcr .frzack false none .done :: rest) (freezeCleared s)) t := by
    refine .duty (d := .clearFrzack) hs hq hspins (dueDuty_clearFrzack howes) ?_
    simp only [fulfil]
    rw [hwStep_begin, hwStep_clearFrzack howes]
    exact h₁
  simp only [exitFreezeBody, List.append_assoc]
  exact .mcrBit 28 false hs hq (by decide) (by decide) (by decide)
    (.mcrBit (s := mcrWith 28 false s) 30 false hs hq (by decide) (by decide) (by decide) h₂)

/-- The same with the turns scheduled: four of FG, and HW's. -/
theorem Reach.exitFreezeTurns (hq : s.sched = [.fg, .fg, .fg, .fg, .hw .clearFrzack]) (hsup : s.supply = .quiet)
    (h : Reach k (begin i rest (mcrWith 24 false (freezeCleared { s with sched := [] }))) t) :
    Reach (k + 6) (begin i (exitFreezeBody ++ rest) s) t := by
  have hack : getBit .frzack (mcrWith 24 false (freezeCleared { s with sched := [] })).regs.mcr = false :=
    getBit_withBit _ _ (by decide) (by decide)
  have howes : owes (freezeCleared { s with sched := [] }) .clearFrzack = true :=
    owes_clearFrzack_freezeCleared (s := { s with sched := [] }) hf hm
  have h₁ := Reach.mcrPollDone (s := mcrWith 24 false (freezeCleared { s with sched := [] })) hs ⟨rfl, hsup⟩ none hack h
  have h₂ : Reach (k + 2) (begin i (.poll .mcr .frzack false none .done :: rest)
      (freezeCleared { s with sched := [.hw .clearFrzack] })) t := by
    refine .hw (mv := .clearFrzack) (q := []) hs rfl ?_
    rw [hwStep_begin]
    change Reach _ (begin _ _ (hwStep .clearFrzack (freezeCleared { s with sched := [] }))) _
    rw [hwStep_clearFrzack howes]
    exact h₁
  simp only [exitFreezeBody, List.append_assoc]
  exact .mcrBitTurns hs 28 false hq (by decide) (by decide) (by decide)
    (.mcrBitTurns (s := mcrWith 28 false { s with sched := [.fg, .fg, .hw .clearFrzack] }) hs 30 false rfl (by decide)
      (by decide) (by decide) h₂)

end Exit

end Sys2Proof.Machine

open Sys2Proof Sys2Proof.Machine

/-- Settles O14: off the errata path the body ends with FRZ and HALT set and MDIS clear, whatever its polls saw. -/
theorem enterFreezeReturns : Obligations.EnterFreezeReturns := by
  intro s hr hv
  obtain ⟨j, hj, h⟩ := Reach.enterFreeze hr.fgFree hr.alone hv (Reach.ret .enterFreeze .unit _ hr.fgFree hr.alone)
  rw [← withBit_enterFreeze]
  exact issue_runs hr h (halted_completed _ _ _ hr.fgFree) (by simp only [List.length_nil]; omega)

/-- Settles O16: the poll of XF2 finds FRZACK clear, at once or after HW's move. -/
theorem exitFreezeReturns : Obligations.ExitFreezeReturns := by
  refine fun s => ⟨fun hr hack => ?clear, fun hr hf hm => ?frozen⟩
  case clear =>
    have h := Reach.exitFreeze hr.fgFree hr.alone hack (Reach.ret .exitFreeze .unit _ hr.fgFree hr.alone)
    rw [← withBit_exitFreeze]
    exact issue_runs hr h (halted_completed _ _ _ hr.fgFree) (by simp only [List.length_nil]; omega)
  case frozen =>
    have ⟨_, _, hq, hsup⟩ := hr
    have h := Reach.exitFreezeTurns hr.fgFree hf hm hq hsup (Reach.ret .exitFreeze .unit _ hr.fgFree ⟨rfl, hsup⟩)
    rw [← withBit_leaveFreeze]
    exact issue_runs hr h (halted_completed _ _ _ hr.fgFree) (by omega)

end

section
/-! PROOFS. RESET and DEINIT, with HW's completion scheduled or met as a duty (40 R206, 42 R313, 60 R521, 70 R601). -/

namespace Sys2Proof.Machine

/-! ### Registers taken from other values -/

/-- A register, real or not, reads as the other register file's once it has taken its word. -/
theorem Regs.get_set_get (g vals : Regs) (r : Reg) : (g.set r (vals.get r)).get r = vals.get r := by
  by_cases hv : r.valid = true
  · by_cases ht : r = .timer
    · subst ht
      simp [Regs.get, Regs.set]
    · exact Regs.get_set_self g r _ hv ht
  · cases r <;> simp [Reg.valid] at hv
    case mb i k => simp [Regs.get, Regs.set, bankGet, bankSet, hv]
    case rximr i => simp [Regs.get, Regs.set, bankGet, bankSet, hv]

/-- What a register holds after those of a list took their values from `vals` (60 R521). -/
theorem get_takeRegs (vals : Regs) (rs : List Reg) (g : Regs) (r : Reg) :
    (takeRegs vals rs g).get r = if r ∈ rs then vals.get r else g.get r := by
  induction rs generalizing g with
  | nil => simp [takeRegs]
  | cons a t ih =>
    rw [takeRegs, ih]
    by_cases ha : r = a
    · subst ha
      simp [Regs.get_set_get]
    · simp [ha, Regs.get_set_ne g _ (Ne.symm ha)]

/-! ### The soft reset (60 R521) -/

theorem hwStep_softReset {s : State} (vals : Regs) (h : getBit .softrst s.regs.mcr = true) :
    hwStep (.softReset vals) s = softResetDone vals s := if_pos h

theorem getLsbD_softResetDone_mcr (vals : Regs) (s : State) {k : Nat} (hk : k < 32) :
    (softResetDone vals s).regs.mcr.getLsbD k
      = (decide (k ≠ 25) && if .mcr ∈ s.par.softrstSet then vals.mcr.getLsbD k else s.regs.mcr.getLsbD k) := by
  have hm : (takeRegs vals s.par.softrstSet s.regs).mcr
      = if .mcr ∈ s.par.softrstSet then vals.mcr else s.regs.mcr := get_takeRegs vals _ s.regs .mcr
  simp only [softResetDone]
  rw [getLsbD_andNot _ _ hk, getLsbD_oneBit 25 k (by decide), hm, ← decide_not, Bool.and_comm]
  split <;> rfl

theorem getBit_softrst_softResetDone (vals : Regs) (s : State) :
    getBit .softrst (softResetDone vals s).regs.mcr = false := getLsbD_softResetDone_mcr vals s (by decide)

theorem get_softResetDone (vals : Regs) (s : State) {r : Reg} (hr : r ≠ .mcr) (h : r ∉ s.par.softrstSet) :
    (softResetDone vals s).regs.get r = s.regs.get r := by
  obtain ⟨w, e⟩ : ∃ w, (softResetDone vals s).regs = (takeRegs vals s.par.softrstSet s.regs).set .mcr w := ⟨_, rfl⟩
  rw [e, Regs.get_set_ne _ _ (Ne.symm hr), get_takeRegs, if_neg h]

/-! ### What RS2 to RS9 write (40 R206) -/

/-- The fields RS2 writes. -/
def resetFields (p : Params) : List (Field × Word) :=
  [(.maxmb, p.resetMaxmb.setWidth 32), (.wrnen, if p.resetWrnen then 1 else 0),
    (.waksrc, if p.resetWaksrc then 1 else 0)]

/-- MCR after RS2. -/
def resetMcr (p : Params) (w : Word) : Word := mcrAfterWrite w (plainFields (resetFields p) w)

/-- The registers RS3 to RS9 write, in their order. -/
def resetWritten (p : Params) : List Reg :=
  [.ctrl1, .ctrl2] ++ (List.range p.nrximr).map Reg.rximr ++ [.rxmgmask, .rx14mask, .rx15mask]
    ++ (List.range Config.nmbHw).map fun i => Reg.mb i .cs

/-- The words they are written with: the defaults of CTRL1 and CTRL2, and 0. -/
def resetVals (p : Params) : Regs := { Regs.reset with ctrl1 := p.ctrl1Default, ctrl2 := p.ctrl2Default }

/-- What RS2 leaves. -/
def rs2Done (s : State) : State := { s with regs := { s.regs with mcr := resetMcr s.par s.regs.mcr } }

/-- What RS2 to RS9 leave. -/
def resetWrites (s : State) : State :=
  { s with regs := takeRegs (resetVals s.par) (resetWritten s.par) (rs2Done s).regs }

/-- What RS0 to RS9 leave, HW completing the soft reset after RS0. -/
def afterReset (vals : Regs) (s : State) : State := resetWrites (softResetDone vals (mcrWith 25 true s))

theorem getLsbD_resetMcr (p : Params) (w : Word) {k : Nat} (hk : k < 32) :
    (resetMcr p w).getLsbD k
      = if k ≤ 6 then p.resetMaxmb.getLsbD k else if k = 21 then p.resetWrnen else if k = 19 then p.resetWaksrc
        else w.getLsbD k := by
  simp only [resetMcr, resetFields, plainFields, getLsbD_mcrAfterWrite _ _ k hk, getLsbD_putField _ _ _ k hk,
    Field.maxmb, Field.wrnen, Field.waksrc]
  by_cases h6 : k ≤ 6
  · have hro : ¬ (k = 27 ∨ k = 24 ∨ k = 20) := by omega
    have h25 : k ≠ 25 := by omega
    have h21 : ¬ (21 ≤ k ∧ k ≤ 21) := by omega
    have h19 : ¬ (19 ≤ k ∧ k ≤ 19) := by omega
    simp [hro, h25, h21, h19, h6, hk]
  · by_cases h21 : k = 21
    · subst h21
      cases p.resetWrnen <;> simp
    · by_cases h19 : k = 19
      · subst h19
        cases p.resetWaksrc <;> simp
      · have h21' : ¬ (21 ≤ k ∧ k ≤ 21) := by omega
        have h19' : ¬ (19 ≤ k ∧ k ≤ 19) := by omega
        simp [h21, h19, h21', h19', h6]

theorem mem_resetWritten {p : Params} {r : Reg} :
    r ∈ resetWritten p ↔ r = .ctrl1 ∨ r = .ctrl2 ∨ (∃ i < p.nrximr, .rximr i = r) ∨ r = .rxmgmask ∨ r = .rx14mask
      ∨ r = .rx15mask ∨ ∃ i < 32, .mb i .cs = r := by
  simp only [resetWritten, Config.nmbHw, List.mem_append, List.mem_map, List.mem_range, List.mem_cons, List.not_mem_nil,
    or_false, or_assoc]

theorem cs_mem_resetWritten (p : Params) {i : Nat} (hi : i < 32) : .mb i .cs ∈ resetWritten p := by
  simp [mem_resetWritten, hi]

theorem mcr_not_mem_resetWritten (p : Params) : .mcr ∉ resetWritten p := by simp [mem_resetWritten]

theorem mcr_resetWrites (s : State) : (resetWrites s).regs.mcr = resetMcr s.par s.regs.mcr := by
  have h := get_takeRegs (resetVals s.par) (resetWritten s.par) (rs2Done s).regs .mcr
  rwa [if_neg (mcr_not_mem_resetWritten _)] at h

theorem get_resetWrites_of_mem {s : State} {r : Reg} (h : r ∈ resetWritten s.par) :
    (resetWrites s).regs.get r = (resetVals s.par).get r :=
  (get_takeRegs _ _ _ _).trans (if_pos h)

theorem get_resetWrites_of_not_mem {s : State} {r : Reg} (hr : r ≠ .mcr) (h : r ∉ resetWritten s.par) :
    (resetWrites s).regs.get r = s.regs.get r :=
  (get_takeRegs _ _ _ _).trans ((if_neg h).trans (Regs.get_set_ne s.regs _ (Ne.symm hr)))

/-! ### The body -/

@[simp] theorem resetVals_get_rximr (p : Params) (i : Nat) : (resetVals p).get (.rximr i) = 0 := by
  by_cases h : i < 32
  · simp [resetVals, Regs.reset, Regs.get, bankGet, h]
  · simp only [resetVals, Regs.reset, Regs.get, bankGet, Vector.getElem?_eq_none (Nat.le_of_not_lt h)]
    rfl

@[simp] theorem resetVals_get_cs (p : Params) (i : Nat) : (resetVals p).get (.mb i .cs) = 0 := by
  by_cases h : i < 32
  · simp [resetVals, Regs.reset, Regs.get, bankGet, Mb.get, h]
  · simp only [resetVals, Regs.reset, Regs.get, bankGet, Mb.get, Vector.getElem?_eq_none (Nat.le_of_not_lt h)]
    rfl

/-- The words RS3 to RS9 write. -/
def resetWords (p : Params) : List (Reg × Word) := (resetWritten p).map fun r => (r, (resetVals p).get r)

/-- RS1 to RS9. -/
def resetTail (p : Params) : List Micro :=
  .poll .mcr .softrst false none .done
    :: (setFields .mcr ((resetFields p).map fun f => (f.1, .val f.2))
      ++ (resetWords p).map fun w => .write w.1 w.2)

theorem length_resetWords (p : Params) : (resetWords p).length = 37 + p.nrximr := by
  simp [resetWords, resetWritten, Config.nmbHw]
  omega

theorem resetBody_eq (p : Params) : resetBody p = setFields .mcr [(.softrst, oneVal)] ++ resetTail p := by
  simp [resetBody, resetTail, resetWords, resetWritten, resetFields, boolVal, Function.comp_def]
  exact ⟨rfl, rfl, rfl, rfl, rfl⟩

theorem bankGet_none {n : Nat} (i : Nat) : bankGet (Vector.replicate n (none : Option MoveIn)) i = none := by
  by_cases h : i < n
  · simp [bankGet, h]
  · simp only [bankGet, Vector.getElem?_eq_none (Nat.le_of_not_lt h)]
    rfl

/-- With no move-in under way, each word RS3 to RS9 write is stored and nothing else changes. -/
theorem writeReg_of_mem_resetWritten {p : Params} {r : Reg} (h : r ∈ resetWritten p) (w : Word) {s : State}
    (hm : s.moveIn = Vector.replicate 32 none) : writeReg r w s = { s with regs := s.regs.set r w } := by
  obtain rfl | rfl | ⟨i, -, rfl⟩ | rfl | rfl | rfl | ⟨i, -, rfl⟩ := mem_resetWritten.1 h
  exacts [rfl, rfl, rfl, rfl, rfl, rfl, writeReg_mb i .cs w s (by rw [hm, bankGet_none])]

/-- A list of such writes. -/
theorem foldl_writeReg_reset {p : Params} (vals : Regs) {rs : List Reg} (h : ∀ r ∈ rs, r ∈ resetWritten p) {s : State}
    (hm : s.moveIn = Vector.replicate 32 none) :
    (rs.map fun r => (r, vals.get r)).foldl (fun s w => writeReg w.1 w.2 s) s
      = { s with regs := takeRegs vals rs s.regs } := by
  induction rs generalizing s with
  | nil => rfl
  | cons a t ih =>
    obtain ⟨ha, ht⟩ := List.forall_mem_cons.1 h
    simp only [List.map_cons, List.foldl_cons, takeRegs]
    rw [writeReg_of_mem_resetWritten ha _ hm, ih ht (s := { s with regs := s.regs.set a (vals.get a) }) hm]

/-- RS2 writes its three fields. -/
theorem writeFields_resetFields (s : State) :
    writeFields .mcr ((resetFields s.par).map fun f => (f.1, .val f.2)) s.regs.mcr s = rs2Done s := by
  have e := putFields_val (decide (Reg.mcr = .ctrl1) && decide (s.mode ≠ .frozen)) (resetFields s.par) s.regs.mcr s
    (.inl rfl)
  simp only [writeFields]
  rw [e]
  rfl

section Body
variable {k : Nat} {i : Instr} {rest : List Micro} {s t : State} (hs : FgFree s)
include hs

/-- RS1 to RS9 alone, once the soft reset is complete. -/
theorem Reach.resetTail (hq : Alone s) (hm : s.moveIn = Vector.replicate 32 none)
    (hsr : getBit .softrst s.regs.mcr = false) (h : Reach k (begin i rest (resetWrites s)) t) :
    Reach (k + (40 + s.par.nrximr)) (begin i (Machine.resetTail s.par ++ rest) s) t := by
  have hw : (resetWords s.par).foldl (fun s w => writeReg w.1 w.2 s) (rs2Done s) = resetWrites s :=
    foldl_writeReg_reset (p := s.par) (s := rs2Done s) _ (fun _ hr => hr) hm
  have h₁ := Reach.writes (i := i) (rest := rest) (t := t) (resetWords s.par) (rs2Done s) hs hq (by rw [hw]; exact h)
  rw [← writeFields_resetFields s] at h₁
  have h₂ := Reach.setFields hs hq (readReg_mcr s) h₁
  have h₃ := Reach.mcrPollDone hs hq none hsr h₂
  rw [length_resetWords] at h₃
  rw [show k + (40 + s.par.nrximr) = k + (37 + s.par.nrximr) + 2 + 1 by omega]
  simpa only [Machine.resetTail, List.append_assoc, List.cons_append] using h₃

/-- The body of Reset, HW completing the soft reset after RS0. -/
theorem Reach.resetTurns {vals : Regs} (hq : s.sched = [.fg, .fg, .hw (.softReset vals)]) (hsup : s.supply = .quiet)
    (h : Reach k (begin i rest (afterReset vals { s with sched := [] })) t) :
    Reach (k + (43 + s.par.nrximr)) (begin i (resetBody s.par ++ rest) s) t := by
  have hset : getBit .softrst (mcrWith 25 true { s with sched := [] }).regs.mcr = true :=
    getBit_withBit _ _ (by decide) (by decide)
  have h₁ := Reach.resetTail (s := softResetDone vals (mcrWith 25 true { s with sched := [] })) hs ⟨rfl, hsup⟩ rfl
    (getBit_softrst_softResetDone vals _) h
  have h₂ : Reach (k + (40 + s.par.nrximr) + 1) (begin i (Machine.resetTail s.par ++ rest)
      (mcrWith 25 true { s with sched := [.hw (.softReset vals)] })) t := by
    refine .hw (mv := .softReset vals) (q := []) hs rfl ?_
    rw [hwStep_begin]
    change Reach _ (begin _ _ (hwStep (.softReset vals) (mcrWith 25 true { s with sched := [] }))) _
    rw [hwStep_softReset vals hset]
    exact h₁
  rw [resetBody_eq, List.append_assoc, show k + (43 + s.par.nrximr) = k + (40 + s.par.nrximr) + 1 + 2 by omega]
  exact .mcrBitTurns hs 25 true hq (by decide) (by decide) (by decide) h₂

end Body

/-! ### The registers RESET leaves (70 R601) -/

/-- The registers `g` are those RESET leaves of the registers `old` when the soft reset took the values `vals`. Of MCR
the bits below `n` are meant: 32 for RESET, 31 for DEINIT, which sets MDIS. -/
structure LeftByReset (n : Nat) (p : Params) (old vals g : Regs) : Prop where
  mcr : ∀ k < n, g.mcr.getLsbD k
    = if k ≤ 6 then p.resetMaxmb.getLsbD k else if k = 21 then p.resetWrnen else if k = 19 then p.resetWaksrc
      else decide (k ≠ 25) && if .mcr ∈ p.softrstSet then vals.mcr.getLsbD k else old.mcr.getLsbD k
  written : ∀ r ∈ resetWritten p, g.get r = (resetVals p).get r
  kept : ∀ r, r ≠ .mcr → r ∉ resetWritten p → r ∉ p.softrstSet → g.get r = old.get r

theorem getLsbD_getField_maxmb (w : Word) {k : Nat} (hk : k < 32) :
    (getField .maxmb w).getLsbD k = (decide (k ≤ 6) && w.getLsbD k) := by
  simp only [getField, Field.maxmb, BitVec.ushiftRight_zero, BitVec.getLsbD_and, getLsbD_fieldMask _ k hk, Nat.zero_le,
    true_and, Bool.and_comm]

/-- MCR after RS2, the soft reset having been requested by RS0. -/
theorem getLsbD_mcr_reset (vals : Regs) (s : State) {k : Nat} (hk : k < 32) :
    (afterReset vals s).regs.mcr.getLsbD k
      = if k ≤ 6 then s.par.resetMaxmb.getLsbD k else if k = 21 then s.par.resetWrnen
        else if k = 19 then s.par.resetWaksrc
        else decide (k ≠ 25) && if .mcr ∈ s.par.softrstSet then vals.mcr.getLsbD k else s.regs.mcr.getLsbD k := by
  rw [afterReset, mcr_resetWrites, getLsbD_resetMcr _ _ hk, getLsbD_softResetDone_mcr _ _ hk, mcrWith_mcr,
    getLsbD_withBit _ _ _ _ (by decide) hk]
  by_cases h25 : k = 25
  · subst h25
    rfl
  · rw [if_neg h25]
    rfl

theorem leftByReset (vals : Regs) (s : State) :
    LeftByReset 32 s.par s.regs vals (afterReset vals s).regs where
  mcr _ hk := getLsbD_mcr_reset vals s hk
  written _ hr := get_resetWrites_of_mem hr
  kept r hm hw hr :=
    calc (afterReset vals s).regs.get r
        = (softResetDone vals (mcrWith 25 true s)).regs.get r := get_resetWrites_of_not_mem hm hw
      _ = (mcrWith 25 true s).regs.get r := get_softResetDone vals _ hm hr
      _ = s.regs.get r := get_mcrWith 25 true s hm

namespace LeftByReset
variable {n : Nat} {p : Params} {old vals g : Regs}

/-- DI1 sets MDIS and changes no other bit (42 R313). -/
theorem setMdis (h : LeftByReset 32 p old vals g) :
    LeftByReset 31 p old vals { g with mcr := withBit 31 true g.mcr } where
  mcr k hk := by
    rw [getLsbD_withBit _ _ _ _ (by decide) (by omega), if_neg (by omega)]
    exact h.mcr k (by omega)
  written r hr := by
    have hm : r ≠ .mcr := fun e => mcr_not_mem_resetWritten p (e ▸ hr)
    exact (Regs.get_set_ne g _ (Ne.symm hm)).trans (h.written r hr)
  kept r hm hw hr := (Regs.get_set_ne g _ (Ne.symm hm)).trans (h.kept r hm hw hr)

variable (h : LeftByReset n p old vals g)
include h

theorem mcrFields (hn : 31 ≤ n) : getField .maxmb g.mcr = p.resetMaxmb.setWidth 32 ∧ getBit .wrnen g.mcr = p.resetWrnen
    ∧ getBit .waksrc g.mcr = p.resetWaksrc ∧ getBit .softrst g.mcr = false := by
  refine ⟨?maxmb, h.mcr 21 (by omega), h.mcr 19 (by omega), h.mcr 25 (by omega)⟩
  apply BitVec.eq_of_getLsbD_eq
  intro k hk
  rw [getLsbD_getField_maxmb _ hk, BitVec.getLsbD_setWidth]
  by_cases h6 : k ≤ 6
  · rw [h.mcr k (by omega)]
    simp [h6, hk]
  · simp [h6, show 7 ≤ k by omega]

theorem mcrKept {k : Nat} (hk : k < n) (h6 : 6 < k) (h21 : k ≠ 21) (h19 : k ≠ 19) (h25 : k ≠ 25) :
    g.mcr.getLsbD k = if .mcr ∈ p.softrstSet then vals.mcr.getLsbD k else old.mcr.getLsbD k := by
  rw [h.mcr k hk, if_neg (by omega), if_neg h21, if_neg h19, decide_eq_true h25, Bool.true_and]

/-- The registers beside MCR. -/
theorem registers :
    g.ctrl1 = p.ctrl1Default ∧ g.ctrl2 = p.ctrl2Default
      ∧ (∀ i < p.nrximr, i < 32 → g.get (.rximr i) = 0) ∧ g.rxmgmask = 0 ∧ g.rx14mask = 0 ∧ g.rx15mask = 0
      ∧ (∀ i < 32, g.get (.mb i .cs) = 0)
      ∧ (∀ i < 32, ∀ k, k ≠ .cs → .mb i k ∉ p.softrstSet → g.get (.mb i k) = old.get (.mb i k))
      ∧ (∀ r, r = .esr ∨ r = .imask1 ∨ r = .iflag1 ∨ r = .timer ∨ r = .rxfir ∨ r = .rxfgmask →
          r ∉ p.softrstSet → g.get r = old.get r) := by
  refine ⟨h.written .ctrl1 (by simp [mem_resetWritten]), h.written .ctrl2 (by simp [mem_resetWritten]),
    fun i hi _ => ?rximr, h.written .rxmgmask (by simp [mem_resetWritten]),
    h.written .rx14mask (by simp [mem_resetWritten]), h.written .rx15mask (by simp [mem_resetWritten]),
    fun i hi => ?cs, fun i _ k hk hn => ?word, fun r hr hn => ?flag⟩
  case rximr => exact (h.written (.rximr i) (by simp [mem_resetWritten, hi])).trans (resetVals_get_rximr _ _)
  case cs => exact (h.written (.mb i .cs) (cs_mem_resetWritten p hi)).trans (resetVals_get_cs _ _)
  case word => exact h.kept (.mb i k) (by simp) (by simp [mem_resetWritten, Ne.symm hk]) hn
  case flag =>
    rcases hr with rfl | rfl | rfl | rfl | rfl | rfl <;> exact h.kept _ (by simp) (by simp [mem_resetWritten]) hn

end LeftByReset

/-! ### The checks -/

theorem firstBroken_resetChecks {s : State} (hlp : getBit .lpmack s.regs.mcr = false)
    (ha : s.handle.created = true → s.handle.armed = false) : firstBroken [needAwake s, needDisarmed s] = none := by
  rw [firstBroken_needAwake_awake hlp, firstBroken_needDisarmed_disarmed ha]
  rfl

end Sys2Proof.Machine

open Sys2Proof Sys2Proof.Machine

/-- Settles O17: the registers are those of `leftByReset`. -/
theorem resetLeaves : Obligations.ResetLeaves := by
  intro s vals hr hlp ha hn
  have ⟨_, _, hq, hsup⟩ := hr
  have hl : LeftByReset 32 s.par s.regs vals (afterReset vals { s with sched := [] }).regs := leftByReset vals _
  obtain ⟨hmaxmb, hwrnen, hwaksrc, hsoftrst⟩ := hl.mcrFields (by decide)
  refine ⟨_, ?run, hmaxmb, hwrnen, hwaksrc, hsoftrst, fun _ hk h6 h21 h19 h25 => hl.mcrKept hk h6 h21 h19 h25,
    hl.registers⟩
  have h := Reach.resetTurns hr.fgFree hq hsup (Reach.ret .reset .unit _ hr.fgFree ⟨rfl, hsup⟩)
  change issue .reset (firstBroken [needAwake s, needDisarmed s]) _ s = _
  rw [firstBroken_resetChecks hlp ha]
  exact issue_runs hr h (halted_completed _ _ _ hr.fgFree) (by omega)

/-- Settles O19: DEINIT runs the body of Reset, and DI1 sets MDIS alone. -/
theorem deinitLeaves : Obligations.DeinitLeaves := by
  intro s vals hr hlp ha hn
  have ⟨_, _, hq, hsup⟩ := hr
  have hl : LeftByReset 31 s.par s.regs vals (mcrWith 31 true (afterReset vals { s with sched := [] })).regs :=
    (leftByReset vals _).setMdis
  obtain ⟨hmaxmb, hwrnen, hwaksrc, hsoftrst⟩ := hl.mcrFields (by decide)
  have hmdis : getBit .mdis (mcrWith 31 true (afterReset vals { s with sched := [] })).regs.mcr = true :=
    getBit_withBit _ _ (by decide) (by decide)
  refine ⟨_, ?run, hmdis, hmaxmb, hwrnen, hwaksrc, hsoftrst, fun _ hk h6 h21 h19 h25 =>
    hl.mcrKept hk h6 h21 h19 h25, hl.registers⟩
  have h₁ := Reach.mcrBit (s := afterReset vals { s with sched := [] }) 31 true hr.fgFree ⟨rfl, hsup⟩ (by decide)
    (by decide) (by decide) (Reach.ret .deinit .unit _ hr.fgFree ⟨rfl, hsup⟩)
  have h := Reach.resetTurns hr.fgFree hq hsup h₁
  change issue .deinit (firstBroken [needAwake s, needDisarmed s]) _ s = _
  rw [firstBroken_resetChecks hlp ha, deinitBody, List.append_assoc]
  exact issue_runs hr h (halted_completed _ _ _ hr.fgFree) (by omega)

end

section
/-! PROOFS. HW's duties: each one, met, is owed no more, and the polls that wait for them end (40 R207, R208, 60
R528). -/

namespace Sys2Proof.Machine

/-! ### What meeting a duty does -/

theorem fulfil_setLpmack {s : State} (h : owes s .setLpmack = true) : fulfil .setLpmack s = mcrWith 20 true s :=
  if_pos (Bool.and_eq_true_iff.1 h).1

theorem fulfil_clearLpmack {s : State} (h : owes s .clearLpmack = true) : fulfil .clearLpmack s = mcrWith 20 false s :=
  if_pos (Bool.and_eq_true_iff.1 h).2

theorem fulfil_setFrzack {s : State} (h : owes s .setFrzack = true) : fulfil .setFrzack s = mcrWith 24 true s :=
  if_pos (Bool.and_eq_true_iff.1 h).1

theorem fulfil_clearFrzack {s : State} (h : owes s .clearFrzack = true) : fulfil .clearFrzack s = mcrWith 24 false s :=
  hwStep_clearFrzack h

theorem fulfil_softReset {s : State} (h : owes s .softReset = true) :
    ∃ vals n, fulfil .softReset s = softResetDone vals { s with draws := n } := ⟨_, _, if_pos h⟩

theorem hwWriteMb_state (i : Nat) (k : MbWord) (b : Bool) (w : Word) (s : State) :
    ∃ g n, hwWriteMb i k b w s = { s with regs := g, draws := n } := by
  cases b <;> exact ⟨_, _, rfl⟩

theorem flagMb_state (i : Nat) (s : State) : ∃ g, flagMb i s = { s with regs := g } := by
  unfold flagMb
  split <;> exact ⟨_, rfl⟩

/-- MI2 changes the registers and the draws, and ends the move-in. -/
theorem moveIn2_state (i : Nat) (f : Frame) (ts : Stamp) (m : MoveIn) (s : State) :
    ∃ g n, moveIn2 i f ts m s = { s with regs := g, draws := n, moveIn := bankSet s.moveIn i none } := by
  simp only [moveIn2]
  obtain ⟨g₁, n₁, e₁⟩ := hwWriteMb_state i .id m.wroteId (frameIdWord f) s
  rw [e₁]
  obtain ⟨g₂, n₂, e₂⟩ := hwWriteMb_state i .data0 m.wroteData0 (packData0 s.par.payloadOrder f.payload)
    { s with regs := g₁, draws := n₁ }
  rw [e₂]
  obtain ⟨g₃, n₃, e₃⟩ := hwWriteMb_state i .data1 m.wroteData1 (packData1 s.par.payloadOrder f.payload)
    { s with regs := g₂, draws := n₂ }
  rw [e₃]
  obtain ⟨g₄, n₄, e₄⟩ := hwWriteMb_state i .cs m.wroteCs (rxCs (codeAfter m.prev) f ts)
    { s with regs := g₃, draws := n₃ }
  rw [e₄]
  obtain ⟨g₅, e₅⟩ := flagMb_state i { s with regs := g₄, draws := n₄, moveIn := bankSet s.moveIn i none }
  exact ⟨g₅, n₄, e₅⟩

theorem fulfil_moveIn {s : State} {i : Nat} (h : owes s (.moveIn i) = true) :
    ∃ g n, fulfil (.moveIn i) s = { s with regs := g, draws := n, moveIn := bankSet s.moveIn i none } := by
  obtain ⟨hm, hmay⟩ := Bool.and_eq_true_iff.1 h
  obtain ⟨m, hm⟩ := Option.isSome_iff_exists.1 hm
  have hfits := drawFrame_fits s
  simp only [fulfil, drawFrame_state]
  generalize (drawFrame s).1 = f at hfits ⊢
  have hmay' : (mayMoveIn2 i { s with draws := s.draws + 4 } && frameFits f) = true :=
    Bool.and_eq_true_iff.2 ⟨hmay, hfits⟩
  simp only [hwStep, hm, hmay', allow, if_true]
  exact moveIn2_state i f _ m { s with draws := s.draws + 4 }

/-! ### A duty met is owed no more -/

theorem mode_ne_freezePending {s : State} (h : getBit .frzack s.regs.mcr = true) : s.mode ≠ .freezePending := by
  simp only [State.mode, modeOf, h, if_true]
  split_ifs <;> simp

theorem bankGet_bankSet_none {n : Nat} (v : Vector (Option MoveIn) n) (i : Nat) :
    bankGet (bankSet v i none) i = none := by
  by_cases h : i < n
  · exact bankGet_bankSet_self v h none
  · simp only [bankGet, Vector.getElem?_eq_none (Nat.le_of_not_lt h)]
    rfl

/-- Meeting a duty ends it, and leaves what is not HW's. -/
theorem owes_fulfil {s : State} {d : Duty} (h : owes s d = true) :
    owes (fulfil d s) d = false ∧ (fulfil d s).handle = s.handle ∧ (fulfil d s).frames = s.frames
      ∧ (fulfil d s).fg = s.fg ∧ (fulfil d s).isr = s.isr ∧ (fulfil d s).trace = s.trace := by
  cases d with
  | setLpmack =>
    rw [fulfil_setLpmack h]
    have hb : getBit .lpmack (mcrWith 20 true s).regs.mcr = true := getBit_withBit _ _ (by decide) (by decide)
    exact ⟨by simp only [owes, hb, Bool.not_true, Bool.and_false], rfl, rfl, rfl, rfl, rfl⟩
  | clearLpmack =>
    rw [fulfil_clearLpmack h]
    have hb : getBit .lpmack (mcrWith 20 false s).regs.mcr = false := getBit_withBit _ _ (by decide) (by decide)
    exact ⟨by simp only [owes, hb, Bool.false_and], rfl, rfl, rfl, rfl, rfl⟩
  | softReset =>
    obtain ⟨vals, n, e⟩ := fulfil_softReset h
    rw [e]
    exact ⟨getBit_softrst_softResetDone vals _, rfl, rfl, rfl, rfl, rfl⟩
  | moveIn i =>
    obtain ⟨g, n, e⟩ := fulfil_moveIn h
    rw [e]
    exact ⟨by simp only [owes, bankGet_bankSet_none, Option.isSome_none, Bool.false_and], rfl, rfl, rfl, rfl, rfl⟩
  | setFrzack =>
    rw [fulfil_setFrzack h]
    have hm : (mcrWith 24 true s).mode ≠ .freezePending :=
      mode_ne_freezePending (getBit_withBit _ _ (by decide) (by decide))
    exact ⟨by simp only [owes, hm, decide_false, Bool.false_and], rfl, rfl, rfl, rfl, rfl⟩
  | clearFrzack =>
    rw [fulfil_clearFrzack h]
    have hb : getBit .frzack (mcrWith 24 false s).regs.mcr = false := getBit_withBit _ _ (by decide) (by decide)
    have hm : (mcrWith 24 false s).mode ≠ .frozen := fun hf => by
      obtain ⟨-, -, hset⟩ := (mode_eq_frozen_iff _).1 hf
      exact Bool.false_ne_true (hb.symm.trans hset)
    exact ⟨by simp only [owes, hm, decide_false, Bool.false_and], rfl, rfl, rfl, rfl, rfl⟩

/-! ### RESET alone: HW completes the soft reset while RS1 spins -/

theorem dueDuty_setLpmack {s : State} (h : owes s .setLpmack = true) : dueDuty s = some .setLpmack :=
  List.find?_cons_of_pos h

/-- With nothing owed of LPMACK, the soft reset is the duty due. -/
theorem dueDuty_softReset {s : State} (h1 : owes s .setLpmack = false) (h2 : owes s .clearLpmack = false)
    (h : owes s .softReset = true) : dueDuty s = some .softReset :=
  (List.find?_cons_of_neg (by simp [h1])).trans
    ((List.find?_cons_of_neg (by simp [h2])).trans (List.find?_cons_of_pos h))

section Reset
variable {i : Instr} {rest : List Micro} {s : State} (hs : FgFree s) (hq : Alone s)
include hs hq

/-- The soft reset is the duty due: HW completes it in one turn. -/
theorem Reach.softResetDue (hsr : getBit .softrst s.regs.mcr = true) (hd : dueDuty s = some .softReset) :
    ∃ vals n, Reach 1 (begin i (.poll .mcr .softrst false none .done :: rest) s)
      (begin i (.poll .mcr .softrst false none .done :: rest) (softResetDone vals { s with draws := n })) := by
  obtain ⟨vals, n, e⟩ := fulfil_softReset (s := s) hsr
  refine ⟨vals, n, .duty hs hq (spins_mcrPoll hsr) hd ?_⟩
  rw [fulfil_begin _ _ _ _ (by rw [e]; rfl), e]
  exact .refl _

/-- Out of low power, HW completes the soft reset RS1 waits for, after the low-power entry MDIS may ask for. -/
theorem Reach.softResetDuty (hlp : getBit .lpmack s.regs.mcr = false) (hsr : getBit .softrst s.regs.mcr = true) :
    ∃ j ≤ 2, ∃ vals g n, Reach j (begin i (.poll .mcr .softrst false none .done :: rest) s)
      (begin i (.poll .mcr .softrst false none .done :: rest)
        (softResetDone vals { s with regs := g, draws := n })) := by
  cases hm : getBit .mdis s.regs.mcr with
  | false =>
    obtain ⟨vals, n, h⟩ := Reach.softResetDue (i := i) (rest := rest) hs hq hsr
      (dueDuty_softReset (by simp [owes, hm]) (by simp [owes, hlp]) hsr)
    exact ⟨1, by omega, vals, s.regs, n, h⟩
  | true =>
    have hown : owes s .setLpmack = true := by simp [owes, hm, hlp]
    have hb {f : Field} (hf : f.lo < 32) (hne : f.lo ≠ 20) :
        getBit f (mcrWith 20 true s).regs.mcr = getBit f s.regs.mcr :=
      (getBit_withBit _ _ (by decide) hf).trans (if_neg hne)
    have hlp' : getBit .lpmack (mcrWith 20 true s).regs.mcr = true := getBit_withBit _ _ (by decide) (by decide)
    have hm' : getBit .mdis (mcrWith 20 true s).regs.mcr = true := (hb (by decide) (by decide)).trans hm
    have hsr' : getBit .softrst (mcrWith 20 true s).regs.mcr = true := (hb (by decide) (by decide)).trans hsr
    obtain ⟨vals, n, h⟩ := Reach.softResetDue (s := mcrWith 20 true s) (i := i) (rest := rest) hs hq hsr'
      (dueDuty_softReset (by simp only [owes, hlp', Bool.not_true, Bool.and_false])
        (by simp only [owes, hm', Bool.not_true, Bool.and_false]) hsr')
    refine ⟨2, le_rfl, vals, (mcrWith 20 true s).regs, n, .duty hs hq (spins_mcrPoll hsr) (dueDuty_setLpmack hown) ?_⟩
    rw [fulfil_begin _ _ _ _ (by rw [fulfil_setLpmack hown]; rfl), fulfil_setLpmack hown]
    exact h

end Reset

/-- RESET alone, out of low power and with no transfer armed, returns with SOFTRST clear and every CS word 0. -/
theorem reset_returns {s : State} (hr : Ready s) (hlp : getBit .lpmack s.regs.mcr = false)
    (ha : s.handle.created = true → s.handle.armed = false) (hn : s.par.nrximr ≤ 32) :
    ∃ t, exec .reset s = .next t ∧ t.fg.op = none ∧ t.trace = s.trace ++ [.ret .reset .unit]
      ∧ getBit .softrst t.regs.mcr = false ∧ ∀ i < 32, t.regs.get (.mb i .cs) = 0 := by
  have hlp' : getBit .lpmack (mcrWith 25 true s).regs.mcr = false :=
    (getBit_withBit _ _ (by decide) (by decide)).trans hlp
  obtain ⟨j, hj, vals, g, n, h₁⟩ : ∃ j ≤ 2, ∃ vals g n,
      Reach j (begin .reset (resetTail s.par ++ [.ret .unit]) (mcrWith 25 true s))
        (begin .reset (resetTail s.par ++ [.ret .unit]) (softResetDone vals { s with regs := g, draws := n })) :=
    Reach.softResetDuty (s := mcrWith 25 true s) hr.fgFree hr.alone hlp' (getBit_withBit _ _ (by decide) (by decide))
  let u : State := softResetDone vals { s with regs := g, draws := n }
  have hsr : getBit .softrst u.regs.mcr = false := getBit_softrst_softResetDone vals _
  have h₂ := Reach.resetTail (s := u) hr.fgFree hr.alone rfl hsr
    (Reach.ret .reset .unit (resetWrites u) hr.fgFree hr.alone)
  have h₃ := Reach.mcrBit 25 true hr.fgFree hr.alone (by decide) (by decide) (by decide) (h₁.trans h₂)
  refine ⟨completed .reset .unit (resetWrites u), ?run, rfl, rfl, ?softrst, fun i hi => ?cs⟩
  case run =>
    change issue .reset (firstBroken [needAwake s, needDisarmed s]) _ s = _
    rw [firstBroken_resetChecks hlp ha, resetBody_eq, List.append_assoc]
    refine issue_runs hr h₃ (halted_completed _ _ _ hr.fgFree) ?_
    change j + (1 + (40 + s.par.nrximr)) + 2 ≤ _
    omega
  case softrst =>
    change getBit .softrst (resetWrites u).regs.mcr = false
    rw [mcr_resetWrites]
    exact (getLsbD_resetMcr _ _ (by decide)).trans hsr
  case cs =>
    exact (get_resetWrites_of_mem (s := u) (cs_mem_resetWritten _ hi)).trans (resetVals_get_cs _ _)

/-! ### A machine with nothing to do -/

theorem step_meetDuty {s : State} (hr : Ready s) (hp : s.program = []) : step s = .next (meetDuty s) := by
  have ⟨href, hi, _⟩ := hr
  simp [step, machineStep, href, hi, idleTurn, hr.alone.nextTurn, hp]

end Sys2Proof.Machine

open Sys2Proof Sys2Proof.Machine

/-- Settles O60: each duty's own bit is what owes it, EXIT_FREEZE and RESET return by the duty their poll waits for, and
a step of a machine with nothing to do meets the duty due. -/
theorem dutiesMet : Obligations.DutiesMet := by
  refine ⟨fun s d h => owes_fulfil h, fun s hr hf hm => ?exitFreeze, fun s hr hlp ha hn => reset_returns hr hlp ha hn,
    fun s hr hp => ⟨fun d hd => ?due, fun hd => ?rest⟩⟩
  case exitFreeze =>
    have h := Reach.exitFreezeDuty hr.fgFree hf hm hr.alone (Reach.ret .exitFreeze .unit _ hr.fgFree hr.alone)
    rw [← withBit_leaveFreeze]
    exact issue_runs hr h (halted_completed _ _ _ hr.fgFree) (by omega)
  case due => rw [step_meetDuty hr hp, meetDuty, hd]
  case rest => rw [step_meetDuty hr hp, meetDuty, hd]

end

section
/-! PROOFS. The errata tail of ENTER_FREEZE (40 R203, R204), with the turns scheduled: the body up to EF4, the backup
and the soft reset, and the restore. -/

namespace Sys2Proof.Machine

/-- With the default backup, EA0 reads MCR and then IMASK1. -/
theorem eaOrder_default {p : Params} (h : p.errataBackup = [.mcr, .imask1]) : eaOrder p = [.mcr, .imask1] := by
  have hrest : Reg.layoutOrder.filter (fun r => p.errataBackup.contains r && r != .mcr && r != .imask1) = [] := by
    refine List.filter_eq_nil_iff.2 fun r _ => ?_
    by_cases hm : r = .mcr
    · simp [hm]
    · by_cases hi : r = .imask1
      · simp [hi]
      · simp [h, hm, hi]
  rw [eaOrder, hrest, h]
  rfl

/-- What EA3 leaves: the two backups written back. -/
def eaRestored (m w : Word) (s : State) : State :=
  { s with regs := { s.regs with mcr := mcrAfterWrite s.regs.mcr m, imask1 := w } }

theorem afterRead_ef2_clear (p : Params) {v : Word} (h : getBit .mdis v = false) : afterRead p .ef2 v = [] :=
  if_neg (Bool.eq_false_iff.1 h)

theorem afterRead_ef4_busOff (p : Params) {v : Word} (h : busOff v = true) :
    afterRead p .ef4 v = eaBackup p [] (eaOrder p) := if_pos h

section Turns
variable {k : Nat} {i : Instr} {rest : List Micro} {s t : State} {q : List Move} (hs : FgFree s)
include hs

/-- A scheduled turn of FG that reads a register as stored, and computes `code` from it. -/
theorem Reach.readTurn {r : Reg} {a : AfterRead} {code : List Micro} (hq : s.sched = .fg :: q)
    (hr : readReg r { s with sched := q } = (s.regs.get r, { s with sched := q }))
    (ha : afterRead s.par a (s.regs.get r) = code) (h : Reach k (begin i (code ++ rest) { s with sched := q }) t) :
    Reach (k + 1) (begin i (.read r a :: rest) s) t := by
  refine .fgTurn hs hq rfl ?_
  simpa only [micro, hr, ha] using h

/-- A scheduled turn of FG at a poll of MCR whose condition holds. -/
theorem Reach.mcrPollTurn {f : Field} {v : Bool} {b : Option Nat} (hq : s.sched = .fg :: q)
    (hv : getBit f s.regs.mcr = v) (h : Reach k (begin i rest { s with sched := q }) t) :
    Reach (k + 1) (begin i (.poll .mcr f v b .done :: rest) s) t := by
  refine .fgTurn hs hq rfl ?_
  simp only [micro, readReg_mcr, hv, if_true]
  exact h

/-- EF0 to EF4 on the errata path, from a state with MDIS and LPMACK clear: EA0 begins (40 R203). -/
theorem Reach.enterFreezeErrata (hq : s.sched = .fg :: .fg :: .fg :: .fg :: .fg :: q)
    (hv : s.par.freezeVariant ≠ .base) (hb : busOff s.regs.esr = true) (hm : getBit .mdis s.regs.mcr = false)
    (hlp : getBit .lpmack s.regs.mcr = false)
    (h : Reach k (begin i (eaBackup s.par [] (eaOrder s.par) ++ rest) (mcrWith 30 true { s with sched := q })) t) :
    Reach (k + 5) (begin i (enterFreezeBody s.par ++ rest) s) t := by
  have hbit {f : Field} (hf : f.lo < 32) (hne : f.lo ≠ 30) :
      getBit f (withBit 30 true s.regs.mcr) = getBit f s.regs.mcr :=
    (getBit_withBit _ _ (by decide) hf).trans (if_neg hne)
  have h₁ : Reach (k + 1) (begin i (.read .esr .ef4 :: rest) (mcrWith 30 true { s with sched := .fg :: q })) t :=
    .readTurn (s := mcrWith 30 true { s with sched := .fg :: q }) hs rfl rfl (afterRead_ef4_busOff _ hb) h
  have h₂ : Reach (k + 2) (begin i (.poll .mcr .lpmack false (some s.par.frzTimeout) .done :: .read .esr .ef4 :: rest)
      (mcrWith 30 true { s with sched := .fg :: .fg :: q })) t :=
    .mcrPollTurn (s := mcrWith 30 true { s with sched := .fg :: .fg :: q }) hs rfl
      ((hbit (by decide) (by decide)).trans hlp) h₁
  have h₃ : Reach (k + 3) (begin i (.read .mcr .ef2 :: .poll .mcr .lpmack false (some s.par.frzTimeout) .done
      :: .read .esr .ef4 :: rest) (mcrWith 30 true { s with sched := .fg :: .fg :: .fg :: q })) t :=
    .readTurn (s := mcrWith 30 true { s with sched := .fg :: .fg :: .fg :: q }) hs rfl rfl
      (afterRead_ef2_clear _ ((hbit (by decide) (by decide)).trans hm)) h₂
  simp only [enterFreezeBody, if_neg hv, List.append_assoc]
  exact .mcrBitTurns hs 30 true hq (by decide) (by decide) (by decide) h₃

/-- EA0 to EA2 with the default backup, HW completing the soft reset before EA2. -/
theorem Reach.eaReset {vals : Regs} (hq : s.sched = [.fg, .fg, .fg, .fg, .hw (.softReset vals)])
    (h : Reach k (begin i (.poll .mcr .softrst false (some s.par.frzTimeout)
      (.ea3 [(.mcr, s.regs.mcr), (.imask1, s.regs.imask1)]) :: rest)
        (softResetDone vals (mcrWith 25 true { s with sched := [] }))) t) :
    Reach (k + 5) (begin i (eaBackup s.par [] [.mcr, .imask1] ++ rest) s) t := by
  have hset : getBit .softrst (mcrWith 25 true { s with sched := [] }).regs.mcr = true :=
    getBit_withBit _ _ (by decide) (by decide)
  have h₁ : Reach (k + 1) (begin i (.poll .mcr .softrst false (some s.par.frzTimeout)
      (.ea3 [(.mcr, s.regs.mcr), (.imask1, s.regs.imask1)]) :: rest)
      (mcrWith 25 true { s with sched := [.hw (.softReset vals)] })) t := by
    refine .hw (mv := .softReset vals) (q := []) hs rfl ?_
    rw [hwStep_begin]
    change Reach _ (begin _ _ (hwStep (.softReset vals) (mcrWith 25 true { s with sched := [] }))) _
    rw [hwStep_softReset vals hset]
    exact h
  have h₂ : Reach (k + 3) (begin i (Machine.eaReset s.par [(.mcr, s.regs.mcr), (.imask1, s.regs.imask1)] ++ rest)
      { s with sched := [.fg, .fg, .hw (.softReset vals)] }) t := by
    simp only [Machine.eaReset, List.append_assoc]
    exact .mcrBitTurns (s := { s with sched := [.fg, .fg, .hw (.softReset vals)] }) hs 25 true rfl (by decide)
      (by decide) (by decide) h₁
  have h₃ : Reach (k + 4) (begin i (.read .imask1 (.ea0 .imask1 [] [(.mcr, s.regs.mcr)]) :: rest)
      { s with sched := [.fg, .fg, .fg, .hw (.softReset vals)] }) t :=
    .readTurn (s := { s with sched := [.fg, .fg, .fg, .hw (.softReset vals)] }) hs rfl rfl rfl h₂
  exact .readTurn hs hq rfl rfl h₃

/-- EA3 alone, once the soft reset is complete (40 R204). -/
theorem Reach.eaRestore (hq : Alone s) (b : Option Nat) (m w : Word) (hsr : getBit .softrst s.regs.mcr = false)
    (h : Reach k (begin i rest (eaRestored m w s)) t) :
    Reach (k + 3) (begin i (.poll .mcr .softrst false b (.ea3 [(.mcr, m), (.imask1, w)]) :: rest) s) t :=
  .pollDone hs hq (readReg_mcr s) hsr (.writes [(.mcr, m), (.imask1, w)] s hs hq h)

end Turns

/-! ### The registers the tail leaves -/

/-- What the errata tail leaves, HW completing the soft reset before EA2. -/
def afterErrata (vals : Regs) (s : State) : State :=
  eaRestored (withBit 30 true s.regs.mcr) s.regs.imask1 (softResetDone vals (mcrWith 25 true (mcrWith 30 true s)))

/-- EA3 writes back the MCR of EA0, but for SOFTRST, which it cannot clear, and the RO-HW bits (20 R107). -/
theorem getLsbD_mcr_afterErrata (vals : Regs) {s : State} (hsr : getBit .softrst s.regs.mcr = false) {k : Nat}
    (hk : k < 32) :
    (afterErrata vals s).regs.mcr.getLsbD k
      = if k = 27 ∨ k = 24 ∨ k = 20 then (if .mcr ∈ s.par.softrstSet then vals.mcr.getLsbD k else s.regs.mcr.getLsbD k)
        else if k = 25 then false else decide (k = 30) || s.regs.mcr.getLsbD k := by
  have hbk : (withBit 30 true s.regs.mcr).getLsbD k = (decide (k = 30) || s.regs.mcr.getLsbD k) := by
    rw [getLsbD_withBit _ _ _ _ (by decide) hk]
    split <;> simp [*]
  refine (getLsbD_mcrAfterWrite _ _ _ hk).trans ?_
  rw [getLsbD_softResetDone_mcr _ _ hk, hbk]
  by_cases hro : k = 27 ∨ k = 24 ∨ k = 20
  · have h25 : k ≠ 25 := by omega
    have h30 : k ≠ 30 := by omega
    rw [if_pos hro, if_pos hro, mcrWith_mcr, getLsbD_withBit _ _ _ _ (by decide) hk, if_neg h25, mcrWith_mcr, hbk,
      decide_eq_true h25, decide_eq_false h30, Bool.true_and, Bool.false_or]
    rfl
  · rw [if_neg hro, if_neg hro]
    by_cases h25 : k = 25
    · subst h25
      rw [if_pos rfl, if_pos rfl, show s.regs.mcr.getLsbD 25 = false from hsr]
      rfl
    · rw [if_neg h25, if_neg h25]

theorem get_eaRestored (m w : Word) (s : State) {r : Reg} (hm : r ≠ .mcr) (hi : r ≠ .imask1) :
    (eaRestored m w s).regs.get r = s.regs.get r := by
  have e : (eaRestored m w s).regs = (s.regs.set .mcr (mcrAfterWrite s.regs.mcr m)).set .imask1 w := rfl
  rw [e, Regs.get_set_ne _ _ (Ne.symm hi), Regs.get_set_ne _ _ (Ne.symm hm)]

theorem get_afterErrata (vals : Regs) (s : State) {r : Reg} (hm : r ≠ .mcr) (hi : r ≠ .imask1)
    (hr : r ∉ s.par.softrstSet) : (afterErrata vals s).regs.get r = s.regs.get r :=
  calc (afterErrata vals s).regs.get r
      = (softResetDone vals (mcrWith 25 true (mcrWith 30 true s))).regs.get r := get_eaRestored _ _ _ hm hi
    _ = (mcrWith 25 true (mcrWith 30 true s)).regs.get r := get_softResetDone vals _ hm hr
    _ = (mcrWith 30 true s).regs.get r := get_mcrWith 25 true _ hm
    _ = s.regs.get r := get_mcrWith 30 true s hm

end Sys2Proof.Machine

open Sys2Proof Sys2Proof.Machine

/-- Settles O15: EA1 and HW's completion come between the reads of EA0 and the writes of EA3, and those writes undo all
that MCR's access rules let them undo. -/
theorem errataTailRestores : Obligations.ErrataTailRestores := by
  intro s vals hr hv hb hm hlp hsr hbk
  have ⟨_, _, hq, hsup⟩ := hr
  have hmcr {k : Nat} (hk : k < 32) := getLsbD_mcr_afterErrata vals (s := { s with sched := [] }) hsr hk
  refine ⟨(afterErrata vals { s with sched := [] }).regs, ?run, rfl, fun k hk h20 h24 h25 h27 => ?writable,
    fun k hk => ?readOnly, ?softrst, fun r hr hm hi => get_afterErrata vals { s with sched := [] } hm hi hr⟩
  case run =>
    have h₁ := Reach.eaRestore (s := softResetDone vals (mcrWith 25 true (mcrWith 30 true { s with sched := [] })))
      hr.fgFree ⟨rfl, hsup⟩ (some s.par.frzTimeout) (withBit 30 true s.regs.mcr) s.regs.imask1
      (getBit_softrst_softResetDone vals _) (Reach.ret .enterFreeze .unit _ hr.fgFree ⟨rfl, hsup⟩)
    have h₂ := Reach.eaReset (s := mcrWith 30 true { s with sched := [.fg, .fg, .fg, .fg, .hw (.softReset vals)] })
      hr.fgFree rfl h₁
    have h₃ := Reach.enterFreezeErrata hr.fgFree hq hv hb hm hlp (by rw [eaOrder_default hbk]; exact h₂)
    exact issue_runs hr h₃ (halted_completed _ _ _ hr.fgFree) (by omega)
  case writable =>
    rw [hmcr hk, if_neg (by omega), if_neg h25]
  case readOnly =>
    rw [hmcr (by omega), if_pos (by omega)]
  case softrst => exact hmcr (k := 25) (by decide)

end

section
/-! PROOFS. The bit-timing solver: what the table search finds (41 R254, R255, R265), the segments of a candidate (41
R257, R261), and the choice of the improved search among the accepted candidates (41 R258-R260). -/

namespace Sys2Proof.Machine

/-- A clock that a rate and a count divide is their product with the quotient, which is not 0. -/
theorem exact_quotient {baud tq clk : Nat} (h : clk % (baud * tq) = 0) (hk : 1 ≤ clk) :
    1 ≤ clk / (baud * tq) ∧ clk / (baud * tq) * tq * baud = clk := by
  have hm : clk / (baud * tq) * (baud * tq) = clk := Nat.div_mul_cancel (Nat.dvd_of_mod_eq_zero h)
  refine ⟨Nat.pos_of_ne_zero fun h0 => ?_, by rw [Nat.mul_assoc, Nat.mul_comm tq, hm]⟩
  rw [h0, Nat.zero_mul] at hm
  omega

/-! ### TQ_TABLE (41 R251) -/

theorem tqAscending_iff (l : List TqEntry) : tqAscending l = true ↔ (l.map TqEntry.tq).Pairwise (· < ·) := by
  rw [← List.isChain_iff_pairwise]
  induction l with
  | nil => simp [tqAscending]
  | cons a t ih =>
    cases t with
    | nil => simp [tqAscending]
    | cons b t =>
      simp only [tqAscending, Bool.and_eq_true, decide_eq_true_eq, List.map_cons, List.isChain_cons_cons]
      exact and_congr_right fun _ => ih

theorem tqEntry_segments {e : TqEntry} (h : e.wf = true) :
    4 + e.p + e.s1 + e.s2 = e.tq ∧ e.p ≤ 7 ∧ e.s1 ≤ 7 ∧ e.s2 ≤ 7 := by
  simp only [TqEntry.wf, Bool.and_eq_true, decide_eq_true_eq] at h
  obtain ⟨⟨⟨⟨⟨hsum, hp⟩, h1⟩, h2⟩, -⟩, -⟩ := h
  exact ⟨by omega, hp, h1, h2⟩

/-- A well-formed table ends at count 25, its counts rise, and each entry is well-formed. -/
theorem tqTableWf_spec {table : List TqEntry} (h : tqTableWf table = true) :
    (∃ e, table.getLast? = some e ∧ e.tq = 25) ∧ table.Pairwise (fun a b => a.tq < b.tq)
      ∧ ∀ e ∈ table, e.wf = true := by
  simp only [tqTableWf, Bool.and_eq_true, decide_eq_true_eq, tqAscending_iff, List.pairwise_map, List.all_eq_true,
    Option.map_eq_some_iff] at h
  obtain ⟨⟨⟨-, hlast⟩, hasc⟩, hwf⟩ := h
  exact ⟨hlast, hasc, hwf⟩

/-! ### The table search -/

theorem tqMatches_iff {baud clk : Nat} {e : TqEntry} :
    tqMatches baud clk e = true ↔ clk % (baud * e.tq) = 0 ∧ clk / (baud * e.tq) ≤ 256 := by
  simp [tqMatches]

/-- The first match in a table whose counts rise is the match of the smallest count. -/
theorem find_tqMatches_least {table : List TqEntry} (hasc : table.Pairwise fun a b => a.tq < b.tq) {baud clk : Nat}
    {e : TqEntry} (h : table.find? (tqMatches baud clk) = some e) :
    ∀ x ∈ table, tqMatches baud clk x = true → e.tq ≤ x.tq := by
  obtain ⟨-, before, after, rfl, hbefore⟩ := List.find?_eq_some_iff_append.1 h
  obtain ⟨-, htail, -⟩ := List.pairwise_append.1 hasc
  intro x hx hmatch
  rcases List.mem_append.1 hx with hx | hx
  · simpa [hmatch] using hbefore x hx
  · rcases List.mem_cons.1 hx with rfl | hx
    · exact le_rfl
    · exact (List.rel_of_pairwise_cons htail hx).le

/-- The search takes its first match, or the last entry where there is none (41 R254, R255). -/
theorem tableSearch_cases {table : List TqEntry} (hw : tqTableWf table = true) (baud clk : Nat) :
    (∃ e ∈ table, table.find? (tqMatches baud clk) = some e
      ∧ tableSearch table baud clk = { found := true, entry := e, presdiv := natVal (clk / (baud * e.tq) - 1) })
    ∨ ((∀ e ∈ table, ¬ tqMatches baud clk e = true) ∧ ∃ e ∈ table, table.getLast? = some e ∧ e.tq = 25
      ∧ tableSearch table baud clk = { found := false, entry := e, presdiv :=
          if 1 ≤ clk / (baud * 25) ∧ clk / (baud * 25) ≤ 256 then natVal (clk / (baud * 25) - 1) else .draw }) := by
  cases h : table.find? (tqMatches baud clk) with
  | some e => exact .inl ⟨e, List.mem_of_find?_eq_some h, rfl, by simp only [tableSearch, h]⟩
  | none =>
    obtain ⟨⟨e, hlast, h25⟩, -, -⟩ := tqTableWf_spec hw
    refine .inr ⟨List.find?_eq_none.1 h, e, List.mem_of_getLast? hlast, hlast, h25, ?_⟩
    have he : table.getLastD ⟨0, 0, 0, 0⟩ = e := by rw [List.getLastD_eq_getLast?, hlast, Option.getD_some]
    simp only [tableSearch, h, baudFallback, he, h25]

/-! ### The segments of a candidate (41 R257) -/

theorem fitSegs_eq_some {g r : Segs} (h : fitSegs g = some r) : r = g ∧ r.ps1 ≤ 7 := by
  unfold fitSegs at h
  split at h
  · cases h
  · next hfit =>
    cases h
    exact ⟨rfl, Nat.le_of_not_lt hfit⟩

/-- The rebalance moves quanta from the propagation segment to phase segment 1, which is then not the shorter one. -/
theorem rebalance_eq_some {g r : Segs} (h : rebalance g = some r) :
    r.prop + r.ps1 = g.prop + g.ps1 ∧ r.prop ≤ g.prop ∧ r.ps2 = g.ps2 ∧ r.ps2 ≤ r.ps1 ∧ r.ps1 ≤ 7 := by
  unfold rebalance at h
  split at h
  · split at h
    · obtain ⟨rfl, h7⟩ := fitSegs_eq_some h
      exact ⟨by dsimp only; omega, Nat.sub_le _ _, rfl, le_rfl, h7⟩
    · cases h
  · obtain ⟨rfl, h7⟩ := fitSegs_eq_some h
    exact ⟨rfl, le_rfl, rfl, by omega, h7⟩

theorem segments_law {tq : Nat} {g : Segs} (h8 : 8 ≤ tq) (h : segments tq = some g) :
    4 + g.prop + g.ps1 + g.ps2 = tq ∧ g.prop ≤ 7 ∧ g.ps1 ≤ 7 ∧ g.ps2 ≤ 7 ∧ g.ps2 ≤ g.ps1
      ∧ 3 + g.prop + g.ps1 = tq * 750 / 1000 := by
  simp only [segments] at h
  split at h
  · cases h
  · next hfit =>
    obtain ⟨hsum, hprop, hps2, hle, h7⟩ := rebalance_eq_some h
    simp only [Config.idealSp, Config.propSegMax, Config.pseg2Max] at hfit hsum hprop hps2
    omega

/-! ### Candidates (41 R258, R260) -/

theorem candidate_eq_some {baud clk tq : Nat} {c : TimingConfig} (h : candidate baud clk tq = some c) :
    clk % (baud * tq) = 0 ∧ c.preDivider = clk / (baud * tq) ∧ c.preDivider ≤ 256 ∧ c.rJumpWidth = jumpWidth tq
      ∧ segments tq = some ⟨c.propSeg, c.phaseSeg1, c.phaseSeg2⟩ := by
  unfold candidate at h
  split at h
  · next hdiv =>
    obtain ⟨g, hg, rfl⟩ := Option.map_eq_some_iff.1 h
    exact ⟨hdiv.1, rfl, hdiv.2, rfl, hg⟩
  · cases h

theorem candidate_tq {baud clk tq : Nat} {c : TimingConfig} (h8 : 8 ≤ tq) (h : candidate baud clk tq = some c) :
    c.tq = tq := by
  obtain ⟨-, -, -, -, hsegs⟩ := candidate_eq_some h
  exact (segments_law h8 hsegs).1

/-- A count of 24 or 25 puts the sample point further than two full segments reach. -/
theorem candidate_tq_le {baud clk tq : Nat} {c : TimingConfig} (h8 : 8 ≤ tq) (h : candidate baud clk tq = some c) :
    tq ≤ 23 := by
  obtain ⟨-, -, -, -, hsegs⟩ := candidate_eq_some h
  obtain ⟨-, hprop, h1, -, -, hsp⟩ := segments_law h8 hsegs
  dsimp only at hprop h1 hsp
  omega

theorem candidate_rate {baud clk tq : Nat} {c : TimingConfig} (hk : 1 ≤ clk) (h : candidate baud clk tq = some c) :
    1 ≤ c.preDivider ∧ c.preDivider * tq * baud = clk := by
  obtain ⟨hmod, hpre, -⟩ := candidate_eq_some h
  rw [hpre]
  exact exact_quotient hmod hk

theorem jumpWidth_le {tq : Nat} (h8 : 8 ≤ tq) : jumpWidth tq ≤ tq - tq * 750 / 1000 - 1 := by
  simp only [jumpWidth, Config.rjwMax]
  omega

theorem candidate_jumpWidth_le {baud clk tq : Nat} {c : TimingConfig} (h8 : 8 ≤ tq)
    (h : candidate baud clk tq = some c) : c.rJumpWidth ≤ c.phaseSeg2 := by
  obtain ⟨-, -, -, hjw, hsegs⟩ := candidate_eq_some h
  obtain ⟨hsum, -, -, -, -, hsp⟩ := segments_law h8 hsegs
  have hle := jumpWidth_le h8
  dsimp only at hsum hsp
  omega

theorem candidate_wf {baud clk tq : Nat} {c : TimingConfig} (h8 : 8 ≤ tq) (hk : 1 ≤ clk)
    (h : candidate baud clk tq = some c) : c.wf = true := by
  obtain ⟨-, -, hmax, hjw, hsegs⟩ := candidate_eq_some h
  obtain ⟨-, hprop, h1, h2, -, -⟩ := segments_law h8 hsegs
  have hjmax : c.rJumpWidth ≤ 3 := hjw.trans_le (Nat.min_le_right _ _)
  simp only [TimingConfig.wf, Bool.and_eq_true, decide_eq_true_eq]
  exact ⟨⟨⟨⟨⟨(candidate_rate hk h).1, hmax⟩, hjmax⟩, h1⟩, h2⟩, hprop⟩

/-! ### The accepted candidates -/

theorem mem_tqDown {tq : Nat} : tq ∈ tqDown ↔ 8 ≤ tq ∧ tq ≤ 25 := by
  simp only [tqDown, List.mem_cons, List.not_mem_nil, or_false]
  omega

/-- The accepted candidates, from the largest count down. -/
abbrev accepted (baud clk : Nat) : List TimingConfig := tqDown.filterMap (candidate baud clk)

theorem mem_accepted {baud clk : Nat} {c : TimingConfig} :
    c ∈ accepted baud clk ↔ ∃ tq, 8 ≤ tq ∧ tq ≤ 25 ∧ candidate baud clk tq = some c := by
  simp only [accepted, List.mem_filterMap, mem_tqDown, and_assoc]

/-- An accepted candidate is the candidate of its own count. -/
theorem candidate_of_mem_accepted {baud clk : Nat} {c : TimingConfig} (h : c ∈ accepted baud clk) :
    8 ≤ c.tq ∧ candidate baud clk c.tq = some c := by
  obtain ⟨tq, h8, -, hc⟩ := mem_accepted.1 h
  rw [candidate_tq h8 hc]
  exact ⟨h8, hc⟩

theorem accepted_eq_nil {baud clk : Nat} :
    accepted baud clk = [] ↔ ∀ tq, 8 ≤ tq → tq ≤ 25 → candidate baud clk tq = none := by
  simp only [accepted, List.filterMap_eq_nil_iff, mem_tqDown, and_imp]

theorem accepted_descending (baud clk : Nat) : (accepted baud clk).Pairwise fun c d => d.tq < c.tq := by
  have hdown : tqDown.Pairwise (· > ·) := by decide
  refine List.pairwise_filterMap.2 (hdown.imp_of_mem fun ha hb hab c hc d hd => ?_)
  rw [candidate_tq (mem_tqDown.1 ha).1 hc, candidate_tq (mem_tqDown.1 hb).1 hd]
  exact hab

/-! ### The two selections (41 R259) -/

/-- FirstAccepted takes the head of the accepted candidates. -/
theorem improvedSearch_firstAccepted (baud clk : Nat) :
    improvedSearch .firstAccepted baud clk = (accepted baud clk).head? := (List.head?_filterMap).symm

/-- The order ClosestSamplePoint selects by: the distance from the ideal sample point, then the larger count. -/
def spRank (c : TimingConfig) : ℚ ×ₗ ℕᵒᵈ := toLex (spError c / c.tq, OrderDual.toDual c.tq)

theorem timingConfig_tq_pos (c : TimingConfig) : 0 < c.tq := by
  simp only [TimingConfig.tq]
  omega

theorem spRank_le_iff {c d : TimingConfig} : spRank c ≤ spRank d ↔
    spError c * d.tq < spError d * c.tq ∨ (spError c * d.tq = spError d * c.tq ∧ d.tq ≤ c.tq) := by
  have hc : (0 : ℚ) < c.tq := Nat.cast_pos.2 (timingConfig_tq_pos c)
  have hd : (0 : ℚ) < d.tq := Nat.cast_pos.2 (timingConfig_tq_pos d)
  simp only [spRank, Prod.Lex.toLex_le_toLex, div_lt_div_iff₀ hc hd, div_eq_div_iff hc.ne' hd.ne',
    OrderDual.toDual_le_toDual]
  norm_cast

/-- Of a config and one of a smaller count, `nearer` keeps the one of the lower rank. -/
theorem nearer_spec {b c : TimingConfig} (h : c.tq < b.tq) :
    (nearer b c = b ∨ nearer b c = c) ∧ spRank (nearer b c) ≤ spRank b ∧ spRank (nearer b c) ≤ spRank c := by
  unfold nearer
  split
  · next hlt => exact ⟨.inr rfl, spRank_le_iff.2 (.inl hlt), le_rfl⟩
  · next hge =>
    refine ⟨.inl rfl, le_rfl, spRank_le_iff.2 ?_⟩
    rcases (Nat.le_of_not_lt hge).lt_or_eq with hlt | heq
    · exact .inl hlt
    · exact .inr ⟨heq, h.le⟩

/-- `closest` keeps a config of the least rank of those it is given, from the largest count down. -/
theorem closest_some_spec (b : TimingConfig) (l : List TimingConfig)
    (h : (b :: l).Pairwise fun c d => d.tq < c.tq) :
    ∃ c ∈ b :: l, closest (some b) l = some c ∧ ∀ d ∈ b :: l, spRank c ≤ spRank d := by
  induction l generalizing b with
  | nil => exact ⟨b, List.mem_singleton.2 rfl, rfl, fun d hd => (List.mem_singleton.1 hd ▸ le_rfl)⟩
  | cons x t ih =>
    obtain ⟨hb, hxt⟩ := List.pairwise_cons.1 h
    obtain ⟨hkeeps, hleb, hlex⟩ := nearer_spec (hb x List.mem_cons_self)
    have hdesc : (nearer b x :: t).Pairwise fun c d => d.tq < c.tq := by
      rcases hkeeps with e | e
      · rw [e]
        exact List.pairwise_cons.2 ⟨fun d hd => hb d (List.mem_cons_of_mem x hd), (List.pairwise_cons.1 hxt).2⟩
      · rw [e]
        exact hxt
    obtain ⟨c, hmem, hc, hleast⟩ := ih (nearer b x) hdesc
    have hlec := hleast _ List.mem_cons_self
    refine ⟨c, ?_, hc, fun d hd => ?_⟩
    · rcases List.mem_cons.1 hmem with rfl | hmem
      · rcases hkeeps with e | e <;> simp [e]
      · exact List.mem_cons_of_mem b (List.mem_cons_of_mem x hmem)
    · rcases List.mem_cons.1 hd with rfl | hd
      · exact hlec.trans hleb
      · rcases List.mem_cons.1 hd with rfl | hd
        · exact hlec.trans hlex
        · exact hleast d (List.mem_cons_of_mem _ hd)

/-- ClosestSamplePoint returns an accepted candidate of the least rank, if one is accepted. -/
theorem improvedSearch_closest_cases (baud clk : Nat) :
    (accepted baud clk = [] ∧ improvedSearch .closestSamplePoint baud clk = none)
      ∨ ∃ c ∈ accepted baud clk, improvedSearch .closestSamplePoint baud clk = some c
          ∧ ∀ d ∈ accepted baud clk, spRank c ≤ spRank d := by
  have hdesc := accepted_descending baud clk
  have hs : improvedSearch .closestSamplePoint baud clk = closest none (accepted baud clk) := rfl
  cases h : accepted baud clk with
  | nil => exact .inl ⟨rfl, by rw [hs, h, closest]⟩
  | cons b l =>
    rw [h] at hdesc
    rw [hs, h, closest]
    exact .inr (closest_some_spec b l hdesc)

theorem improvedSearch_mem {sel : ImprovedSelect} {baud clk : Nat} {c : TimingConfig}
    (h : improvedSearch sel baud clk = some c) : c ∈ accepted baud clk := by
  cases sel with
  | firstAccepted =>
    rw [improvedSearch_firstAccepted] at h
    exact List.mem_of_head? h
  | closestSamplePoint =>
    rcases improvedSearch_closest_cases baud clk with ⟨-, hnone⟩ | ⟨d, hd, hsome, -⟩
    · simp [hnone] at h
    · rw [hsome, Option.some.injEq] at h
      exact h ▸ hd

theorem improvedSearch_eq_none {sel : ImprovedSelect} {baud clk : Nat} :
    improvedSearch sel baud clk = none ↔ accepted baud clk = [] := by
  cases sel with
  | firstAccepted => rw [improvedSearch_firstAccepted, List.head?_eq_none_iff]
  | closestSamplePoint =>
    rcases improvedSearch_closest_cases baud clk with ⟨hnil, hnone⟩ | ⟨d, hd, hsome, -⟩
    · simp only [hnil, hnone]
    · simp only [hsome, reduceCtorEq, List.ne_nil_of_mem hd]

/-- FirstAccepted returns the accepted candidate of the largest count. -/
theorem firstAccepted_largest {baud clk : Nat} {c d : TimingConfig}
    (h : improvedSearch .firstAccepted baud clk = some c) (hd : d ∈ accepted baud clk) : d.tq ≤ c.tq := by
  have hdesc := accepted_descending baud clk
  rw [improvedSearch_firstAccepted] at h
  obtain ⟨l, hl⟩ := List.head?_eq_some_iff.1 h
  rw [hl] at hd hdesc
  rcases List.mem_cons.1 hd with rfl | hd
  · exact le_rfl
  · exact (List.rel_of_pairwise_cons hdesc hd).le

theorem closest_least {baud clk : Nat} {c d : TimingConfig}
    (h : improvedSearch .closestSamplePoint baud clk = some c) (hd : d ∈ accepted baud clk) : spRank c ≤ spRank d := by
  rcases improvedSearch_closest_cases baud clk with ⟨-, hnone⟩ | ⟨b, -, hsome, hleast⟩
  · simp [hnone] at h
  · rw [hsome, Option.some.injEq] at h
    exact h ▸ hleast d hd

end Sys2Proof.Machine

open Sys2Proof Sys2Proof.Machine

/-- Settles O20: the counts of the table rise, so that its first match is the smallest; with no match the last entry is
the one of count 25. -/
theorem tableSearchLaw : Obligations.TableSearchLaw := by
  intro table baud clk hw _ hk
  obtain ⟨-, hasc, hwf⟩ := tqTableWf_spec hw
  rcases tableSearch_cases hw baud clk with ⟨e, he, hfind, hs⟩ | ⟨hnone, e, -, hlast, h25, hs⟩ <;> rw [hs]
  · obtain ⟨hmod, hmax⟩ := tqMatches_iff.1 (List.find?_some hfind)
    obtain ⟨hpos, hrate⟩ := exact_quotient hmod hk
    exact ⟨fun _ => rfl,
      fun _ => ⟨_, hpos, hmax, rfl, he, hrate, (tqEntry_segments (hwf e he)).1,
        fun x hx hm hd => find_tqMatches_least hasc hfind x hx (tqMatches_iff.2 ⟨hm, hd⟩)⟩,
      nofun⟩
  · exact ⟨fun ⟨x, hx, hm⟩ => absurd (tqMatches_iff.2 hm) (hnone x hx), nofun, fun _ => ⟨hlast, h25, rfl⟩⟩

/-- Settles O22: the law of each step of the distribution, and the table by evaluation. -/
theorem segmentsLaw : Obligations.SegmentsLaw := ⟨fun _ _ h8 _ h => segments_law h8 h, by decide⟩

/-- Settles O23: both selections choose among the accepted candidates, of which FirstAccepted takes the first and
ClosestSamplePoint one of the least rank. -/
theorem improvedSearchLaw : Obligations.ImprovedSearchLaw := by
  intro baud clk _ hk
  refine ⟨fun sel c h => ?law, fun sel => improvedSearch_eq_none.trans accepted_eq_nil, fun c h tq hlt h25 => ?first,
    fun c h tq d h8 h25 hd => ?closest⟩
  case law =>
    obtain ⟨h8, hc⟩ := candidate_of_mem_accepted (improvedSearch_mem h)
    exact ⟨candidate_wf h8 hk hc, (candidate_rate hk hc).2, candidate_jumpWidth_le h8 hc, h8, candidate_tq_le h8 hc, hc⟩
  case first =>
    obtain ⟨h8, -⟩ := candidate_of_mem_accepted (improvedSearch_mem h)
    refine Option.eq_none_iff_forall_ne_some.2 fun d hd => ?_
    have hle := firstAccepted_largest h (mem_accepted.2 ⟨tq, by omega, h25, hd⟩)
    rw [candidate_tq (by omega) hd] at hle
    exact hle.not_gt hlt
  case closest =>
    have hle := spRank_le_iff.1 (closest_least h (mem_accepted.2 ⟨tq, h8, h25, hd⟩))
    rwa [candidate_tq h8 hd] at hle

end

section
/-! PROOFS. What the timing commands write and return (41 R254-R256, R258, R262), and the freeze-gated commands under
Bracket after an entry that failed (41 R263, R264, 42 R309). -/

namespace Sys2Proof.Machine

/-! ### Fields of a word -/

/-- The field is of one bit or more of a word. -/
abbrev FieldFits (f : Field) : Prop := f.lo ≤ f.hi ∧ f.hi < 32

/-- The fields have no bit in common. -/
abbrev FieldsApart (f g : Field) : Prop := f.hi < g.lo ∨ g.hi < f.lo

/-- The mask of a value that the field can hold. -/
def valueMask (f : Field) : Word := BitVec.ofNat 32 (2 ^ (f.hi + 1 - f.lo) - 1)

theorem getLsbD_valueMask (f : Field) {k : Nat} (hk : k < 32) :
    (valueMask f).getLsbD k = decide (k < f.hi + 1 - f.lo) := by
  simp only [valueMask, BitVec.getLsbD_ofNat, hk, decide_true, Bool.true_and, Nat.testBit_two_pow_sub_one]

/-- A number that fits the field is not changed by its mask. -/
theorem toNat_ofNat_and_valueMask {f : Field} (hf : FieldFits f) {n : Nat} (h : n < 2 ^ (f.hi + 1 - f.lo)) :
    (BitVec.ofNat 32 n &&& valueMask f).toNat = n := by
  have hpow : 2 ^ (f.hi + 1 - f.lo) ≤ 2 ^ 32 := Nat.pow_le_pow_right (by decide) (by omega)
  have hmask : 2 ^ (f.hi + 1 - f.lo) - 1 < 2 ^ 32 := by omega
  rw [valueMask, BitVec.toNat_and, BitVec.toNat_ofNat, BitVec.toNat_ofNat, Nat.mod_eq_of_lt hmask,
    Nat.and_two_pow_sub_one_eq_mod, Nat.mod_eq_of_lt (h.trans_le hpow), Nat.mod_eq_of_lt h]

theorem getLsbD_getField (f : Field) (w : Word) (k : Nat) :
    (getField f w).getLsbD k = (decide (f.lo + k ≤ f.hi) && w.getLsbD (f.lo + k)) := by
  simp only [getField, BitVec.getLsbD_ushiftRight, BitVec.getLsbD_and]
  by_cases hk : f.lo + k < 32
  · simp only [getLsbD_fieldMask f _ hk, Nat.le_add_right, true_and, Bool.and_comm]
  · rw [BitVec.getLsbD_of_ge w _ (by omega), Bool.false_and, Bool.and_false]

/-- A field reads the value put into it, as far as it fits. -/
theorem getField_putField_self {f : Field} (hf : FieldFits f) (v w : Word) :
    getField f (putField f v w) = v &&& valueMask f := by
  apply BitVec.eq_of_getLsbD_eq
  intro k hk
  rw [getLsbD_getField, BitVec.getLsbD_and, getLsbD_valueMask f hk]
  by_cases hin : f.lo + k ≤ f.hi
  · rw [getLsbD_putField _ _ _ _ (by omega), if_pos ⟨Nat.le_add_right _ _, hin⟩, Nat.add_sub_cancel_left,
      decide_eq_true hin, decide_eq_true (by omega), Bool.true_and, Bool.and_true]
  · rw [decide_eq_false hin, decide_eq_false (by omega), Bool.false_and, Bool.and_false]

/-- A write of another field does not change what a field reads. -/
theorem getField_putField_apart {f g : Field} (hf : f.hi < 32) (h : FieldsApart f g) (v w : Word) :
    getField f (putField g v w) = getField f w := by
  apply BitVec.eq_of_getLsbD_eq
  intro k _
  rw [getLsbD_getField, getLsbD_getField]
  by_cases hin : f.lo + k ≤ f.hi
  · rw [getLsbD_putField _ _ _ _ (by omega), if_neg (by omega)]
  · rw [decide_eq_false hin, Bool.false_and, Bool.false_and]

theorem getField_plainFields_apart {f : Field} (hf : f.hi < 32) {fs : List (Field × Word)}
    (h : ∀ p ∈ fs, FieldsApart f p.1) (w : Word) : getField f (plainFields fs w) = getField f w := by
  induction fs generalizing w with
  | nil => rfl
  | cons a t ih =>
    obtain ⟨ha, ht⟩ := List.forall_mem_cons.1 h
    rw [plainFields, ih ht, getField_putField_apart hf ha]

/-- Of fields that are apart, each reads the value put into it. -/
theorem getField_plainFields_of_mem {f : Field} {x : Word} (hf : FieldFits f) {fs : List (Field × Word)}
    (hfs : (fs.map Prod.fst).Pairwise FieldsApart) (h : (f, x) ∈ fs) (w : Word) :
    getField f (plainFields fs w) = x &&& valueMask f := by
  induction fs generalizing w with
  | nil => cases h
  | cons a t ih =>
    obtain ⟨hat, ht⟩ := List.pairwise_cons.1 hfs
    rw [plainFields]
    rcases List.mem_cons.1 h with rfl | h
    · rw [getField_plainFields_apart hf.2 (fun p hp => hat p.1 (List.mem_map_of_mem hp)), getField_putField_self hf]
    · exact ih ht h _

theorem getLsbD_plainFields_outside {k : Nat} (hk : k < 32) {fs : List (Field × Word)}
    (h : ∀ f ∈ fs.map Prod.fst, ¬ (f.lo ≤ k ∧ k ≤ f.hi)) (w : Word) :
    (plainFields fs w).getLsbD k = w.getLsbD k := by
  induction fs generalizing w with
  | nil => rfl
  | cons a t ih =>
    obtain ⟨ha, ht⟩ := List.forall_mem_cons.1 h
    rw [plainFields, ih ht, getLsbD_putField _ _ _ _ hk, if_neg ha]

/-! ### The timing fields of CTRL1 -/

theorem timing_apart : Field.timing.Pairwise FieldsApart := by decide

theorem timing_fits : ∀ f ∈ Field.timing, FieldFits f := by decide

/-- The timing fields are bits 0..2 and 16..31 of CTRL1. -/
theorem timing_outside {k : Nat} (h2 : 2 < k) (h16 : k < 16) : ∀ f ∈ Field.timing, ¬ (f.lo ≤ k ∧ k ≤ f.hi) := by
  simp only [Field.timing, Field.presdiv, Field.rjw, Field.pseg1, Field.pseg2, Field.propseg, List.forall_mem_cons,
    List.not_mem_nil, IsEmpty.forall_iff, implies_true, and_true]
  omega

section TimingFields
variable {fs : List (Field × Word)} (hfs : (fs.map Prod.fst).Sublist Field.timing)
include hfs

theorem getField_plainFields_timing {f : Field} {x : Word} (h : (f, x) ∈ fs) (w : Word) :
    getField f (plainFields fs w) = x &&& valueMask f :=
  getField_plainFields_of_mem (timing_fits f (hfs.subset (List.mem_map_of_mem h))) (timing_apart.sublist hfs) h w

/-- A field into which a number that fits was put reads that number. -/
theorem toNat_getField_plainFields_timing {f : Field} {n : Nat} (h : (f, BitVec.ofNat 32 n) ∈ fs)
    (hn : n < 2 ^ (f.hi + 1 - f.lo)) (w : Word) : (getField f (plainFields fs w)).toNat = n := by
  rw [getField_plainFields_timing hfs h,
    toNat_ofNat_and_valueMask (timing_fits f (hfs.subset (List.mem_map_of_mem h))) hn]

theorem getLsbD_plainFields_timing {k : Nat} (h2 : 2 < k) (h16 : k < 16) (w : Word) :
    (plainFields fs w).getLsbD k = w.getLsbD k :=
  getLsbD_plainFields_outside (by omega) (fun f hf => timing_outside h2 h16 f (hfs.subset hf)) w

end TimingFields

/-! ### Field writes of CTRL1 -/

theorem writeFields_ctrl1 {s : State} {loose : Bool} (h : decide (s.mode ≠ .frozen) = loose) (fs : List FieldWrite)
    (w : Word) :
    writeFields .ctrl1 fs w s
      = { (putFields loose fs w s).2 with
          regs := { (putFields loose fs w s).2.regs with ctrl1 := (putFields loose fs w s).1 } } := by
  subst h
  rfl

/-- In Frozen the values are written as they are. -/
theorem writeFields_ctrl1_frozen {s : State} (hf : s.mode = .frozen) (fs : List (Field × Word)) (w : Word) :
    writeFields .ctrl1 (fs.map fun p => (p.1, .val p.2)) w s
      = { s with regs := { s.regs with ctrl1 := plainFields fs w } } := by
  rw [writeFields_ctrl1 (loose := false) (by simp [hf]), putFields_val _ fs w s (.inl rfl)]

/-- The fields with the draws from the n-th on. -/
def drawnFields : List Field → Nat → List (Field × Word)
  | [], _ => []
  | f :: t, n => (f, Config.freeWord n) :: drawnFields t (n + 1)

theorem map_fst_drawnFields (fs : List Field) (n : Nat) : (drawnFields fs n).map Prod.fst = fs := by
  induction fs generalizing n with
  | nil => rfl
  | cons f t ih => rw [drawnFields, List.map_cons, ih]

/-- Outside Frozen every timing field takes a draw (41 R264). -/
theorem putFields_loose {fs : List (Field × Word)} (h : ∀ p ∈ fs, Field.timing.contains p.1 = true) (w : Word)
    (s : State) :
    putFields true (fs.map fun p => (p.1, .val p.2)) w s
      = (plainFields (drawnFields (fs.map Prod.fst) s.draws) w, { s with draws := s.draws + fs.length }) := by
  induction fs generalizing w s with
  | nil => rfl
  | cons a t ih =>
    obtain ⟨ha, ht⟩ := List.forall_mem_cons.1 h
    simp only [List.map_cons, putFields, ha, Bool.and_self, if_true, drawWord]
    rw [ih ht, List.length_cons, Nat.add_comm t.length, ← Nat.add_assoc]
    rfl

theorem writeFields_ctrl1_loose {s : State} (hf : s.mode ≠ .frozen) {fs : List (Field × Word)}
    (h : ∀ p ∈ fs, Field.timing.contains p.1 = true) (w : Word) :
    writeFields .ctrl1 (fs.map fun p => (p.1, .val p.2)) w s
      = { s with
          regs := { s.regs with ctrl1 := plainFields (drawnFields (fs.map Prod.fst) s.draws) w }
          draws := s.draws + fs.length } := by
  rw [writeFields_ctrl1 (loose := true) (by simp [hf]), putFields_loose h w s]

/-! ### Preconditions, and bodies that run alone -/

theorem firstBroken_needFrozen_frozen {s : State} (hf : s.mode = .frozen) (t : List Check) :
    firstBroken (needFrozen s :: t) = firstBroken t := firstBroken_of_holds (by simp [hf]) _ t

theorem firstBroken_needFrozen_bracket {s : State} (hm : s.par.timingWriteMode = .bracket) (t : List Check) :
    firstBroken (needFrozen s :: t) = firstBroken t := firstBroken_of_holds (by simp [hm]) _ t

/-- The checks of the two searches, with their operands in order (41 R250). -/
theorem firstBroken_searchChecks {o : OpRec} {baud clk : Word} (hb : o.baud = some baud) (hk : o.clk = some clk)
    (hb0 : baud ≠ 0) (hk0 : clk ≠ 0) (h : baud.toNat * 25 < 2 ^ 32) (t : List Check) :
    firstBroken (needOperand o.baud :: needOperand o.clk :: needTimingInput baud clk :: t) = firstBroken t := by
  rw [firstBroken_needOperand_some hb, firstBroken_needOperand_some hk, firstBroken_needTimingInput_within hb0 hk0 h]

theorem gated_requireFrozen {p : Params} (h : p.timingWriteMode = .requireFrozen) (body : List Micro) :
    gated p body = body := by simp only [gated, h]

theorem gated_bracket {p : Params} (h : p.timingWriteMode = .bracket) (body : List Micro) :
    gated p body = enterFreezeBody p ++ body ++ exitFreezeBody := by simp only [gated, h]

/-- The return of a failed improved search: its config is a draw (41 R258). -/
theorem Reach.retNoTiming (i : Instr) {s : State} (hs : FgFree s) (hq : Alone s) :
    Reach 1 (begin i [.retNoTiming] s)
      (completed i (.timing false (Config.freeTiming s.draws)) { s with draws := s.draws + 1 }) := by
  have hn := nextTurn_begin_alone i [.retNoTiming] hq
  have hw : waiting (begin i [.retNoTiming] s) = false := by simp [waiting, activeCode, hs.2, spins]
  have ht : Machine.turn (begin i [.retNoTiming] s)
      = completed i (.timing false (Config.freeTiming s.draws)) { s with draws := s.draws + 1 } := by
    simp only [Machine.turn, hn, aloneTurn, hw]
    simp [agentStep, hs.2, fgStep, micro, fgReturn, emit, completed, begin]
  refine .step (by simp [halted, not_atRest_begin i _ s hs, hw]) (by simp [atYield, hn]) ?_
  rw [ht]
  exact .refl _

/-- A command whose body is one field write of a register with a plain read. -/
theorem issue_setFields {i : Instr} {r : Ret} {reg : Reg} {fs : List FieldWrite} {s : State} (hr : Ready s)
    (hread : readReg reg s = (s.regs.get reg, s)) :
    issue i none (setFields reg fs ++ [.ret r]) s
      = .next (completed i r (writeFields reg fs (s.regs.get reg) s)) := by
  have hfree : FgFree (writeFields reg fs (s.regs.get reg) s) :=
    micro_fgFree (.modify reg fs (s.regs.get reg)) s rfl hr.fgFree
  have halone : Alone (writeFields reg fs (s.regs.get reg) s) := by
    rw [writeFields_state]
    exact hr.alone
  exact issue_runs hr (.setFields hr.fgFree hr.alone hread (Reach.ret i r _ hfree halone))
    (halted_completed _ _ _ hfree) (by omega)

/-! ### Under Bracket, with no acknowledgement -/

/-- What EF0 to EF6 leave off the errata path, with no acknowledgement of HW. -/
abbrev freezeAsked (s : State) : State := mcrWith 28 true (mcrWith 31 false (mcrWith 30 true s))

theorem getBit_frzack_freezeAsked (s : State) :
    getBit .frzack (freezeAsked s).regs.mcr = getBit .frzack s.regs.mcr := by
  simp only [mcrWith_mcr]
  rw [getBit_withBit _ _ (by decide) (by decide), getBit_withBit _ _ (by decide) (by decide),
    getBit_withBit _ _ (by decide) (by decide)]
  rfl

theorem mode_freezeAsked_ne_frozen {s : State} (h : getBit .frzack s.regs.mcr = false) :
    (freezeAsked s).mode ≠ .frozen := by
  intro hf
  obtain ⟨-, -, hack⟩ := (mode_eq_frozen_iff _).1 hf
  rw [getBit_frzack_freezeAsked, h] at hack
  cases hack

/-- The entry and the exit together, as one word: FRZ, HALT and MDIS are clear. -/
theorem withBit_bracket (w : Word) :
    withBit 30 false (withBit 28 false (withBit 28 true (withBit 31 false (withBit 30 true w))))
      = w &&& ~~~ (oneBit 31 ||| oneBit 30 ||| oneBit 28) := by
  apply BitVec.eq_of_getLsbD_eq
  intro k hk
  have hbit (b : Nat) (v : Bool) (w : Word) (hb : b < 32) := getLsbD_withBit b v w k hb hk
  rw [hbit _ _ _ (by decide), hbit _ _ _ (by decide), hbit _ _ _ (by decide), hbit _ _ _ (by decide),
    hbit _ _ _ (by decide), getLsbD_andNot _ _ hk]
  simp only [BitVec.getLsbD_or, getLsbD_oneBit _ k (by decide : 31 < 32), getLsbD_oneBit _ k (by decide : 30 < 32),
    getLsbD_oneBit _ k (by decide : 28 < 32)]
  split_ifs <;> simp [*]

/-- A gated command under Bracket, HW not acknowledging: its body runs after the entry, and the exit follows. -/
theorem issue_bracket {i : Instr} {r : Ret} {body : List Micro} {n : Nat} {s u : State} (hr : Ready s)
    (hm : s.par.timingWriteMode = .bracket) (hv : s.par.freezeVariant = .base ∨ busOff s.regs.esr = false)
    (hfree : FgFree u) (halone : Alone u) (hack : getBit .frzack u.regs.mcr = false)
    (hbody : ∀ {k rest t}, Reach k (begin i rest u) t → Reach (k + n) (begin i (body ++ rest) (freezeAsked s)) t)
    (hn : n ≤ 8000) :
    issue i none (gated s.par body ++ [.ret r]) s = .next (completed i r (freezeCleared u)) := by
  have hrun := hbody (Reach.exitFreeze hfree halone hack (Reach.ret i r (freezeCleared u) hfree halone))
  obtain ⟨j, hj, h⟩ := Reach.enterFreeze hr.fgFree hr.alone hv hrun
  rw [gated_bracket hm, List.append_assoc, List.append_assoc]
  exact issue_runs hr h (halted_completed _ _ _ hfree) (by omega)

/-! ### SET_BAUD_RATE -/

/-- What PRESDIV is written with: the value, or the n-th draw. -/
def presdivWord (n : Nat) : FieldVal → Word
  | .val x => x
  | .draw => Config.freeWord n

/-- The fields SB1 writes (41 R254). -/
def baudFields (b : BaudResult) (n : Nat) : List (Field × Word) :=
  [(.presdiv, presdivWord n b.presdiv), (.pseg1, BitVec.ofNat 32 b.entry.s1), (.pseg2, BitVec.ofNat 32 b.entry.s2),
    (.propseg, BitVec.ofNat 32 b.entry.p)]

theorem baudFields_timing (b : BaudResult) (n : Nat) : ((baudFields b n).map Prod.fst).Sublist Field.timing := by
  simp only [baudFields, List.map_cons, List.map_nil]
  decide

theorem getLsbD_baudFields_rjw (b : BaudResult) (n : Nat) (w : Word) {k : Nat} (h : k = 22 ∨ k = 23) :
    (plainFields (baudFields b n) w).getLsbD k = w.getLsbD k := by
  refine getLsbD_plainFields_outside (by omega) ?_ w
  rcases h with rfl | rfl <;> simp only [baudFields, List.map_cons, List.map_nil] <;> decide

/-- The body of SetBaudRate in Frozen: a PRESDIV without an encoding counts one draw (41 R255). -/
theorem writeFields_baudBody {s : State} (hf : s.mode = .frozen) (b : BaudResult) (w : Word) :
    writeFields .ctrl1 [(.presdiv, b.presdiv), (.pseg1, natVal b.entry.s1), (.pseg2, natVal b.entry.s2),
        (.propseg, natVal b.entry.p)] w s
      = { s with
          regs := { s.regs with ctrl1 := plainFields (baudFields b s.draws) w }
          draws := s.draws + if b.presdiv = .draw then 1 else 0 } := by
  obtain ⟨found, e, v⟩ := b
  cases v with
  | val x => exact writeFields_ctrl1_frozen hf (baudFields ⟨found, e, .val x⟩ s.draws) w
  | draw =>
    rw [writeFields_ctrl1 (loose := false) (by simp [hf])]
    rfl

/-- The entry taken is one of the table, and a PRESDIV that is no draw fits its field. -/
theorem tableSearch_fits {table : List TqEntry} (hw : tqTableWf table = true) (baud clk : Nat) :
    (tableSearch table baud clk).entry ∈ table
      ∧ ∀ x, (tableSearch table baud clk).presdiv = .val x → ∃ n < 256, x = BitVec.ofNat 32 n := by
  rcases tableSearch_cases hw baud clk with ⟨e, he, hfind, hs⟩ | ⟨-, e, he, -, -, hs⟩ <;> rw [hs]
  · obtain ⟨-, hmax⟩ := tqMatches_iff.1 (List.find?_some hfind)
    refine ⟨he, fun x hx => ⟨_, ?_, (FieldVal.val.inj hx).symm⟩⟩
    omega
  · refine ⟨he, fun x hx => ?_⟩
    dsimp only at hx
    split at hx
    · next hP => exact ⟨_, by omega, (FieldVal.val.inj hx).symm⟩
    · cases hx

/-! ### SET_TIMING_CONFIG, and the two commands under Bracket -/

/-- The fields ST0 writes (41 R262). -/
def timingConfigFields (c : TimingConfig) : List (Field × Word) :=
  [(.presdiv, BitVec.ofNat 32 (c.preDivider - 1)), (.rjw, BitVec.ofNat 32 c.rJumpWidth),
    (.pseg1, BitVec.ofNat 32 c.phaseSeg1), (.pseg2, BitVec.ofNat 32 c.phaseSeg2), (.propseg, BitVec.ofNat 32 c.propSeg)]

theorem timingBody_eq (c : TimingConfig) :
    timingBody c = setFields .ctrl1 ((timingConfigFields c).map fun p => (p.1, .val p.2)) := rfl

theorem map_fst_timingConfigFields (c : TimingConfig) : (timingConfigFields c).map Prod.fst = Field.timing := rfl

theorem timingConfigFields_contains (c : TimingConfig) : ∀ p ∈ timingConfigFields c, Field.timing.contains p.1 = true := by
  intro p hp
  rw [List.contains_iff_mem, ← map_fst_timingConfigFields c]
  exact List.mem_map_of_mem hp

theorem timingConfig_wf_iff {c : TimingConfig} : c.wf = true ↔
    1 ≤ c.preDivider ∧ c.preDivider ≤ 256 ∧ c.rJumpWidth ≤ 3 ∧ c.phaseSeg1 ≤ 7 ∧ c.phaseSeg2 ≤ 7 ∧ c.propSeg ≤ 7 := by
  simp only [TimingConfig.wf, Bool.and_eq_true, decide_eq_true_eq, and_assoc]
  rfl

theorem firstBroken_cfgChecks {o : OpRec} {c : TimingConfig} (hc : o.cfg = some c) (hw : c.wf = true)
    (t : List Check) : firstBroken (needOperand o.cfg :: (!c.wf, .invalidTimingConfig) :: t) = firstBroken t := by
  rw [firstBroken_needOperand_some hc, firstBroken_of_holds (by simp [hw])]

section Bracket
variable {s : State} (hr : Ready s) (hm : s.par.timingWriteMode = .bracket)
  (hv : s.par.freezeVariant = .base ∨ busOff s.regs.esr = false) (hack : getBit .frzack s.regs.mcr = false)
include hr hm hv hack

/-- SET_TIMING_CONFIG between a failed entry and its exit: five draws, whatever the config (41 R264). -/
theorem issue_timingBody_bracket (c : TimingConfig) :
    issue .setTimingConfig none (gated s.par (timingBody c) ++ [.ret .unit]) s
      = .next (completed .setTimingConfig .unit (freezeCleared { freezeAsked s with
          regs := { (freezeAsked s).regs with
            ctrl1 := plainFields (drawnFields Field.timing s.draws) s.regs.ctrl1 }
          draws := s.draws + 5 })) := by
  have hwrite := writeFields_ctrl1_loose (mode_freezeAsked_ne_frozen hack) (timingConfigFields_contains c) s.regs.ctrl1
  rw [map_fst_timingConfigFields] at hwrite
  refine issue_bracket (n := 2) hr hm hv hr.fgFree hr.alone ((getBit_frzack_freezeAsked s).trans hack)
    (fun h => ?_) (by omega)
  rw [timingBody_eq]
  refine .setFields hr.fgFree hr.alone (readReg_ctrl1 _) ?_
  change Reach _ (begin _ _ (writeFields _ _ s.regs.ctrl1 _)) _
  rw [hwrite]
  exact h

/-- SET_RX_FIFO_GLOBAL_MASK between a failed entry and its exit: the mask is written all the same (42 R309). -/
theorem issue_fifoMask_bracket (m : Word) :
    issue .setRxFifoGlobalMask none (gated s.par [.write .rxfgmask m] ++ [.ret .unit]) s
      = .next (completed .setRxFifoGlobalMask .unit
          (freezeCleared { freezeAsked s with regs := { (freezeAsked s).regs with rxfgmask := m } })) :=
  issue_bracket (n := 1) hr hm hv hr.fgFree hr.alone ((getBit_frzack_freezeAsked s).trans hack)
    (fun h => .writes [(.rxfgmask, m)] _ hr.fgFree hr.alone h) (by omega)

end Bracket

/-! ### The commands, with their operands given -/

theorem OpRec.maskV_of_some {o : OpRec} {m : Word} (h : o.mask = some m) : o.maskV = m := by simp [OpRec.maskV, h]

theorem exec_setBaudRate {s : State} {baud clk : Word} (hb : s.fg.opnd.baud = some baud) (hk : s.fg.opnd.clk = some clk) :
    exec .setBaudRate s = issue .setBaudRate
      (firstBroken [needOperand s.fg.opnd.baud, needOperand s.fg.opnd.clk, needTimingInput baud clk, needFrozen s])
      (gated s.par (baudBody (tableSearch s.par.tqTable baud.toNat clk.toNat))
        ++ [.ret (.found (tableSearch s.par.tqTable baud.toNat clk.toNat).found)]) s := by
  rw [← OpRec.baudV_of_some hb, ← OpRec.clkV_of_some hk]
  rfl

theorem exec_calcImprovedTiming {s : State} {baud clk : Word} (hb : s.fg.opnd.baud = some baud)
    (hk : s.fg.opnd.clk = some clk) :
    exec .calcImprovedTiming s = issue .calcImprovedTiming
      (firstBroken [needOperand s.fg.opnd.baud, needOperand s.fg.opnd.clk, needTimingInput baud clk])
      (improvedBody s.par baud.toNat clk.toNat) s := by
  rw [← OpRec.baudV_of_some hb, ← OpRec.clkV_of_some hk]
  rfl

theorem exec_setTimingConfig {s : State} {c : TimingConfig} (hc : s.fg.opnd.cfg = some c) :
    exec .setTimingConfig s = issue .setTimingConfig
      (firstBroken [needOperand s.fg.opnd.cfg, (!c.wf, .invalidTimingConfig), needFrozen s])
      (gated s.par (timingBody c) ++ [.ret .unit]) s := by
  rw [← OpRec.cfgV_of_some hc]
  rfl

theorem exec_setRxFifoGlobalMask {s : State} {m : Word} (hm : s.fg.opnd.mask = some m) :
    exec .setRxFifoGlobalMask s = issue .setRxFifoGlobalMask (firstBroken [needOperand s.fg.opnd.mask, needFrozen s])
      (gated s.par [.write .rxfgmask m] ++ [.ret .unit]) s := by
  rw [← OpRec.maskV_of_some hm]
  rfl

end Sys2Proof.Machine

open Sys2Proof Sys2Proof.Machine

/-- Settles O21: the four fields are apart and each holds its value; bits 22 and 23 are RJW, which is not written. -/
theorem baudRateWrites : Obligations.BaudRateWrites := by
  intro s baud clk hr hb hk hb0 hk0 hbk hw hm hf
  obtain ⟨hmem, hpre⟩ := tableSearch_fits hw baud.toNat clk.toNat
  obtain ⟨-, -, hwf⟩ := tqTableWf_spec hw
  obtain ⟨-, hp, h1, h2⟩ := tqEntry_segments (hwf _ hmem)
  have hfs := baudFields_timing (tableSearch s.par.tqTable baud.toNat clk.toNat) s.draws
  refine ⟨plainFields (baudFields (tableSearch s.par.tqTable baud.toNat clk.toNat) s.draws) s.regs.ctrl1, ?run,
    toNat_getField_plainFields_timing hfs (by simp [baudFields]) (Nat.lt_succ_of_le h1) _,
    toNat_getField_plainFields_timing hfs (by simp [baudFields]) (Nat.lt_succ_of_le h2) _,
    toNat_getField_plainFields_timing hfs (by simp [baudFields]) (Nat.lt_succ_of_le hp) _, fun x hx => ?presdiv,
    fun k hk => ?kept⟩
  case run =>
    rw [exec_setBaudRate hb hk, firstBroken_searchChecks hb hk hb0 hk0 hbk, firstBroken_needFrozen_frozen hf,
      gated_requireFrozen hm, baudBody, ← writeFields_baudBody hf]
    exact issue_setFields hr (readReg_ctrl1 s)
  case presdiv =>
    obtain ⟨n, hn, rfl⟩ := hpre x hx
    have hin : (Field.presdiv, BitVec.ofNat 32 n)
        ∈ baudFields (tableSearch s.par.tqTable baud.toNat clk.toNat) s.draws := by
      simp [baudFields, hx, presdivWord]
    rw [getField_plainFields_timing hfs hin]
    exact BitVec.eq_of_toNat_eq (by rw [toNat_ofNat_and_valueMask (by decide) hn, BitVec.toNat_ofNat]; omega)
  case kept =>
    rcases hk with ⟨hk2, hk16⟩ | hk
    · exact getLsbD_plainFields_timing hfs hk2 hk16 _
    · exact getLsbD_baudFields_rjw _ _ _ hk

/-- Settles O24: each of the two bodies is one return. -/
theorem calcReturns : Obligations.CalcReturns := by
  intro s baud clk hr hb hk hb0 hk0 hbk
  rw [exec_calcImprovedTiming hb hk, firstBroken_searchChecks hb hk hb0 hk0 hbk, improvedBody]
  cases improvedSearch s.par.improvedSelect baud.toNat clk.toNat with
  | some c => exact issue_runs hr (Reach.ret _ _ s hr.fgFree hr.alone) (halted_completed _ _ _ hr.fgFree) (by omega)
  | none => exact issue_runs hr (Reach.retNoTiming _ hr.fgFree hr.alone) (halted_completed _ _ _ hr.fgFree) (by omega)

/-- Settles O25: the five fields are apart and each holds its value. -/
theorem timingConfigWrites : Obligations.TimingConfigWrites := by
  intro s c hr hc hw hm hf
  obtain ⟨hpos, hpre, hjw, h1, h2, hp⟩ := timingConfig_wf_iff.1 hw
  have hfs : ((timingConfigFields c).map Prod.fst).Sublist Field.timing := List.Sublist.refl _
  have hread {f : Field} {n : Nat} (h : (f, BitVec.ofNat 32 n) ∈ timingConfigFields c)
      (hn : n < 2 ^ (f.hi + 1 - f.lo)) := toNat_getField_plainFields_timing hfs h hn s.regs.ctrl1
  have hpresdiv : (getField .presdiv (plainFields (timingConfigFields c) s.regs.ctrl1)).toNat = c.preDivider - 1 :=
    hread (by simp [timingConfigFields]) (show _ < 256 by omega)
  refine ⟨plainFields (timingConfigFields c) s.regs.ctrl1, ?run, by omega,
    hread (by simp [timingConfigFields]) (Nat.lt_succ_of_le hjw),
    hread (by simp [timingConfigFields]) (Nat.lt_succ_of_le h1),
    hread (by simp [timingConfigFields]) (Nat.lt_succ_of_le h2),
    hread (by simp [timingConfigFields]) (Nat.lt_succ_of_le hp),
    fun k hk h2 => getLsbD_plainFields_timing hfs h2 hk _⟩
  rw [exec_setTimingConfig hc, firstBroken_cfgChecks hc hw, firstBroken_needFrozen_frozen hf, gated_requireFrozen hm,
    timingBody_eq, ← writeFields_ctrl1_frozen hf]
  exact issue_setFields hr (readReg_ctrl1 s)

/-- Settles O26: after the failed entry the mode is not Frozen, so that every timing field takes a draw, and the exit's
poll finds FRZACK clear. -/
theorem bracketWrites : Obligations.BracketWrites := by
  intro s hr hm hv hack
  refine ⟨fun c hc hw => ?timing, fun m hmask => ?mask⟩
  case timing =>
    have hfs : ((drawnFields Field.timing s.draws).map Prod.fst).Sublist Field.timing := by
      rw [map_fst_drawnFields]
    have hread {f : Field} {n : Nat} (h : (f, Config.freeWord n) ∈ drawnFields Field.timing s.draws) :=
      getField_plainFields_timing hfs h s.regs.ctrl1
    refine ⟨plainFields (drawnFields Field.timing s.draws) s.regs.ctrl1, ?run,
      hread (by simp [drawnFields, Field.timing]), hread (by simp [drawnFields, Field.timing]),
      hread (by simp [drawnFields, Field.timing]), hread (by simp [drawnFields, Field.timing]),
      hread (by simp [drawnFields, Field.timing]), fun k hk h2 => getLsbD_plainFields_timing hfs h2 hk _⟩
    rw [exec_setTimingConfig hc, firstBroken_cfgChecks hc hw, firstBroken_needFrozen_bracket hm, ← withBit_bracket]
    exact issue_timingBody_bracket hr hm hv hack c
  case mask =>
    rw [exec_setRxFifoGlobalMask hmask, firstBroken_needOperand_some hmask, firstBroken_needFrozen_bracket hm,
      ← withBit_bracket]
    exact issue_fifoMask_bracket hr hm hv hack m

end

section
/-! PROOFS. The mailbox and mask setters, the default Config and the FIFO occupancy (42 R300-R303, R305, R306, R308-R311):
commands whose body is a list of whole-word writes. -/

namespace Sys2Proof.Machine

/-! ### A list of writes that runs alone -/

/-- A list of writes changes at most the registers, the FIFO's queue and the notes on a move-in. -/
theorem foldl_writeReg_state (ws : List (Reg × Word)) (s : State) :
    ∃ g q mv, ws.foldl (fun s p => writeReg p.1 p.2 s) s = { s with regs := g, fifoq := q, moveIn := mv } := by
  induction ws generalizing s with
  | nil => exact ⟨_, _, _, rfl⟩
  | cons a t ih =>
    obtain ⟨g, q, mv, e⟩ := ih (writeReg a.1 a.2 s)
    refine ⟨g, q, mv, e.trans ?_⟩
    rw [writeReg_state]

/-- A command whose body is a list of writes. -/
theorem issue_writes (i : Instr) (r : Ret) {ws : List (Reg × Word)} {s : State} (hr : Ready s) (hn : ws.length ≤ 8000) :
    issue i none (ws.map (fun p => .write p.1 p.2) ++ [.ret r]) s
      = .next (completed i r (ws.foldl (fun s p => writeReg p.1 p.2 s) s)) := by
  have ⟨hfree, halone⟩ : FgFree (ws.foldl (fun s p => writeReg p.1 p.2 s) s)
      ∧ Alone (ws.foldl (fun s p => writeReg p.1 p.2 s) s) := by
    obtain ⟨g, q, mv, e⟩ := foldl_writeReg_state ws s
    rw [e]
    exact ⟨hr.fgFree, hr.alone⟩
  exact issue_runs hr (.writes ws s hr.fgFree hr.alone (Reach.ret i r _ hfree halone)) (halted_completed _ _ _ hfree)
    (by omega)

/-! ### Writes to one mailbox -/

/-- The mailbox after a list of writes to its words. -/
def Mb.setAll (m : Mb) (ws : List (MbWord × Word)) : Mb := ws.foldl (fun m p => m.set p.1 p.2) m

/-- A move-in's notes after a list of writes to words of its mailbox. -/
def MoveIn.noteAll (m : MoveIn) (ws : List (MbWord × Word)) : MoveIn := ws.foldl (fun m p => m.note p.1) m

/-- What a list of writes to the words of mailbox i leaves. -/
def mbWritten (i : Nat) (ws : List (MbWord × Word)) (s : State) : State :=
  { s with
    regs := { s.regs with mb := bankSet s.regs.mb i ((bankGet s.regs.mb i).setAll ws) }
    moveIn := bankSet s.moveIn i ((bankGet s.moveIn i).map (·.noteAll ws)) }

theorem mbWritten_nil (i : Nat) (s : State) : mbWritten i [] s = s := by
  have hnote : (bankGet s.moveIn i).map (·.noteAll []) = bankGet s.moveIn i := Option.map_id'
  rw [mbWritten, hnote]
  simp only [Mb.setAll, List.foldl_nil, bankSet_bankGet]

theorem mbWritten_cons {i : Nat} (hi : i < 32) (p : MbWord × Word) (ws : List (MbWord × Word)) (s : State) :
    mbWritten i ws (writeReg (.mb i p.1) p.2 s) = mbWritten i (p :: ws) s := by
  simp only [mbWritten, writeReg, noteWrite, Regs.set, bankGet_bankSet_self _ hi, bankSet_bankSet, Option.map_map]
  rfl

theorem foldl_writeReg_oneMb {i : Nat} (hi : i < 32) (ws : List (MbWord × Word)) (s : State) :
    (ws.map fun p => (Reg.mb i p.1, p.2)).foldl (fun s p => writeReg p.1 p.2 s) s = mbWritten i ws s := by
  induction ws generalizing s with
  | nil => exact (mbWritten_nil i s).symm
  | cons p ws ih => exact (ih _).trans (mbWritten_cons hi p ws s)

/-- A command whose body writes words of one mailbox: no other mailbox's move-in is noted, and none where none is in
progress. -/
theorem issue_mbWrites (c : Instr) {i : Nat} (hi : i < 32) {ws : List (MbWord × Word)} {s : State} (hr : Ready s)
    (hn : ws.length ≤ 8000) :
    ∃ mv : Vector (Option MoveIn) 32,
      issue c none (ws.map (fun p => .write (.mb i p.1) p.2) ++ [.ret .unit]) s = .next (completed c .unit
        { s with
          regs := { s.regs with mb := bankSet s.regs.mb i ((bankGet s.regs.mb i).setAll ws) }
          moveIn := mv })
      ∧ (∀ j, j ≠ i → bankGet mv j = bankGet s.moveIn j) ∧ (bankGet s.moveIn i = none → mv = s.moveIn) := by
  refine ⟨(mbWritten i ws s).moveIn, ?run, fun j hj => bankGet_bankSet_ne _ (Ne.symm hj) _, fun h => ?idle⟩
  case run =>
    have e := issue_writes c .unit (ws := ws.map fun p => (Reg.mb i p.1, p.2)) hr (by rwa [List.length_map])
    rw [foldl_writeReg_oneMb hi, List.map_map] at e
    exact e
  case idle =>
    simp only [mbWritten]
    rw [h, Option.map_none, ← h, bankSet_bankGet]

/-- The words SET_TX_MB_CONFIG writes (42 R300). -/
def txMbWords (en : Bool) : List (MbWord × Word) :=
  [(.cs, 0), (.id, 0), (.data0, 0), (.data1, 0)]
    ++ if en then [(.cs, csw Config.txInactive false false false 0)] else []

/-- The words SET_RX_MB_CONFIG writes (42 R301). -/
def rxMbWords (en : Bool) (c : RxMbConfig) : List (MbWord × Word) :=
  [(.cs, 0), (.id, 0), (.data0, 0), (.data1, 0)]
    ++ if en then [(.id, idWord c.format c.id),
        (.cs, csw Config.rxInactive false (ideBit c.format) (rtrBit c.kind) 0),
        (.cs, csw Config.rxEmpty false (ideBit c.format) (rtrBit c.kind) 0)]
      else []

theorem txMbBody_eq (i : Nat) (en : Bool) : txMbBody i en = (txMbWords en).map fun p => .write (.mb i p.1) p.2 := by
  cases en <;> rfl

theorem rxMbBody_eq (i : Nat) (en : Bool) (c : RxMbConfig) :
    rxMbBody i en c = (rxMbWords en c).map fun p => .write (.mb i p.1) p.2 := by
  cases en <;> rfl

theorem setAll_txMbWords (m : Mb) (en : Bool) :
    m.setAll (txMbWords en) = ⟨if en then csw Config.txInactive false false false 0 else 0, 0, 0, 0⟩ := by
  cases en <;> rfl

theorem setAll_rxMbWords (m : Mb) (en : Bool) (c : RxMbConfig) :
    m.setAll (rxMbWords en c)
      = if en then ⟨csw Config.rxEmpty false (ideBit c.format) (rtrBit c.kind) 0, idWord c.format c.id, 0, 0⟩
        else ⟨0, 0, 0, 0⟩ := by
  cases en <;> rfl

end Sys2Proof.Machine

open Sys2Proof Sys2Proof.Machine

/-- Settles O27: the last word written to CS is the one that stays. -/
theorem txMbConfigWrites : Obligations.TxMbConfigWrites := by
  intro s i en hr hmax h32
  have he : exec (.setTxMbConfig i en) s = issue (.setTxMbConfig i en) none
      ((txMbWords en).map (fun p => .write (.mb i p.1) p.2) ++ [.ret .unit]) s := by
    change issue _ (firstBroken [needIdx i s]) (txMbBody i en ++ [.ret .unit]) s = _
    rw [firstBroken_needIdx_within hmax h32, txMbBody_eq]
    rfl
  rw [he, ← setAll_txMbWords (bankGet s.regs.mb i) en]
  exact issue_mbWrites _ h32 hr (by cases en <;> decide)

/-- Settles O28: the last word written to CS is the one that stays. -/
theorem rxMbConfigWrites : Obligations.RxMbConfigWrites := by
  intro s i en c hr hmax h32 hc
  have hbody : rxMbBody i en s.fg.opnd.rxcfgV = (rxMbWords en c).map fun p => .write (.mb i p.1) p.2 := by
    cases en with
    | false => rfl
    | true => rw [OpRec.rxcfgV, hc rfl, Option.getD_some, rxMbBody_eq]
  have hgiven : (en && s.fg.opnd.rxcfg.isNone) = false := by
    cases en with
    | false => rfl
    | true => simp [hc rfl]
  have he : exec (.setRxMbConfig i en) s = issue (.setRxMbConfig i en) none
      ((rxMbWords en c).map (fun p => .write (.mb i p.1) p.2) ++ [.ret .unit]) s := by
    change issue _ (firstBroken [needIdx i s, (en && s.fg.opnd.rxcfg.isNone, .missingOperand)])
      (rxMbBody i en s.fg.opnd.rxcfgV ++ [.ret .unit]) s = _
    rw [firstBroken_needIdx_within hmax h32, firstBroken_of_holds hgiven, hbody]
    rfl
  rw [he, ← setAll_rxMbWords (bankGet s.regs.mb i) en c]
  exact issue_mbWrites _ h32 hr (by cases en <;> simp [rxMbWords])

/-- Settles O32: each body is one to three writes of registers that a write changes alone. -/
theorem maskWrites : Obligations.MaskWrites := by
  intro s m hr hm hreq hf
  refine ⟨?global, ?fifo, fun i hmax h32 hn => ?individual⟩
  case global =>
    change issue _ (firstBroken [needOperand s.fg.opnd.mask, needFrozen s])
      (gated s.par (globalMaskBody s.fg.opnd.maskV) ++ [.ret .unit]) s = _
    rw [firstBroken_needOperand_some hm, firstBroken_needFrozen_frozen hf, OpRec.maskV_of_some hm,
      gated_requireFrozen hreq]
    exact issue_writes _ _ (ws := [(.rxmgmask, m), (.rx14mask, m), (.rx15mask, m)]) hr (by simp)
  case fifo =>
    rw [exec_setRxFifoGlobalMask hm, firstBroken_needOperand_some hm, firstBroken_needFrozen_frozen hf,
      gated_requireFrozen hreq]
    exact issue_writes _ _ (ws := [(.rxfgmask, m)]) hr (by simp)
  case individual =>
    change issue _ (firstBroken [needIdx i s, needOperand s.fg.opnd.mask, needFrozen s,
        (decide (s.par.nrximr ≤ i), .outOfRange)])
      (gated s.par [.write (.rximr i) s.fg.opnd.maskV] ++ [.ret .unit]) s = _
    rw [firstBroken_needIdx_within hmax h32, firstBroken_needOperand_some hm, firstBroken_needFrozen_frozen hf,
      firstBroken_of_holds (decide_eq_false hn.not_ge), OpRec.maskV_of_some hm, gated_requireFrozen hreq]
    exact issue_writes _ _ (ws := [(.rximr i, m)]) hr (by simp)

/-- Settles O29: RFFN is the count of groups of eight that hold the filters, less one. -/
theorem fifoOccupancy : Obligations.FifoOccupancy := by
  simp only [Obligations.FifoOccupancy, rffnFor, fifoOcc]
  refine ⟨fun n h1 h8 => ?oneGroup, fun n h9 h16 => ?twoGroups, fun n h1 => ⟨?covers, fun r hr => ?least⟩⟩
  all_goals omega

/-- Settles O34: the body is one return. -/
theorem defaultConfigReturned : Obligations.DefaultConfigReturned := fun _ hr =>
  issue_writes .getDefaultConfig _ (ws := []) hr (Nat.zero_le _)

end

section
/-! PROOFS. SET_RX_FIFO_CONFIG from Frozen (42 R304, R306, R307): the fields of CTRL2 and MCR, and the words of the
region's mailboxes. -/

namespace Sys2Proof.Machine

/-! ### What a list of field values reads back as -/

theorem getBit_eq_getField {f : Field} (hf : f.lo ≤ f.hi) (w : Word) : getBit f w = (getField f w).getLsbD 0 := by
  rw [getLsbD_getField, Nat.add_zero, decide_eq_true hf, Bool.true_and]
  rfl

theorem getBit_of_getField {f : Field} (hf : f.lo ≤ f.hi) {b : Bool} {w : Word}
    (h : getField f w = (if b then 1 else 0) &&& valueMask f) : getBit f w = b := by
  rw [getBit_eq_getField hf, h, BitVec.getLsbD_and, getLsbD_valueMask f (by decide), decide_eq_true (by omega),
    Bool.and_true]
  cases b <;> rfl

section PlainFields
variable {f : Field} (hf : FieldFits f) {fs : List (Field × Word)} (hfs : (fs.map Prod.fst).Pairwise FieldsApart)
include hf hfs

theorem getBit_plainFields_of_mem {b : Bool} (h : (f, if b then 1 else 0) ∈ fs) (w : Word) :
    getBit f (plainFields fs w) = b := getBit_of_getField hf.1 (getField_plainFields_of_mem hf hfs h w)

/-- A field into which a number that fits was put reads that number. -/
theorem toNat_getField_plainFields_of_mem {n : Nat} (h : (f, BitVec.ofNat 32 n) ∈ fs) (hn : n < 2 ^ (f.hi + 1 - f.lo))
    (w : Word) : (getField f (plainFields fs w)).toNat = n := by
  rw [getField_plainFields_of_mem hf hfs h, toNat_ofNat_and_valueMask hf hn]

end PlainFields

/-! ### Field writes of MCR and CTRL2 -/

/-- A core write of the field changes what it names: it has no RO-HW bit of MCR and not SOFTRST (20 R107). -/
abbrev McrWritable (f : Field) : Prop := ∀ b ∈ [20, 24, 25, 27], ¬ (f.lo ≤ b ∧ b ≤ f.hi)

theorem mcrAfterWrite_plainFields {fs : List (Field × Word)} (h : ∀ f ∈ fs.map Prod.fst, McrWritable f) (w : Word) :
    mcrAfterWrite w (plainFields fs w) = plainFields fs w := by
  have hkept {b : Nat} (hb : b ∈ [20, 24, 25, 27]) (h32 : b < 32) : (plainFields fs w).getLsbD b = w.getLsbD b :=
    getLsbD_plainFields_outside h32 (fun f hf => h f hf b hb) w
  apply BitVec.eq_of_getLsbD_eq
  intro k hk
  rw [getLsbD_mcrAfterWrite _ _ _ hk]
  split
  · next hro => exact (hkept (by simp; omega) hk).symm
  · split
    · next h25 => rw [hkept (by simp [h25]) hk, Bool.or_self]
    · rfl

/-- MCR with the fields of a list replaced. -/
def withMcrFields (fs : List (Field × Word)) (s : State) : State :=
  { s with regs := { s.regs with mcr := plainFields fs s.regs.mcr } }

/-- CTRL2 with the fields of a list replaced. -/
def withCtrl2Fields (fs : List (Field × Word)) (s : State) : State :=
  { s with regs := { s.regs with ctrl2 := plainFields fs s.regs.ctrl2 } }

theorem writeFields_mcr {fs : List (Field × Word)} (h : ∀ f ∈ fs.map Prod.fst, McrWritable f) (s : State) :
    writeFields .mcr (fs.map fun p => (p.1, .val p.2)) s.regs.mcr s = withMcrFields fs s := by
  have e := putFields_val (decide (Reg.mcr = .ctrl1) && decide (s.mode ≠ .frozen)) fs s.regs.mcr s (.inl rfl)
  simp only [writeFields]
  rw [e]
  simp only [writeReg, mcrAfterWrite_plainFields h, withMcrFields]

theorem writeFields_ctrl2 (fs : List (Field × Word)) (s : State) :
    writeFields .ctrl2 (fs.map fun p => (p.1, .val p.2)) s.regs.ctrl2 s = withCtrl2Fields fs s := by
  have e := putFields_val (decide (Reg.ctrl2 = .ctrl1) && decide (s.mode ≠ .frozen)) fs s.regs.ctrl2 s (.inl rfl)
  simp only [writeFields]
  rw [e]
  rfl

section Body
variable {k : Nat} {i : Instr} {rest : List Micro} {s t : State} (hs : FgFree s) (hq : Alone s)
include hs hq

theorem Reach.mcrFields {fs : List (Field × Word)} (hfs : ∀ f ∈ fs.map Prod.fst, McrWritable f)
    (h : Reach k (begin i rest (withMcrFields fs s)) t) :
    Reach (k + 2) (begin i (Machine.setFields .mcr (fs.map fun p => (p.1, .val p.2)) ++ rest) s) t := by
  rw [← writeFields_mcr hfs] at h
  exact .setFields hs hq (readReg_mcr s) h

theorem Reach.ctrl2Fields {fs : List (Field × Word)}
    (h : Reach k (begin i rest (withCtrl2Fields fs s)) t) :
    Reach (k + 2) (begin i (Machine.setFields .ctrl2 (fs.map fun p => (p.1, .val p.2)) ++ rest) s) t := by
  rw [← writeFields_ctrl2 fs] at h
  exact .setFields hs hq (readReg_ctrl2 s) h

end Body

/-! ### Writes of mailbox words -/

/-- The state with the mailbox words of a list taken from `vals`, and other notes on the move-ins. -/
def mbTaken (vals : Regs) (rs : List Reg) (mv : Vector (Option MoveIn) 32) (s : State) : State :=
  { s with regs := { s.regs with mb := (takeRegs vals rs s.regs).mb }, moveIn := mv }

theorem get_mbTaken (vals : Regs) (rs : List Reg) (mv : Vector (Option MoveIn) 32) (s : State) {r : Reg}
    (hr : ∃ i k, r = .mb i k) :
    (mbTaken vals rs mv s).regs.get r = if r ∈ rs then vals.get r else s.regs.get r := by
  obtain ⟨i, k, rfl⟩ := hr
  exact get_takeRegs vals rs s.regs (.mb i k)

theorem foldl_writeReg_mbTaken (vals : Regs) {rs : List Reg} (h : ∀ r ∈ rs, ∃ i k, r = .mb i k) (s : State) :
    ∃ mv, (rs.map fun r => (r, vals.get r)).foldl (fun s w => writeReg w.1 w.2 s) s = mbTaken vals rs mv s := by
  induction rs generalizing s with
  | nil => exact ⟨s.moveIn, rfl⟩
  | cons a t ih =>
    obtain ⟨⟨i, k, rfl⟩, ht⟩ := List.forall_mem_cons.1 h
    exact ih ht _

theorem Reach.mbWrites (vals : Regs) {rs : List Reg} (h : ∀ r ∈ rs, ∃ i k, r = .mb i k) (i : Instr) {s : State}
    (hs : FgFree s) (hq : Alone s) :
    ∃ mv, ∀ {k rest t}, Reach k (begin i rest (mbTaken vals rs mv s)) t →
      Reach (k + rs.length) (begin i (rs.map (fun r => .write r (vals.get r)) ++ rest) s) t := by
  obtain ⟨mv, e⟩ := foldl_writeReg_mbTaken vals h s
  refine ⟨mv, fun {k rest t} hr => ?_⟩
  rw [← e] at hr
  have hw := Reach.writes (rs.map fun r => (r, vals.get r)) s hs hq hr
  rw [List.length_map, List.map_map] at hw
  exact hw

/-! ### The filter words (42 R307) -/

/-- Mailboxes that hold the filter words. -/
def filterVals (c : FifoConfig) : Regs :=
  { Regs.reset with
    mb := Vector.ofFn fun i => ⟨filterWord c (4 * (i - 6)), filterWord c (4 * (i - 6) + 1),
      filterWord c (4 * (i - 6) + 2), filterWord c (4 * (i - 6) + 3)⟩ }

theorem get_filterVals (c : FifoConfig) {k : Nat} (hk : k < 104) : (filterVals c).get (filterReg k) = filterWord c k := by
  obtain ⟨q, r, hr, rfl⟩ : ∃ q r, r < 4 ∧ k = 4 * q + r := ⟨k / 4, k % 4, by omega, by omega⟩
  have hdiv : (4 * q + r) / 4 = q := by omega
  have hmod : (4 * q + r) % 4 = r := by omega
  have hlt : 6 + q < 32 := by omega
  simp only [filterReg, hdiv, hmod, Regs.get, bankGet, filterVals, Vector.getElem?_ofFn, hlt, dif_pos,
    Option.getD_some, Nat.add_sub_cancel_left]
  interval_cases r <;> rfl

/-- The registers of the filter words of RFFN = r. -/
def filterRegs (r : Nat) : List Reg := (List.range (8 * (r + 1))).map filterReg

theorem filterRegs_mb (r : Nat) : ∀ x ∈ filterRegs r, ∃ i k, x = .mb i k := by
  simp only [filterRegs, List.mem_map]
  rintro x ⟨k, -, rfl⟩
  exact ⟨_, _, rfl⟩

theorem writes_filterRegs (c : FifoConfig) {r : Nat} (hr : r ≤ 12) :
    (filterRegs r).map (fun x => Micro.write x ((filterVals c).get x))
      = (List.range (8 * (r + 1))).map fun k => .write (filterReg k) (filterWord c k) := by
  rw [filterRegs, List.map_map]
  refine List.map_congr_left fun k hk => ?_
  rw [List.mem_range] at hk
  rw [Function.comp_apply, get_filterVals c (by omega)]

/-- The filter words lie in mailboxes 6 to 7 + 2·RFFN. -/
theorem not_mem_filterRegs {r i : Nat} {k : MbWord} (h : i < 6 ∨ 7 + 2 * r < i) : .mb i k ∉ filterRegs r := by
  simp only [filterRegs, List.mem_map, List.mem_range, filterReg, Reg.mb.injEq]
  rintro ⟨j, hj, rfl, -⟩
  omega

/-! ### The mailboxes released (42 R302, R304) -/

/-- The registers of mailboxes 0 to n - 1. -/
def mbRegs (n : Nat) : List Reg := (List.range n).flatMap fun i => [.mb i .cs, .mb i .id, .mb i .data0, .mb i .data1]

theorem mem_mbRegs {n : Nat} {r : Reg} : r ∈ mbRegs n ↔ ∃ i k, i < n ∧ r = .mb i k := by
  simp only [mbRegs, List.mem_flatMap, List.mem_range, List.mem_cons, List.not_mem_nil, or_false]
  constructor
  · rintro ⟨i, hi, rfl | rfl | rfl | rfl⟩ <;> exact ⟨i, _, hi, rfl⟩
  · rintro ⟨i, k, hi, rfl⟩
    exact ⟨i, hi, by cases k <;> simp⟩

theorem length_mbRegs (n : Nat) : (mbRegs n).length = n * 4 := by simp [mbRegs, List.length_flatMap]

theorem reset_get_mb (i : Nat) (k : MbWord) : Regs.reset.get (.mb i k) = 0 := by
  by_cases h : i < 32
  · cases k <;> simp [Regs.reset, Regs.get, bankGet, Mb.get, h]
  · simp only [Regs.reset, Regs.get, bankGet, Vector.getElem?_eq_none (Nat.le_of_not_lt h)]
    cases k <;> rfl

theorem flatMap_clearMb (n : Nat) :
    (List.range n).flatMap clearMb = (mbRegs n).map fun r => .write r (Regs.reset.get r) := by
  simp only [mbRegs, List.map_flatMap, List.map_cons, List.map_nil, reset_get_mb]
  rfl

/-! ### The two bodies, run alone -/

/-- What FE1 puts into RFFN (42 R304). -/
def rffnField (c : FifoConfig) : Field × Word := (.rffn, BitVec.ofNat 32 (rffnFor c.idFilterNum))

/-- What FE4 puts into IDAM. -/
def idamField (c : FifoConfig) : Field × Word := (.idam, BitVec.ofNat 32 c.idFilterType.code)

/-- What FE5 puts into MRP. -/
def mrpField (c : FifoConfig) : Field × Word := (.mrp, if decide (c.priority = .mailboxFirst) then 1 else 0)

/-- What FE1 to FE4 leave (42 R304). -/
def fifoFiltered (c : FifoConfig) (mv : Vector (Option MoveIn) 32) (s : State) : State :=
  withMcrFields [idamField c]
    (mbTaken (filterVals c) (filterRegs (rffnFor c.idFilterNum)) mv (withCtrl2Fields [rffnField c] s))

/-- What FE1 to FE6 leave (42 R304). -/
def fifoEnabled (c : FifoConfig) (mv : Vector (Option MoveIn) 32) (s : State) : State :=
  withMcrFields [(.rfen, 1)] (withCtrl2Fields [mrpField c] (fifoFiltered c mv s))

theorem ctrl2_fifoEnabled (c : FifoConfig) (mv : Vector (Option MoveIn) 32) (s : State) :
    (fifoEnabled c mv s).regs.ctrl2 = plainFields [rffnField c, mrpField c] s.regs.ctrl2 := rfl

theorem mcr_fifoEnabled (c : FifoConfig) (mv : Vector (Option MoveIn) 32) (s : State) :
    (fifoEnabled c mv s).regs.mcr = plainFields [idamField c, (.rfen, 1)] s.regs.mcr := rfl

theorem get_mb_fifoEnabled (c : FifoConfig) (mv : Vector (Option MoveIn) 32) (s : State) {r : Reg}
    (hr : ∃ i k, r = .mb i k) :
    (fifoEnabled c mv s).regs.get r
      = if r ∈ filterRegs (rffnFor c.idFilterNum) then (filterVals c).get r else s.regs.get r := by
  obtain ⟨i, k, rfl⟩ := hr
  exact get_takeRegs _ _ _ (.mb i k)

/-- The region lies inside the mailboxes, so that RFFN is at most 12. -/
theorem rffnFor_le_of_fifoFits {c : FifoConfig} {g : Regs} (h : fifoFits c g = true) : rffnFor c.idFilterNum ≤ 12 := by
  simp only [fifoFits, Bool.and_eq_true, decide_eq_true_eq] at h
  obtain ⟨-, hregion⟩ := h
  have hmax : fifoOcc (rffnFor c.idFilterNum) ≤ 32 := hregion.trans (min_le_right _ _)
  rw [fifoOcc] at hmax
  omega

section Body
variable {s : State} (hr : Ready s)
include hr

/-- The body of an enable, alone. -/
theorem issue_fifoEnableBody (c : FifoConfig) (hn : rffnFor c.idFilterNum ≤ 12) :
    ∃ mv, issue (.setRxFifoConfig true) none (fifoEnableBody c ++ [.ret .unit]) s
      = .next (completed (.setRxFifoConfig true) .unit (fifoEnabled c mv s)) := by
  obtain ⟨mv, hwrites⟩ := Reach.mbWrites (filterVals c) (filterRegs_mb (rffnFor c.idFilterNum)) (.setRxFifoConfig true)
    (s := withCtrl2Fields [rffnField c] s) hr.fgFree hr.alone
  have hlen : (filterRegs (rffnFor c.idFilterNum)).length = 8 * (rffnFor c.idFilterNum + 1) := by simp [filterRegs]
  rw [writes_filterRegs c hn, hlen] at hwrites
  have hpriority : Reach 5 (begin (.setRxFifoConfig true) (setFields .ctrl2 ([mrpField c].map fun p => (p.1, .val p.2))
      ++ (setFields .mcr [(.rfen, oneVal)] ++ [.ret .unit])) (fifoFiltered c mv s)) _ :=
    .ctrl2Fields (s := fifoFiltered c mv s) hr.fgFree hr.alone
      (.mcrFields (fs := [(.rfen, 1)]) (s := withCtrl2Fields [mrpField c] (fifoFiltered c mv s)) hr.fgFree hr.alone
        (by decide) (.ret _ _ (fifoEnabled c mv s) hr.fgFree hr.alone))
  have hbody := Reach.ctrl2Fields hr.fgFree hr.alone (hwrites
    (.mcrFields (fs := [idamField c]) (s := mbTaken _ _ mv (withCtrl2Fields [rffnField c] s)) hr.fgFree hr.alone
      (show ∀ f ∈ [Field.idam], McrWritable f by decide) hpriority))
  refine ⟨mv, ?_⟩
  simp only [fifoEnableBody, List.append_assoc]
  exact issue_runs hr hbody (halted_completed _ _ _ hr.fgFree) (by omega)

/-- The body of a disable, alone. -/
theorem issue_fifoRelease (c : FifoConfig) :
    ∃ mv, issue (.setRxFifoConfig false) none (fifoBody false c ++ [.ret .unit]) s
      = .next (completed (.setRxFifoConfig false) .unit
          (mbTaken Regs.reset (mbRegs (min (7 + 2 * rffnOf s.regs.ctrl2) 31 + 1)) mv (mcrWith 29 false s))) := by
  obtain ⟨mv, hwrites⟩ := Reach.mbWrites Regs.reset (rs := mbRegs (min (7 + 2 * rffnOf s.regs.ctrl2) 31 + 1))
    (fun _ hx => by obtain ⟨i, k, -, rfl⟩ := mem_mbRegs.1 hx; exact ⟨i, k, rfl⟩) (.setRxFifoConfig false)
    (s := mcrWith 29 false s) hr.fgFree hr.alone
  rw [← flatMap_clearMb, length_mbRegs] at hwrites
  have h₁ := hwrites (Reach.ret (.setRxFifoConfig false) .unit _ hr.fgFree hr.alone)
  have h₂ := Reach.mcrBit 29 false hr.fgFree hr.alone (by decide) (by decide) (by decide) h₁
  have h₃ := Reach.fg (m := .read .ctrl2 .fd1) hr.fgFree hr.alone rfl rfl h₂
  exact ⟨mv, issue_runs hr h₃ (halted_completed _ _ _ hr.fgFree) (by omega)⟩

end Body

end Sys2Proof.Machine

open Sys2Proof Sys2Proof.Machine

/-- Settles O30: the fields of each register are apart, and no filter word is written twice. -/
theorem fifoEnableWrites : Obligations.FifoEnableWrites := by
  intro s c hr hc hfits hreq hf
  have hn := rffnFor_le_of_fifoFits hfits
  have hmcr : ([idamField c, (.rfen, 1)].map Prod.fst).Pairwise FieldsApart :=
    show [Field.idam, .rfen].Pairwise FieldsApart by decide
  have hctrl2 : ([rffnField c, mrpField c].map Prod.fst).Pairwise FieldsApart :=
    show [Field.rffn, .mrp].Pairwise FieldsApart by decide
  obtain ⟨mv, hrun⟩ := issue_fifoEnableBody hr c hn
  refine ⟨(fifoEnabled c mv s).regs, mv, ?run, rfl, ?rffn, ?mrp, fun k hk h24 h18 => ?ctrl2Kept, ?rfen, ?idam,
    fun k hk h29 h8 h9 => ?mcrKept, fun k hk => ?filter, fun i k hi => ?mbKept⟩
  case run =>
    have hV : s.fg.opnd.fifocfgV = c := by simp [OpRec.fifocfgV, hc]
    have hgiven : (true && s.fg.opnd.fifocfg.isNone) = false := by simp [hc]
    have hfit : (true && !fifoFits c s.regs) = false := by simp [hfits]
    change issue _ (firstBroken [(true && s.fg.opnd.fifocfg.isNone, .missingOperand), needFrozen s,
        (true && !fifoFits s.fg.opnd.fifocfgV s.regs, .invalidFifoConfig)])
      (gated s.par (fifoBody true s.fg.opnd.fifocfgV) ++ [.ret .unit]) s = _
    rw [hV, firstBroken_of_holds hgiven, firstBroken_needFrozen_frozen hf, firstBroken_of_holds hfit,
      gated_requireFrozen hreq]
    exact hrun
  case rffn =>
    exact toNat_getField_plainFields_of_mem (by decide) hctrl2 (List.mem_cons_self ..)
      (Nat.lt_of_le_of_lt hn (by decide)) _
  case mrp => exact getBit_plainFields_of_mem (by decide) hctrl2 (List.mem_cons_of_mem _ (List.mem_cons_self ..)) _
  case ctrl2Kept =>
    refine getLsbD_plainFields_outside hk (fs := [rffnField c, mrpField c])
      (List.forall_mem_cons.2 ⟨?_, List.forall_mem_singleton.2 ?_⟩) _
    · change ¬ (24 ≤ k ∧ k ≤ 27)
      omega
    · change ¬ (18 ≤ k ∧ k ≤ 18)
      omega
  case rfen =>
    exact getBit_plainFields_of_mem (by decide) hmcr (b := true) (List.mem_cons_of_mem _ (List.mem_cons_self ..)) _
  case idam =>
    exact toNat_getField_plainFields_of_mem (by decide) hmcr (List.mem_cons_self ..)
      (by cases c.idFilterType <;> decide) _
  case mcrKept =>
    refine getLsbD_plainFields_outside hk (fs := [idamField c, (.rfen, 1)])
      (List.forall_mem_cons.2 ⟨?_, List.forall_mem_singleton.2 ?_⟩) _
    · change ¬ (8 ≤ k ∧ k ≤ 9)
      omega
    · change ¬ (29 ≤ k ∧ k ≤ 29)
      omega
  case filter =>
    rw [get_mb_fifoEnabled c mv s (r := filterReg k) ⟨_, _, rfl⟩, filterRegs,
      if_pos (List.mem_map_of_mem (List.mem_range.2 hk)), get_filterVals c (by omega)]
  case mbKept => rw [get_mb_fifoEnabled c mv s ⟨i, k, rfl⟩, if_neg (not_mem_filterRegs hi)]

/-- Settles O31: the mailboxes of the region, as far as there are any, take the value 0 in every word. -/
theorem fifoDisableWrites : Obligations.FifoDisableWrites := by
  intro s hr hreq hf
  obtain ⟨mv, hrun⟩ := issue_fifoRelease hr s.fg.opnd.fifocfgV
  refine ⟨(mbTaken Regs.reset (mbRegs (min (7 + 2 * rffnOf s.regs.ctrl2) 31 + 1)) mv (mcrWith 29 false s)).regs, mv,
    ?run, rfl, fun i hi k => ?words⟩
  case run =>
    change issue _ (firstBroken [(false && s.fg.opnd.fifocfg.isNone, .missingOperand), needFrozen s,
        (false && !fifoFits s.fg.opnd.fifocfgV s.regs, .invalidFifoConfig)])
      (gated s.par (fifoBody false s.fg.opnd.fifocfgV) ++ [.ret .unit]) s = _
    rw [firstBroken_of_holds (Bool.false_and _), firstBroken_needFrozen_frozen hf,
      firstBroken_of_holds (Bool.false_and _), gated_requireFrozen hreq]
    exact hrun
  case words =>
    rw [get_mbTaken _ _ _ _ ⟨i, k, rfl⟩, reset_get_mb, get_mcrWith 29 false s (by simp)]
    refine if_congr ?_ rfl rfl
    simp only [mem_mbRegs, Reg.mb.injEq]
    constructor
    · rintro ⟨j, l, hj, rfl, -⟩
      omega
    · exact fun h => ⟨i, k, by omega, rfl, rfl⟩

end

section
/-! PROOFS. INIT, with the turns of FG and HW scheduled (42 R312, 70 R602). -/

namespace Sys2Proof.Machine

/-! ### Code that runs in listed turns of FG -/

/-- The state with the turns of `q` listed. -/
abbrev scheduled (q : List Move) (s : State) : State := { s with sched := q }

theorem FgFree.scheduled {s : State} (h : FgFree s) (q : List Move) : FgFree (scheduled q s) := h

/-- With n turns of FG listed, FG gets through `code` from `s` to `u`, whatever is pending and listed after it. -/
structure Takes (n : Nat) (code : List Micro) (s u : State) : Prop where
  run : ∀ {k i rest q t}, Reach k (begin i rest (scheduled q u)) t →
    Reach (k + n) (begin i (code ++ rest) (scheduled (List.replicate n Move.fg ++ q) s)) t

theorem Takes.append {m n : Nat} {c d : List Micro} {s u v : State} (h : Takes m c s u) (h' : Takes n d u v) :
    Takes (m + n) (c ++ d) s v := by
  refine ⟨fun hr => ?_⟩
  rw [List.replicate_add, List.append_assoc, List.append_assoc, Nat.add_comm m n, ← Nat.add_assoc]
  exact h.run (h'.run hr)

theorem Takes.reach {n k : Nat} {i : Instr} {code rest : List Micro} {q : List Move} {s u t : State}
    (h : Takes n code s u) (hq : s.sched = List.replicate n Move.fg ++ q) (hr : Reach k (begin i rest (scheduled q u)) t) :
    Reach (k + n) (begin i (code ++ rest) s) t := by
  have hr' := h.run hr
  rwa [scheduled, ← hq] at hr'

/-- An unbounded poll of MCR for a 0 spins through n turns while the bit is 1. -/
theorem Reach.spinTurns {k : Nat} {i : Instr} {rest : List Micro} {q : List Move} {s t : State} {f : Field} {a : AfterPoll}
    (n : Nat) (hs : FgFree s) (hf : getBit f s.regs.mcr = true)
    (h : Reach k (begin i (.poll .mcr f false none a :: rest) (scheduled q s)) t) :
    Reach (k + n) (begin i (.poll .mcr f false none a :: rest) (scheduled (List.replicate n Move.fg ++ q) s)) t := by
  induction n with
  | zero => exact h
  | succ n ih =>
    refine .fgTurn (m := .poll .mcr f false none a) (s := scheduled (.fg :: (List.replicate n Move.fg ++ q)) s)
      hs rfl rfl ?_
    simp only [micro, readReg_mcr, hf, Bool.true_eq_false, if_false]
    exact ih

/-- A listed step of HW. -/
theorem Reach.hwTurn {k : Nat} {i : Instr} {code : List Micro} {mv : HwMove} {q : List Move} {s u t : State} (hs : FgFree s)
    (hmv : hwStep mv (scheduled q s) = scheduled q u) (h : Reach k (begin i code (scheduled q u)) t) :
    Reach (k + 1) (begin i code (scheduled (.hw mv :: q) s)) t := by
  refine .hw (q := q) (hs.scheduled _) rfl ?_
  rw [← hmv, ← hwStep_begin] at h
  exact h

theorem hwStep_clearFrzack_scheduled (q : List Move) {s : State} (h : owes s .clearFrzack = true) :
    hwStep .clearFrzack (scheduled q s) = scheduled q (mcrWith 24 false s) := if_pos h

theorem hwStep_softReset_scheduled (vals : Regs) (q : List Move) {s : State} (h : getBit .softrst s.regs.mcr = true) :
    hwStep (.softReset vals) (scheduled q s) = scheduled q (softResetDone vals s) := if_pos h

theorem writeReg_sched (r : Reg) (w : Word) (s : State) (q : List Move) :
    writeReg r w (scheduled q s) = scheduled q (writeReg r w s) := by
  cases r <;> rfl

section Turns
variable {s : State} (hs : FgFree s)
include hs

theorem Takes.mcrBit (b : Nat) (v : Bool) (hb : b < 32) (h : b ≠ 27 ∧ b ≠ 24 ∧ b ≠ 20) (h25 : b = 25 → v = true) :
    Takes 2 (Machine.setFields .mcr [(⟨b, b⟩, .val (if v then 1 else 0))]) s (mcrWith b v s) :=
  ⟨fun {_ _ _ q _} hr => .mcrBitTurns (s := scheduled (.fg :: .fg :: q) s) hs b v rfl hb h h25 hr⟩

theorem Takes.mcrPoll {f : Field} {v : Bool} (b : Option Nat) (hv : getBit f s.regs.mcr = v) :
    Takes 1 [.poll .mcr f v b .done] s s :=
  ⟨fun {_ _ _ q _} hr => .mcrPollTurn (s := scheduled (.fg :: q) s) hs rfl hv hr⟩

/-- A field write of a register whose read is plain. -/
theorem Takes.setFields {r : Reg} {fs : List FieldWrite} {u : State}
    (hread : ∀ q, readReg r (scheduled q s) = (s.regs.get r, scheduled q s))
    (hwrite : ∀ q, writeFields r fs (s.regs.get r) (scheduled q s) = scheduled q u) :
    Takes 2 (Machine.setFields r fs) s u := by
  refine ⟨fun {k i rest q t} hr => ?_⟩
  rw [← hwrite q] at hr
  refine .readTurn (s := scheduled (.fg :: .fg :: q) s) hs rfl (hread (.fg :: q)) rfl ?_
  exact .fgTurn (m := .modify r fs (s.regs.get r)) (s := scheduled (.fg :: q) s) hs rfl rfl hr

theorem Takes.mcrFields {fs : List (Field × Word)} (hfs : ∀ f ∈ fs.map Prod.fst, McrWritable f) :
    Takes 2 (Machine.setFields .mcr (fs.map fun p => (p.1, .val p.2))) s (withMcrFields fs s) :=
  .setFields hs (fun _ => rfl) (fun q => writeFields_mcr hfs (scheduled q s))

theorem Takes.write (r : Reg) (w : Word) : Takes 1 [.write r w] s (writeReg r w s) := by
  refine ⟨fun {k i rest q t} hr => ?_⟩
  rw [← writeReg_sched] at hr
  exact .fgTurn (m := .write r w) (s := scheduled (.fg :: q) s) (hs.scheduled _) rfl rfl hr

end Turns

theorem Takes.writes (ws : List (Reg × Word)) {s : State} (hs : FgFree s) :
    Takes ws.length (ws.map fun p => .write p.1 p.2) s (ws.foldl (fun s p => writeReg p.1 p.2 s) s) := by
  induction ws generalizing s with
  | nil => exact ⟨fun hr => hr⟩
  | cons a ws ih =>
    rw [List.length_cons, Nat.add_comm]
    exact (Takes.write hs a.1 a.2).append (ih (micro_fgFree (.write a.1 a.2) s rfl hs))

/-! ### The bodies INIT calls -/

section Bodies
variable {s : State} (hs : FgFree s)
include hs

/-- RS1 to RS9, once the soft reset is complete. -/
theorem Takes.resetTail (hm : s.moveIn = Vector.replicate 32 none) (hsr : getBit .softrst s.regs.mcr = false) :
    Takes (40 + s.par.nrximr) (Machine.resetTail s.par) s (resetWrites s) := by
  have hw : (resetWords s.par).foldl (fun s w => writeReg w.1 w.2 s) (rs2Done s) = resetWrites s :=
    foldl_writeReg_reset (p := s.par) (s := rs2Done s) _ (fun _ hr => hr) hm
  have hwrites := Takes.writes (s := rs2Done s) (resetWords s.par) hs
  rw [hw, length_resetWords] at hwrites
  have hfields : Takes 2 (Machine.setFields .mcr ((resetFields s.par).map fun f => (f.1, .val f.2))) s (rs2Done s) :=
    .setFields hs (fun _ => rfl) (fun q => writeFields_resetFields (scheduled q s))
  have h := (Takes.mcrPoll hs none hsr).append (hfields.append hwrites)
  rwa [show 1 + (2 + (37 + s.par.nrximr)) = 40 + s.par.nrximr by omega] at h

/-- What EF0 to EF6 leave where MDIS is clear and HW has acknowledged. -/
abbrev freezeEntered (s : State) : State := mcrWith 28 true (mcrWith 30 true s)

theorem Takes.enterFreeze (hv : s.par.freezeVariant = .base) (hm : getBit .mdis s.regs.mcr = false)
    (hlp : getBit .lpmack s.regs.mcr = false) (hack : getBit .frzack s.regs.mcr = true) :
    Takes 7 (enterFreezeBody s.par) s (freezeEntered s) := by
  have hbit {f : Field} (hf : f.lo < 32) (hne : f.lo ≠ 30) :
      getBit f (mcrWith 30 true s).regs.mcr = getBit f s.regs.mcr :=
    (getBit_withBit _ _ (by decide) hf).trans (if_neg hne)
  have hack' : getBit .frzack (freezeEntered s).regs.mcr = true :=
    (getBit_withBit _ _ (by decide) (by decide)).trans ((hbit (by decide) (by decide)).trans hack)
  have hmdis : Takes 1 [.read .mcr .ef2] (mcrWith 30 true s) (mcrWith 30 true s) :=
    ⟨fun {_ _ _ q _} hr => .readTurn (s := scheduled (.fg :: q) (mcrWith 30 true s)) hs rfl rfl
      (afterRead_ef2_clear _ ((hbit (by decide) (by decide)).trans hm)) hr⟩
  have hlow := Takes.mcrPoll (s := mcrWith 30 true s) hs (some s.par.frzTimeout)
    ((hbit (f := .lpmack) (by decide) (by decide)).trans hlp)
  have hhalt := Takes.mcrBit (s := mcrWith 30 true s) hs 28 true (by decide) (by decide) (by decide)
  have hfrz := Takes.mcrBit hs 30 true (by decide) (by decide) (by decide)
  have h := (hfrz.append (hmdis.append hlow)).append
    (hhalt.append (Takes.mcrPoll (s := freezeEntered s) hs (some s.par.frzTimeout) hack'))
  rw [enterFreezeBody, if_pos hv]
  exact h

theorem Takes.clearFreeze : Takes 4 (Machine.setFields .mcr [(.halt, zeroVal)] ++ Machine.setFields .mcr [(.frz, zeroVal)]) s
    (freezeCleared s) :=
  (Takes.mcrBit hs 28 false (by decide) (by decide) (by decide)).append
    (Takes.mcrBit (s := mcrWith 28 false s) hs 30 false (by decide) (by decide) (by decide))

end Bodies

/-! ### The configuration (42 R312 IN4 to IN6) -/

/-- The fields of MCR that INIT writes. -/
def initMcrFields (c : ModuleConfig) : List (Field × Word) :=
  [(.maxmb, BitVec.ofNat 32 (c.maxMbNum - 1)), (.waksrc, if c.wakeupSrc then 1 else 0),
    (.slfwak, if c.enableSelfWakeup then 1 else 0), (.irmq, if c.enableIndividMask then 1 else 0),
    (.srxdis, if c.disableSelfReception then 1 else 0), (.doze, if c.enableDoze then 1 else 0)]

/-- The fields of CTRL1 that INIT writes before the table search's. -/
def initCtrl1Fields (c : ModuleConfig) : List (Field × Word) :=
  [(.clksrc, if c.clkSrc then 1 else 0), (.lpb, if c.enableLoopBack then 1 else 0),
    (.tsyn, if c.enableTimerSync then 1 else 0), (.lom, if c.enableListenOnlyMode then 1 else 0),
    (.rjw, BitVec.ofNat 32 c.timingConfig.rJumpWidth)]

/-- What IN4 and IN5 leave. -/
def initCtrl1Done (c : ModuleConfig) (s : State) : State :=
  { withMcrFields (initMcrFields c) s with
    regs := { (withMcrFields (initMcrFields c) s).regs with ctrl1 := plainFields (initCtrl1Fields c) s.regs.ctrl1 } }

/-- What IN4 to IN6 leave. -/
def configured (c : ModuleConfig) (b : BaudResult) (s : State) : State :=
  { s with
    regs := { s.regs with
      mcr := plainFields (initMcrFields c) s.regs.mcr
      ctrl1 := plainFields (initCtrl1Fields c ++ baudFields b s.draws) s.regs.ctrl1 }
    draws := s.draws + if b.presdiv = .draw then 1 else 0 }

theorem map_fst_initMcrFields (c : ModuleConfig) :
    (initMcrFields c).map Prod.fst = [.maxmb, .waksrc, .slfwak, .irmq, .srxdis, .doze] := rfl

theorem initMcrFields_writable (c : ModuleConfig) : ∀ f ∈ (initMcrFields c).map Prod.fst, McrWritable f := by
  rw [map_fst_initMcrFields]
  decide

/-- None of them holds LPMACK, SOFTRST or MDIS. -/
theorem getLsbD_initMcrFields_kept (c : ModuleConfig) (w : Word) {k : Nat} (h : k = 20 ∨ k = 25 ∨ k = 31) :
    (plainFields (initMcrFields c) w).getLsbD k = w.getLsbD k := by
  refine getLsbD_plainFields_outside (by omega) ?_ w
  rw [map_fst_initMcrFields]
  rcases h with rfl | rfl | rfl <;> decide

/-- Writable fields leave the mode Frozen. -/
theorem mode_withMcrFields_frozen {fs : List (Field × Word)} (hfs : ∀ f ∈ fs.map Prod.fst, McrWritable f) {s : State}
    (hf : s.mode = .frozen) : (withMcrFields fs s).mode = .frozen := by
  have hkept {b : Nat} (hb : b ∈ [20, 24, 25, 27]) (h32 : b < 32) :
      (plainFields fs s.regs.mcr).getLsbD b = s.regs.mcr.getLsbD b :=
    getLsbD_plainFields_outside h32 (fun f hf => hfs f hf b hb) _
  obtain ⟨hlp, hsr, hack⟩ := (mode_eq_frozen_iff s).1 hf
  exact (mode_eq_frozen_iff _).2 ⟨(hkept (by decide) (by decide)).trans hlp, (hkept (by decide) (by decide)).trans hsr,
    (hkept (by decide) (by decide)).trans hack⟩

/-- The mode being Frozen, the timing fields are written as they are (41 R264). -/
theorem Takes.configure (c : ModuleConfig) (b : BaudResult) {s : State} (hs : FgFree s) (hf : s.mode = .frozen) :
    Takes 6 (Machine.setFields .mcr ((initMcrFields c).map fun p => (p.1, .val p.2))
      ++ (Machine.setFields .ctrl1 ((initCtrl1Fields c).map fun p => (p.1, .val p.2)) ++ baudBody b)) s
      (configured c b s) := by
  have hf' := mode_withMcrFields_frozen (initMcrFields_writable c) hf
  have hmcr := Takes.mcrFields hs (initMcrFields_writable c)
  have hctrl1 : Takes 2 (Machine.setFields .ctrl1 ((initCtrl1Fields c).map fun p => (p.1, .val p.2)))
      (withMcrFields (initMcrFields c) s) (initCtrl1Done c s) :=
    .setFields (s := withMcrFields (initMcrFields c) s) hs (fun _ => rfl)
      fun q => writeFields_ctrl1_frozen (s := scheduled q (withMcrFields (initMcrFields c) s)) hf' _ _
  have hbaud : Takes 2 (baudBody b) (initCtrl1Done c s) (configured c b s) :=
    .setFields (s := initCtrl1Done c s) hs (fun _ => rfl)
      fun q => writeFields_baudBody (s := scheduled q (initCtrl1Done c s)) hf' b _
  exact hmcr.append (hctrl1.append hbaud)

/-! ### The whole body -/

/-- What IN0 to IN6 leave before the exit, HW completing the soft reset after RS0. -/
abbrev beforeExit (vals : Regs) (c : ModuleConfig) (b : BaudResult) (s : State) : State :=
  configured c b (freezeEntered (afterReset vals (mcrWith 31 false s)))

/-- What INIT leaves, HW completing the soft reset after RS0 and clearing FRZACK at the end. -/
def afterInit (vals : Regs) (c : ModuleConfig) (b : BaudResult) (s : State) : State :=
  mcrWith 24 false (freezeCleared (beforeExit vals c b s))

/-- IN0 to RS0: up to HW's completion of the soft reset. -/
def initHead : List Micro :=
  setFields .mcr [(.mdis, zeroVal)] ++ ([Micro.poll .mcr .lpmack false none .done] ++ setFields .mcr [(.softrst, oneVal)])

/-- RS1 to XF1: from there to the last poll. -/
def initTail (p : Params) (c : ModuleConfig) (b : BaudResult) : List Micro :=
  resetTail p ++ (enterFreezeBody p
    ++ ((setFields .mcr ((initMcrFields c).map fun p => (p.1, .val p.2))
        ++ (setFields .ctrl1 ((initCtrl1Fields c).map fun p => (p.1, .val p.2)) ++ baudBody b))
      ++ (setFields .mcr [(.halt, zeroVal)] ++ setFields .mcr [(.frz, zeroVal)])))

/-- The body leaves FG free and the supply as it was. -/
theorem beforeExit_free (vals : Regs) (c : ModuleConfig) (b : BaudResult) {s : State} (hs : FgFree s) :
    FgFree (freezeCleared (beforeExit vals c b s)) ∧ (freezeCleared (beforeExit vals c b s)).supply = s.supply := by
  cases s
  exact ⟨hs, rfl⟩

theorem initBody_eq (p : Params) (c : ModuleConfig) (b : BaudResult) (rest : List Micro) :
    initBody p c b ++ rest = initHead ++ (initTail p c b ++ Micro.poll .mcr .frzack false none .done :: rest) := by
  simp only [initBody, initHead, initTail, resetBody_eq, exitFreezeBody, List.append_assoc]
  rfl

section Init
variable {vals : Regs} {s : State} (hmcr : .mcr ∈ s.par.softrstSet) (hm : getBit .mdis vals.mcr = false)
  (hlp : getBit .lpmack vals.mcr = false) (hack : getBit .frzack vals.mcr = true)
include hmcr hm hlp hack

/-- The soft reset leaves the acknowledgement and the enabled module that HW drew. -/
theorem mcr_afterReset_drawn : getBit .mdis (afterReset vals s).regs.mcr = false
    ∧ getBit .lpmack (afterReset vals s).regs.mcr = false ∧ getBit .softrst (afterReset vals s).regs.mcr = false
    ∧ getBit .frzack (afterReset vals s).regs.mcr = true := by
  have hbit {k : Nat} (hk : k < 32) := getLsbD_mcr_reset vals s hk
  simp only [if_pos hmcr] at hbit
  exact ⟨(hbit (k := 31) (by decide)).trans hm, (hbit (k := 20) (by decide)).trans hlp, hbit (k := 25) (by decide),
    (hbit (k := 24) (by decide)).trans hack⟩

theorem frozen_freezeEntered : (freezeEntered (afterReset vals s)).mode = .frozen
    ∧ getBit .mdis (freezeEntered (afterReset vals s)).regs.mcr = false := by
  obtain ⟨hm', hlp', hsr', hack'⟩ := mcr_afterReset_drawn (s := s) hmcr hm hlp hack
  have hbit {f : Field} (hf : f.lo < 32) (h : f.lo ≠ 30 ∧ f.lo ≠ 28) :
      getBit f (freezeEntered (afterReset vals s)).regs.mcr = getBit f (afterReset vals s).regs.mcr :=
    (getBit_withBit _ _ (by decide) hf).trans ((if_neg h.2).trans
      ((getBit_withBit _ _ (by decide) hf).trans (if_neg h.1)))
  exact ⟨(mode_eq_frozen_iff _).2 ⟨(hbit (by decide) (by decide)).trans hlp', (hbit (by decide) (by decide)).trans hsr',
    (hbit (by decide) (by decide)).trans hack'⟩, (hbit (by decide) (by decide)).trans hm'⟩

theorem frozen_beforeExit (c : ModuleConfig) (b : BaudResult) :
    (beforeExit vals c b s).mode = .frozen ∧ getBit .mdis (beforeExit vals c b s).regs.mcr = false := by
  obtain ⟨hfrozen, hmdis⟩ := frozen_freezeEntered (s := mcrWith 31 false s) hmcr hm hlp hack
  exact ⟨mode_withMcrFields_frozen (initMcrFields_writable c) hfrozen,
    (getLsbD_initMcrFields_kept c _ (k := 31) (by decide)).trans hmdis⟩

/-- RS1 to RS9 and IN3 to XF1, once HW has completed the soft reset. -/
theorem Takes.initTail (c : ModuleConfig) (b : BaudResult) (hs : FgFree s) (hv : s.par.freezeVariant = .base) :
    Takes (40 + s.par.nrximr + (7 + (6 + 4))) (Machine.initTail s.par c b)
      (softResetDone vals (mcrWith 25 true (mcrWith 31 false s))) (freezeCleared (beforeExit vals c b s)) := by
  obtain ⟨hm', hlp', hsr', hack'⟩ := mcr_afterReset_drawn (s := mcrWith 31 false s) hmcr hm hlp hack
  have hreset := Takes.resetTail (s := softResetDone vals (mcrWith 25 true (mcrWith 31 false s))) hs rfl
    (getBit_softrst_softResetDone vals _)
  have henter := Takes.enterFreeze (s := afterReset vals (mcrWith 31 false s)) hs hv hm' hlp' hack'
  obtain ⟨hfrozen, -⟩ := frozen_freezeEntered (s := mcrWith 31 false s) hmcr hm hlp hack
  have hconf := Takes.configure c b (s := freezeEntered (afterReset vals (mcrWith 31 false s))) hs hfrozen
  exact hreset.append (henter.append (hconf.append (Takes.clearFreeze (s := beforeExit vals c b s) hs)))

/-- The body of Init, HW completing the soft reset after RS0 and clearing FRZACK after XF1. -/
theorem Reach.initTurns {k n : Nat} {i : Instr} {rest : List Micro} {t : State} (c : ModuleConfig) (b : BaudResult)
    (hs : FgFree s) (hsup : s.supply = .quiet) (hv : s.par.freezeVariant = .base)
    (hlow : getBit .lpmack s.regs.mcr = false)
    (hq : s.sched = List.replicate 5 Move.fg ++ (Move.hw (.softReset vals)
      :: (List.replicate (40 + s.par.nrximr + (7 + (6 + 4))) Move.fg
        ++ (List.replicate n Move.fg ++ [Move.hw .clearFrzack]))))
    (h : Reach k (begin i rest (scheduled [] (afterInit vals c b s))) t) :
    Reach (k + 2 + n + (40 + s.par.nrximr + (7 + (6 + 4))) + 1 + 5) (begin i (initBody s.par c b ++ rest) s) t := by
  obtain ⟨hfrozen, hmdis⟩ := frozen_beforeExit hmcr hm hlp hack c b
  obtain ⟨-, -, hset⟩ := (mode_eq_frozen_iff _).1 hfrozen
  have howes := owes_clearFrzack_freezeCleared hfrozen hmdis
  have hdone : getBit .frzack (afterInit vals c b s).regs.mcr = false := getBit_withBit _ _ (by decide) (by decide)
  obtain ⟨hexitFree, hexitSupply⟩ := beforeExit_free vals c b hs
  have h₁ : Reach (k + 1) (begin i (.poll .mcr .frzack false none .done :: rest) (scheduled [] (afterInit vals c b s))) t :=
    .mcrPollDone (s := scheduled [] (afterInit vals c b s)) (FgFree.scheduled (s := afterInit vals c b s) hexitFree [])
      ⟨rfl, hexitSupply.trans hsup⟩ none hdone h
  have h₂ := Reach.hwTurn hexitFree (hwStep_clearFrzack_scheduled [] howes) h₁
  have h₃ := Reach.spinTurns (s := freezeCleared (beforeExit vals c b s)) n hexitFree
    ((getBit_freezeCleared _ (by decide) (by decide)).trans hset) h₂
  have h₄ := (Takes.initTail hmcr hm hlp hack c b hs hv).run h₃
  have hsrst : getBit .softrst (mcrWith 25 true (mcrWith 31 false s)).regs.mcr = true :=
    getBit_withBit _ _ (by decide) (by decide)
  have hsrstFree : FgFree (mcrWith 25 true (mcrWith 31 false s)) := hs
  have h₅ := Reach.hwTurn hsrstFree (hwStep_softReset_scheduled vals _ hsrst) h₄
  have hlow' : getBit .lpmack (mcrWith 31 false s).regs.mcr = false :=
    (getBit_withBit _ _ (by decide) (by decide)).trans hlow
  have hhead : Takes 5 initHead s (mcrWith 25 true (mcrWith 31 false s)) :=
    (Takes.mcrBit hs 31 false (by decide) (by decide) (by decide)).append
    ((Takes.mcrPoll (s := mcrWith 31 false s) hs none hlow').append
      (Takes.mcrBit (s := mcrWith 31 false s) hs 25 true (by decide) (by decide) (by decide)))
  rw [initBody_eq]
  exact hhead.reach hq h₅

end Init

/-! ### The registers INIT leaves (70 R602) -/

/-- A field that does not hold bit b reads as before where bit b is set or cleared. -/
theorem getField_withBit {f : Field} {b : Nat} (v : Bool) (w : Word) (hf : f.hi < 32) (hb : b < 32)
    (h : f.hi < b ∨ b < f.lo) : getField f (withBit b v w) = getField f w := by
  rw [← putField_bit b v w hb]
  exact getField_putField_apart (g := ⟨b, b⟩) hf h _ w

/-- What IN3 to IN7 and HW's answer make of the MCR that RESET left. -/
abbrev initMcr (c : ModuleConfig) (w : Word) : Word :=
  withBit 24 false (withBit 30 false (withBit 28 false
    (plainFields (initMcrFields c) (withBit 28 true (withBit 30 true w)))))

section Mcr
variable {c : ModuleConfig} {w : Word}

/-- The fields of the Config are apart from one another, and from FRZ, HALT and FRZACK. -/
theorem initMcrFields_apart : ((initMcrFields c).map Prod.fst).Pairwise FieldsApart
    ∧ ∀ f ∈ (initMcrFields c).map Prod.fst, FieldFits f ∧ ∀ b ∈ [24, 28, 30], f.hi < b ∨ b < f.lo := by
  rw [map_fst_initMcrFields]
  decide

theorem getField_initMcr {f : Field} {x : Word} (h : (f, x) ∈ initMcrFields c) :
    getField f (initMcr c w) = x &&& valueMask f := by
  obtain ⟨hfs, hall⟩ := initMcrFields_apart (c := c)
  obtain ⟨hf, hbits⟩ := hall f (List.mem_map_of_mem h)
  rw [getField_withBit _ _ hf.2 (by decide) (hbits 24 (by decide)),
    getField_withBit _ _ hf.2 (by decide) (hbits 30 (by decide)),
    getField_withBit _ _ hf.2 (by decide) (hbits 28 (by decide)), getField_plainFields_of_mem hf hfs h]

theorem getBit_initMcr {f : Field} {b : Bool} (h : (f, if b then 1 else 0) ∈ initMcrFields c) :
    getBit f (initMcr c w) = b := by
  obtain ⟨-, hall⟩ := initMcrFields_apart (c := c)
  obtain ⟨⟨hle, -⟩, -⟩ := hall f (List.mem_map_of_mem h)
  exact getBit_of_getField hle (getField_initMcr h)

/-- INIT's writes leave LPMACK, SOFTRST and MDIS. -/
theorem getLsbD_initMcr_kept {k : Nat} (h : k = 20 ∨ k = 25 ∨ k = 31) : (initMcr c w).getLsbD k = w.getLsbD k := by
  have hkept (b : Nat) (v : Bool) (w : Word) (hb : b = 24 ∨ b = 28 ∨ b = 30) :
      (withBit b v w).getLsbD k = w.getLsbD k := by
    rw [getLsbD_withBit b v w k (by omega) (by omega), if_neg (by omega)]
  rw [hkept _ _ _ (by decide), hkept _ _ _ (by decide), hkept _ _ _ (by decide),
    getLsbD_initMcrFields_kept c _ h, hkept _ _ _ (by decide), hkept _ _ _ (by decide)]

/-- FRZACK, FRZ and HALT are clear at the end. -/
theorem initMcr_unfrozen : getBit .frzack (initMcr c w) = false ∧ getBit .frz (initMcr c w) = false
    ∧ getBit .halt (initMcr c w) = false := by
  have hbit {f : Field} (b : Nat) (v : Bool) (w : Word) (hf : f.lo < 32) (hb : b < 32) :=
    getBit_withBit (f := f) (b := b) v w hb hf
  refine ⟨hbit 24 _ _ (by decide) (by decide), ?frz, ?halt⟩
  case frz => exact (hbit 24 _ _ (by decide) (by decide)).trans (hbit 30 _ _ (by decide) (by decide))
  case halt =>
    exact (hbit 24 _ _ (by decide) (by decide)).trans ((hbit 30 _ _ (by decide) (by decide)).trans
      (hbit 28 _ _ (by decide) (by decide)))

theorem modeOf_initMcr (hlp : getBit .lpmack w = false) (hsr : getBit .softrst w = false) :
    modeOf (initMcr c w) = .normal := by
  obtain ⟨hack, hfrz, -⟩ := initMcr_unfrozen (c := c) (w := w)
  have hlp' : getBit .lpmack (initMcr c w) = false := (getLsbD_initMcr_kept (by decide)).trans hlp
  have hsr' : getBit .softrst (initMcr c w) = false := (getLsbD_initMcr_kept (by decide)).trans hsr
  simp only [modeOf, hlp', hsr', hack, hfrz, Bool.false_and, Bool.false_eq_true, if_false]

/-- The fields of the Config in MCR. -/
theorem initMcr_config (h1 : 1 ≤ c.maxMbNum) (h32 : c.maxMbNum ≤ 32) :
    (getField .maxmb (initMcr c w)).toNat + 1 = c.maxMbNum ∧ getBit .waksrc (initMcr c w) = c.wakeupSrc
      ∧ getBit .slfwak (initMcr c w) = c.enableSelfWakeup ∧ getBit .irmq (initMcr c w) = c.enableIndividMask
      ∧ getBit .srxdis (initMcr c w) = c.disableSelfReception ∧ getBit .doze (initMcr c w) = c.enableDoze := by
  refine ⟨?maxmb, getBit_initMcr (by simp [initMcrFields]), getBit_initMcr (by simp [initMcrFields]),
    getBit_initMcr (by simp [initMcrFields]), getBit_initMcr (by simp [initMcrFields]),
    getBit_initMcr (by simp [initMcrFields])⟩
  rw [getField_initMcr (x := BitVec.ofNat 32 (c.maxMbNum - 1)) (by simp [initMcrFields]),
    toNat_ofNat_and_valueMask (by decide) (show c.maxMbNum - 1 < 128 by omega)]
  omega

end Mcr

/-- What IN5 and IN6 make of CTRL1; a PRESDIV without an encoding is the n-th draw. -/
abbrev initCtrl1 (c : ModuleConfig) (b : BaudResult) (n : Nat) (w : Word) : Word :=
  plainFields (initCtrl1Fields c ++ baudFields b n) w

section Ctrl1
variable {c : ModuleConfig} {b : BaudResult} {n : Nat} {w : Word}

/-- The fields of CTRL1 that IN5 and IN6 write are apart. -/
theorem initCtrl1_apart : ((initCtrl1Fields c ++ baudFields b n).map Prod.fst).Pairwise FieldsApart :=
  show [Field.clksrc, .lpb, .tsyn, .lom, .rjw, .presdiv, .pseg1, .pseg2, .propseg].Pairwise FieldsApart by decide

/-- The fields of the Config in CTRL1. -/
theorem initCtrl1_config (hj : c.timingConfig.rJumpWidth ≤ 3) :
    getBit .clksrc (initCtrl1 c b n w) = c.clkSrc ∧ getBit .lpb (initCtrl1 c b n w) = c.enableLoopBack
      ∧ getBit .tsyn (initCtrl1 c b n w) = c.enableTimerSync ∧ getBit .lom (initCtrl1 c b n w) = c.enableListenOnlyMode
      ∧ (getField .rjw (initCtrl1 c b n w)).toNat = c.timingConfig.rJumpWidth :=
  ⟨getBit_plainFields_of_mem (by decide) initCtrl1_apart (by simp [initCtrl1Fields]) w,
    getBit_plainFields_of_mem (by decide) initCtrl1_apart (by simp [initCtrl1Fields]) w,
    getBit_plainFields_of_mem (by decide) initCtrl1_apart (by simp [initCtrl1Fields]) w,
    getBit_plainFields_of_mem (by decide) initCtrl1_apart (by simp [initCtrl1Fields]) w,
    toNat_getField_plainFields_of_mem (by decide) initCtrl1_apart (by simp [initCtrl1Fields]) (Nat.lt_succ_of_le hj) w⟩

/-- The timing fields of the table search in CTRL1. -/
theorem initCtrl1_baud (h1 : b.entry.s1 ≤ 7) (h2 : b.entry.s2 ≤ 7) (hp : b.entry.p ≤ 7)
    (hpre : ∀ x, b.presdiv = .val x → ∃ k < 256, x = BitVec.ofNat 32 k) :
    (getField .pseg1 (initCtrl1 c b n w)).toNat = b.entry.s1 ∧ (getField .pseg2 (initCtrl1 c b n w)).toNat = b.entry.s2
      ∧ (getField .propseg (initCtrl1 c b n w)).toNat = b.entry.p
      ∧ ∀ x, b.presdiv = .val x → getField .presdiv (initCtrl1 c b n w) = x := by
  refine ⟨toNat_getField_plainFields_of_mem (by decide) initCtrl1_apart (by simp [baudFields]) (Nat.lt_succ_of_le h1) w,
    toNat_getField_plainFields_of_mem (by decide) initCtrl1_apart (by simp [baudFields]) (Nat.lt_succ_of_le h2) w,
    toNat_getField_plainFields_of_mem (by decide) initCtrl1_apart (by simp [baudFields]) (Nat.lt_succ_of_le hp) w,
    fun x hx => ?_⟩
  obtain ⟨k, hk, rfl⟩ := hpre x hx
  refine BitVec.eq_of_toNat_eq ?_
  rw [toNat_getField_plainFields_of_mem (f := .presdiv) (by decide) initCtrl1_apart
    (by simp [baudFields, hx, presdivWord]) hk, BitVec.toNat_ofNat]
  omega

end Ctrl1

/-- The configuration writes MCR and CTRL1 alone. -/
theorem get_configured (c : ModuleConfig) (b : BaudResult) (s : State) {r : Reg} (hm : r ≠ .mcr) (h1 : r ≠ .ctrl1) :
    (configured c b s).regs.get r = s.regs.get r :=
  (Regs.get_set_ne (s.regs.set .mcr _) (plainFields (initCtrl1Fields c ++ baudFields b s.draws) s.regs.ctrl1)
    (Ne.symm h1)).trans (Regs.get_set_ne s.regs (plainFields (initMcrFields c) s.regs.mcr) (Ne.symm hm))

/-- Beside MCR and CTRL1, INIT leaves what RESET wrote. -/
theorem get_afterInit_of_mem {vals : Regs} {c : ModuleConfig} {b : BaudResult} {s : State} {r : Reg} (hm : r ≠ .mcr)
    (h1 : r ≠ .ctrl1) (h : r ∈ resetWritten s.par) : (afterInit vals c b s).regs.get r = (resetVals s.par).get r := by
  rw [afterInit, get_mcrWith _ _ _ hm, get_mcrWith _ _ _ hm, get_mcrWith _ _ _ hm, get_configured c b _ hm h1,
    get_mcrWith _ _ _ hm, get_mcrWith _ _ _ hm]
  exact (leftByReset vals (mcrWith 31 false s)).written r h

/-- INIT changes the registers and the draws, and ends what the soft reset ends (60 R521). -/
theorem afterInit_state (vals : Regs) (c : ModuleConfig) (b : BaudResult) {s : State} (hmcr : .mcr ∈ s.par.softrstSet) :
    scheduled [] (afterInit vals c b s)
      = { s with
          regs := (afterInit vals c b s).regs
          lock := none
          moveIn := Vector.replicate 32 none
          fifoq := []
          draws := (afterInit vals c b s).draws
          sched := [] } := by
  have hq : (afterInit vals c b s).fifoq = [] := if_pos (List.contains_iff_mem.2 hmcr)
  rw [← hq]
  cases s
  rfl

/-- INIT with its operands in order (42 R312). -/
theorem exec_init {s : State} {c : ModuleConfig} {clk : Word} (hc : s.fg.opnd.config = some c)
    (hk : s.fg.opnd.clk = some clk) (hmb : 1 ≤ c.maxMbNum ∧ c.maxMbNum ≤ 32) (hb0 : c.baudRate ≠ 0) (hk0 : clk ≠ 0)
    (hbk : c.baudRate.toNat * 25 < 2 ^ 32) (hj : c.timingConfig.rJumpWidth ≤ 3)
    (ha : s.handle.created = true → s.handle.armed = false) :
    exec .init s = issue .init none (initBody s.par c (tableSearch s.par.tqTable c.baudRate.toNat clk.toNat)
      ++ [Micro.ret (.found (tableSearch s.par.tqTable c.baudRate.toNat clk.toNat).found)]) s := by
  have hmax : (decide (c.maxMbNum < 1) || decide (Config.nmbHw < c.maxMbNum)) = false :=
    Bool.or_eq_false_iff.2 ⟨decide_eq_false hmb.1.not_gt, decide_eq_false hmb.2.not_gt⟩
  have hjump : decide (Config.rjwMax < c.timingConfig.rJumpWidth) = false := decide_eq_false hj.not_gt
  simp only [exec, execInit, configOf_of_some hc, OpRec.clkV_of_some hk]
  rw [firstBroken_needOperand_some hc, firstBroken_needOperand_some hk, firstBroken_of_holds hmax,
    firstBroken_needTimingInput_within hb0 hk0 hbk, firstBroken_of_holds hjump, firstBroken_needDisarmed_disarmed ha]
  rfl

end Sys2Proof.Machine

open Sys2Proof Sys2Proof.Machine

/-- Settles O35: the fields of MCR are apart from the bits of the freeze, and those of CTRL1 from one another; what the
soft reset drew keeps the mode Frozen while CTRL1 is written. -/
theorem initLeaves : Obligations.InitLeaves := by
  intro s vals c clk n hr hc hk hmb1 hmb32 hb0 hk0 hbk hj ha hw hn hv hmcr hlow hm hlp hack h100
  rw [exec_init hc hk ⟨hmb1, hmb32⟩ hb0 hk0 hbk hj ha]
  obtain ⟨hmem, hpre⟩ := tableSearch_fits hw c.baudRate.toNat clk.toNat
  generalize tableSearch s.par.tqTable c.baudRate.toNat clk.toNat = b at hmem hpre ⊢
  obtain ⟨-, -, hwf⟩ := tqTableWf_spec hw
  obtain ⟨-, hp, h1, h2⟩ := tqEntry_segments (hwf _ hmem)
  obtain ⟨hm', hlp', hsr', -⟩ := mcr_afterReset_drawn (s := mcrWith 31 false s) hmcr hm hlp hack
  obtain ⟨d, w, hctrl1⟩ : ∃ d w, (afterInit vals c b s).regs.ctrl1 = initCtrl1 c b d w := ⟨_, _, rfl⟩
  have hmcrEq : (afterInit vals c b s).regs.mcr = initMcr c (afterReset vals (mcrWith 31 false s)).regs.mcr := rfl
  have hctrl2 : (afterInit vals c b s).regs.get .ctrl2 = s.par.ctrl2Default :=
    get_afterInit_of_mem (by simp) (by simp) (by simp [mem_resetWritten])
  have hcs (i : Nat) (hi : i < 32) : (afterInit vals c b s).regs.get (.mb i .cs) = 0 :=
    (get_afterInit_of_mem (by simp) (by simp) (cs_mem_resetWritten _ hi)).trans (resetVals_get_cs _ _)
  generalize (afterReset vals (mcrWith 31 false s)).regs.mcr = v at hm' hlp' hsr' hmcrEq
  obtain ⟨-, hfrz, hhalt⟩ := initMcr_unfrozen (c := c) (w := v)
  obtain ⟨hmax, hwak, hslf, hirmq, hsrx, hdoze⟩ := initMcr_config (w := v) hmb1 hmb32
  obtain ⟨hclk, hlpb, htsyn, hlom, hrjw⟩ := initCtrl1_config (b := b) (n := d) (w := w) hj
  obtain ⟨hs1, hs2, hprop, hpresdiv⟩ := initCtrl1_baud (c := c) (n := d) (w := w) h1 h2 hp hpre
  refine ⟨(afterInit vals c b s).regs, (afterInit vals c b s).draws, ?run, ?regs⟩
  case run =>
    obtain ⟨m, rfl⟩ : ∃ m, n = 40 + s.par.nrximr + (7 + (6 + 4)) + m :=
      ⟨n - (40 + s.par.nrximr + (7 + (6 + 4))), by omega⟩
    have ⟨_, _, hq, hsup⟩ := hr
    have hrun := Reach.initTurns (n := m) hmcr hm hlp hack c b hr.fgFree hsup hv hlow
      (by rw [hq, List.replicate_add, List.append_assoc, List.append_assoc]; rfl)
      (by rw [afterInit_state vals c b hmcr]; exact Reach.ret .init (.found b.found) _ hr.fgFree ⟨rfl, hsup⟩)
    refine issue_runs hr hrun (halted_completed _ _ _ hr.fgFree) ?_
    simp only [List.length_append, List.length_replicate, List.length_cons, List.length_nil]
    omega
  case regs =>
    rw [maxMb, hmcrEq, hctrl1]
    exact ⟨modeOf_initMcr hlp' hsr', (getLsbD_initMcr_kept (by decide)).trans hm', hfrz, hhalt, hmax, hwak, hslf, hirmq,
      hsrx, hdoze, hclk, hlpb, htsyn, hlom, hrjw, hs1, hs2, hprop, hpresdiv, hctrl2, hcs⟩

end

section
/-! PROOFS. READ_RX_MB, READ_RX_FIFO, RECEIVE_BLOCKING and RECEIVE_FIFO_BLOCKING, run alone (43 R343, R344, R346, R347).
What the reads give, stored words or draws, is a premise of the bodies' runs. -/

namespace Sys2Proof.Machine

/-! ### Reads of a mailbox -/

/-- What reads of registers leave: the lock and the count of draws. -/
def afterReads (l : Option Nat) (n : Nat) (s : State) : State := { s with lock := l, draws := n }

/-- The reads of the four words of mailbox j in their order give these words, each read with d draws. -/
structure MbReads (j d : Nat) (s : State) (c w d0 d1 : Word) : Prop where
  cs : readReg (.mb j .cs) s = (c, afterReads (some j) (s.draws + d) s)
  id : readReg (.mb j .id) (afterReads (some j) (s.draws + d) s) = (w, afterReads (some j) (s.draws + 2 * d) s)
  data0 : readReg (.mb j .data0) (afterReads (some j) (s.draws + 2 * d) s)
    = (d0, afterReads (some j) (s.draws + 3 * d) s)
  data1 : readReg (.mb j .data1) (afterReads (some j) (s.draws + 3 * d) s)
    = (d1, afterReads (some j) (s.draws + 4 * d) s)

theorem mbReads_shown {j : Nat} {s : State} (h : headHidden j s = false) (hb : mbBusy j s = false) :
    MbReads j 0 s (s.regs.get (.mb j .cs)) (s.regs.get (.mb j .id)) (s.regs.get (.mb j .data0))
      (s.regs.get (.mb j .data1)) where
  cs := readReg_cs j s h
  id := readReg_word j .id (afterReads (some j) s.draws s) (by simp) h hb
  data0 := readReg_word j .data0 (afterReads (some j) s.draws s) (by simp) h hb
  data1 := readReg_word j .data1 (afterReads (some j) s.draws s) (by simp) h hb

/-- The CS word of a hidden FIFO word reads as a draw, and its read takes the lock. -/
theorem readReg_cs_hidden {j : Nat} {s : State} (h : headHidden j s = true) :
    readReg (.mb j .cs) s = (Config.freeWord s.draws, afterReads (some j) (s.draws + 1) s) := by
  simp only [readReg, h, readOrDraw, if_true]
  rfl

/-- The other words of a hidden FIFO word read as draws. -/
theorem readReg_word_hidden {j : Nat} {k : MbWord} {s : State} (hk : k ≠ .cs) (h : headHidden j s = true) :
    readReg (.mb j k) s = drawWord s := by
  cases k with
  | cs => exact absurd rfl hk
  | id => simp only [readReg, h, Bool.true_or, readOrDraw, if_true]
  | data0 => simp only [readReg, h, Bool.true_or, readOrDraw, if_true]
  | data1 => simp only [readReg, h, Bool.true_or, readOrDraw, if_true]

theorem mbReads_hidden {j : Nat} {s : State} (h : headHidden j s = true) :
    MbReads j 1 s (Config.freeWord s.draws) (Config.freeWord (s.draws + 1)) (Config.freeWord (s.draws + 2))
      (Config.freeWord (s.draws + 3)) where
  cs := readReg_cs_hidden h
  id := readReg_word_hidden (s := afterReads (some j) (s.draws + 1) s) (by simp) h
  data0 := readReg_word_hidden (s := afterReads (some j) (s.draws + 2) s) (by simp) h
  data1 := readReg_word_hidden (s := afterReads (some j) (s.draws + 3) s) (by simp) h

/-- A CS word with a code of a frame received (43 R343 RR1). -/
abbrev Received (c : Word) : Prop := codeOf c = Config.rxFull ∨ codeOf c = Config.rxOverrun

/-- Neither code is a busy one. -/
theorem mbBusy_of_received {j : Nat} {s : State} (h : Received (s.regs.get (.mb j .cs))) : mbBusy j s = false := by
  rw [mbBusy]
  rcases h with h | h <;> rw [h] <;> decide

/-! ### Writes of IFLAG1 -/

/-- The state with flag j of IFLAG1 cleared, and no head removed. -/
def withoutFlag (j : Nat) (s : State) : State :=
  { s with regs := { s.regs with iflag1 := s.regs.iflag1 &&& ~~~ oneBit j } }

/-- Clearing a flag that is not FIFO_AVAIL, or any flag with the FIFO off, removes no head (20 R106). -/
theorem writeReg_iflag1_noPop {j : Nat} {s : State} (hj : j < 32) (h : getBit .rfen s.regs.mcr = true → j ≠ 5) :
    writeReg .iflag1 (oneBit j) s = withoutFlag j s := by
  have hpop : (getBit .rfen s.regs.mcr && fifoAvail s.regs && (oneBit j).getLsbD Config.fifoAvail) = false := by
    cases hr : getBit .rfen s.regs.mcr with
    | false => rfl
    | true =>
      have hbit : (oneBit j).getLsbD Config.fifoAvail = false :=
        (getLsbD_oneBit j _ hj).trans (decide_eq_false (h hr).symm)
      rw [hbit, Bool.and_false]
  simp only [writeReg, writeIflag, hpop, Bool.false_eq_true, if_false, withoutFlag]

/-- Clearing FIFO_AVAIL with the FIFO on removes the head (20 R106). -/
theorem writeReg_iflag1_pop {s : State} (hr : getBit .rfen s.regs.mcr = true) (ha : fifoAvail s.regs = true) :
    writeReg .iflag1 (oneBit Config.fifoAvail) s = { withoutFlag 5 s with fifoq := s.fifoq.tail } := by
  have hbit : (oneBit Config.fifoAvail).getLsbD Config.fifoAvail = true := by decide
  simp only [writeReg, writeIflag, hr, ha, hbit, Bool.and_self, if_true]
  rfl

/-! ### The bodies, run alone -/

section Bodies
variable {k : Nat} {i : Instr} {rest : List Micro} {s t : State} (hs : FgFree s) (hq : Alone s)
include hs hq

theorem Reach.readAlone {r : Reg} {a : AfterRead} {v : Word} {u : State} (hread : readReg r s = (v, u))
    (h : Reach k (begin i (afterRead s.par a v ++ rest) u) t) : Reach (k + 1) (begin i (.read r a :: rest) s) t := by
  refine .fg hs hq rfl rfl ?_
  simp only [micro, hread]
  exact h

theorem Reach.writeAlone {r : Reg} {w : Word} {u : State} (hw : writeReg r w s = u)
    (h : Reach k (begin i rest u) t) : Reach (k + 1) (begin i (.write r w :: rest) s) t := by
  subst hw
  exact .fg hs hq rfl rfl h

/-- A poll of IFLAG1 for a flag that is set. -/
theorem Reach.flagPoll {j : Nat} (hj : s.regs.iflag1.getLsbD j = true) (h : Reach k (begin i rest s) t) :
    Reach (k + 1) (begin i (.poll .iflag1 (Field.ofBit j) true none .done :: rest) s) t :=
  .pollDone hs hq (readReg_iflag1 s) hj h

/-- RR2 to RR7: with a code of a frame received, the frame is stored (43 R343). -/
theorem Reach.readRxReceived {j d : Nat} {ref : FrameRef} {c w d0 d1 : Word} (hc : Received c)
    (hr : MbReads j d s c w d0 d1)
    (h : Reach k (begin i (readRxDone j .own c ++ rest)
      (writeFrame ref (frameOf s.par c w d0 d1) (afterReads none (s.draws + 4 * d) s))) t) :
    Reach (k + 6) (begin i (readRxBody j (some ref) .own ++ rest) s) t := by
  have hfull : afterRead s.par (.rr1 j (some ref) .own) c = [.read (.mb j .id) (.rr3 j (some ref) .own c)] := if_pos hc
  refine .readAlone hs hq hr.cs ?_
  rw [hfull]
  refine .readAlone (s := afterReads (some j) (s.draws + d) s) hs hq hr.id ?_
  refine .readAlone (s := afterReads (some j) (s.draws + 2 * d) s) hs hq hr.data0 ?_
  refine .readAlone (s := afterReads (some j) (s.draws + 3 * d) s) hs hq hr.data1 ?_
  refine .readAlone (s := afterReads (some j) (s.draws + 4 * d) s) hs hq (readReg_timer _) ?_
  exact .fg (m := .writeFrame ref _) (s := afterReads none (s.draws + 4 * d) s) hs hq rfl rfl h

/-- RR8 and RR9: with any other code nothing is stored (43 R343). -/
theorem Reach.readRxFailed {j d : Nat} {ref : Option FrameRef} {c : Word} (hc : ¬ Received c)
    (hr : readReg (.mb j .cs) s = (c, afterReads (some j) (s.draws + d) s))
    (h : Reach k (begin i (readRxFailed j .own ++ rest) (afterReads none (s.draws + d) s)) t) :
    Reach (k + 2) (begin i (readRxBody j ref .own ++ rest) s) t := by
  have hother : afterRead s.par (.rr1 j ref .own) c = [.read .timer (.rr9 j .own)] := if_neg hc
  refine .readAlone hs hq hr ?_
  rw [hother]
  exact .readAlone (s := afterReads (some j) (s.draws + d) s) hs hq (readReg_timer _) h

/-- RF2 to RF9: with the FIFO on, the frame of the words read is stored (43 R344). -/
theorem Reach.readFifo {d : Nat} {ref : FrameRef} {call : FifoCall} {c w d0 d1 hit : Word}
    (hon : getBit .rfen s.regs.mcr = true) (hr : MbReads 0 d s c w d0 d1)
    (hhit : readReg .rxfir (afterReads (some 0) (s.draws + 4 * d) s)
      = (hit, afterReads (some 0) (s.draws + 5 * d) s))
    (h : Reach k (begin i (readFifoDone call c hit ++ rest)
      (writeFrame ref (frameOf s.par c w d0 d1) (afterReads none (s.draws + 5 * d) s))) t) :
    Reach (k + 8) (begin i (readFifoBody (some ref) call ++ rest) s) t := by
  have hcs : afterRead s.par (.rf1 (some ref) call) s.regs.mcr = [.read (.mb 0 .cs) (.rf3 (some ref) call)] :=
    if_pos hon
  refine .readAlone hs hq (readReg_mcr s) ?_
  rw [hcs]
  refine .readAlone hs hq hr.cs ?_
  refine .readAlone (s := afterReads (some 0) (s.draws + d) s) hs hq hr.id ?_
  refine .readAlone (s := afterReads (some 0) (s.draws + 2 * d) s) hs hq hr.data0 ?_
  refine .readAlone (s := afterReads (some 0) (s.draws + 3 * d) s) hs hq hr.data1 ?_
  refine .readAlone (s := afterReads (some 0) (s.draws + 4 * d) s) hs hq hhit ?_
  refine .readAlone (s := afterReads (some 0) (s.draws + 5 * d) s) hs hq (readReg_timer _) ?_
  exact .fg (m := .writeFrame ref _) (s := afterReads none (s.draws + 5 * d) s) hs hq rfl rfl h

/-- RF1: with the FIFO off the read fails (43 R344). -/
theorem Reach.readFifoOff {ref : Option FrameRef} {call : FifoCall} (hoff : getBit .rfen s.regs.mcr = false)
    (h : Reach k (begin i (readFifoFailed call ++ rest) s) t) :
    Reach (k + 1) (begin i (readFifoBody ref call ++ rest) s) t := by
  have hfail : afterRead s.par (.rf1 ref call) s.regs.mcr = readFifoFailed call := if_neg (by simp [hoff])
  refine .readAlone hs hq (readReg_mcr s) ?_
  rw [hfail]
  exact h

/-- What READ_RX_MB leaves of the words read, each with d draws (43 R343). -/
def readRxEnd (cmd : Instr) (ref : FrameRef) (d : Nat) (c w d0 d1 : Word) (s : State) : State :=
  if Received c then
    completed cmd (.status (if codeOf c = Config.rxFull then .success else .rxOverflow))
      (writeFrame ref (frameOf s.par c w d0 d1) (afterReads none (s.draws + 4 * d) s))
  else completed cmd (.status .fail) (afterReads none (s.draws + d) s)

/-- The body of READ_RX_MB, to its return. -/
theorem Reach.readRx {cmd : Instr} {j d : Nat} {ref : FrameRef} {c w d0 d1 : Word}
    (hcs : readReg (.mb j .cs) s = (c, afterReads (some j) (s.draws + d) s))
    (hr : Received c → MbReads j d s c w d0 d1) :
    ∃ n ≤ 7, Reach n (begin cmd (readRxBody j (some ref) .own) s) (readRxEnd cmd ref d c w d0 d1 s) := by
  by_cases hc : Received c
  · rw [readRxEnd, if_pos hc]
    exact ⟨7, le_rfl, .readRxReceived (rest := []) hs hq hc (hr hc)
      (.ret cmd _ (writeFrame ref (frameOf s.par c w d0 d1) (afterReads none (s.draws + 4 * d) s)) hs hq)⟩
  · rw [readRxEnd, if_neg hc]
    exact ⟨3, by omega, .readRxFailed (rest := []) hs hq hc hcs
      (.ret cmd (.status .fail) (afterReads none (s.draws + d) s) hs hq)⟩

end Bodies

theorem halted_readRxEnd (cmd : Instr) (ref : FrameRef) (d : Nat) (c w d0 d1 : Word) {s : State} (hs : FgFree s) :
    halted (readRxEnd cmd ref d c w d0 d1 s) = true := by
  rw [readRxEnd]
  split
  · exact halted_completed _ _ _ hs
  · exact halted_completed _ _ _ hs

/-- The body of READ_RX_MB, run alone. -/
theorem issue_readRx (cmd : Instr) {j d : Nat} (ref : FrameRef) {c w d0 d1 : Word} {s : State} (hr : Ready s)
    (hcs : readReg (.mb j .cs) s = (c, afterReads (some j) (s.draws + d) s))
    (hw : Received c → MbReads j d s c w d0 d1) :
    issue cmd none (readRxBody j (some ref) .own) s = .next (readRxEnd cmd ref d c w d0 d1 s) := by
  obtain ⟨n, hn, hrun⟩ := Reach.readRx (cmd := cmd) (ref := ref) hr.fgFree hr.alone hcs hw
  exact issue_runs hr hrun (halted_readRxEnd _ _ _ _ _ _ _ hr.fgFree) (by omega)

/-! ### The commands -/

theorem OpRec.outV_of_some {o : OpRec} {r : FrameRef} (h : o.out = some r) : o.outV = r := by simp [OpRec.outV, h]

section Commands
variable {s : State} {out : FrameRef} (ho : s.fg.opnd.out = some out)
include ho

theorem firstBroken_readChecks {j : Nat} (h : j ≤ maxMb s.regs) (h32 : j < 32) :
    firstBroken (readChecks j s) = none := by
  rw [readChecks, firstBroken_needIdx_within h h32, firstBroken_needOperand_some ho]
  rfl

theorem exec_readRxMb {j : Nat} (h : j ≤ maxMb s.regs) (h32 : j < 32) :
    exec (.readRxMb j) s = issue (.readRxMb j) none (readRxBody j (some out) .own) s := by
  change issue _ (firstBroken (readChecks j s)) (readRxBody j (some s.fg.opnd.outV) .own) s = _
  rw [firstBroken_readChecks ho h h32, OpRec.outV_of_some ho]

theorem exec_receiveBlocking {j : Nat} (h : j ≤ maxMb s.regs) (h32 : j < 32) :
    exec (.receiveBlocking j) s = issue (.receiveBlocking j) none
      (.poll .iflag1 (Field.ofBit j) true none .done :: .write .iflag1 (oneBit j)
        :: readRxBody j (some out) .own) s := by
  change issue _ (firstBroken (readChecks j s)) (_ :: _ :: readRxBody j (some s.fg.opnd.outV) .own) s = _
  rw [firstBroken_readChecks ho h h32, OpRec.outV_of_some ho]

theorem exec_readRxFifo : exec .readRxFifo s = issue .readRxFifo none (readFifoBody (some out) .own) s := by
  change issue _ (firstBroken [needOperand s.fg.opnd.out]) (readFifoBody (some s.fg.opnd.outV) .own) s = _
  rw [firstBroken_needOperand_some ho, OpRec.outV_of_some ho]
  rfl

theorem exec_receiveFifoBlocking :
    exec .receiveFifoBlocking s = issue .receiveFifoBlocking none
      (.poll .iflag1 (Field.ofBit Config.fifoAvail) true none .done :: readFifoBody (some out) .blocking) s := by
  change issue _ (firstBroken [needOperand s.fg.opnd.out]) (_ :: readFifoBody (some s.fg.opnd.outV) .blocking) s = _
  rw [firstBroken_needOperand_some ho, OpRec.outV_of_some ho]
  rfl

end Commands

/-! ### The head of the FIFO -/

/-- A mailbox above the words of the head, or any with the FIFO off, reads as stored (60 R524). -/
theorem headHidden_of_above {j : Nat} {s : State} (h : getBit .rfen s.regs.mcr = true → 5 < j) :
    headHidden j s = false := by
  rw [headHidden]
  cases hon : getBit .rfen s.regs.mcr with
  | false => rfl
  | true => rw [decide_eq_false (h hon).not_ge, Bool.and_false, Bool.false_and]

theorem headHidden_of_noHead {j : Nat} {s : State} (h : noHead s = false) : headHidden j s = false := by
  rw [headHidden, h, Bool.and_false]

theorem headHidden_zero {s : State} (hon : getBit .rfen s.regs.mcr = true) (h : noHead s = true) :
    headHidden 0 s = true := by
  rw [headHidden, hon, h]
  rfl

theorem readReg_rxfir_shown {s : State} (h : noHead s = false) : readReg .rxfir s = (s.regs.rxfir, s) := by
  simp only [readReg, h, readOrDraw, Bool.false_eq_true, if_false]
  rfl

theorem readReg_rxfir_hidden {s : State} (h : noHead s = true) : readReg .rxfir s = drawWord s := by
  simp only [readReg, h, readOrDraw, if_true]

theorem fifoAvail_of_head {s : State} (h : noHead s = false) : fifoAvail s.regs = true := by
  simpa using (Bool.or_eq_false_iff.1 h).2

/-- What READ_RX_FIFO leaves where the head is shown (43 R344). -/
def headRead (out : FrameRef) (s : State) : State := writeFrame out (frameAt 0 s) (afterReads none s.draws s)

end Sys2Proof.Machine

open Sys2Proof Sys2Proof.Machine

/-- Settles O39: the words read, stored or drawn, decide the end of the one body. -/
theorem readRxMbReturns : Obligations.ReadRxMbReturns := by
  intro s j out hr h h32 ho
  rw [exec_readRxMb ho h h32]
  refine ⟨fun hshown => ?_, fun hhidden => ?_⟩
  · exact issue_readRx _ out hr (readReg_cs j s hshown) fun hc => mbReads_shown hshown (mbBusy_of_received hc)
  · exact issue_readRx _ out hr (readReg_cs_hidden hhidden) fun _ => mbReads_hidden hhidden

/-- Settles O40: the words read, stored or drawn, are those of the frame stored. -/
theorem readRxFifoReturns : Obligations.ReadRxFifoReturns := by
  intro s out hr ho
  rw [exec_readRxFifo ho]
  have hs := hr.fgFree
  have hq := hr.alone
  refine ⟨fun hoff => ?off, fun hon hhead hbusy => ?shown, fun hon hno => ?hidden⟩
  case off =>
    exact issue_runs hr (.readFifoOff (rest := []) hs hq hoff (.ret _ _ s hs hq)) (halted_completed _ _ _ hs) (by omega)
  case shown =>
    exact issue_runs hr
      (.readFifo (rest := []) hs hq hon (mbReads_shown (headHidden_of_noHead hhead) hbusy)
        (readReg_rxfir_shown (s := afterReads (some 0) s.draws s) hhead)
        (.ret _ _ (headRead out s) hs hq))
      (halted_completed _ _ _ hs) (by omega)
  case hidden =>
    exact issue_runs hr
      (.readFifo (rest := []) hs hq hon (mbReads_hidden (headHidden_zero hon hno))
        (readReg_rxfir_hidden (s := afterReads (some 0) (s.draws + 4) s) hno)
        (.ret _ _ (writeFrame out _ (afterReads none (s.draws + 5) s)) hs hq))
      (halted_completed _ _ _ hs) (by omega)

/-- Settles O42: the poll ends at once, and the read begins with the flag cleared. -/
theorem receiveBlockingReturns : Obligations.ReceiveBlockingReturns := by
  intro s j out hr h h32 ho habove hflag
  have hs := hr.fgFree
  have hq := hr.alone
  have hshown : headHidden j (withoutFlag j s) = false := headHidden_of_above habove
  have hcs : readReg (.mb j .cs) (withoutFlag j s)
      = (s.regs.get (.mb j .cs), afterReads (some j) s.draws (withoutFlag j s)) := readReg_cs j _ hshown
  have hwords (hc : Received (s.regs.get (.mb j .cs))) : MbReads j 0 (withoutFlag j s) (s.regs.get (.mb j .cs))
      (s.regs.get (.mb j .id)) (s.regs.get (.mb j .data0)) (s.regs.get (.mb j .data1)) :=
    mbReads_shown hshown (mbBusy_of_received (s := withoutFlag j s) hc)
  obtain ⟨n, hn, hbody⟩ :=
    Reach.readRx (s := withoutFlag j s) (cmd := .receiveBlocking j) (d := 0) (ref := out) hs hq hcs hwords
  have hrun := Reach.flagPoll hs hq hflag
    (.writeAlone hs hq (writeReg_iflag1_noPop h32 fun hon => (habove hon).ne') hbody)
  rw [exec_receiveBlocking ho h h32,
    issue_runs hr hrun (halted_readRxEnd (s := withoutFlag j s) _ _ _ _ _ _ _ hs) (by omega), readRxEnd]
  rfl

/-- Settles O43: the frame is stored before the write that removes the head. -/
theorem receiveFifoBlockingReturns : Obligations.ReceiveFifoBlockingReturns := by
  intro s out hr ho
  rw [exec_receiveFifoBlocking ho]
  have hs := hr.fgFree
  have hq := hr.alone
  refine ⟨fun hon hhead hbusy => ?shown, fun hoff hflag => ?off⟩
  case shown =>
    have havail := fifoAvail_of_head hhead
    have hpop := writeReg_iflag1_pop (s := headRead out s) hon havail
    have hend := Reach.writeAlone (s := headRead out s) hs hq hpop (.ret .receiveFifoBlocking
      (.statusHit .success (some (getField .idhit s.regs.rxfir))) _ hs hq)
    have hrun := Reach.flagPoll hs hq havail (.readFifo (rest := []) (call := .blocking) hs hq hon
      (mbReads_shown (headHidden_of_noHead hhead) hbusy)
      (readReg_rxfir_shown (s := afterReads (some 0) s.draws s) hhead) hend)
    exact issue_runs hr hrun (halted_completed _ _ _ hs) (by omega)
  case off =>
    have hclear := writeReg_iflag1_noPop (s := s) (j := 5) (by decide) fun hon => absurd hon (by simp [hoff])
    have hend := Reach.writeAlone hs hq hclear
      (.ret .receiveFifoBlocking (.statusHit .fail none) (withoutFlag 5 s) hs hq)
    have hrun := Reach.flagPoll hs hq hflag
      (.readFifoOff (rest := []) (ref := some out) (call := .blocking) hs hq hoff hend)
    exact issue_runs hr hrun (halted_completed _ _ _ hs) (by omega)

end

section
/-! PROOFS. WRITE_TX_MB and the writes into a mailbox in use (43 R340-R342, R345, 44 R382, 70 R619). The body of the
write is run once, whether FG runs alone or in listed turns. -/

namespace Sys2Proof.Machine

/-! ### FG's micro-steps, alone or in listed turns -/

/-- FG in an operation with `code` pending, whether the erratum's window is open or closed. -/
def pending (i : Instr) (code : List Micro) (s : State) : State :=
  { s with fg := { s.fg with op := some i, code := code } }

/-- The state with the erratum's window closed. -/
def windowClosed (s : State) : State := { s with fg := { s.fg with window := false } }

/-- The state with the erratum's window open. -/
def windowOpen (s : State) : State := { s with fg := { s.fg with window := true } }

theorem begin_eq_pending (i : Instr) (code : List Micro) (s : State) :
    begin i code s = pending i code (windowClosed s) := rfl

/-- The next turn is FG's, and the turns of `q'` follow: it is listed, or none is. -/
def FgNext (q q' : List Move) : Prop := q = .fg :: q' ∨ (q = [] ∧ q' = [])

@[simp] theorem pending_op (i : Instr) (code : List Micro) (s : State) : (pending i code s).fg.op = some i := rfl
@[simp] theorem pending_code (i : Instr) (code : List Micro) (s : State) : (pending i code s).fg.code = code := rfl
@[simp] theorem pending_refused (i : Instr) (code : List Micro) (s : State) :
    (pending i code s).refused = s.refused := rfl
@[simp] theorem pending_isr (i : Instr) (code : List Micro) (s : State) : (pending i code s).isr = s.isr := rfl

/-- Micro-steps that leave FG's operation and what it has pending, and are no poll. -/
def fgMicro : Micro → Bool
  | .enterWindow _ | .leaveWindow _ => true
  | .poll _ _ _ _ _ => false
  | m => plainMicro m

theorem spins_fgMicro {m : Micro} (hm : fgMicro m = true) (s : State) : spins m s = false := by
  cases m with
  | poll => cases hm
  | _ => rfl

theorem micro_pending {m : Micro} (hm : fgMicro m = true) (i : Instr) (rest : List Micro) (s : State) :
    micro m (pending i rest s) = ((micro m s).1, pending i rest (micro m s).2) := by
  have hplain (h : plainMicro m = true) :
      micro m (pending i rest s) = ((micro m s).1, pending i rest (micro m s).2) := by
    have hfg : (micro m s).2.fg = s.fg := congrArg (·.2.fg) (micro_fg m s s.fg h)
    rw [pending, micro_fg m s _ h, pending, hfg]
  cases m with
  | enterWindow k => rfl
  | leaveWindow w => rfl
  | poll => cases hm
  | _ => exact hplain hm

theorem fgStep_pending {m : Micro} (hm : fgMicro m = true) (i : Instr) (rest : List Micro) (s : State) :
    fgStep (pending i (m :: rest) s) = pending i ((micro m s).1 ++ rest) (micro m s).2 := by
  have hrest : ({ pending i (m :: rest) s with fg := { (pending i (m :: rest) s).fg with code := rest } } : State)
      = pending i rest s := rfl
  simp only [fgStep, pending_code, hrest, micro_pending hm]
  rfl

/-- FG's next micro-step, in a listed turn or alone. -/
theorem Reach.pendingStep {k : Nat} {i : Instr} {m : Micro} {rest : List Micro} {q q' : List Move} {s t : State}
    (hs : FgFree s) (hsup : s.supply = .quiet) (hq : FgNext q q') (hm : fgMicro m = true)
    (h : Reach k (pending i ((micro m (scheduled q' s)).1 ++ rest) (micro m (scheduled q' s)).2) t) :
    Reach (k + 1) (pending i (m :: rest) (scheduled q s)) t := by
  rw [← fgStep_pending hm] at h
  have ⟨hr, hi⟩ := hs
  rcases hq with rfl | ⟨rfl, rfl⟩
  · have hn : nextTurn (pending i (m :: rest) (scheduled (.fg :: q') s))
        = some (.fg, pending i (m :: rest) (scheduled q' s)) := rfl
    refine .step (by simp [halted, atRest, idle, hr, hn]) (by simp [atYield, hn]) ?_
    simp only [Machine.turn, hn, tick, pending_isr, pending_op, hi]
    exact h
  · have hn : nextTurn (pending i (m :: rest) (scheduled [] s)) = none := Alone.nextTurn ⟨rfl, hsup⟩
    have hw : waiting (pending i (m :: rest) (scheduled [] s)) = false := by
      simp [waiting, activeCode, hi, spins_fgMicro hm]
    refine .step (by simp [halted, atRest, idle, hr, hw]) (by simp [atYield, hn]) ?_
    simp only [Machine.turn, hn, aloneTurn, hw, agentStep, pending_isr, hi]
    exact h

/-- FG takes n micro-steps, from `code` pending in `s` to `code'` pending in `s'`, whatever its command and its turns
are: `f m` is listed where m more micro-steps are to come. -/
structure FgRuns (n : Nat) (code : List Micro) (s : State) (code' : List Micro) (s' : State) : Prop where
  run : ∀ {f : Nat → List Move}, (∀ m, FgNext (f (m + 1)) (f m)) → ∀ {m k i t},
    Reach k (pending i code' (scheduled (f m) s')) t → Reach (k + n) (pending i code (scheduled (f (m + n)) s)) t

theorem FgRuns.refl (code : List Micro) (s : State) : FgRuns 0 code s code s := ⟨fun _ _ _ _ _ h => h⟩

theorem FgRuns.trans {m n : Nat} {c c' c'' : List Micro} {s s' s'' : State} (h : FgRuns m c s c' s')
    (h' : FgRuns n c' s' c'' s'') : FgRuns (n + m) c s c'' s'' := by
  refine ⟨fun hf p k i t hr => ?_⟩
  rw [← Nat.add_assoc, ← Nat.add_assoc]
  exact h.run hf (h'.run hf hr)

/-- With nothing listed, FG takes them alone. -/
theorem FgRuns.alone {n k : Nat} {i : Instr} {code code' : List Micro} {s s' t : State}
    (h : FgRuns n code s code' s') (hs : s.sched = []) (hs' : s'.sched = []) (hr : Reach k (pending i code' s') t) :
    Reach (k + n) (pending i code s) t := by
  have e {u : State} (hu : u.sched = []) : scheduled [] u = u := by rw [scheduled, ← hu]
  rw [← e hs'] at hr
  have hr' := h.run (f := fun _ => []) (fun _ => .inr ⟨rfl, rfl⟩) (m := 0) hr
  rwa [e hs] at hr'

/-- With turns of FG listed, it takes them in as many. -/
theorem FgRuns.turns {n k m : Nat} {i : Instr} {code code' : List Micro} {q : List Move} {s s' t : State}
    (h : FgRuns n code s code' s') (hr : Reach k (pending i code' (scheduled (List.replicate m .fg ++ q) s')) t) :
    Reach (k + n) (pending i code (scheduled (List.replicate (m + n) .fg ++ q) s)) t :=
  h.run (f := fun m => List.replicate m .fg ++ q) (fun _ => .inl rfl) hr

section Steps
variable {n : Nat} {rest code' : List Micro} {s s' : State} (hs : FgFree s) (hsup : s.supply = .quiet)
include hs hsup

/-- A micro-step that does the same whatever turns are listed. -/
theorem FgRuns.step {m : Micro} {c : List Micro} {u : State} (hm : fgMicro m = true)
    (hu : ∀ q, micro m (scheduled q s) = (c, scheduled q u)) (h : FgRuns n (c ++ rest) u code' s') :
    FgRuns (n + 1) (m :: rest) s code' s' := by
  refine ⟨fun {f} hf p k i t hr => ?_⟩
  have hr' := h.run hf hr
  refine .pendingStep hs hsup (hf (p + n)) hm ?_
  rw [hu]
  exact hr'

theorem FgRuns.read {r : Reg} {a : AfterRead} {v : Word} {u : State}
    (hu : ∀ q, readReg r (scheduled q s) = (v, scheduled q u))
    (h : FgRuns n (afterRead s.par a v ++ rest) u code' s') :
    FgRuns (n + 1) (.read r a :: rest) s code' s' :=
  .step hs hsup rfl (fun q => by simp only [micro, hu]) h

theorem FgRuns.write {r : Reg} {w : Word} (h : FgRuns n rest (writeReg r w s) code' s') :
    FgRuns (n + 1) (.write r w :: rest) s code' s' :=
  .step (c := []) hs hsup rfl (fun q => congrArg (Prod.mk []) (writeReg_sched r w s q)) h

/-- A frame of length 0..8 is taken as it is. -/
theorem FgRuns.frameRead {ref : FrameRef} {a : AfterFrame} (hlen : (readFrame ref s).length ≤ 8)
    (h : FgRuns n (afterFrame a (readFrame ref s) ++ rest) s code' s') :
    FgRuns (n + 1) (.readFrame ref a :: rest) s code' s' := by
  refine .step hs hsup rfl (fun q => ?_) h
  have htake : takeFrame (readFrame ref (scheduled q s)) (scheduled q s) = (readFrame ref s, scheduled q s) :=
    takeFrame_fits _ _ hlen
  simp only [micro, htake]

theorem FgRuns.stateRead {k : Slot} {a : AfterState} {c : List Micro} (ha : afterState a (s.handle.state k) = c)
    (h : FgRuns n (c ++ rest) s code' s') : FgRuns (n + 1) (.readState k a :: rest) s code' s' := by
  subst ha
  exact .step hs hsup rfl (fun _ => rfl) h

theorem FgRuns.stateWrite {k : Slot} {v : MailboxState} {h' : Handle} (hv : s.handle.setState k v = h')
    (h : FgRuns n rest { s with handle := h' } code' s') : FgRuns (n + 1) (.writeState k v :: rest) s code' s' := by
  subst hv
  exact .step (c := []) hs hsup rfl (fun _ => rfl) h

end Steps

/-- A list of writes to words of one mailbox. -/
theorem FgRuns.mbWrites {i : Nat} (hi : i < 32) (ws : List (MbWord × Word)) {rest : List Micro} {s : State}
    (hs : FgFree s) (hsup : s.supply = .quiet) :
    FgRuns ws.length (ws.map (fun p => .write (.mb i p.1) p.2) ++ rest) s rest (mbWritten i ws s) := by
  induction ws generalizing s with
  | nil =>
    rw [mbWritten_nil]
    exact .refl rest s
  | cons p ws ih =>
    rw [← mbWritten_cons hi]
    exact .write hs hsup (ih (s := writeReg (.mb i p.1) p.2 s) hs hsup)

theorem mbWritten_mbWritten {i : Nat} (hi : i < 32) (ws ws' : List (MbWord × Word)) (s : State) :
    mbWritten i ws' (mbWritten i ws s) = mbWritten i (ws ++ ws') s := by
  rw [← foldl_writeReg_oneMb hi, ← foldl_writeReg_oneMb hi, ← foldl_writeReg_oneMb hi, List.map_append,
    List.foldl_append]

/-! ### The body of the write (43 R340, R342) -/

/-- The words WT4 to WT8 write (43 R340). -/
def writeWords (p : Params) (f : Frame) : List (MbWord × Word) :=
  [(.cs, csw Config.txInactive false false false 0), (.id, frameIdWord f), (.data0, packData0 p.payloadOrder f.payload),
    (.data1, packData1 p.payloadOrder f.payload), (.cs, txCs f)]

/-- A mailbox that holds a frame to transmit. -/
def txMb (p : Params) (f : Frame) : Mb :=
  ⟨txCs f, frameIdWord f, packData0 p.payloadOrder f.payload, packData1 p.payloadOrder f.payload⟩

theorem Mb.setAll_append (m : Mb) (ws ws' : List (MbWord × Word)) :
    m.setAll (ws ++ ws') = (m.setAll ws).setAll ws' := List.foldl_append

theorem setAll_writeWords (p : Params) (f : Frame) (m : Mb) : m.setAll (writeWords p f) = txMb p f := rfl

theorem writeMailbox_eq (p : Params) (i : Nat) (f : Frame) (k : WriteCall) :
    writeMailbox p i f k = (writeWords p f).map (fun w => .write (.mb i w.1) w.2) ++ writeDone i k := rfl

section Write
variable {i : Nat} {ref : FrameRef} {call : WriteCall} {s : State} (hs : FgFree s) (hsup : s.supply = .quiet)
  (hlen : (readFrame ref s).length ≤ 8) (hshown : headHidden i s = false)
include hs hsup hlen hshown

/-- WT0 to WT2: the read of CS takes the lock, and its code decides. -/
theorem FgRuns.writeTest {n : Nat} {c code' : List Micro} {s' : State}
    (hc : afterRead s.par (.wt2 i (readFrame ref s) call) (s.regs.get (.mb i .cs)) = c)
    (h : FgRuns n c { s with lock := some i } code' s') : FgRuns (n + 2) (writeTxBody i ref call) s code' s' := by
  rw [← List.append_nil c, ← hc] at h
  exact .frameRead hs hsup hlen (.read hs hsup (fun q => readReg_cs i (scheduled q s) hshown) h)

/-- A mailbox in use: the write fails (43 R340). -/
theorem FgRuns.writeInUse (hcode : codeOf (s.regs.get (.mb i .cs)) = Config.txData) :
    FgRuns 2 (writeTxBody i ref call) s (writeFailed i call) { s with lock := some i } :=
  .writeTest hs hsup hlen hshown (if_pos hcode) (.refl _ _)

end Write

section Erratum
variable {i : Nat} {f : Frame} {call : WriteCall} {s : State} (hs : FgFree s) (hsup : s.supply = .quiet)
include hs hsup

/-- E0 to E4 (43 R342): IMASK1 is as before, and of the mailbox CS is written, if the bus is idle. -/
theorem FgRuns.erratum (hi : i < 32) :
    ∃ n ≤ 5, ∃ ws,
      FgRuns n [.enterWindow (.e1 i f call)] s (writeMailbox s.par i f call) (mbWritten i ws (windowClosed s)) := by
  have hleave (u : State) (hu : FgFree u) (husup : u.supply = .quiet) :
      FgRuns 1 (.leaveWindow s.regs.imask1 :: writeMailbox s.par i f call) u (writeMailbox s.par i f call)
        (writeReg .imask1 s.regs.imask1 (windowClosed u)) :=
    .step (c := []) hu husup rfl (fun _ => rfl) (.refl _ _)
  have htest {n : Nat} {c code' : List Micro} {s' : State}
      (hc : (if busIdle s.par s.regs.dbg then [.write (.mb i .cs) 0] else [])
        ++ .leaveWindow s.regs.imask1 :: writeMailbox s.par i f call = c)
      (h : FgRuns n c (writeReg .imask1 0 (windowOpen s)) code' s') :
      FgRuns (n + 3) [.enterWindow (.e1 i f call)] s code' s' := by
    rw [← List.append_nil c, ← hc] at h
    have hread := FgRuns.read (r := .dbg) (a := .e3 i f call s.regs.imask1) (s := writeReg .imask1 0 (windowOpen s))
      hs hsup (fun _ => rfl) h
    exact .step (rest := []) (c := [.write .imask1 0, .read .dbg (.e3 i f call s.regs.imask1)]) (u := windowOpen s)
      hs hsup rfl (fun _ => rfl) (.write (s := windowOpen s) hs hsup hread)
  by_cases hidle : busIdle s.par s.regs.dbg = true
  · have hclear := FgRuns.write (r := .mb i .cs) (w := 0) (s := writeReg .imask1 0 (windowOpen s)) hs hsup
      (hleave (writeReg (.mb i .cs) 0 (writeReg .imask1 0 (windowOpen s))) hs hsup)
    refine ⟨5, le_rfl, [(.cs, 0)], ?_⟩
    rw [← mbWritten_cons hi, mbWritten_nil]
    exact htest (congrArg (· ++ _) (if_pos hidle)) hclear
  · refine ⟨4, by omega, [], ?_⟩
    rw [mbWritten_nil]
    exact htest (congrArg (· ++ _) (if_neg hidle)) (hleave (writeReg .imask1 0 (windowOpen s)) hs hsup)

end Erratum

/-- The body of a write that goes on, to what its caller does next: the last word written to CS stays. -/
theorem FgRuns.writeTx {i : Nat} (hi : i < 32) {ref : FrameRef} (call : WriteCall) {s : State} (hs : FgFree s)
    (hsup : s.supply = .quiet) (hlen : (readFrame ref s).length ≤ 8) (hshown : headHidden i s = false)
    (hcode : codeOf (s.regs.get (.mb i .cs)) ≠ Config.txData) :
    ∃ n ≤ 12, ∃ ws, (∀ m : Mb, m.setAll ws = txMb s.par (readFrame ref s))
      ∧ FgRuns n (writeTxBody i ref call) (windowClosed s) (writeDone i call)
          (mbWritten i ws (windowClosed { s with lock := some i })) := by
  have hwrites (u : State) (hu : FgFree u) (husup : u.supply = .quiet) :
      FgRuns 5 (writeMailbox s.par i (readFrame ref s) call) u (writeDone i call)
        (mbWritten i (writeWords s.par (readFrame ref s)) u) := by
    rw [writeMailbox_eq]
    exact .mbWrites hi (writeWords s.par (readFrame ref s)) hu husup
  by_cases herr : s.par.errata6032 = true
  · have hc : afterRead s.par (.wt2 i (readFrame ref s) call) (s.regs.get (.mb i .cs))
        = [.enterWindow (.e1 i (readFrame ref s) call)] := (if_neg hcode).trans (if_pos herr)
    obtain ⟨n, hn, ws, h⟩ := FgRuns.erratum (f := readFrame ref s) (call := call)
      (s := windowClosed { s with lock := some i }) hs hsup hi
    have hall := (FgRuns.writeTest (s := windowClosed s) hs hsup hlen hshown hc h).trans
      (hwrites (mbWritten i ws (windowClosed { s with lock := some i })) hs hsup)
    rw [mbWritten_mbWritten hi] at hall
    refine ⟨5 + (n + 2), by omega, ws ++ writeWords s.par (readFrame ref s), fun m => ?_, hall⟩
    rw [Mb.setAll_append, setAll_writeWords]
  · have hc : afterRead s.par (.wt2 i (readFrame ref s) call) (s.regs.get (.mb i .cs))
        = writeMailbox s.par i (readFrame ref s) call := (if_neg hcode).trans (if_neg herr)
    exact ⟨7, by omega, writeWords s.par (readFrame ref s), setAll_writeWords _ _,
      .writeTest (s := windowClosed s) hs hsup hlen hshown hc
        (hwrites (windowClosed { s with lock := some i }) hs hsup)⟩

/-! ### The commands -/

/-- A command run alone whose micro-steps come to its return. -/
theorem issue_fgRuns {i : Instr} {n : Nat} {code : List Micro} {r : Ret} {s u : State} (hr : Ready s)
    (h : FgRuns n code (windowClosed s) [.ret r] (windowClosed u)) (hu : FgFree u) (hq : Alone u) (hn : n ≤ 8000) :
    issue i none code s = .next (completed i r u) := by
  have ⟨hsched, _⟩ := hr.alone
  have ⟨husched, _⟩ := hq
  have hret := Reach.ret i r u hu hq
  rw [begin_eq_pending] at hret
  have hrun := h.alone hsched husched hret
  rw [← begin_eq_pending] at hrun
  exact issue_runs hr hrun (halted_completed _ _ _ hu) (by omega)

theorem OpRec.frameV_of_some {o : OpRec} {r : FrameRef} (h : o.frame = some r) : o.frameV = r := by
  simp [OpRec.frameV, h]

theorem firstBroken_needHandle_created {s : State} (h : s.handle.created = true) (t : List Check) :
    firstBroken (needHandle s :: t) = firstBroken t := firstBroken_of_holds (by simp [h]) _ t

theorem firstBroken_needFrame_fits {ref : FrameRef} {s : State} (h : (readFrame ref s).length ≤ 8) (t : List Check) :
    firstBroken (needFrame ref s :: t) = firstBroken t := firstBroken_of_holds (decide_eq_false h.not_gt) _ t

section Commands
variable {s : State} {i : Nat} {ref : FrameRef} (h : i ≤ maxMb s.regs) (h32 : i < 32)
  (hf : s.fg.opnd.frame = some ref) (hlen : (readFrame ref s).length ≤ 8)
include h h32 hf hlen

theorem firstBroken_writeChecks : firstBroken (writeChecks i s) = none := by
  rw [writeChecks, firstBroken_needIdx_within h h32, firstBroken_needOperand_some hf, OpRec.frameV_of_some hf,
    firstBroken_needFrame_fits hlen]
  rfl

theorem exec_writeTxMb : exec (.writeTxMb i) s = issue (.writeTxMb i) none (writeTxBody i ref .own) s := by
  change issue _ (firstBroken (writeChecks i s)) (writeTxBody i s.fg.opnd.frameV .own) s = _
  rw [firstBroken_writeChecks h h32 hf hlen, OpRec.frameV_of_some hf]

theorem exec_sendBlocking :
    exec (.sendBlocking i) s = issue (.sendBlocking i) none (writeTxBody i ref (.sendBlocking ref)) s := by
  change issue _ (firstBroken (writeChecks i s)) (writeTxBody i s.fg.opnd.frameV (.sendBlocking s.fg.opnd.frameV)) s = _
  rw [firstBroken_writeChecks h h32 hf hlen, OpRec.frameV_of_some hf]

theorem exec_sendNb (hc : s.handle.created = true) :
    exec (.sendNb i) s = issue (.sendNb i) none [.readState (.mb i) (.sn1 i ref)] s := by
  change issue _ (firstBroken (needHandle s :: writeChecks i s)) [.readState (.mb i) (.sn1 i s.fg.opnd.frameV)] s = _
  rw [firstBroken_needHandle_created hc, firstBroken_writeChecks h h32 hf hlen, OpRec.frameV_of_some hf]

end Commands

/-- A logical state that is set and set back. -/
theorem Handle.setState_restore (h : Handle) (k : Slot) (v : MailboxState) :
    (h.setState k v).setState k (h.state k) = h := by
  cases k with
  | mb i => simp only [Handle.setState, Handle.state, bankSet_bankSet, bankSet_bankGet]
  | fifo => rfl

/-- SEND_NB on an Idle mailbox whose code reads TX_DATA (44 R382 SN1 to SN5). -/
theorem FgRuns.sendNbInUse {s : State} {i : Nat} {ref : FrameRef} (hs : FgFree s) (hsup : s.supply = .quiet)
    (hlen : (readFrame ref s).length ≤ 8) (hshown : headHidden i s = false)
    (hcode : codeOf (s.regs.get (.mb i .cs)) = Config.txData) (hidle : s.handle.state (.mb i) = .idle) :
    FgRuns 6 [.readState (.mb i) (.sn1 i ref)] s [.ret (.status .fail)] { s with lock := some i } := by
  have hstate : afterState (.sn1 i ref) (s.handle.state (.mb i)) = [.readFrame ref (.sn3 i ref)] :=
    if_neg (not_not.2 hidle)
  have hback (v : MailboxState) : (s.handle.setState (.mb i) v).setState (.mb i) .idle = s.handle := by
    rw [← hidle, Handle.setState_restore]
  have harmed (v : MailboxState) :
      FgRuns 4 (.writeState (.mb i) v :: writeTxBody i ref .sendNb) s [.ret (.status .fail)]
        { s with lock := some i } := by
    have hfail := FgRuns.writeInUse (s := { s with handle := s.handle.setState (.mb i) v }) (call := .sendNb) hs hsup
      hlen hshown hcode
    have hlast := FgRuns.stateWrite (rest := [.ret (.status .fail)])
      (s := { s with handle := s.handle.setState (.mb i) v, lock := some i }) hs hsup (hback v) (.refl _ _)
    exact .stateWrite hs hsup rfl (hfail.trans hlast)
  exact .stateRead hs hsup hstate (.frameRead hs hsup hlen (harmed _))

/-- Other mailboxes' move-ins are not noted. -/
theorem bankGet_moveIn_mbWritten_ne {i j : Nat} (hj : j ≠ i) (ws : List (MbWord × Word)) (s : State) :
    bankGet (mbWritten i ws s).moveIn j = bankGet s.moveIn j := bankGet_bankSet_ne _ (Ne.symm hj) _

theorem moveIn_mbWritten_none {i : Nat} {s : State} (h : bankGet s.moveIn i = none) (ws : List (MbWord × Word)) :
    (mbWritten i ws s).moveIn = s.moveIn := by
  simp only [mbWritten]
  rw [h, Option.map_none, ← h, bankSet_bankGet]

end Sys2Proof.Machine

open Sys2Proof Sys2Proof.Machine

/-- Settles O36: with or without the erratum routine, the words written end as those of the frame. -/
theorem writeTxMbWrites : Obligations.WriteTxMbWrites := by
  intro s i ref hr h h32 hf hlen hshown hcode
  have ⟨_, hsup⟩ := hr.alone
  obtain ⟨n, hn, ws, hws, hrun⟩ := FgRuns.writeTx h32 .own hr.fgFree hsup hlen hshown hcode
  refine ⟨(mbWritten i ws s).moveIn, ?run, fun j hj => bankGet_moveIn_mbWritten_ne hj ws s,
    fun hnone => moveIn_mbWritten_none hnone ws⟩
  rw [exec_writeTxMb h h32 hf hlen]
  refine (issue_fgRuns (u := mbWritten i ws { s with lock := some i }) hr hrun hr.fgFree hr.alone (by omega)).trans ?_
  rw [mbWritten, hws]
  rfl

/-- Settles O37: the write fails at its first read of CS, and SEND_NB sets the logical state back. -/
theorem writeInUseFails : Obligations.WriteInUseFails := by
  intro s i ref hr h h32 hf hlen hshown hcode
  have hs := hr.fgFree
  have ⟨_, hsup⟩ := hr.alone
  have hwrite {c : Instr} {call : WriteCall} (hcall : writeFailed i call = [.ret (.status .fail)]) :
      issue c none (writeTxBody i ref call) s = .next (completed c (.status .fail) { s with lock := some i }) := by
    have hrun := FgRuns.writeInUse (s := windowClosed s) (call := call) hs hsup hlen hshown hcode
    rw [hcall] at hrun
    exact issue_fgRuns (u := { s with lock := some i }) hr hrun hs hr.alone (by omega)
  refine ⟨?own, ?blocking, fun hc hidle => ?nb⟩
  case own =>
    rw [exec_writeTxMb h h32 hf hlen]
    exact hwrite rfl
  case blocking =>
    rw [exec_sendBlocking h h32 hf hlen]
    exact hwrite rfl
  case nb =>
    rw [exec_sendNb h h32 hf hlen hc]
    exact issue_fgRuns (u := { s with lock := some i }) hr
      (.sendNbInUse (s := windowClosed s) hs hsup hlen hshown hcode hidle) hs hr.alone (by omega)

end

section
/-! PROOFS. SEND_BLOCKING with HW's transmission while it waits (43 R345, 60 R523). -/

namespace Sys2Proof.Machine

/-! ### The CS word HW leaves (60 R523) -/

section CsWord
variable (code dlc : BitVec 4) (srr ide rtr : Bool) (ts : Stamp)

/-- The bits of a CS word (10 R43). -/
theorem getLsbD_csWord (k : Nat) :
    (csWord code srr ide rtr dlc ts).getLsbD k
      = if k < 16 then ts.getLsbD k else if k < 20 then dlc.getLsbD (k - 16)
        else if k = 20 then rtr else if k = 21 then ide else if k = 22 then srr
        else if 24 ≤ k then code.getLsbD (k - 24) else false := by
  simp only [csWord, BitVec.getLsbD_append, BitVec.getLsbD_ofBool, BitVec.ofNat_eq_ofNat]
  rcases Nat.lt_or_ge k 24 with h | h
  · interval_cases k <;> simp
  · obtain ⟨d, rfl⟩ : ∃ d, k = 24 + d := ⟨k - 24, by omega⟩
    have e : 24 + d - 16 - 4 - 1 - 1 - 1 - 1 = d := by omega
    simp (disch := omega) only [if_neg, if_pos, e, Nat.add_sub_cancel_left, BitVec.getLsbD_zero]
    split
    · rfl
    · exact (BitVec.getLsbD_of_ge code d (by omega)).symm

@[simp] theorem codeOf_csWord : codeOf (csWord code srr ide rtr dlc ts) = code := by
  apply BitVec.eq_of_getLsbD_eq
  intro k hk
  rw [codeOf, BitVec.getLsbD_extractLsb', getLsbD_csWord]
  simp (disch := omega) only [if_neg, if_pos, hk, decide_true, Bool.true_and, Nat.add_sub_cancel_left]

theorem txDoneCs_csWord (old : Stamp) :
    txDoneCs (csWord code srr ide rtr dlc old) ts
      = csWord (if rtr then Config.rxEmpty else Config.txInactive) srr ide rtr dlc ts := by
  have hstamp : (0xFFFF : Word) = fieldMask ⟨15, 0⟩ := by decide
  apply BitVec.eq_of_getLsbD_eq
  intro k hk
  simp only [txDoneCs, rtrOf_csWord, hstamp, getLsbD_csWord, BitVec.getLsbD_or, BitVec.getLsbD_and, BitVec.getLsbD_not,
    BitVec.getLsbD_shiftLeft, BitVec.getLsbD_setWidth, getLsbD_fieldMask _ k hk, Field.code, hk, decide_true,
    Bool.true_and]
  rcases Nat.lt_or_ge k 16 with h16 | h16
  · have h15 : k ≤ 15 := by omega
    have h24 : k < 24 := by omega
    simp [h16, h15, h24]
  · have hts : ts.getLsbD k = false := BitVec.getLsbD_of_ge ts k h16
    have hlow : ¬ k ≤ 15 := by omega
    rcases Nat.lt_or_ge k 24 with h24 | h24
    · simp [hlow, h24, h16, h24.not_ge]
    · obtain ⟨d, rfl⟩ : ∃ d, k = 24 + d := ⟨k - 24, by omega⟩
      have hd : d < 32 := by omega
      have hcode : 24 + d ≤ 27 ∨ code.getLsbD d = false := by
        rcases Nat.lt_or_ge d 4 with h4 | h4
        · exact .inl (by omega)
        · exact .inr (BitVec.getLsbD_of_ge code d h4)
      simp (disch := omega) only [if_neg, hts, hlow, Nat.add_sub_cancel_left, Nat.le_add_right, true_and]
      rcases hcode with hcode | hcode <;> simp [hcode, hd]

end CsWord

/-- The mailbox HW leaves once it has sent the frame. -/
def sentMb (p : Params) (f : Frame) (ts : Stamp) : Mb :=
  { txMb p f with
    cs := csWord (if f.kind = .remote then Config.rxEmpty else Config.txInactive) (ideBit f.format) (ideBit f.format)
      (rtrBit f.kind) (BitVec.ofNat 4 f.length) ts }

/-- The state with the frame in mailbox i sent. -/
def sent (i : Nat) (f : Frame) (ts : Stamp) (s : State) : State :=
  { s with regs := { s.regs with mb := bankSet s.regs.mb i (sentMb s.par f ts) } }

/-- HW's transmission sets the flag beside (60 R523). -/
theorem transmit_of_txMb {i : Nat} {f : Frame} {s : State} (h : bankGet s.regs.mb i = txMb s.par f) (ts : Stamp) :
    transmit i ts s = setBits .iflag1 (oneBit i) (sent i f ts s) := by
  have hcs : s.regs.get (.mb i .cs) = txCs f := congrArg Mb.cs h
  have hdone : txDoneCs (txCs f) ts = (sentMb s.par f ts).cs := by
    rw [txCs, csw, txDoneCs_csWord, sentMb]
    simp only [rtrBit, decide_eq_true_eq]
  rw [transmit, hcs, hdone, sent, Regs.set, h]
  rfl

/-- The flag set and cleared. -/
theorem withoutFlag_setBits {j : Nat} {s : State} (hj : j < 32) (h : s.regs.iflag1.getLsbD j = false) :
    withoutFlag j (setBits .iflag1 (oneBit j) s) = s := by
  have e : (s.regs.iflag1 ||| oneBit j) &&& ~~~ oneBit j = s.regs.iflag1 := by
    apply BitVec.eq_of_getLsbD_eq
    intro k hk
    rw [getLsbD_andNot _ _ hk, BitVec.getLsbD_or, getLsbD_oneBit j k hj]
    by_cases hkj : k = j
    · simp [hkj, h]
    · simp [hkj]
  change ({ s with regs := { s.regs with iflag1 := (s.regs.iflag1 ||| oneBit j) &&& ~~~ oneBit j } } : State) = s
  rw [e]

/-! ### The wait -/

/-- The poll for a flag that is not set spins through n turns. -/
theorem Reach.flagSpin {k : Nat} {i : Instr} {j : Nat} {rest : List Micro} {q : List Move} {s t : State} (n : Nat)
    (hs : FgFree s) (hj : s.regs.iflag1.getLsbD j = false)
    (h : Reach k (begin i (.poll .iflag1 (Field.ofBit j) true none .done :: rest) (scheduled q s)) t) :
    Reach (k + n) (begin i (.poll .iflag1 (Field.ofBit j) true none .done :: rest)
      (scheduled (List.replicate n Move.fg ++ q) s)) t := by
  have hbit : getBit (Field.ofBit j) s.regs.iflag1 = false := hj
  induction n with
  | zero => exact h
  | succ n ih =>
    refine .fgTurn (m := .poll .iflag1 (Field.ofBit j) true none .done)
      (s := scheduled (.fg :: (List.replicate n Move.fg ++ q)) s) hs rfl rfl ?_
    simp only [micro, readReg_iflag1, hbit, Bool.false_eq_true, if_false]
    exact ih

/-- Outside the FIFO's region HW may complete the transmission (60 R523). -/
theorem mayTransmit_of_txMb {i : Nat} {f : Frame} {s : State} (h : bankGet s.regs.mb i = txMb s.par f) (h32 : i < 32)
    (hmax : i ≤ maxMb s.regs) (hregion : inFifoRegion i s.regs = false) (hm : s.mode = .normal) :
    mayTransmit i s = true := by
  have hcode : codeOf (s.regs.get (.mb i .cs)) = Config.txData := by
    have hcs : s.regs.get (.mb i .cs) = txCs f := congrArg Mb.cs h
    rw [hcs, txCs, csw, codeOf_csWord]
  simp only [mayTransmit, mayComplete, inFilterRegion, hm, hregion, hmax, hcode, Config.nmbHw, h32, decide_true,
    Bool.true_or, Bool.false_and, Bool.not_false, Bool.and_self]

/-- With RFEN = 1 the mailboxes up to 5 are in the FIFO's region (10 R47). -/
theorem above_of_not_inFifoRegion {i : Nat} {g : Regs} (h : inFifoRegion i g = false)
    (hon : getBit .rfen g.mcr = true) : 5 < i := by
  rw [inFifoRegion, hon, Bool.true_and] at h
  have hocc := of_decide_eq_false h
  simp only [fifoOcc] at hocc
  omega

/-- SK2 to SK6 with n turns of FG before HW's: the poll spins, HW sends the frame, and the poll ends (43 R345). -/
theorem Reach.sendWait {k n : Nat} {c : Instr} {i : Nat} {ref : FrameRef} {f : Frame} {ts : Stamp} {s t : State}
    (hs : FgFree s) (hsup : s.supply = .quiet) (h : bankGet s.regs.mb i = txMb s.par f) (h32 : i < 32)
    (hmax : i ≤ maxMb s.regs) (hregion : inFifoRegion i s.regs = false) (hm : s.mode = .normal)
    (hflag : s.regs.iflag1.getLsbD i = false)
    (hr : Reach k (begin c [.ret (.status .success)]
      (writeFrame ref { readFrame ref s with timestamp := ts } { sent i f ts s with lock := some i, sched := [] })) t) :
    Reach (k + 5 + n) (begin c (writeDone i (.sendBlocking ref))
      (scheduled (List.replicate n .fg ++ [.hw (.transmit i ts)]) s)) t := by
  have hq : Alone (scheduled [] s) := ⟨rfl, hsup⟩
  have habove := above_of_not_inFifoRegion hregion
  have hmay : mayTransmit i (scheduled [] s) = true := mayTransmit_of_txMb (f := f) h h32 hmax hregion hm
  have hhw : hwStep (.transmit i ts) (scheduled [] s)
      = scheduled [] (setBits .iflag1 (oneBit i) (sent i f ts s)) :=
    (if_pos hmay).trans (transmit_of_txMb (s := scheduled [] s) h ts)
  have hset : (setBits .iflag1 (oneBit i) (sent i f ts s)).regs.iflag1.getLsbD i = true := by
    change (s.regs.iflag1 ||| oneBit i).getLsbD i = true
    rw [BitVec.getLsbD_or, getLsbD_oneBit i i h32, decide_eq_true rfl, Bool.or_true]
  have hclear : writeReg .iflag1 (oneBit i) (scheduled [] (setBits .iflag1 (oneBit i) (sent i f ts s)))
      = scheduled [] (sent i f ts s) :=
    (writeReg_iflag1_noPop (s := scheduled [] (setBits .iflag1 (oneBit i) (sent i f ts s))) h32
      fun hon => (habove hon).ne').trans (withoutFlag_setBits (s := scheduled [] (sent i f ts s)) h32 hflag)
  have hread := readReg_cs i (scheduled [] (sent i f ts s)) (headHidden_of_above habove)
  have hstamp : afterRead s.par (.sk5 ref) ((scheduled [] (sent i f ts s)).regs.get (.mb i .cs))
      = [.stampFrame ref ts] := by
    have hcs : (scheduled [] (sent i f ts s)).regs.get (.mb i .cs) = (sentMb s.par f ts).cs :=
      congrArg Mb.cs (bankGet_bankSet_self _ h32 _)
    rw [hcs, sentMb, afterRead, stampOf_csWord]
  refine .flagSpin n hs hflag (.hwTurn hs hhw ?_)
  refine .flagPoll (s := scheduled [] (setBits .iflag1 (oneBit i) (sent i f ts s))) hs hq hset ?_
  refine .writeAlone (s := scheduled [] (setBits .iflag1 (oneBit i) (sent i f ts s))) hs hq hclear ?_
  refine .readAlone (s := scheduled [] (sent i f ts s)) hs hq hread ?_
  change Reach _ (begin c (afterRead s.par _ _ ++ _) _) t
  rw [hstamp]
  exact .fg (m := .stampFrame ref ts) (s := { sent i f ts s with lock := some i, sched := [] }) hs hq rfl rfl hr

end Sys2Proof.Machine

open Sys2Proof Sys2Proof.Machine

/-- Settles O41: the body of the write takes at most twelve of the turns, and in the others the poll spins. -/
theorem sendBlockingReturns : Obligations.SendBlockingReturns := by
  intro s i n ref ts hr hn h h32 hf hlen hregion hm hcode hflag
  have ⟨_, _, hq, hsup⟩ := hr
  have hshown : headHidden i s = false := headHidden_of_above (above_of_not_inFifoRegion hregion)
  obtain ⟨j, hj, ws, hws, hbody⟩ := FgRuns.writeTx h32 (.sendBlocking ref) hr.fgFree hsup hlen hshown hcode
  have hmb : bankGet (mbWritten i ws { s with lock := some i }).regs.mb i = txMb s.par (readFrame ref s) :=
    (bankGet_bankSet_self _ h32 _).trans (hws _)
  have hend := Reach.sendWait (n := n - j) (ref := ref) (ts := ts) (s := mbWritten i ws { s with lock := some i })
    hr.fgFree hsup hmb h32 h hregion hm hflag (.ret (.sendBlocking i) _ _ hr.fgFree ⟨rfl, hsup⟩)
  have hrun := hbody.turns hend
  rw [Nat.sub_add_cancel (hj.trans hn), ← hq] at hrun
  refine ⟨(mbWritten i ws s).moveIn, ?run, fun j hj => bankGet_moveIn_mbWritten_ne hj ws s⟩
  rw [exec_sendBlocking h h32 hf hlen, issue_runs hr hrun (halted_completed _ _ _ hr.fgFree) ?fuel]
  case fuel =>
    simp only [List.length_append, List.length_replicate]
    omega
  rw [sent, mbWritten, bankSet_bankSet]
  rfl

end

section
/-! PROOFS. The Handle commands, run alone (44 R381-R387, 70 R603): each is a chain of writes of the Handle and of
one-bit fields, and SEND_NB and ABORT_SEND write words of the mailbox beside. -/

namespace Sys2Proof.Machine

/-! ### Writes of the Handle -/

/-- The micro-steps whose one effect is a write of the Handle (10 R52). -/
def writesHandle : Micro → Bool
  | .writeState _ _ | .writeBuf _ _ | .writeStamp _ _ | .writeCallback _ _ | .setCreated => true
  | _ => false

/-- The Handle after one such micro-step. -/
def handleAfter (h : Handle) : Micro → Handle
  | .writeState k v => h.setState k v
  | .writeBuf k b => h.setBuf k b
  | .writeStamp i t => h.setStamp i t
  | .writeCallback cb ctx => { h with callback := cb, context := ctx }
  | .setCreated => { h with created := true }
  | _ => h

theorem fgMicro_of_writesHandle {m : Micro} (hm : writesHandle m = true) : fgMicro m = true := by
  cases m with
  | writeState | writeBuf | writeStamp | writeCallback | setCreated => rfl
  | _ => cases hm

theorem micro_of_writesHandle {m : Micro} (hm : writesHandle m = true) (s : State) :
    micro m s = ([], { s with handle := handleAfter s.handle m }) := by
  cases m with
  | writeState | writeBuf | writeStamp | writeCallback | setCreated => rfl
  | _ => cases hm

/-- The state whose Handle is `h`. -/
def withHandleOf (h : Handle) (s : State) : State := { s with handle := h }

/-- A list of writes of the Handle. -/
theorem FgRuns.handleWrites {ms : List Micro} (hms : ms.all writesHandle = true) {rest : List Micro} {s : State}
    (hs : FgFree s) (hsup : s.supply = .quiet) :
    FgRuns ms.length (ms ++ rest) s rest (withHandleOf (ms.foldl handleAfter s.handle) s) := by
  induction ms generalizing s with
  | nil => exact .refl rest s
  | cons m ms ih =>
    obtain ⟨hm, hms⟩ := Bool.and_eq_true_iff.1 hms
    exact .step (c := []) hs hsup (fgMicro_of_writesHandle hm) (fun q => micro_of_writesHandle hm (scheduled q s))
      (ih hms (s := withHandleOf (handleAfter s.handle m) s) hs hsup)

/-! ### Writes of one-bit fields -/

/-- The one-bit fields `bs`, each with the value v. -/
def bitFields (bs : List Nat) (v : Bool) : List (Field × Word) := bs.map fun b => (Field.ofBit b, if v then 1 else 0)

/-- The same as a read-modify-write takes them. -/
abbrev bitWrites (bs : List Nat) (v : Bool) : List FieldWrite := (bitFields bs v).map fun p => (p.1, .val p.2)

theorem getLsbD_putField_ofBit (b : Nat) (v : Bool) (w : Word) {k : Nat} (hk : k < 32) :
    (putField (Field.ofBit b) (if v then 1 else 0) w).getLsbD k = if k = b then v else w.getLsbD k := by
  rw [getLsbD_putField _ _ _ _ hk]
  by_cases hkb : k = b
  · subst hkb
    cases v <;> simp [Field.ofBit]
  · rw [if_neg hkb, if_neg (fun h => hkb (Nat.le_antisymm h.2 h.1))]

theorem getLsbD_plainFields_bitFields (bs : List Nat) (v : Bool) (w : Word) {k : Nat} (hk : k < 32) :
    (plainFields (bitFields bs v) w).getLsbD k = if k ∈ bs then v else w.getLsbD k := by
  induction bs generalizing w with
  | nil => rfl
  | cons b bs ih =>
    refine (ih _).trans ?_
    rw [getLsbD_putField_ofBit b v w hk]
    by_cases hbs : k ∈ bs <;> simp [hbs]

/-- The bits of the mask are those numbered in `bs`. -/
abbrev MaskOf (bs : List Nat) (m : Word) : Prop := ∀ k < 32, m.getLsbD k = decide (k ∈ bs)

theorem maskOf_oneBit {i : Nat} (h32 : i < 32) : MaskOf [i] (oneBit i) := fun k _ => by
  simp only [getLsbD_oneBit i k h32, List.mem_singleton]

/-- FIFO_OVF, FIFO_WARN and FIFO_AVAIL (44 R384, R387). -/
theorem maskOf_fifo : MaskOf [7, 6, 5] 0xE0 := by decide

/-- One-bit fields with one value are the bits of a mask set or cleared. -/
theorem plainFields_bitFields {bs : List Nat} {m : Word} (hm : MaskOf bs m) (v : Bool) (w : Word) :
    plainFields (bitFields bs v) w = if v then w ||| m else w &&& ~~~ m := by
  apply BitVec.eq_of_getLsbD_eq
  intro k hk
  rw [getLsbD_plainFields_bitFields bs v w hk]
  cases v
  · rw [if_neg Bool.false_ne_true, getLsbD_andNot w m hk, hm k hk]
    by_cases hbs : k ∈ bs <;> simp [hbs]
  · rw [if_pos rfl, BitVec.getLsbD_or, hm k hk]
    by_cases hbs : k ∈ bs <;> simp [hbs]

/-- Field values that are no draws, and of CTRL1 no timing fields, are put into the word written. -/
theorem writeFields_val {r : Reg} {fs : List (Field × Word)}
    (h : r ≠ .ctrl1 ∨ ∀ p ∈ fs, Field.timing.contains p.1 = false) (w : Word) (s : State) :
    writeFields r (fs.map fun p => (p.1, .val p.2)) w s = writeReg r (plainFields fs w) s := by
  simp only [writeFields]
  rw [putFields_val _ fs w s (h.imp_left fun hr => by simp [hr])]

/-- The state with the bits of `m` set or cleared in IMASK1. -/
def irqsMasked (v : Bool) (m : Word) (s : State) : State :=
  { s with regs := { s.regs with imask1 := if v then s.regs.imask1 ||| m else s.regs.imask1 &&& ~~~ m } }

section Runs
variable {rest : List Micro} {s : State} (hs : FgFree s) (hsup : s.supply = .quiet)
include hs hsup

/-- A field write of a register whose read is plain. -/
theorem FgRuns.fields {r : Reg} {fs : List (Field × Word)}
    (h : r ≠ .ctrl1 ∨ ∀ p ∈ fs, Field.timing.contains p.1 = false)
    (hread : ∀ q, readReg r (scheduled q s) = (s.regs.get r, scheduled q s)) :
    FgRuns 2 (Machine.setFields r (fs.map fun p => (p.1, .val p.2)) ++ rest) s rest
      (writeReg r (plainFields fs (s.regs.get r)) s) := by
  refine .read hs hsup hread (.step (c := []) hs hsup rfl (fun q => congrArg (Prod.mk []) ?_) (.refl _ _))
  rw [writeFields_val h, writeReg_sched]

/-- A field write of MCR that names only what a core write changes. -/
theorem FgRuns.mcrFields {fs : List (Field × Word)} (hfs : ∀ f ∈ fs.map Prod.fst, McrWritable f) :
    FgRuns 2 (Machine.setFields .mcr (fs.map fun p => (p.1, .val p.2)) ++ rest) s rest (withMcrFields fs s) := by
  rw [withMcrFields, ← mcrAfterWrite_plainFields hfs]
  exact .fields hs hsup (.inl nofun) fun _ => rfl

/-- The interrupts of a mask enabled or disabled. -/
theorem FgRuns.irqs {bs : List Nat} {m : Word} (hm : MaskOf bs m) (v : Bool) :
    FgRuns 2 (Machine.setFields .imask1 (bitWrites bs v) ++ rest) s rest (irqsMasked v m s) := by
  rw [irqsMasked, ← plainFields_bitFields hm v]
  exact .fields hs hsup (.inl nofun) fun _ => rfl

end Runs

/-! ### CREATE_HANDLE (44 R381) -/

/-- CH0 of one mailbox: its logical state, slot and time stamp. -/
def clearSlot (h : Handle) (j : Nat) : Handle := ((h.setState (.mb j) .idle).setBuf (.mb j) none).setStamp j 0

theorem foldl_clearSlot (js : List Nat) (h : Handle) :
    js.foldl clearSlot h
      = { h with
          mbState := js.foldl (fun v j => bankSet v j .idle) h.mbState
          mbFrameBuf := js.foldl (fun v j => bankSet v j none) h.mbFrameBuf
          timestamp := js.foldl (fun v j => bankSet v j 0) h.timestamp } := by
  induction js generalizing h with
  | nil => rfl
  | cons j js ih => exact ih (clearSlot h j)

theorem getElem_foldl_bankSet {α : Type} {n : Nat} (js : List Nat) (v : Vector α n) (x : α) {k : Nat} (hk : k < n) :
    (js.foldl (fun v j => bankSet v j x) v)[k] = if k ∈ js then x else v[k] := by
  induction js generalizing v with
  | nil => rfl
  | cons j js ih =>
    rw [List.foldl_cons, ih]
    by_cases hjs : k ∈ js
    · simp [hjs]
    · by_cases hj : j = k
      · simp [bankSet, hj]
      · simp [bankSet, hjs, hj, Ne.symm hj]

/-- A bank of which every entry is written holds nothing else. -/
theorem foldl_bankSet_range {α : Type} {n : Nat} (v : Vector α n) (x : α) :
    (List.range n).foldl (fun v j => bankSet v j x) v = Vector.replicate n x := by
  ext k hk
  rw [getElem_foldl_bankSet _ _ _ hk, if_pos (List.mem_range.2 hk), Vector.getElem_replicate]

/-- The Handle of 70 R603. -/
def Handle.fresh (cb : Option Nat) (ctx : Nat) : Handle where
  created := true
  mbState := Vector.replicate 32 .idle
  rxFifoState := .idle
  mbFrameBuf := Vector.replicate 32 none
  rxFifoFrameBuf := none
  timestamp := Vector.replicate 32 0
  callback := cb
  context := ctx

/-- The writes of the Handle, CH0 to CH4. -/
def createWrites (cb : Option Nat) (ctx : Nat) : List Micro :=
  (List.range 32).flatMap (fun j => [.writeState (.mb j) .idle, .writeBuf (.mb j) none, .writeStamp j 0])
    ++ [.writeState .fifo .idle, .writeBuf .fifo none, .writeCallback cb ctx, .setCreated]

theorem createWrites_foldl (cb : Option Nat) (ctx : Nat) (h : Handle) :
    (createWrites cb ctx).foldl handleAfter h = Handle.fresh cb ctx := by
  have hslots : ((List.range 32).flatMap fun j =>
      [Micro.writeState (.mb j) .idle, .writeBuf (.mb j) none, .writeStamp j 0]).foldl handleAfter h
      = (List.range 32).foldl clearSlot h := List.foldl_flatMap
  rw [createWrites, List.foldl_append, hslots, foldl_clearSlot]
  simp only [foldl_bankSet_range]
  rfl

/-- BOFFMSK, ERRMSK, TWRNMSK and RWRNMSK, the status-class enables (10 R38). -/
def statusEnables : List Nat := [15, 14, 11, 10]

/-- The state CREATE_HANDLE leaves. -/
def handleCreated (cb : Option Nat) (ctx : Nat) (s : State) : State :=
  { s with
    handle := Handle.fresh cb ctx
    regs := { s.regs with
      ctrl1 := plainFields (bitFields statusEnables cb.isSome) s.regs.ctrl1
      mcr := plainFields (bitFields [26] cb.isSome) s.regs.mcr } }

theorem createHandleBody_eq (cb : Option Nat) (ctx : Nat) (rest : List Micro) :
    createHandleBody cb ctx ++ rest = createWrites cb ctx
      ++ (setFields .ctrl1 (bitWrites statusEnables cb.isSome)
        ++ (setFields .mcr (bitWrites [26] cb.isSome) ++ rest)) := by
  simp only [createHandleBody, createWrites, List.append_assoc]
  rfl

theorem FgRuns.createHandle {s : State} (hs : FgFree s) (hsup : s.supply = .quiet) (cb : Option Nat) (ctx : Nat)
    (rest : List Micro) : FgRuns 104 (createHandleBody cb ctx ++ rest) s rest (handleCreated cb ctx s) := by
  have hplain : ∀ p ∈ bitFields statusEnables cb.isSome, Field.timing.contains p.1 = false := by
    cases cb.isSome <;> decide
  have hwritable : ∀ f ∈ (bitFields [26] cb.isSome).map Prod.fst, McrWritable f := by
    cases cb.isSome <;> decide
  have hctrl1 := FgRuns.fields (r := .ctrl1) (s := withHandleOf (Handle.fresh cb ctx) s)
    (rest := setFields .mcr (bitWrites [26] cb.isSome) ++ rest) hs hsup (.inr hplain) fun _ => rfl
  have hmcr := FgRuns.mcrFields (rest := rest)
    (s := writeReg .ctrl1 (plainFields (bitFields statusEnables cb.isSome) s.regs.ctrl1)
      (withHandleOf (Handle.fresh cb ctx) s)) hs hsup hwritable
  rw [← createWrites_foldl cb ctx s.handle] at hctrl1 hmcr
  rw [createHandleBody_eq, handleCreated, ← createWrites_foldl cb ctx s.handle]
  exact (FgRuns.handleWrites rfl hs hsup).trans (hctrl1.trans hmcr)

/-! ### The arm calls and the receive aborts (44 R382-R384, R386, R387) -/

/-- The state a receive arm call leaves: the slot, the logical state and the interrupts of its mask. -/
def receiveArmed (k : Slot) (ref : FrameRef) (v : MailboxState) (m : Word) (s : State) : State :=
  irqsMasked true m (withHandleOf ((s.handle.setBuf k (some ref)).setState k v) s)

/-- The state a receive abort leaves: `receiveAborted` and `fifoAborted` are this for their slot and mask. -/
def receiveDropped (k : Slot) (m : Word) (s : State) : State :=
  withHandleOf ((s.handle.setBuf k none).setState k .idle) (irqsMasked false m s)

section Receive
variable {k : Slot} {s : State} (hs : FgFree s) (hsup : s.supply = .quiet)
include hs hsup

/-- A command that answers its Busy status at the read of the logical state. -/
theorem FgRuns.armBusy {a : AfterState} {st : Status} (ha : afterState a (s.handle.state k) = [.ret (.status st)]) :
    FgRuns 1 [.readState k a] s [.ret (.status st)] s := .stateRead hs hsup ha (.refl _ _)

/-- RN0 to RN4, FN0 to FN4. -/
theorem FgRuns.receiveArm {a : AfterState} {ref : FrameRef} {v : MailboxState} {bs : List Nat} {m : Word}
    (hm : MaskOf bs m) {rest : List Micro}
    (ha : afterState a (s.handle.state k)
      = [.writeBuf k (some ref), .writeState k v] ++ (Machine.setFields .imask1 (bitWrites bs true) ++ rest)) :
    FgRuns 5 [.readState k a] s rest (receiveArmed k ref v m s) := by
  have hirqs := FgRuns.irqs (s := withHandleOf ((s.handle.setBuf k (some ref)).setState k v) s) (rest := rest)
    hs hsup hm true
  have hwrites := FgRuns.handleWrites (ms := [.writeBuf k (some ref), .writeState k v]) rfl hs hsup
    (rest := Machine.setFields .imask1 (bitWrites bs true) ++ rest)
  refine .stateRead hs hsup ha ?_
  rw [List.append_nil]
  exact hwrites.trans hirqs

/-- AR0 to AR2, AF0 to AF2. -/
theorem FgRuns.receiveAbort {bs : List Nat} {m : Word} (hm : MaskOf bs m) (rest : List Micro) :
    FgRuns 4 (Machine.setFields .imask1 (bitWrites bs false) ++ ([.writeBuf k none, .writeState k .idle] ++ rest)) s
      rest (receiveDropped k m s) :=
  (FgRuns.irqs hs hsup hm false).trans (.handleWrites (ms := [.writeBuf k none, .writeState k .idle]) rfl hs hsup)

end Receive

/-- The state once SN3 has recorded the logical state of a frame's kind. -/
def sendArmed (i : Nat) (f : Frame) (s : State) : State :=
  withHandleOf (s.handle.setState (.mb i) (if f.kind = .remote then .txRemote else .txData)) s

/-- SN0 to SN6 (44 R382): the body of the write, as WRITE_TX_MB's, between the logical state and the interrupt. -/
theorem FgRuns.sendNb {s : State} {i : Nat} {ref : FrameRef} (hs : FgFree s) (hsup : s.supply = .quiet) (h32 : i < 32)
    (hlen : (readFrame ref s).length ≤ 8) (hshown : headHidden i s = false)
    (hcode : codeOf (s.regs.get (.mb i .cs)) ≠ Config.txData) (hidle : s.handle.state (.mb i) = .idle) :
    ∃ n ≤ 17, ∃ ws, (∀ m : Mb, m.setAll ws = txMb s.par (readFrame ref s))
      ∧ FgRuns n [.readState (.mb i) (.sn1 i ref)] (windowClosed s) [.ret (.status .success)]
          (irqsMasked true (oneBit i)
            (mbWritten i ws (windowClosed { sendArmed i (readFrame ref s) s with lock := some i }))) := by
  obtain ⟨n, hn, ws, hws, hbody⟩ := FgRuns.writeTx h32 .sendNb (ref := ref) (s := sendArmed i (readFrame ref s) s)
    hs hsup hlen hshown hcode
  have hirq := FgRuns.irqs (rest := [.ret (.status .success)])
    (s := mbWritten i ws (windowClosed { sendArmed i (readFrame ref s) s with lock := some i })) hs hsup
    (maskOf_oneBit h32) true
  have hstate : afterState (.sn1 i ref) (s.handle.state (.mb i)) = [.readFrame ref (.sn3 i ref)] :=
    if_neg (not_not.2 hidle)
  have harm : FgRuns (2 + n + 1) (afterFrame (.sn3 i ref) (readFrame ref s)) (windowClosed s) _ _ :=
    .stateWrite (s := windowClosed s) hs hsup rfl (hbody.trans hirq)
  rw [← List.append_nil (afterFrame _ _)] at harm
  exact ⟨2 + n + 1 + 1 + 1, by omega, ws, hws,
    .stateRead (s := windowClosed s) hs hsup hstate (.frameRead (s := windowClosed s) hs hsup hlen harm)⟩

/-! ### ABORT_SEND (44 R385) -/

/-- The words AS3 writes. -/
def abortWords (p : Params) : List (MbWord × Word) :=
  if p.abortTxDeactivate then [(.cs, csw Config.txInactive false false false 0)] else []

theorem afterRead_as2 (p : Params) (i : Nat) (v : Word) :
    afterRead p (.as2 i) v
      = .writeStamp i (stampOf v) :: (abortWords p).map fun w => .write (.mb i w.1) w.2 := by
  by_cases h : p.abortTxDeactivate = true <;> simp [afterRead, abortWords, h]

theorem bankSet_setAll_abortWords (p : Params) (v : Vector Mb 32) (i : Nat) :
    bankSet v i ((bankGet v i).setAll (abortWords p))
      = if p.abortTxDeactivate then
          bankSet v i { bankGet v i with cs := csw Config.txInactive false false false 0 }
        else v := by
  by_cases h : p.abortTxDeactivate = true
  · rw [abortWords, if_pos h, if_pos h]
    rfl
  · rw [abortWords, if_neg h, if_neg h]
    exact bankSet_bankGet v i

theorem length_abortWords_le (p : Params) : (abortWords p).length ≤ 1 := by
  by_cases h : p.abortTxDeactivate = true <;> simp [abortWords, h]

/-- The state once AS2 has recorded the time stamp: the interrupt is disabled and the read of CS took the lock. -/
def stampTaken (i : Nat) (s : State) : State :=
  withHandleOf (s.handle.setStamp i (stampOf (s.regs.get (.mb i .cs))))
    { irqsMasked false (oneBit i) s with lock := some i }

/-- The state ABORT_SEND leaves, the words of `ws` written. -/
def abortSent (i : Nat) (ws : List (MbWord × Word)) (s : State) : State :=
  mbWritten i ws (withHandleOf ((stampTaken i s).handle.setState (.mb i) .idle) (stampTaken i s))

/-- AS0 to AS4 (44 R385): the words of AS3 come between the time stamp and the logical state. -/
theorem FgRuns.abortSend {s : State} (hs : FgFree s) (hsup : s.supply = .quiet) {i : Nat} (h32 : i < 32)
    (hshown : headHidden i s = false) :
    FgRuns (1 + (abortWords s.par).length + 4) (abortSendBody i ++ [.ret .unit]) s [.ret .unit]
      (abortSent i (abortWords s.par) s) := by
  have hidle := FgRuns.stateWrite (k := .mb i) (v := .idle) (rest := [.ret .unit])
    (s := mbWritten i (abortWords s.par) (stampTaken i s)) hs hsup rfl (.refl _ _)
  have hwords := (FgRuns.mbWrites h32 (abortWords s.par) (s := stampTaken i s) hs hsup).trans hidle
  have hstamp := (FgRuns.handleWrites (ms := [.writeStamp i (stampOf (s.regs.get (.mb i .cs)))]) rfl
    (s := { irqsMasked false (oneBit i) s with lock := some i }) hs hsup).trans hwords
  rw [List.singleton_append, ← List.cons_append, ← afterRead_as2] at hstamp
  exact (FgRuns.irqs hs hsup (maskOf_oneBit h32) false).trans
    (.read (s := irqsMasked false (oneBit i) s) hs hsup
      (fun q => readReg_cs i (scheduled q (irqsMasked false (oneBit i) s)) hshown) hstamp)

/-! ### The commands -/

section Commands
variable {s : State}

theorem exec_createHandle {cb : Option Nat} {ctx : Nat} (hcb : s.fg.opnd.callback = some cb)
    (hctx : s.fg.opnd.context = some ctx) (h : s.handle.created = true → s.handle.armed = false) :
    exec .createHandle s = issue .createHandle none (createHandleBody cb ctx ++ [.ret .unit]) s := by
  have hfree : (s.handle.created && s.handle.armed) = false := by simpa using h
  change issue _ (firstBroken [needOperand s.fg.opnd.callback, needOperand s.fg.opnd.context,
    (s.handle.created && s.handle.armed, .handleArmed)])
    (createHandleBody s.fg.opnd.callbackV s.fg.opnd.contextV ++ [.ret .unit]) s = _
  rw [firstBroken_needOperand_some hcb, firstBroken_needOperand_some hctx, firstBroken_of_holds hfree, OpRec.callbackV,
    OpRec.contextV, hcb, hctx]
  rfl

variable (hc : s.handle.created = true)
include hc

/-- The checks of a Handle command that names a mailbox. -/
theorem firstBroken_mbChecks {i : Nat} (h : i ≤ maxMb s.regs) (h32 : i < 32) (t : List Check) :
    firstBroken (needHandle s :: needIdx i s :: t) = firstBroken t := by
  rw [firstBroken_needHandle_created hc, firstBroken_needIdx_within h h32]

theorem exec_abortReceiveFifo :
    exec .abortReceiveFifo s = issue .abortReceiveFifo none (abortFifoBody ++ [.ret .unit]) s := by
  change issue _ (firstBroken [needHandle s]) _ s = _
  rw [firstBroken_needHandle_created hc]
  rfl

theorem exec_receiveFifoNb {ref : FrameRef} (hf : s.fg.opnd.frame = some ref) :
    exec .receiveFifoNb s = issue .receiveFifoNb none [.readState .fifo (.fn1 ref)] s := by
  change issue _ (firstBroken [needHandle s, needOperand s.fg.opnd.frame])
    [.readState .fifo (.fn1 s.fg.opnd.frameV)] s = _
  rw [firstBroken_needHandle_created hc, firstBroken_needOperand_some hf, OpRec.frameV_of_some hf]
  rfl

variable {i : Nat} (h : i ≤ maxMb s.regs) (h32 : i < 32)
include h h32

theorem exec_receiveNb {ref : FrameRef} (hf : s.fg.opnd.frame = some ref) :
    exec (.receiveNb i) s = issue (.receiveNb i) none [.readState (.mb i) (.rn1 i ref)] s := by
  change issue _ (firstBroken [needHandle s, needIdx i s, needOperand s.fg.opnd.frame])
    [.readState (.mb i) (.rn1 i s.fg.opnd.frameV)] s = _
  rw [firstBroken_mbChecks hc h h32, firstBroken_needOperand_some hf, OpRec.frameV_of_some hf]
  rfl

theorem exec_abortSend : exec (.abortSend i) s = issue (.abortSend i) none (abortSendBody i ++ [.ret .unit]) s := by
  change issue _ (firstBroken [needHandle s, needIdx i s]) _ s = _
  rw [firstBroken_mbChecks hc h h32]
  rfl

theorem exec_abortReceive :
    exec (.abortReceive i) s = issue (.abortReceive i) none (abortReceiveBody i ++ [.ret .unit]) s := by
  change issue _ (firstBroken [needHandle s, needIdx i s]) _ s = _
  rw [firstBroken_mbChecks hc h h32]
  rfl

end Commands

end Sys2Proof.Machine

open Sys2Proof Sys2Proof.Machine

/-- Settles O46: every entry of the Handle's banks is written, and the enables are one-bit fields of CTRL1 and MCR. -/
theorem createHandleLeaves : Obligations.CreateHandleLeaves := by
  intro s cb ctx hr hcb hctx harmed
  refine ⟨plainFields (bitFields [26] cb.isSome) s.regs.mcr,
    plainFields (bitFields statusEnables cb.isSome) s.regs.ctrl1, ?run, fun k hk => ?mcr, fun k hk => ?ctrl1⟩
  case run =>
    have ⟨_, hsup⟩ := hr.alone
    rw [exec_createHandle hcb hctx harmed]
    exact issue_fgRuns (u := handleCreated cb ctx s) hr (.createHandle (s := windowClosed s) hr.fgFree hsup cb ctx _)
      hr.fgFree hr.alone (by omega)
  case mcr => simp only [getLsbD_plainFields_bitFields _ _ _ hk, List.mem_singleton]
  case ctrl1 =>
    simp only [getLsbD_plainFields_bitFields _ _ _ hk, statusEnables, List.mem_cons, List.not_mem_nil, or_false]

/-- Settles O47: the body of the write leaves the frame's words and IMASK1, in which SN6 sets the mailbox's bit. -/
theorem sendNbArms : Obligations.SendNbArms := by
  intro s i ref hr hc h h32 hf hlen hidle hshown hcode
  have ⟨_, hsup⟩ := hr.alone
  obtain ⟨n, hn, ws, hws, hrun⟩ := FgRuns.sendNb hr.fgFree hsup h32 hlen hshown hcode hidle
  refine ⟨(mbWritten i ws s).moveIn, ?run, fun j hj => bankGet_moveIn_mbWritten_ne hj ws s⟩
  rw [exec_sendNb h h32 hf hlen hc]
  refine (issue_fgRuns (u := irqsMasked true (oneBit i) (mbWritten i ws
    { sendArmed i (readFrame ref s) s with lock := some i })) hr hrun hr.fgFree hr.alone (by omega)).trans ?_
  rw [mbWritten, hws]
  rfl

/-- Settles O48: the read of the logical state decides between the Busy return and the arming. -/
theorem armCalls : Obligations.ArmCalls := by
  intro s ref hr hc hf
  have hs := hr.fgFree
  have ⟨_, hsup⟩ := hr.alone
  have hbusy {c : Instr} {k : Slot} {a : AfterState} {st : Status}
      (ha : afterState a (s.handle.state k) = [.ret (.status st)]) :
      issue c none [.readState k a] s = .next (completed c (.status st) s) :=
    issue_fgRuns hr (.armBusy (s := windowClosed s) hs hsup ha) hs hr.alone (by omega)
  refine ⟨fun i h h32 hne => ⟨fun hlen => ?sendBusy, ?receiveBusy⟩, fun hne => ?fifoBusy,
    fun i h h32 hidle => ?receive, fun hidle => ?fifo⟩
  case sendBusy =>
    rw [exec_sendNb h h32 hf hlen hc]
    exact hbusy (if_pos hne)
  case receiveBusy =>
    rw [exec_receiveNb hc h h32 hf]
    exact hbusy (if_pos hne)
  case fifoBusy =>
    rw [exec_receiveFifoNb hc hf]
    exact hbusy (if_pos hne)
  case receive =>
    rw [exec_receiveNb hc h h32 hf]
    exact issue_fgRuns (u := receiveArmed (.mb i) ref .rxData (oneBit i) s) hr
      (.receiveArm (s := windowClosed s) hs hsup (maskOf_oneBit h32) (if_neg (not_not.2 hidle))) hs hr.alone (by omega)
  case fifo =>
    rw [exec_receiveFifoNb hc hf]
    exact issue_fgRuns (u := receiveArmed .fifo ref .rxFifo 0xE0 s) hr
      (.receiveArm (s := windowClosed s) hs hsup maskOf_fifo (if_neg (not_not.2 hidle))) hs hr.alone (by omega)

/-- Settles O49: each abort is a chain of writes, and of ABORT_SEND the read of CS gives the time stamp. -/
theorem abortsLeave : Obligations.AbortsLeave := by
  intro s hr hc
  have hs := hr.fgFree
  have ⟨_, hsup⟩ := hr.alone
  refine ⟨fun i h h32 hshown => ?send, fun i h h32 => ?receive, ?fifo⟩
  case send =>
    refine ⟨(mbWritten i (abortWords s.par) s).moveIn, ?_, fun j hj => bankGet_moveIn_mbWritten_ne hj _ s⟩
    have hlen : (abortWords (windowClosed s).par).length ≤ 1 := length_abortWords_le s.par
    rw [exec_abortSend hc h h32, ← bankSet_setAll_abortWords]
    exact issue_fgRuns (u := abortSent i (abortWords s.par) s) hr
      (.abortSend (s := windowClosed s) hs hsup h32 hshown) hs hr.alone (by omega)
  case receive =>
    rw [exec_abortReceive hc h h32]
    exact issue_fgRuns (u := receiveAborted i s) hr
      (.receiveAbort (s := windowClosed s) hs hsup (maskOf_oneBit h32) [.ret .unit]) hs hr.alone (by omega)
  case fifo =>
    rw [exec_abortReceiveFifo hc]
    exact issue_fgRuns (u := fifoAborted s) hr
      (.receiveAbort (s := windowClosed s) hs hsup maskOf_fifo [.ret .unit]) hs hr.alone (by omega)

end

section
/-! PROOFS. The micro-steps of the dispatcher: what they write, what they lead to, and how ISR takes them, alone or in
listed turns (45 R420-R431, 60 R511). -/

namespace Sys2Proof.Machine

/-! ### What the dispatcher holds (45 R431) -/

/-- Of the dispatcher's micro-steps only the ISR return reads or writes the state of a sequencer. -/
theorem plainMicro_or_isrReturn {m : Micro} (hm : isrMicro m = true) : plainMicro m = true ∨ m = .isrReturn := by
  cases m with
  | isrReturn => exact .inr rfl
  | poll | enterWindow | leaveWindow | overwrite | scramble | writeCallback | setCreated | readFrame | stampFrame | ret
  | retNoTiming => cases hm
  | _ => exact .inl rfl

theorem all_isrMicro_storeFrame (ref : Option FrameRef) (f : Frame) : (storeFrame ref f).all isrMicro = true := by
  cases ref <;> rfl

theorem all_isrMicro_mailboxEvent (j : Nat) (v : MailboxState) : (mailboxEvent j v).all isrMicro = true := by
  cases v <;> rfl

theorem all_isrMicro_fifoEvent (j : Nat) : (fifoEvent j).all isrMicro = true := by
  unfold fifoEvent
  split_ifs <;> rfl

theorem all_isrMicro_readRxDone (j : Nat) (c : Word) : (readRxDone j .dispatcher c).all isrMicro = true := rfl

/-- What the dispatcher computes after a read is micro-steps of its own. -/
theorem all_isrMicro_afterRead (p : Params) {k : AfterRead} (hk : isrAfterRead k = true) (v : Word) :
    (afterRead p k v).all isrMicro = true := by
  have hlist {c : Prop} [Decidable c] {a b : List Micro} (ha : a.all isrMicro = true) (hb : b.all isrMicro = true) :
      (if c then a else b).all isrMicro = true := by split_ifs <;> assumption
  cases k with
  | ef2 | ef4 | ea0 | fd1 | wt2 | e1 | e3 | sk5 => cases hk
  | as2 i =>
    change List.all (if p.abortTxDeactivate = true then _ else _) isrMicro = true
    exact hlist rfl rfl
  | hi1 => exact hlist rfl (hlist rfl rfl)
  | hi7 m => exact hlist rfl rfl
  | s1Test j mj => exact hlist rfl (hlist rfl rfl)
  | s4 j fs => exact hlist (all_isrMicro_fifoEvent j) rfl
  | hi6 | s1Flag => rfl
  | rr1 i ref k =>
    obtain rfl := of_decide_eq_true hk
    exact hlist rfl rfl
  | rf1 ref k =>
    obtain rfl := of_decide_eq_true hk
    exact hlist rfl rfl
  | rr6 i ref k =>
    obtain rfl := of_decide_eq_true hk
    simp only [afterRead, List.all_append, all_isrMicro_storeFrame, all_isrMicro_readRxDone, Bool.and_self]
  | rf8 ref k =>
    obtain rfl := of_decide_eq_true hk
    simp only [afterRead, List.all_append, all_isrMicro_storeFrame, Bool.true_and]
    rfl
  | rr9 i k =>
    obtain rfl := of_decide_eq_true hk
    rfl
  | modify | rr3 | rr4 | rr5 | rf3 | rf4 | rf5 | rf6 | rf7 => simpa [afterRead, isrMicro, isrAfterRead] using hk

/-- The micro-steps a micro-step of the dispatcher leads to are the dispatcher's. -/
theorem all_isrMicro_micro {m : Micro} (hm : isrMicro m = true) (s : State) : (micro m s).1.all isrMicro = true := by
  cases m with
  | read r k => exact all_isrMicro_afterRead s.par hm _
  | readState k a =>
    cases a with
    | s3 j => rfl
    | mv1 j => exact all_isrMicro_mailboxEvent j _
    | sn1 | rn1 | fn1 => cases hm
  | readBuf k a => cases a <;> rfl
  | poll | enterWindow | leaveWindow | overwrite | scramble | writeCallback | setCreated | readFrame | stampFrame | ret
  | retNoTiming => cases hm
  | _ => rfl

/-! ### What the dispatcher writes (45 R431) -/

/-- A write of a register changes no other register word. -/
theorem get_writeReg_ne {r r' : Reg} (h : r ≠ r') (w : Word) (s : State) :
    (writeReg r w s).regs.get r' = s.regs.get r' := by
  have hset (v : Word) : (s.regs.set r v).get r' = s.regs.get r' := Regs.get_set_ne _ _ h
  cases r with
  | timer | rxfir | dbg => rfl
  | _ => exact hset _

/-- A micro-step of the dispatcher leaves every register word the dispatcher does not write. -/
theorem get_micro_of_isrMicro {m : Micro} (hm : isrMicro m = true) {r : Reg} (hr : isrWrites r = false) (s : State) :
    (micro m s).2.regs.get r = s.regs.get r := by
  have hne {r' : Reg} (h : isrWrites r' = true) : r' ≠ r := fun e => by simp [← e, h] at hr
  cases m with
  | read r' k => simp only [micro]; rw [readReg_state]
  | write r' w => exact get_writeReg_ne (hne hm) w s
  | modify r' fs old =>
    obtain rfl := of_decide_eq_true hm
    refine (get_writeReg_ne (hne rfl) _ _).trans ?_
    rw [putFields_state]
  | callback st res => simp only [micro]; split <;> rfl
  | poll | enterWindow | leaveWindow | overwrite | scramble | writeCallback | setCreated | readFrame | stampFrame | ret
  | retNoTiming => cases hm
  | _ => rfl

/-- A micro-step of the dispatcher leaves FG. -/
theorem micro_fg_of_isrMicro {m : Micro} (hm : isrMicro m = true) (s : State) : (micro m s).2.fg = s.fg := by
  rcases plainMicro_or_isrReturn hm with h | rfl
  · exact congrArg (·.2.fg) (micro_fg m s s.fg h)
  · rfl

/-- One step of ISR: its next micro-step, whose computed micro-steps come first, or its return. -/
theorem isrStep_cons {m : Micro} {rest : List Micro} {s : State} (hc : s.isr.code = m :: rest) :
    isrStep s =
      { (micro m { s with isr := { s.isr with code := rest } }).2 with
        isr := { (micro m { s with isr := { s.isr with code := rest } }).2.isr with
          code := (micro m { s with isr := { s.isr with code := rest } }).1
            ++ (micro m { s with isr := { s.isr with code := rest } }).2.isr.code } } := by
  simp only [isrStep, hc]

theorem isrStep_nil {s : State} (hc : s.isr.code = []) : isrStep s = isrReturn s := by simp only [isrStep, hc]

/-- ISR goes on holding only micro-steps of the dispatcher. -/
theorem isrSafe_isrStep {s : State} (h : IsrSafe s) : IsrSafe (isrStep s) := by
  cases hc : s.isr.code with
  | nil => rw [isrStep_nil hc]; rfl
  | cons m rest =>
    rw [IsrSafe, hc, List.all_cons, Bool.and_eq_true] at h
    obtain ⟨hm, hrest⟩ := h
    rw [isrStep_cons hc]
    refine (List.all_append ..).trans (Bool.and_eq_true_iff.2 ⟨all_isrMicro_micro hm _, ?_⟩)
    rcases micro_isr_cases m { s with isr := { s.isr with code := rest } } with h | ⟨h, -⟩
    · rw [h]; exact hrest
    · rw [h]; rfl

end Sys2Proof.Machine

open Sys2Proof Sys2Proof.Machine

/-- Settles O58: each micro-step the dispatcher may hold leads to such micro-steps, and writes none of those
registers. -/
theorem dispatcherWrites : Obligations.DispatcherWrites := by
  intro s hs _
  refine ⟨isrSafe_isrStep hs, ?_⟩
  cases hc : s.isr.code with
  | nil => rw [isrStep_nil hc]; exact ⟨rfl, rfl, fun _ _ => rfl⟩
  | cons m rest =>
    rw [IsrSafe, hc, List.all_cons, Bool.and_eq_true] at hs
    obtain ⟨hm, -⟩ := hs
    obtain ⟨-, -, -, -, hrefused⟩ := micro_frame m { s with isr := { s.isr with code := rest } }
    rw [isrStep_cons hc]
    exact ⟨micro_fg_of_isrMicro hm _, hrefused, fun r hr => get_micro_of_isrMicro hm hr _⟩

end

section
/-! PROOFS. How ISR takes the dispatcher's micro-steps, alone or in listed turns, and the parts of an iteration (45
R420-R429): the head of the loop, the search for the lowest index pending, the report and the loop test. -/

namespace Sys2Proof.Machine

/-! ### ISR's micro-steps, alone or in listed turns -/

/-- ISR active with `code` pending. -/
def dispatching (code : List Micro) (s : State) : State := { s with isr := { active := true, code := code } }

@[simp] theorem dispatching_refused (code : List Micro) (s : State) : (dispatching code s).refused = s.refused := rfl
@[simp] theorem dispatching_handle (code : List Micro) (s : State) : (dispatching code s).handle = s.handle := rfl
@[simp] theorem dispatching_isr (code : List Micro) (s : State) :
    (dispatching code s).isr = { active := true, code := code } := rfl

theorem readOrDraw_dispatching (b : Bool) (w : Word) (code : List Micro) (q : List Move) (s : State) :
    readOrDraw b w (dispatching code (scheduled q s))
      = ((readOrDraw b w s).1, dispatching code (scheduled q (readOrDraw b w s).2)) := by
  cases b <;> rfl

theorem readReg_dispatching (r : Reg) (code : List Micro) (q : List Move) (s : State) :
    readReg r (dispatching code (scheduled q s))
      = ((readReg r s).1, dispatching code (scheduled q (readReg r s).2)) := by
  cases r with
  | mb i k =>
    cases k with
    | cs => exact readOrDraw_dispatching (headHidden i s) _ code q { s with lock := some i }
    | id | data0 | data1 => exact readOrDraw_dispatching (headHidden i s || mbBusy i s) _ code q s
  | rxfir => exact readOrDraw_dispatching (noHead s) _ code q s
  | _ => rfl

theorem writeReg_dispatching (r : Reg) (w : Word) (code : List Micro) (q : List Move) (s : State) :
    writeReg r w (dispatching code (scheduled q s)) = dispatching code (scheduled q (writeReg r w s)) := by
  cases r <;> rfl

theorem putFields_dispatching (loose : Bool) (fs : List FieldWrite) (w : Word) (code : List Micro) (q : List Move)
    (s : State) :
    putFields loose fs w (dispatching code (scheduled q s))
      = ((putFields loose fs w s).1, dispatching code (scheduled q (putFields loose fs w s).2)) := by
  induction fs generalizing w s with
  | nil => rfl
  | cons a fs ih =>
    obtain ⟨f, v⟩ := a
    cases v with
    | val x =>
      simp only [putFields]
      split
      · exact ih _ (drawWord s).2
      · exact ih _ s
    | draw => exact ih _ (drawWord s).2

/-- A micro-step of the dispatcher does the same whatever ISR has pending and whatever turns are listed. -/
theorem micro_dispatching {m : Micro} (hm : isrMicro m = true) (hp : plainMicro m = true) (code : List Micro)
    (q : List Move) (s : State) :
    micro m (dispatching code (scheduled q s)) = ((micro m s).1, dispatching code (scheduled q (micro m s).2)) := by
  cases m with
  | read r k => simp only [micro, readReg_dispatching]; rfl
  | write r w => simp only [micro, writeReg_dispatching]
  | modify r fs old =>
    simp only [micro, writeFields, putFields_dispatching, writeReg_dispatching]
    rfl
  | callback st res => simp only [micro, dispatching_handle]; split <;> rfl
  | poll | overwrite | scramble | writeCallback | setCreated | readFrame | stampFrame => cases hm
  | enterWindow | leaveWindow | ret | retNoTiming | isrReturn => cases hp
  | _ => rfl

theorem isrStep_dispatching {m : Micro} (hm : isrMicro m = true) (hp : plainMicro m = true) (rest : List Micro)
    (q : List Move) (s : State) :
    isrStep (dispatching (m :: rest) (scheduled q s))
      = dispatching ((micro m s).1 ++ rest) (scheduled q (micro m s).2) := by
  rw [isrStep_cons rfl]
  change ({ (micro m (dispatching rest (scheduled q s))).2 with
    isr := { (micro m (dispatching rest (scheduled q s))).2.isr with
      code := (micro m (dispatching rest (scheduled q s))).1
        ++ (micro m (dispatching rest (scheduled q s))).2.isr.code } } : State) = _
  rw [micro_dispatching hm hp]
  rfl

/-- ISR takes n micro-steps of the dispatcher, from `code` pending in `s` to `code'` pending in `s'`. -/
inductive IsrRuns : Nat → List Micro → State → List Micro → State → Prop where
  | refl (code : List Micro) (s : State) : IsrRuns 0 code s code s
  | step {n : Nat} {m : Micro} {rest code' : List Micro} {s s' : State} (hm : isrMicro m = true)
      (hp : plainMicro m = true) (h : IsrRuns n ((micro m s).1 ++ rest) (micro m s).2 code' s') :
      IsrRuns (n + 1) (m :: rest) s code' s'

/-- A micro-step with nothing pending after it leaves only what is computed from it. -/
theorem IsrRuns.append_nil {n : Nat} {c c' : List Micro} {s s' : State} (h : IsrRuns n c s c' s') :
    IsrRuns n (c ++ []) s c' s' := by
  rwa [List.append_nil]

theorem IsrRuns.done {c : List Micro} {s : State} : IsrRuns 0 (c ++ []) s c s := (IsrRuns.refl c s).append_nil

theorem IsrRuns.trans {m n : Nat} {c c' c'' : List Micro} {s s' s'' : State} (h : IsrRuns m c s c' s')
    (h' : IsrRuns n c' s' c'' s'') : IsrRuns (n + m) c s c'' s'' := by
  induction h with
  | refl => exact h'
  | step hm hp _ ih => exact .step hm hp (ih h')

theorem atRest_dispatching (code : List Micro) {s : State} (hr : s.refused = none) :
    atRest (dispatching code s) = false := by simp [atRest, idle, hr]

/-- ISR's next turn with nothing listed. -/
theorem Reach.isrAlone {k : Nat} {m : Micro} {rest : List Micro} {s t : State} (hr : s.refused = none) (hq : Alone s)
    (hm : isrMicro m = true) (h : Reach k (isrStep (dispatching (m :: rest) s)) t) :
    Reach (k + 1) (dispatching (m :: rest) s) t := by
  have hn : nextTurn (dispatching (m :: rest) s) = none := Alone.nextTurn hq
  have hw : waiting (dispatching (m :: rest) s) = false := by
    cases m with
    | poll => cases hm
    | _ => rfl
  refine .step (by simp [halted, atRest_dispatching _ hr, hw]) (by simp [atYield, hn]) ?_
  simp only [Machine.turn, hn, aloneTurn, hw]
  exact h

/-- A listed turn while ISR is active. -/
theorem Reach.isrListed {k : Nat} {mv : Move} {code : List Micro} {q : List Move} {s t : State} (hr : s.refused = none)
    (hmv : mv ≠ .yield) (h : Reach k (tick mv (dispatching code (scheduled q s))) t) :
    Reach (k + 1) (dispatching code (scheduled (mv :: q) s)) t := by
  have hn : nextTurn (dispatching code (scheduled (mv :: q) s)) = some (mv, dispatching code (scheduled q s)) := rfl
  have hgoes : atRest (dispatching code (scheduled (mv :: q) s)) = false := atRest_dispatching _ hr
  refine .step (by simp [halted, hgoes, hn]) (by simp [atYield, hn, hmv]) ?_
  simp only [Machine.turn, hn]
  exact h

section Runs
variable {n : Nat} {code code' : List Micro} {s s' : State} (h : IsrRuns n code s code' s')
include h

/-- What no micro-step of the dispatcher changes. -/
theorem IsrRuns.frame : s'.refused = s.refused ∧ s'.sched = s.sched ∧ s'.supply = s.supply ∧ s'.fg = s.fg := by
  induction h with
  | refl => exact ⟨rfl, rfl, rfl, rfl⟩
  | @step _ m _ _ s _ hm _ _ ih =>
    obtain ⟨ihr, ihq, ihs, ihf⟩ := ih
    obtain ⟨-, -, hq, hs, hr⟩ := micro_frame m s
    exact ⟨ihr.trans hr, ihq.trans hq, ihs.trans hs, ihf.trans (micro_fg_of_isrMicro hm s)⟩

theorem IsrRuns.isrSteps (q : List Move) :
    isrSteps n (dispatching code (scheduled q s)) = dispatching code' (scheduled q s') := by
  induction h with
  | refl => rfl
  | step hm hp _ ih => rw [Machine.isrSteps, isrStep_dispatching hm hp, ih]

variable {k : Nat} {t : State} (hr : s.refused = none)
include hr

/-- With turns of ISR listed, it takes its micro-steps in as many. -/
theorem IsrRuns.turns {q : List Move} (ht : Reach k (dispatching code' (scheduled q s')) t) :
    Reach (k + n) (dispatching code (scheduled (List.replicate n .isr ++ q) s)) t := by
  induction h with
  | refl => exact ht
  | @step n m rest _ s _ hm hp _ ih =>
    have ⟨_, _, _, _, hrefused⟩ := micro_frame m s
    have hrun := ih (hrefused.trans hr) ht
    rw [← isrStep_dispatching hm hp] at hrun
    exact .isrListed hr (by simp) hrun

/-- With nothing listed, ISR takes its micro-steps alone. -/
theorem IsrRuns.alone (hq : Alone s) (ht : Reach k (dispatching code' s') t) :
    Reach (k + n) (dispatching code s) t := by
  induction h with
  | refl => exact ht
  | @step n m rest _ s _ hm hp _ ih =>
    obtain ⟨hsched, hsup⟩ := hq
    obtain ⟨-, -, hsched', hsup', hrefused⟩ := micro_frame m s
    have hrun := ih (hrefused.trans hr) ⟨hsched'.trans hsched, hsup'.trans hsup⟩ ht
    have hstep := isrStep_dispatching hm hp rest [] s
    have hnil {u : State} (hu : u.sched = []) : scheduled [] u = u := by rw [scheduled, ← hu]
    rw [hnil hsched, hnil (hsched'.trans hsched)] at hstep
    rw [← hstep] at hrun
    exact .isrAlone hr ⟨hsched, hsup⟩ hm hrun

end Runs

/-- HANDLE_IRQ alone is the run of ISR from its start to its return (45 R420, 60 R515; log 28). -/
theorem exec_handleIrq_of_runs {n : Nat} {s u : State} (hr : Ready s) (hirq : irq s = true)
    (hc : s.handle.created = true) (hw : s.fg.window = false)
    (h : IsrRuns n [.read .esr .hi1] (isrStart s) [.isrReturn] u) (hn : n < 8192) :
    exec .handleIrq s = .next (isrReturn u) := by
  have hidle := hr.2.1
  have hrefused := hr.1
  obtain ⟨hur, hus, huq, huf⟩ := h.frame
  have hinactive : s.isr.active = false := hr.fgFree.2
  have hready : isrReady s = true := by simp [isrReady, hinactive, hrefused, hirq, hc, hw]
  have hrest : halted (isrReturn u) = true := by
    simp only [idle, hinactive, Bool.not_false, Bool.and_true] at hidle
    simp [halted, atRest, idle, huf, hidle]
  have halone : Alone u := ⟨hus.trans hr.alone.1, huq.trans hr.alone.2⟩
  have hlast : Reach 1 (dispatching [.isrReturn] u) (isrReturn u) :=
    .isrAlone (hur.trans hrefused) halone rfl (.refl _)
  have hrun := h.alone hrefused hr.alone hlast
  change execHandleIrq s = _
  simp only [execHandleIrq, hrefused, hready, if_true]
  exact congrArg _ (burst_of_reach hrun hrest (by rw [runFuel]; omega))

/-! ### One access of the dispatcher -/

section Steps
variable {n : Nat} {rest code' : List Micro} {s s' : State}

theorem IsrRuns.read {r : Reg} {a : AfterRead} {c : List Micro} {v : Word} {u : State} (ha : isrAfterRead a = true)
    (hread : readReg r s = (v, u)) (hc : afterRead s.par a v = c) (h : IsrRuns n (c ++ rest) u code' s') :
    IsrRuns (n + 1) (.read r a :: rest) s code' s' := by
  refine .step ha rfl ?_
  simp only [micro, hread, hc]
  exact h

theorem IsrRuns.write {r : Reg} {w : Word} {u : State} (hr : isrWrites r = true) (hw : writeReg r w s = u)
    (h : IsrRuns n rest u code' s') : IsrRuns (n + 1) (.write r w :: rest) s code' s' := by
  subst hw
  exact .step hr rfl h

theorem IsrRuns.stateRead {k : Slot} {a : AfterState} {c : List Micro} (ha : isrMicro (.readState k a) = true)
    (hc : afterState a (s.handle.state k) = c) (h : IsrRuns n (c ++ rest) s code' s') :
    IsrRuns (n + 1) (.readState k a :: rest) s code' s' := by
  subst hc
  exact .step ha rfl h

theorem plainMicro_of_writesHandle {m : Micro} (hm : writesHandle m = true) : plainMicro m = true := by
  cases m with
  | writeState | writeBuf | writeStamp | writeCallback | setCreated => rfl
  | _ => cases hm

/-- A list of writes of the Handle. -/
theorem IsrRuns.handleWrites {ms : List Micro} (hms : ms.all (fun m => writesHandle m && isrMicro m) = true)
    (rest : List Micro) (s : State) :
    IsrRuns ms.length (ms ++ rest) s rest (withHandleOf (ms.foldl handleAfter s.handle) s) := by
  induction ms generalizing s with
  | nil => exact .refl rest s
  | cons m ms ih =>
    obtain ⟨hm, hms⟩ := Bool.and_eq_true_iff.1 hms
    obtain ⟨hw, hi⟩ := Bool.and_eq_true_iff.1 hm
    refine .step hi (plainMicro_of_writesHandle hw) ?_
    rw [micro_of_writesHandle hw]
    exact ih hms (withHandleOf (handleAfter s.handle m) s)

/-- The interrupts of a mask disabled. -/
theorem IsrRuns.irqsOff {bs : List Nat} {m : Word} (hm : MaskOf bs m) (rest : List Micro) (s : State) :
    IsrRuns 2 (setFields .imask1 (bitWrites bs false) ++ rest) s rest (irqsMasked false m s) := by
  have hwrite : writeFields .imask1 (bitWrites bs false) s.regs.imask1 s = irqsMasked false m s := by
    rw [writeFields_val (r := .imask1) (.inl nofun), plainFields_bitFields hm]
    rfl
  rw [← hwrite]
  exact .read rfl (readReg_imask1 s) rfl (.step rfl rfl (.refl _ _))

/-- AR0 to AR2, AF0 to AF2 (44 R386, R387). -/
theorem IsrRuns.receiveAbort {k : Slot} {bs : List Nat} {m : Word} (hm : MaskOf bs m) (rest : List Micro) (s : State) :
    IsrRuns 4 (setFields .imask1 (bitWrites bs false) ++ ([.writeBuf k none, .writeState k .idle] ++ rest)) s rest
      (receiveDropped k m s) :=
  (IsrRuns.irqsOff hm _ s).trans
    (.handleWrites (ms := [.writeBuf k none, .writeState k .idle]) (by cases k <;> rfl) rest (irqsMasked false m s))

end Steps

end Sys2Proof.Machine

end

section
/-! PROOFS. The dispatcher's iterations (45 R420-R429): the head of the loop, the search for the lowest index pending,
the event at that index, the report and the loop test. -/

namespace Sys2Proof.Machine

/-! ### The report and the loop test (45 R420, R428) -/

/-- The callback's event is appended, where there is a callback. -/
def reported (st : Status) (res : Word) (s : State) : State :=
  { s with trace := if s.handle.callback.isSome then s.trace ++ [.cb st res s.handle.context] else s.trace }

/-- HI7: the loop goes on while a bit is pending. -/
def loopTest (s : State) : List Micro := if pend s.regs ≠ 0 then [.read .esr .hi1] else [.isrReturn]

theorem iterated_eq (st : Status) (res : Word) (s : State) :
    iterated st res s = dispatching (loopTest s) (reported st res s) := rfl

theorem micro_callback (st : Status) (res : Word) (s : State) :
    micro (.callback st res) s = ([], reported st res s) := by
  cases h : s.handle.callback <;> simp [micro, reported, emit, h]

/-- HI4 to HI7. -/
theorem IsrRuns.report (st : Status) (res : Word) (s : State) :
    IsrRuns 3 (hiCallback st res) s (loopTest s) (reported st res s) := by
  refine .step rfl rfl ?_
  rw [micro_callback]
  exact .read (s := reported st res s) rfl (readReg_imask1 _) rfl (.read rfl (readReg_iflag1 _) rfl .done)

theorem flagCleared_noPop {j : Nat} {s : State} (h : getBit .rfen s.regs.mcr = true → j ≠ 5) :
    flagCleared j s = withoutFlag j s := by
  rw [flagCleared, if_neg fun ⟨hon, hj⟩ => h hon hj]
  rfl

/-- A write of IFLAG1 at a flag that is set (20 R106). -/
theorem writeReg_iflag1_flagCleared {j : Nat} {s : State} (h32 : j < 32) (h : s.regs.iflag1.getLsbD j = true) :
    writeReg .iflag1 (oneBit j) s = flagCleared j s := by
  by_cases hpop : getBit .rfen s.regs.mcr = true ∧ j = 5
  · obtain ⟨hon, rfl⟩ := hpop
    rw [flagCleared, if_pos ⟨hon, rfl⟩]
    exact writeReg_iflag1_pop hon h
  · have hkeep : getBit .rfen s.regs.mcr = true → j ≠ 5 := fun hon hj => hpop ⟨hon, hj⟩
    rw [flagCleared_noPop hkeep]
    exact writeReg_iflag1_noPop h32 hkeep

/-- S5, then HI4 to HI7. -/
theorem IsrRuns.resolved {j : Nat} {s : State} (st : Status) (h32 : j < 32) (h : s.regs.iflag1.getLsbD j = true) :
    IsrRuns 4 (Machine.resolved st j) s (loopTest (flagCleared j s))
      (reported st (BitVec.ofNat 32 j) (flagCleared j s)) :=
  .write rfl (writeReg_iflag1_flagCleared h32 h) (.report _ _ _)

/-! ### The head of the loop (45 R420, R426) -/

theorem status_clear {e : Word} (h : e &&& esrFlags = 0) : e &&& status4 = 0 ∧ getBit .wakint e = false := by
  have hsub : status4 = esrFlags &&& status4 := by decide
  have hbit : (e &&& esrFlags).getLsbD 0 = false := by rw [h]; rfl
  rw [BitVec.getLsbD_and, getLsbD_esrFlags] at hbit
  refine ⟨?_, (Bool.and_true _).symm.trans hbit⟩
  rw [hsub, ← BitVec.and_assoc, h]
  exact BitVec.zero_and

/-- With no ESR flag set the search begins. -/
theorem IsrRuns.noStatus {s : State} (h : s.regs.esr &&& esrFlags = 0) :
    IsrRuns 1 [.read .esr .hi1] s [.read .imask1 (.s1Flag 0)] s := by
  obtain ⟨hstatus, hwake⟩ := status_clear h
  have hnext : afterRead s.par .hi1 s.regs.esr = [.read .imask1 (.s1Flag 0)] :=
    (if_neg (not_not.2 hstatus)).trans (if_neg (by simp [hwake]))
  exact .read rfl (readReg_esr s) hnext (.refl _ _)

/-- The state with the flags of `m` cleared in ESR. -/
def esrCleared (m : Word) (s : State) : State := { s with regs := { s.regs with esr := s.regs.esr &&& ~~~ m } }

theorem writeReg_esr_flags {m : Word} (h : m &&& esrFlags = m) (s : State) : writeReg .esr m s = esrCleared m s := by
  simp only [writeReg, h, esrCleared]

theorem clearMask_esrFlags (p : Params) (e : Word) : clearMask p e &&& esrFlags = clearMask p e := by
  have hsub : status4 &&& esrFlags = status4 := by decide
  unfold clearMask
  split
  · exact hsub
  · rw [BitVec.and_assoc, hsub]

/-- An iteration that resolves flags of ESR, with no bit pending, is the last. -/
theorem IsrRuns.esrReport {s : State} {st : Status} {m : Word}
    (hc : afterRead s.par .hi1 s.regs.esr = .write .esr m :: hiCallback st s.regs.esr) (hm : m &&& esrFlags = m)
    (hpend : pend s.regs = 0) :
    IsrRuns 5 [.read .esr .hi1] s [.isrReturn] (reported st s.regs.esr (esrCleared m s)) := by
  have hlast : loopTest (esrCleared m s) = [.isrReturn] := if_neg (not_not.2 hpend)
  rw [← hlast]
  exact .read rfl (readReg_esr s) hc (.write rfl (writeReg_esr_flags hm s) (.report _ _ _))

/-! ### The search (45 R422, R429) -/

/-- What S1 goes on with at index j. -/
def afterProbe (j : Nat) (pending : Bool) : List Micro :=
  if pending then [.readState .fifo (.s3 j)]
  else if j + 1 < 32 then [.read .imask1 (.s1Flag (j + 1))]
  else hiCallback .unHandled 32

theorem afterRead_s1Test (p : Params) (j : Nat) (g : Regs) :
    afterRead p (.s1Test j (g.imask1.getLsbD j)) g.iflag1 = afterProbe j ((pend g).getLsbD j) := by
  rw [pend, BitVec.getLsbD_and]
  rfl

theorem IsrRuns.probe (j : Nat) (s : State) :
    IsrRuns 2 [.read .imask1 (.s1Flag j)] s (afterProbe j ((pend s.regs).getLsbD j)) s :=
  .read rfl (readReg_imask1 s) rfl (.read rfl (readReg_iflag1 s) (afterRead_s1Test s.par j s.regs) .done)

/-- No index below j is pending. -/
theorem IsrRuns.search {j : Nat} {s : State} (h32 : j < 32) (hlow : ∀ k < j, (pend s.regs).getLsbD k = false) :
    IsrRuns (2 * j) [.read .imask1 (.s1Flag 0)] s [.read .imask1 (.s1Flag j)] s := by
  induction j with
  | zero => exact .refl _ _
  | succ j ih =>
    have hprobe := IsrRuns.probe j s
    rw [hlow j (by omega), afterProbe, if_neg Bool.false_ne_true, if_pos h32] at hprobe
    have hrun := (ih (by omega) fun k hk => hlow k (by omega)).trans hprobe
    rwa [Nat.add_comm] at hrun

/-- An iteration that finds no flag at all (45 R422). -/
theorem IsrRuns.nothingFound {s : State} (hesr : s.regs.esr &&& esrFlags = 0) (hpend : pend s.regs = 0) :
    IsrRuns 65 [.read .esr .hi1] s (hiCallback .unHandled 32) s := by
  have hbit (k : Nat) : (pend s.regs).getLsbD k = false := by rw [hpend]; exact BitVec.getLsbD_zero
  have hprobe := IsrRuns.probe 31 s
  rw [hbit 31] at hprobe
  exact ((IsrRuns.noStatus hesr).trans (.search (by decide) fun k _ => hbit k)).trans hprobe

/-! ### An iteration at the lowest index pending -/

theorem dispatching_of_atHi0 {s : State} (hs : AtHi0 s) : dispatching [.read .esr .hi1] s = s := by
  rw [dispatching, ← hs]

theorem isrReaches_of_runs {n : Nat} {code : List Micro} {s u : State} (hs : AtHi0 s)
    (h : IsrRuns n [.read .esr .hi1] s code u) : IsrReaches s (dispatching code u) := by
  obtain ⟨-, hsched, -⟩ := h.frame
  have hsteps := h.isrSteps s.sched
  have hend : scheduled s.sched u = u := by rw [scheduled, ← hsched]
  rw [dispatching_of_atHi0 (s := scheduled s.sched s) hs, hend] at hsteps
  exact ⟨n, hsteps⟩

/-- With a bit pending the interrupt line is up (10 R58). -/
theorem irq_of_pending {j : Nat} {s : State} (h : (pend s.regs).getLsbD j = true) : irq s = true := by
  have hne : (pend s.regs != 0) = true := bne_iff_ne.2 fun hz => by simp [hz] at h
  simp only [irq, hne, Bool.true_or]

theorem resolves_isrStart_of_alone {j : Nat} {s : State} (h32 : j < 32) (hesr : s.regs.esr &&& esrFlags = 0)
    (hpend : pend s.regs = oneBit j) : Resolves j (isrStart s) := by
  have hbit (k : Nat) : (pend s.regs).getLsbD k = decide (k = j) := by rw [hpend, getLsbD_oneBit j k h32]
  exact ⟨rfl, hesr, h32, (hbit j).trans (decide_eq_true rfl), fun k hk => (hbit k).trans (decide_eq_false hk.ne)⟩

section Resolves
variable {j : Nat} {s : State} (h : Resolves j s)
include h

theorem Resolves.pending : (pend s.regs).getLsbD j = true := by
  obtain ⟨-, -, -, hpend, -⟩ := h
  exact hpend

theorem Resolves.flag : s.regs.iflag1.getLsbD j = true := by
  have hpend := h.pending
  rw [pend, BitVec.getLsbD_and, Bool.and_eq_true] at hpend
  exact hpend.2

theorem Resolves.found : IsrRuns (2 + (2 * j + 1)) [.read .esr .hi1] s [.readState .fifo (.s3 j)] s := by
  obtain ⟨-, hesr, h32, hpend, hlow⟩ := h
  have hprobe := IsrRuns.probe j s
  rw [hpend] at hprobe
  exact ((IsrRuns.noStatus hesr).trans (.search h32 hlow)).trans hprobe

/-- S3, S4 and FifoEvent (45 R423, R424). -/
theorem Resolves.fifoEvent (hev : IsFifoEvent j s) :
    IsrRuns (2 + (2 + (2 * j + 1))) [.read .esr .hi1] s (Machine.fifoEvent j) s := by
  have hs4 : afterRead s.par (.s4 j s.handle.rxFifoState) s.regs.ctrl2 = Machine.fifoEvent j := if_pos hev
  exact h.found.trans (.stateRead rfl rfl (.read rfl (readReg_ctrl2 s) hs4 .done))

/-- S3, S4 and MailboxEvent (45 R423, R425). -/
theorem Resolves.mailboxEvent {c : List Micro} (hev : ¬ IsFifoEvent j s)
    (hc : Machine.mailboxEvent j (s.handle.state (.mb j)) = c) :
    IsrRuns (3 + (2 + (2 * j + 1))) [.read .esr .hi1] s c s := by
  have hs4 : afterRead s.par (.s4 j s.handle.rxFifoState) s.regs.ctrl2 = [.readState (.mb j) (.mv1 j)] := if_neg hev
  exact h.found.trans (.stateRead rfl rfl (.read rfl (readReg_ctrl2 s) hs4 (.stateRead rfl hc .done)))

/-- The end of an iteration: S5 and the report. -/
theorem Resolves.ends {n : Nat} {st : Status} {u : State} (hu : u.regs.iflag1 = s.regs.iflag1)
    (hrun : IsrRuns n [.read .esr .hi1] s (Machine.resolved st j) u) :
    IsrReaches s (iterated st (BitVec.ofNat 32 j) (flagCleared j u)) := by
  have hflag := h.flag
  obtain ⟨hs, -, h32, -, -⟩ := h
  rw [iterated_eq]
  exact isrReaches_of_runs hs (hrun.trans (.resolved st h32 (hu ▸ hflag)))

end Resolves

/-! ### The events of a mailbox (45 R425) -/

/-- AS3: the words of `abortWords`. -/
theorem IsrRuns.abortWords {i : Nat} (h32 : i < 32) (p : Params) (rest : List Micro) (s : State) :
    IsrRuns (Machine.abortWords p).length ((Machine.abortWords p).map (fun w => .write (.mb i w.1) w.2) ++ rest) s rest
      (mbWritten i (Machine.abortWords p) s) := by
  by_cases h : p.abortTxDeactivate = true
  · rw [Machine.abortWords, if_pos h, ← mbWritten_cons h32, mbWritten_nil]
    exact .write rfl rfl (.refl _ _)
  · rw [Machine.abortWords, if_neg h, mbWritten_nil]
    exact .refl _ _

/-- AS0 to AS4 (44 R385). -/
theorem IsrRuns.abortSend {i : Nat} {s : State} (h32 : i < 32) (hshown : headHidden i s = false) (rest : List Micro) :
    IsrRuns (1 + (Machine.abortWords s.par).length + 4) (abortSendBody i ++ rest) s rest
      (abortSent i (Machine.abortWords s.par) s) := by
  have hidle := IsrRuns.handleWrites (ms := [.writeState (.mb i) .idle]) rfl rest
    (mbWritten i (Machine.abortWords s.par) (stampTaken i s))
  have hwords := (IsrRuns.abortWords h32 s.par _ (stampTaken i s)).trans hidle
  have hstamp := (IsrRuns.handleWrites (ms := [.writeStamp i (stampOf (s.regs.get (.mb i .cs)))]) rfl _
    { irqsMasked false (oneBit i) s with lock := some i }).trans hwords
  rw [List.singleton_append, ← List.cons_append, ← afterRead_as2] at hstamp
  have hread : readReg (.mb i .cs) (irqsMasked false (oneBit i) s) = _ := readReg_cs i _ hshown
  exact (IsrRuns.irqsOff (maskOf_oneBit h32) _ s).trans (.read rfl hread rfl hstamp)

/-- The bits of a mask that is all two words share, cleared in both, leave none shared. -/
theorem andNot_and_andNot {a b m : Word} (h : a &&& b = m) : (a &&& ~~~ m) &&& (b &&& ~~~ m) = 0 := by
  subst h
  apply BitVec.eq_of_getLsbD_eq
  intro k hk
  rw [BitVec.getLsbD_and, getLsbD_andNot _ _ hk, getLsbD_andNot _ _ hk, BitVec.getLsbD_and]
  cases a.getLsbD k <;> cases b.getLsbD k <;> simp

/-- A finished data frame, up to S5. -/
theorem Resolves.txData {j : Nat} {s : State} (h : Resolves j s) (hev : ¬ IsFifoEvent j s)
    (hst : s.handle.state (.mb j) = .txData) (hshown : headHidden j s = false) :
    ∃ n ≤ 80, IsrRuns n [.read .esr .hi1] s (Machine.resolved .txIdle j) (abortSent j (abortWords s.par) s) := by
  have ⟨_, _, h32, _, _⟩ := h
  have hlen := length_abortWords_le s.par
  exact ⟨_, by omega, (h.mailboxEvent hev (congrArg _ hst)).trans (.abortSend h32 hshown _)⟩

/-! ### The frame of a reception (43 R343, R344) -/

/-- The time stamp of a CS word kept in slot j. -/
def stamped (j : Nat) (c : Word) (s : State) : State := { s with handle := s.handle.setStamp j (stampOf c) }

theorem stored_iflag1 (ref : Option FrameRef) (f : Frame) (s : State) :
    (stored ref f s).regs.iflag1 = s.regs.iflag1 := by
  cases ref <;> rfl

theorem stamped_stored (j : Nat) (c : Word) (ref : Option FrameRef) (f : Frame) (s : State) :
    stamped j c (stored ref f s) = stored ref f (stamped j c s) := by
  cases ref <;> rfl

theorem readRxDone_dispatcher (j : Nat) (c : Word) :
    readRxDone j .dispatcher c
      = .writeStamp j (stampOf c)
        :: (abortReceiveBody j ++ resolved (if codeOf c = Config.rxFull then .rxIdle else .rxOverflow) j) := by
  by_cases h : codeOf c = Config.rxFull <;> simp [readRxDone, h]

section Read
variable {s : State}

theorem IsrRuns.bufRead {n : Nat} {b : Slot} {a : AfterBuf} {rest code : List Micro} {t : State}
    (h : IsrRuns n (afterBuf a (s.handle.buf b) ++ rest) s code t) :
    IsrRuns (n + 1) (.readBuf b a :: rest) s code t := .step rfl rfl h

/-- A frame read is stored where there is a slot for it. -/
theorem IsrRuns.store (ref : Option FrameRef) (f : Frame) (rest : List Micro) (s : State) :
    ∃ n, IsrRuns n (storeFrame ref f ++ rest) s rest (stored ref f s) := by
  cases ref with
  | none => exact ⟨0, .refl _ _⟩
  | some r => exact ⟨1, .step rfl rfl (.refl _ _)⟩

/-- AR0 to AR2 (44 R386). -/
theorem IsrRuns.abortReceive {j : Nat} (h32 : j < 32) (rest : List Micro) (s : State) :
    IsrRuns 4 (abortReceiveBody j ++ rest) s rest (receiveAborted j s) :=
  .receiveAbort (maskOf_oneBit h32) rest s

/-- AF0 to AF2 (44 R387). -/
theorem IsrRuns.abortFifo (rest : List Micro) (s : State) :
    IsrRuns 4 (abortFifoBody ++ rest) s rest (fifoAborted s) :=
  .receiveAbort maskOf_fifo rest s

theorem IsrRuns.stamp (j : Nat) (c : Word) (rest : List Micro) (s : State) :
    IsrRuns 1 (.writeStamp j (stampOf c) :: rest) s rest (stamped j c s) :=
  .handleWrites (ms := [.writeStamp j (stampOf c)]) rfl rest s

/-- The body of ReadRxMb at a frame received, and the abort. -/
theorem IsrRuns.readRxReceived {j : Nat} {c w d0 d1 : Word} (h32 : j < 32) (ref : Option FrameRef) (hc : Received c)
    (hr : MbReads j 0 s c w d0 d1) :
    ∃ n, IsrRuns n (readRxBody j ref .dispatcher) s
      (Machine.resolved (if codeOf c = Config.rxFull then .rxIdle else .rxOverflow) j)
      (receiveAborted j (stored ref (frameOf s.par c w d0 d1) (stamped j c { s with lock := none }))) := by
  have hfull : afterRead s.par (.rr1 j ref .dispatcher) c = [.read (.mb j .id) (.rr3 j ref .dispatcher c)] := if_pos hc
  obtain ⟨n, hstore⟩ := IsrRuns.store ref (frameOf s.par c w d0 d1) (readRxDone j .dispatcher c)
    { s with lock := none }
  have hdone := (IsrRuns.stamp j c _ (stored ref (frameOf s.par c w d0 d1) { s with lock := none })).trans
    (.abortReceive h32 (Machine.resolved (if codeOf c = Config.rxFull then .rxIdle else .rxOverflow) j) _)
  rw [← readRxDone_dispatcher, stamped_stored] at hdone
  have hrun := hstore.trans hdone
  exact ⟨_, .read rfl hr.cs hfull (.read rfl hr.id rfl (.read rfl hr.data0 rfl (.read rfl hr.data1 rfl
    (.read rfl (readReg_timer _) rfl hrun.append_nil))))⟩

/-- The body of ReadRxMb at any other code, and the abort. -/
theorem IsrRuns.readRxFailed {j : Nat} {c : Word} (h32 : j < 32) (ref : Option FrameRef) (hc : ¬ Received c)
    (hr : readReg (.mb j .cs) s = (c, { s with lock := some j })) :
    IsrRuns 6 (readRxBody j ref .dispatcher) s (Machine.resolved .fail j)
      (receiveAborted j { s with lock := none }) := by
  have hother : afterRead s.par (.rr1 j ref .dispatcher) c = [.read .timer (.rr9 j .dispatcher)] := if_neg hc
  have hrun := IsrRuns.abortReceive h32 (Machine.resolved .fail j) { s with lock := none }
  exact .read rfl hr hother (.read rfl (readReg_timer _) rfl hrun.append_nil)

/-- The body of ReadRxFifo with the FIFO on, and the abort. -/
theorem IsrRuns.readFifo {c w d0 d1 : Word} (ref : Option FrameRef) (hon : getBit .rfen s.regs.mcr = true)
    (hr : MbReads 0 0 s c w d0 d1)
    (hhit : readReg .rxfir { s with lock := some 0 } = (s.regs.rxfir, { s with lock := some 0 })) :
    ∃ n, IsrRuns n (readFifoBody ref .dispatcher) s (Machine.resolved .rxFifoIdle Config.fifoAvail)
      (fifoAborted (stored ref (frameOf s.par c w d0 d1) (stamped 0 c { s with lock := none }))) := by
  have hcs : afterRead s.par (.rf1 ref .dispatcher) s.regs.mcr = [.read (.mb 0 .cs) (.rf3 ref .dispatcher)] :=
    if_pos hon
  obtain ⟨n, hstore⟩ := IsrRuns.store ref (frameOf s.par c w d0 d1) (readFifoDone .dispatcher c s.regs.rxfir)
    { s with lock := none }
  have hdone := (IsrRuns.stamp 0 c _ (stored ref (frameOf s.par c w d0 d1) { s with lock := none })).trans
    (.abortFifo (Machine.resolved .rxFifoIdle Config.fifoAvail) _)
  rw [stamped_stored] at hdone
  have hrun := hstore.trans hdone
  exact ⟨_, .read rfl (readReg_mcr s) hcs (.read rfl hr.cs rfl (.read rfl hr.id rfl (.read rfl hr.data0 rfl
    (.read rfl hr.data1 rfl (.read rfl hhit rfl (.read rfl (readReg_timer _) rfl hrun.append_nil))))))⟩

/-- The body of ReadRxFifo with the FIFO off, and the abort. -/
theorem IsrRuns.readFifoOff (ref : Option FrameRef) (hoff : getBit .rfen s.regs.mcr = false) :
    IsrRuns 5 (readFifoBody ref .dispatcher) s (Machine.resolved .fail Config.fifoAvail) (fifoAborted s) := by
  have hfail : afterRead s.par (.rf1 ref .dispatcher) s.regs.mcr = readFifoFailed .dispatcher := if_neg (by simp [hoff])
  have hrun := IsrRuns.abortFifo (Machine.resolved .fail Config.fifoAvail) s
  exact .read rfl (readReg_mcr s) hfail hrun.append_nil

end Read

/-! ### The drain loop with HW setting flags (45 R430, 70 R630) -/

theorem burst_reach {k : Nat} {s t : State} (h : Reach k s t) (n : Nat) : burst (n + k) s = burst n t := by
  induction h with
  | refl => rfl
  | step hh hy _ ih => rw [← Nat.add_assoc, burst_succ _ _ hh hy, ih]

/-- A burst takes a repeated list of turns as a listed one (log 4). -/
theorem burst_cycle {m : Move} {l : List Move} {s : State} (h : atRest s = false) (hm : m ≠ .yield)
    (hq : s.sched = []) (hsup : s.supply = .cycle (m :: l)) (n : Nat) :
    burst (n + 1) s = burst (n + 1) (scheduled (m :: l) s) := by
  have hn : nextTurn s = some (m, scheduled l s) := by simp [nextTurn, hq, hsup]
  have hn' : nextTurn (scheduled (m :: l) s) = some (m, scheduled l s) := rfl
  have h' : atRest (scheduled (m :: l) s) = false := h
  rw [burst_succ n s (by simp [halted, h, hn]) (by simp [atYield, hn, hm]),
    burst_succ n (scheduled (m :: l) s) (by simp [halted, h', hn']) (by simp [atYield, hn', hm]), turn, turn, hn, hn']

/-- A boundary ends the burst. -/
theorem burst_yield {q : List Move} {s : State} (h : atRest s = false) (n : Nat) :
    burst (n + 1) (scheduled (.yield :: q) s) = scheduled q s := by
  have hn : nextTurn (scheduled (.yield :: q) s) = some (.yield, scheduled q s) := rfl
  have hgoes : halted (scheduled (.yield :: q) s) = false := by
    simp only [halted, hn, Option.isNone_some, Bool.false_and, Bool.or_false]
    exact h
  simp only [burst, hgoes, hn]
  rfl

/-- A repeated list of turns up to its boundary. -/
theorem burst_cycle_to_yield {k n : Nat} {m : Move} {l : List Move} {s u : State} (h : atRest s = false)
    (hu : atRest u = false) (hm : m ≠ .yield) (hq : s.sched = []) (hsup : s.supply = .cycle (m :: l))
    (hrun : Reach k (scheduled (m :: l) s) (scheduled [.yield] u)) (hn : k < n) : burst n s = scheduled [] u := by
  obtain ⟨j, rfl⟩ : ∃ j, n = j + 1 + k := ⟨n - (k + 1), by omega⟩
  rw [Nat.add_right_comm, burst_cycle h hm hq hsup, Nat.add_right_comm j k 1, burst_reach hrun, burst_yield hu]

/-- HW drops a frame after the overflow's flag was cleared: the flag is set again (60 R524). -/
theorem hwStep_fifoOverflow_flagCleared {s : State} (hflag : s.regs.iflag1.getLsbD 7 = true) (hmode : s.mode = .normal)
    (hon : getBit .rfen s.regs.mcr = true) (hfull : s.fifoq.length = s.par.fifoDepth) (code : List Micro)
    (q : List Move) :
    hwStep .fifoOverflow (dispatching code (scheduled q (flagCleared 7 s))) = dispatching code (scheduled q s) := by
  have hallowed : (fifoRuns s && decide (s.fifoq.length = s.par.fifoDepth)) = true := by
    simp [fifoRuns, hmode, hon, hfull]
  have hback : s.regs.iflag1 &&& ~~~ oneBit 7 ||| oneBit 7 = s.regs.iflag1 := by
    apply BitVec.eq_of_getLsbD_eq
    intro k hk
    rw [BitVec.getLsbD_or, getLsbD_andNot _ _ hk, getLsbD_oneBit 7 k (by decide)]
    by_cases h : k = 7
    · subst h; simp [hflag]
    · simp [h]
  rw [flagCleared_noPop fun _ => by decide]
  refine (if_pos hallowed).trans ?_
  change ({ dispatching code (scheduled q s) with
    regs := { s.regs with iflag1 := s.regs.iflag1 &&& ~~~ oneBit 7 ||| oneBit 7 } } : State) = _
  rw [hback]
  rfl

/-- An iteration in which HW drops a frame after S5: the turns up to S5, HW's, and those to HI7. -/
def dropTurns : List Move :=
  List.replicate 20 Move.isr ++ Move.hw .fifoOverflow :: (List.replicate 3 Move.isr ++ [Move.yield])

/-- The iteration at the FIFO's overflow comes back to its start (45 R430, 70 R630). -/
theorem Resolves.dropIteration {s : State} (h : Resolves 7 s) (hr : s.refused = none)
    (hfifo : s.handle.rxFifoState = .rxFifo) (hmode : s.mode = .normal) (hon : getBit .rfen s.regs.mcr = true)
    (hfull : s.fifoq.length = s.par.fifoDepth) :
    Reach 24 (scheduled dropTurns s) (scheduled [.yield] (reported .rxFifoOverflow 7 s)) := by
  have hev : IsFifoEvent 7 s := ⟨by rw [fifoOcc]; omega, hfifo⟩
  have hhead : IsrRuns 20 [.read .esr .hi1] s (hiCallback .rxFifoOverflow 7) (flagCleared 7 s) :=
    (h.fifoEvent hev).trans (.write rfl (writeReg_iflag1_flagCleared (by decide) h.flag) (.refl _ _))
  have htail := IsrRuns.report .rxFifoOverflow 7 s
  have hfo := hwStep_fifoOverflow_flagCleared h.flag hmode hon hfull (hiCallback .rxFifoOverflow 7)
    (List.replicate 3 .isr ++ [.yield])
  obtain ⟨hs, -, -, hpend, -⟩ := h
  have hloop : loopTest s = [.read .esr .hi1] := if_pos fun hz => by rw [hz] at hpend; cases hpend
  have hend := htail.turns hr (.refl _) (q := [.yield])
  rw [hloop, dispatching_of_atHi0 (s := scheduled [.yield] (reported .rxFifoOverflow 7 s)) hs, ← hfo] at hend
  have hrun := hhead.turns hr (.isrListed (mv := .hw .fifoOverflow) hr (by simp) hend)
  rwa [← dropTurns, dispatching_of_atHi0 (s := scheduled dropTurns s) hs] at hrun

end Sys2Proof.Machine

open Sys2Proof Sys2Proof.Machine

/-- Settles O52: HI1 to HI3 decide which flags of ESR are cleared, and with no bit pending the loop ends. -/
theorem dispatchStatus : Obligations.DispatchStatus := by
  intro s hr hirq hc hw hpend
  refine ⟨fun hstatus => ?status, fun hnone hwake => ?wake⟩
  case status =>
    exact exec_handleIrq_of_runs hr hirq hc hw
      (.esrReport (s := isrStart s) (if_pos hstatus) (clearMask_esrFlags s.par s.regs.esr) hpend) (by omega)
  case wake =>
    have hnext : afterRead s.par .hi1 s.regs.esr = .write .esr (oneBit 0) :: hiCallback .wakeUp s.regs.esr :=
      (if_neg (not_not.2 hnone)).trans (if_pos hwake)
    exact exec_handleIrq_of_runs hr hirq hc hw (.esrReport (s := isrStart s) hnext (by decide) hpend) (by omega)

/-- Settles O53: the event of mailbox j is a chain of writes that ends with S5, and with j alone pending the abort
leaves no bit pending. -/
theorem dispatchTxDone : Obligations.DispatchTxDone := by
  refine ⟨fun s j h hev => ⟨fun hst hshown => ?data, fun hst => ?remote⟩,
    fun s j hr hc hw h32 hesr hpend hst hfifo habove => ?alone⟩
  case data =>
    obtain ⟨n, -, hrun⟩ := h.txData hev hst hshown
    refine ⟨(mbWritten j (abortWords s.par) s).moveIn, ?_, fun k hk => bankGet_moveIn_mbWritten_ne hk _ s⟩
    rw [← bankSet_setAll_abortWords]
    exact h.ends rfl hrun
  case remote =>
    have hrun := (h.mailboxEvent hev (congrArg _ hst)).trans
      (.handleWrites (ms := [.writeState (.mb j) .rxRemote]) rfl (resolved .txSwitchToRx j) s)
    exact h.ends rfl hrun
  case alone =>
    have h : Resolves j (isrStart s) := resolves_isrStart_of_alone h32 hesr hpend
    have hev : ¬ IsFifoEvent j (isrStart s) := fun ⟨_, harmed⟩ => absurd (hfifo.symm.trans harmed) (by decide)
    obtain ⟨n, hn, hrun⟩ := h.txData hev hst (headHidden_of_above habove)
    have hall := hrun.trans (.resolved .txIdle h32 h.flag)
    rw [flagCleared_noPop (s := abortSent j _ (isrStart s)) fun hon => (habove hon).ne'] at hall
    have hlast : loopTest (withoutFlag j (abortSent j (abortWords s.par) (isrStart s))) = [.isrReturn] :=
      if_neg (not_not.2 (andNot_and_andNot hpend))
    rw [isrStart_par, hlast] at hall
    have hexec := exec_handleIrq_of_runs hr (irq_of_pending h.pending) hc hw hall (by omega)
    refine ⟨(mbWritten j (abortWords s.par) s).moveIn, ?_⟩
    rw [← bankSet_setAll_abortWords]
    exact hexec

/-- Settles O54: the code of CS decides between the read of the frame and Fail; each way ends with the abort and S5. -/
theorem dispatchRxDone : Obligations.DispatchRxDone := by
  intro s j h hev
  have ⟨_, _, h32, _, _⟩ := h
  refine ⟨fun hst hshown => ⟨fun hcode => ?received, fun hfull hover => ?failed⟩, fun hst => ?remote⟩
  case received =>
    obtain ⟨n, hread⟩ := IsrRuns.readRxReceived h32 (s.handle.buf (.mb j)) hcode
      (mbReads_shown hshown (mbBusy_of_received hcode))
    exact h.ends (stored_iflag1 _ _ _) ((h.mailboxEvent hev (congrArg _ hst)).trans (.bufRead hread.append_nil))
  case failed =>
    have hread := IsrRuns.readRxFailed h32 (s.handle.buf (.mb j)) (not_or.2 ⟨hfull, hover⟩) (readReg_cs j s hshown)
    exact h.ends rfl ((h.mailboxEvent hev (congrArg _ hst)).trans (.bufRead hread.append_nil))
  case remote =>
    exact h.ends rfl ((h.mailboxEvent hev (congrArg _ hst)).trans (.abortReceive h32 _ s))

/-- Settles O55: the index decides; a frame shown is read before S5 removes it. -/
theorem dispatchFifo : Obligations.DispatchFifo := by
  intro s j h hev
  have hrun := h.fifoEvent hev
  refine ⟨fun hj hon hhead hbusy => ?shown, fun hj hoff => ?off, fun hj => ?other⟩
  case shown =>
    subst hj
    obtain ⟨n, hread⟩ := IsrRuns.readFifo s.handle.rxFifoFrameBuf hon
      (mbReads_shown (headHidden_of_noHead hhead) hbusy) (readReg_rxfir_shown (s := { s with lock := some 0 }) hhead)
    exact h.ends (stored_iflag1 _ _ _) (hrun.trans (.bufRead hread.append_nil))
  case off =>
    subst hj
    have hread := IsrRuns.readFifoOff s.handle.rxFifoFrameBuf hoff
    exact h.ends rfl (hrun.trans (.bufRead hread.append_nil))
  case other =>
    have hevent : fifoEvent j
        = resolved (if j = 7 then .rxFifoOverflow else if j = 6 then .rxFifoWarning else .unHandled) j := by
      change (if j = 5 then _ else if j = 7 then _ else if j = 6 then _ else _) = _
      rw [if_neg hj]
      split_ifs <;> rfl
    rw [hevent] at hrun
    exact h.ends rfl hrun

/-- Settles O56: an Idle mailbox's event is S5 alone, and a search that finds nothing reports 32 with no write. -/
theorem dispatchUnHandled : Obligations.DispatchUnHandled := by
  refine fun s => ⟨fun j h hev hst => ?idle, fun hs hesr hpend => ?none⟩
  case idle => exact h.ends rfl (h.mailboxEvent hev (congrArg _ hst))
  case none =>
    rw [iterated_eq]
    exact isrReaches_of_runs hs ((IsrRuns.nothingFound hesr hpend).trans (.report _ _ s))

/-- Settles O57: the iteration is the turns of the list up to its boundary. -/
theorem drainNeverEnds : Obligations.DrainNeverEnds := by
  intro s hr hq hsup h hfifo hmode hon hfull
  have hrun := h.dropIteration hr hfifo hmode hon hfull
  obtain ⟨hs, -⟩ := h
  have hidle : idle s = false := by simp [idle, hs]
  have hgoes : atRest s = false := by simp [atRest, hidle, hr]
  have hburst : burst (runFuel s) s = scheduled [] (reported .rxFifoOverflow 7 s) :=
    burst_cycle_to_yield (u := reported .rxFifoOverflow 7 s) hgoes hgoes (by simp) hq hsup hrun (by rw [runFuel]; omega)
  have hsame : scheduled [] (reported .rxFifoOverflow 7 s) = reported .rxFifoOverflow 7 s :=
    congrArg (fun q => scheduled q (reported .rxFifoOverflow 7 s)) hq.symm
  change machineStep s = .next (reported .rxFifoOverflow 7 s)
  simp only [machineStep, hr, hidle, hburst, hsame]
  rfl

end

section
/-! PROOFS. The mailbox words and RXFIR read as draws exactly where they are hidden (60 R522, R524). -/

namespace Sys2Proof.Machine

/-- A busy mailbox's ID and DATA words read as draws. -/
theorem readReg_word_busy {i : Nat} {k : MbWord} {s : State} (hk : k ≠ .cs) (h : mbBusy i s = true) :
    readReg (.mb i k) s = drawWord s := by
  cases k with
  | cs => exact absurd rfl hk
  | id | data0 | data1 => simp only [readReg, h, Bool.or_true, readOrDraw, if_true]

end Sys2Proof.Machine

open Sys2Proof Sys2Proof.Machine

/-- Settles O13: a word reads as a draw exactly where it is hidden. -/
theorem hiddenReads : Obligations.HiddenReads := fun s i k hk =>
  ⟨fun h => h.elim (readReg_word_hidden hk) (readReg_word_busy hk), readReg_word i k s hk, readReg_cs_hidden,
    readReg_cs i s, readReg_rxfir_hidden, readReg_rxfir_shown⟩

end

section
/-! PROOFS. ISR alone, from its start to its return: each turn is its next micro-step, for the dispatcher waits for
nothing (45 R420, 60 R510-R515). -/

namespace Sys2Proof.Machine

theorem isrReady_eq_true_iff {s : State} (hi : s.isr.active = false) :
    isrReady s = true ↔ s.refused = none ∧ irq s = true ∧ s.handle.created = true ∧ s.fg.window = false := by
  simp [isrReady, hi, and_assoc]

theorem tick_isr_inactive {s : State} (hi : s.isr.active = false) :
    tick .isr s = if isrReady s then isrStart s else s := by
  simp only [tick, hi, Bool.false_eq_true, if_false]

theorem exec_handleIrq_eq {s : State} (h : s.refused = none) :
    exec .handleIrq s = if isrReady s then .next (burst (runFuel s) (isrStart s)) else .fault .noIsrStart := by
  simp only [exec, execHandleIrq, h]

/-- A step of ISR leaves FG, the refusal mark and the schedule. -/
theorem isrStep_frame {s : State} (h : IsrSafe s) :
    (isrStep s).fg = s.fg ∧ (isrStep s).refused = s.refused ∧ (isrStep s).sched = s.sched
      ∧ (isrStep s).supply = s.supply := by
  cases hc : s.isr.code with
  | nil => rw [isrStep_nil hc]; exact ⟨rfl, rfl, rfl, rfl⟩
  | cons m rest =>
    rw [IsrSafe, hc, List.all_cons, Bool.and_eq_true] at h
    obtain ⟨hm, -⟩ := h
    obtain ⟨-, -, hsched, hsup, hrefused⟩ := micro_frame m { s with isr := { s.isr with code := rest } }
    rw [isrStep_cons hc]
    exact ⟨micro_fg_of_isrMicro hm _, hrefused, hsched, hsup⟩

/-- No operation is under way, no turn is listed and nothing is refused: the dispatcher has the machine to itself. -/
structure DispatcherAlone (s : State) : Prop where
  refused : s.refused = none
  alone : Alone s
  noOp : s.fg.op = none
  safe : IsrSafe s

namespace DispatcherAlone
variable {s : State} (h : DispatcherAlone s)
include h

theorem step : DispatcherAlone (isrStep s) := by
  obtain ⟨hfg, hrefused, hsched, hsup⟩ := isrStep_frame h.safe
  exact ⟨hrefused.trans h.refused, ⟨hsched.trans h.alone.1, hsup.trans h.alone.2⟩, (congrArg Fg.op hfg).trans h.noOp,
    isrSafe_isrStep h.safe⟩

/-- The dispatcher polls nothing. -/
theorem not_waiting (ha : s.isr.active = true) : waiting s = false := by
  have hsafe := h.safe
  cases hc : s.isr.code with
  | nil => simp [waiting, activeCode, ha, hc]
  | cons m rest =>
    rw [IsrSafe, hc, List.all_cons, Bool.and_eq_true] at hsafe
    obtain ⟨hm, -⟩ := hsafe
    simp only [waiting, activeCode, ha, hc, if_true]
    cases m with
    | poll => cases hm
    | _ => rfl

/-- While ISR is active the next turn is its next micro-step. -/
theorem reach_succ {k : Nat} {t : State} (ha : s.isr.active = true) (ht : Reach k (isrStep s) t) :
    Reach (k + 1) s t := by
  have hn := h.alone.nextTurn
  have hw := h.not_waiting ha
  refine .step ?_ (by simp [atYield, hn]) ?_
  · simp [halted, atRest, idle, ha, h.refused, hw]
  · simpa only [turn, hn, aloneTurn, hw, agentStep, ha, Bool.false_eq_true, if_false, if_true] using ht

/-- As long as ISR stays active its micro-steps are the turns. -/
theorem reach_isrSteps (n : Nat) (ha : ∀ m < n, (isrSteps m s).isr.active = true) : Reach n s (isrSteps n s) := by
  induction n generalizing s with
  | zero => exact .refl s
  | succ n ih =>
    exact h.reach_succ (ha 0 n.succ_pos) (ih h.step fun m hm => ha (m + 1) (Nat.succ_lt_succ hm))

theorem steps (n : Nat) : DispatcherAlone (isrSteps n s) := by
  induction n generalizing s with
  | zero => exact h
  | succ n ih => exact ih h.step

/-- At ISR's return nothing goes on. -/
theorem halted_of_inactive (ha : s.isr.active = false) : halted s = true := by
  simp [halted, atRest, idle, ha, h.noOp]

end DispatcherAlone

theorem Ready.dispatcherAlone {s : State} (h : Ready s) : DispatcherAlone (isrStart s) := by
  have ⟨hrefused, hidle, _, _⟩ := h
  obtain ⟨hop, -⟩ := Bool.and_eq_true_iff.1 hidle
  exact ⟨hrefused, h.alone, Option.isNone_iff_eq_none.1 hop, rfl⟩

end Sys2Proof.Machine

open Sys2Proof Sys2Proof.Machine

/-- Settles O51: ISR's turn and HANDLE_IRQ both ask for the one condition, and the burst of the run takes ISR's
micro-steps one by one, for the dispatcher waits for nothing. -/
theorem isrStart : Obligations.IsrStart := by
  intro s hi
  have hready := isrReady_eq_true_iff hi
  refine ⟨fun hrefused hirq hc hw => ?_, fun hnot => ?_, fun hr hirq hc hw n t hn ht hret hact => ?_⟩
  · rw [tick_isr_inactive hi, if_pos (hready.2 ⟨hrefused, hirq, hc, hw⟩)]
    rfl
  · have hno : ¬ isrReady s = true := by
      rw [hready]
      rintro ⟨hrefused, hirq, hc, hw⟩
      simp [hrefused, hirq, hc, hw] at hnot
    exact ⟨by rw [tick_isr_inactive hi, if_neg hno], fun hrefused => by rw [exec_handleIrq_eq hrefused, if_neg hno]⟩
  · have halone := hr.dispatcherAlone
    have hrefused := hr.1
    rw [exec_handleIrq_eq hrefused, if_pos (hready.2 ⟨hrefused, hirq, hc, hw⟩)]
    subst ht
    exact congrArg _ (burst_of_reach (halone.reach_isrSteps n hact) ((halone.steps n).halted_of_inactive hret)
      (by rw [runFuel]; omega))

end

section
/-! PROOFS. What a step of HW may change, said once for every move but the soft reset (60 R519-R527). -/

namespace Sys2Proof.Machine

/-- IFLAG1 as it was, or with a flag set that is at most MAXMB or the FIFO's (60 R522-R524, R527). -/
def FlagRaised (s : State) (flags : Word) : Prop :=
  flags = s.regs.iflag1
    ∨ ∃ j, (j ≤ maxMb s.regs ∨ j = 5 ∨ j = 6 ∨ j = 7) ∧ flags = s.regs.iflag1 ||| oneBit j

/-- What a step of HW makes of `s`, a soft reset apart: an acknowledge bit of MCR; ESR, TIMER and DBG, with no W1C flag of
ESR cleared (60 R525, R526); or, where a transfer may go on, mailboxes that hold no filter word, RXFIR, a flag of
IFLAG1 raised, FIFOQ and the move-ins (60 R519, R522-R524). -/
inductive HwChange (s : State) : State → Prop where
  | ack (b : Nat) (v : Bool) (hb : b = 20 ∨ b = 24) : HwChange s (mcrWith b v s)
  | status (e : Word) (t : Stamp) (d : Word)
      (hesr : ∀ k < 32, esrFlags.getLsbD k = true → s.regs.esr.getLsbD k = true → e.getLsbD k = true) :
      HwChange s { s with regs := { s.regs with esr := e, timer := t, dbg := d } }
  | transfer (bank : Vector Mb 32) (flags r : Word) (q : List FifoEntry) (mv : Vector (Option MoveIn) 32) (n : Nat)
      (hmay : mayComplete s = true)
      (hbank : ∀ i, inFilterRegion i s.regs = true → bankGet bank i = bankGet s.regs.mb i)
      (hflags : FlagRaised s flags) :
      HwChange s
        { s with
          regs := { s.regs with mb := bank, iflag1 := flags, rxfir := r }
          fifoq := q
          moveIn := mv
          draws := n }

theorem FlagRaised.refl (s : State) : FlagRaised s s.regs.iflag1 := .inl rfl

section FlagRaised
variable {s : State} {flags : Word} (h : FlagRaised s flags) {k : Nat}
include h

theorem FlagRaised.kept (hset : s.regs.iflag1.getLsbD k = true) : flags.getLsbD k = true := by
  rcases h with rfl | ⟨j, -, rfl⟩
  · exact hset
  · rw [BitVec.getLsbD_or, hset, Bool.true_or]

theorem FlagRaised.above (hk : maxMb s.regs < k) (h5 : k ≠ 5) (h6 : k ≠ 6) (h7 : k ≠ 7) :
    flags.getLsbD k = s.regs.iflag1.getLsbD k := by
  rcases h with rfl | ⟨j, hj, rfl⟩
  · rfl
  · have hne : j ≠ k := by omega
    rw [BitVec.getLsbD_or, oneBit, BitVec.getLsbD_ofNat, Nat.testBit_two_pow, decide_eq_false hne, Bool.and_false,
      Bool.or_false]

end FlagRaised

section HwChange
variable {s : State}

theorem HwChange.refl (s : State) : HwChange s s := .status s.regs.esr s.regs.timer s.regs.dbg fun _ _ _ h => h

/-- A move that is not allowed changes nothing (log 7). -/
theorem HwChange.allow {b : Bool} {f : State → State} (h : b = true → HwChange s (f s)) :
    HwChange s (allow b f s) := by
  cases b with
  | false => exact .refl s
  | true => exact h rfl

/-- A mailbox that holds no filter word is none of those that do. -/
theorem bankGet_filter {i : Nat} (h : inFilterRegion i s.regs = false) (x : Mb) (j : Nat)
    (hj : inFilterRegion j s.regs = true) : bankGet (bankSet s.regs.mb i x) j = bankGet s.regs.mb j :=
  bankGet_bankSet_ne _ (by rintro rfl; exact Bool.false_ne_true (h.symm.trans hj)) x

theorem mayComplete_of_normal (h : s.mode = .normal) : mayComplete s = true := by
  simp [mayComplete, h]

theorem mayComplete_of_fifoRuns (h : fifoRuns s = true) : mayComplete s = true :=
  mayComplete_of_normal (of_decide_eq_true (Bool.and_eq_true_iff.1 h).1)

theorem hwWriteMb_bank (i : Nat) (k : MbWord) (b : Bool) (w : Word) (s : State) :
    ∃ x n, hwWriteMb i k b w s = { s with regs := { s.regs with mb := bankSet s.regs.mb i x }, draws := n } := by
  cases b <;> exact ⟨_, _, rfl⟩

/-- MI2 writes the words of one mailbox, ends its move-in and sets its flag. -/
theorem moveIn2_bank (i : Nat) (f : Frame) (ts : Stamp) (m : MoveIn) (s : State) :
    ∃ x n, moveIn2 i f ts m s = flagMb i
      { s with
        regs := { s.regs with mb := bankSet s.regs.mb i x }
        moveIn := bankSet s.moveIn i none
        draws := n } := by
  unfold moveIn2
  extract_lets s1 s2 s3 s4
  obtain ⟨x₁, n₁, e₁⟩ : ∃ x n, s1 = _ := hwWriteMb_bank i .id _ _ s
  obtain ⟨x₂, n₂, e₂⟩ : ∃ x n, s2 = _ := hwWriteMb_bank i .data0 _ _ s1
  obtain ⟨x₃, n₃, e₃⟩ : ∃ x n, s3 = _ := hwWriteMb_bank i .data1 _ _ s2
  obtain ⟨x₄, n₄, e₄⟩ : ∃ x n, s4 = _ := hwWriteMb_bank i .cs _ _ s3
  refine ⟨x₄, n₄, ?_⟩
  rw [e₄, e₃, e₂, e₁]
  simp only [bankSet_bankSet]
  rfl

theorem hwChange_moveIn1 {i : Nat} (h : mayMoveIn i s = true) : HwChange s (moveIn1 i s) := by
  simp only [mayMoveIn, Bool.and_eq_true, decide_eq_true_eq, Bool.not_eq_true'] at h
  obtain ⟨⟨⟨⟨⟨hmode, -⟩, -⟩, hout⟩, -⟩, -⟩ := h
  have hregion : inFilterRegion i s.regs = false := by rw [inFilterRegion, hout, Bool.false_and]
  exact .transfer _ _ _ _ _ _ (mayComplete_of_normal hmode) (bankGet_filter hregion _) (.refl s)

theorem hwChange_moveIn2 {i : Nat} (h : mayMoveIn2 i s = true) (f : Frame) (ts : Stamp) (m : MoveIn) :
    HwChange s (moveIn2 i f ts m s) := by
  simp only [mayMoveIn2, Bool.and_eq_true, Bool.not_eq_true'] at h
  obtain ⟨hmay, hregion⟩ := h
  obtain ⟨x, n, e⟩ := moveIn2_bank i f ts m s
  rw [e, flagMb]
  split
  · next hle => exact .transfer _ _ _ _ _ _ hmay (bankGet_filter hregion x) (.inr ⟨i, .inl hle, rfl⟩)
  · exact .transfer _ _ _ _ _ _ hmay (bankGet_filter hregion x) (.refl s)

theorem hwChange_transmit {i : Nat} (h : mayTransmit i s = true) (ts : Stamp) : HwChange s (transmit i ts s) := by
  simp only [mayTransmit, Bool.and_eq_true, decide_eq_true_eq, Bool.not_eq_true'] at h
  obtain ⟨⟨⟨⟨hmay, -⟩, hle⟩, hregion⟩, -⟩ := h
  exact .transfer _ _ _ _ _ _ hmay (bankGet_filter hregion _) (.inr ⟨i, .inl hle, rfl⟩)

theorem hwChange_fifoAppend (hruns : fifoRuns s = true) (f : Frame) (h : Nat) : HwChange s (fifoAppend f h s) := by
  have hmay := mayComplete_of_fifoRuns hruns
  simp only [fifoAppend]
  split
  · exact .transfer _ _ _ _ _ _ hmay (fun _ _ => rfl) (.inr ⟨6, by simp, rfl⟩)
  · exact .transfer _ _ _ _ _ _ hmay (fun _ _ => rfl) (.refl s)

/-- FH writes the words of MB[0] and RXFIR, and sets FIFO_AVAIL. -/
theorem showHead_bank (e : FifoEntry) (s : State) :
    ∃ x r, showHead e s =
      { s with
        regs := { s.regs with mb := bankSet s.regs.mb 0 x, rxfir := r, iflag1 := s.regs.iflag1 ||| oneBit 5 } } := by
  simp only [showHead, setBits, Regs.set, Regs.get, bankSet_bankSet]
  exact ⟨_, _, rfl⟩

/-- MB[0] is below the filter words (42 R307). -/
theorem hwChange_showHead (hruns : fifoRuns s = true) (e : FifoEntry) : HwChange s (showHead e s) := by
  obtain ⟨x, r, hhead⟩ := showHead_bank e s
  have hregion : inFilterRegion 0 s.regs = false := Bool.and_false _
  rw [hhead]
  exact .transfer _ _ _ _ _ _ (mayComplete_of_fifoRuns hruns) (bankGet_filter hregion x)
    (.inr ⟨5, by simp, rfl⟩)

/-- The flags of ESR are no bits HW changes freely (60 R525). -/
theorem getLsbD_esrFree_of_flag {k : Nat} (hk : k < 32) (h : esrFlags.getLsbD k = true) : esrFree.getLsbD k = false := by
  rw [getLsbD_esrFlags, decide_eq_true_eq] at h
  simp only [esrFree, BitVec.getLsbD_or, getLsbD_fieldMask _ k hk, Field.fltconf, Field.errbits]
  rw [decide_eq_false (by omega), decide_eq_false (by omega), Bool.or_false]

/-- A step of HW, a soft reset apart, is one of those changes. -/
theorem hwChange_hwStep {h : HwMove} (hsoft : ∀ v, h ≠ .softReset v) (s : State) : HwChange s (hwStep h s) := by
  cases h with
  | setLpmack => exact .allow fun _ => .ack 20 true (.inl rfl)
  | clearLpmack => exact .allow fun _ => .ack 20 false (.inl rfl)
  | setFrzack => exact .allow fun _ => .ack 24 true (.inr rfl)
  | clearFrzack => exact .allow fun _ => .ack 24 false (.inr rfl)
  | softReset v => exact absurd rfl (hsoft v)
  | moveIn1 i => exact .allow hwChange_moveIn1
  | moveIn2 i f ts =>
    simp only [hwStep]
    split
    · next m _ => exact .allow fun hc => hwChange_moveIn2 (Bool.and_eq_true_iff.1 hc).1 f ts m
    · exact .refl s
  | transmit i ts => exact .allow fun hc => hwChange_transmit hc ts
  | fifoAppend f h =>
    refine .allow fun hc => ?_
    simp only [Bool.and_eq_true] at hc
    obtain ⟨⟨⟨hruns, -⟩, -⟩, -⟩ := hc
    exact hwChange_fifoAppend hruns f h
  | fifoOverflow =>
    refine .allow fun hc => ?_
    have hmay := mayComplete_of_fifoRuns (Bool.and_eq_true_iff.1 hc).1
    exact .transfer _ _ _ _ _ _ hmay (fun _ _ => rfl) (.inr ⟨7, by simp, rfl⟩)
  | fifoHead =>
    simp only [hwStep]
    split
    · next e _ _ =>
      refine .allow fun hc => ?_
      simp only [Bool.and_eq_true] at hc
      obtain ⟨⟨hruns, -⟩, -⟩ := hc
      exact hwChange_showHead hruns e
    · exact .refl s
  | raise m =>
    refine .status (s.regs.esr ||| (m &&& mayRaise s.regs.mcr)) _ _ fun k _ _ hset => ?_
    rw [BitVec.getLsbD_or, hset, Bool.true_or]
  | errorState v =>
    refine .status ((s.regs.esr &&& ~~~ esrFree) ||| (v &&& esrFree)) _ _ fun k hk hflag hset => ?_
    rw [BitVec.getLsbD_or, getLsbD_andNot _ _ hk, hset, getLsbD_esrFree_of_flag hk hflag]
    rfl
  | timer t => exact .status s.regs.esr t s.regs.dbg fun _ _ _ hset => hset
  | dbg w => exact .status s.regs.esr s.regs.timer w fun _ _ _ hset => hset

end HwChange

namespace HwChange
variable {s t : State} (h : HwChange s t)
include h

/-- What none of the changes touches. -/
theorem frame : t.handle = s.handle ∧ t.frames = s.frames ∧ t.lock = s.lock ∧ t.fg = s.fg ∧ t.trace = s.trace := by
  cases h <;> exact ⟨rfl, rfl, rfl, rfl, rfl⟩

/-- The registers of access RW, MCR and the mailboxes apart. -/
theorem get_rw {r : Reg} (hr : r = .ctrl1 ∨ r = .ctrl2 ∨ r = .imask1 ∨ r = .rxmgmask ∨ r = .rx14mask ∨ r = .rx15mask
    ∨ r = .rxfgmask ∨ ∃ i, r = .rximr i) : t.regs.get r = s.regs.get r := by
  rcases hr with rfl | rfl | rfl | rfl | rfl | rfl | rfl | ⟨i, rfl⟩ <;> cases h <;> rfl

theorem mcr_bit {k : Nat} (hk : k < 32) (h20 : k ≠ 20) (h24 : k ≠ 24) :
    t.regs.mcr.getLsbD k = s.regs.mcr.getLsbD k := by
  cases h with
  | ack b v hb =>
    rw [mcrWith_mcr, getLsbD_withBit b v _ k (by omega) hk, if_neg (by omega)]
  | status | transfer => rfl

theorem flagRaised : FlagRaised s t.regs.iflag1 := by
  cases h with
  | transfer _ _ _ _ _ _ _ _ hflags => exact hflags
  | ack | status => exact .refl s

theorem esr_kept {k : Nat} (hk : k < 32) (hflag : esrFlags.getLsbD k = true) (hset : s.regs.esr.getLsbD k = true) :
    t.regs.esr.getLsbD k = true := by
  cases h with
  | status _ _ _ hesr => exact hesr k hk hflag hset
  | ack | transfer => exact hset

theorem get_filter {i : Nat} (hi : inFilterRegion i s.regs = true) (k : MbWord) :
    t.regs.get (.mb i k) = s.regs.get (.mb i k) := by
  cases h with
  | transfer _ _ _ _ _ _ _ hbank => exact congrArg (·.get k) (hbank i hi)
  | ack | status => rfl

/-- Outside Normal and FreezePending no transfer goes on (60 R519). -/
theorem idle_bus (hn : s.mode ≠ .normal) (hp : s.mode ≠ .freezePending) :
    t.regs.mb = s.regs.mb ∧ t.regs.iflag1 = s.regs.iflag1 ∧ t.fifoq = s.fifoq := by
  cases h with
  | transfer _ _ _ _ _ _ hmay => simp [mayComplete, hn, hp] at hmay
  | ack | status => exact ⟨rfl, rfl, rfl⟩

end HwChange

end Sys2Proof.Machine

open Sys2Proof Sys2Proof.Machine

/-- Settles O59: every step of HW but the soft reset is one of the changes of `HwChange`, and none of those does any of
it. -/
theorem hwNeverWrites : Obligations.HwNeverWrites := by
  intro s h hsoft
  have hc := hwChange_hwStep hsoft s
  obtain ⟨hhandle, hframes, hlock, hfg, htrace⟩ := hc.frame
  exact ⟨fun _ hr => hc.get_rw hr, fun _ hk => hc.mcr_bit hk, hhandle, hframes, hlock, hfg, htrace,
    fun _ _ => hc.flagRaised.kept, fun _ hk => hc.esr_kept hk, fun _ _ => hc.flagRaised.above,
    fun _ k hi => hc.get_filter hi k, hc.idle_bus⟩

end

section
/-! PROOFS. The unbounded polls that nothing ends: an operation that spins where HW owes nothing stays as it is (43 R346,
R347; 70 R613, R615). -/

namespace Sys2Proof.Machine

/-- The condition of a poll is of the registers, not of FG. -/
theorem spins_begin (m : Micro) (i : Instr) (code : List Micro) (s : State) :
    spins m (begin i code s) = spins m s := by
  cases m with
  | poll r f v b a => simp only [spins, begin, readReg_fg]
  | _ => rfl

/-- An unbounded poll for a flag spins while the flag is 0. -/
theorem spins_flagPoll {j : Nat} {a : AfterPoll} {s : State} (h : s.regs.iflag1.getLsbD j = false) :
    spins (.poll .iflag1 (Field.ofBit j) true none a) s = true := by
  have hbit : getBit (Field.ofBit j) s.regs.iflag1 = false := h
  simp only [spins, readReg_iflag1, hbit]
  rfl

/-! ### An operation that spins where HW owes nothing -/

section Hang
variable {i : Instr} {m : Micro} {rest : List Micro} {s : State} (hs : FgFree s) (hq : Alone s)
  (hp : spins m s = true) (hd : dueDuty s = none)
include hs hq hp hd

theorem halted_spinning : halted (begin i (m :: rest) s) = true := by
  obtain ⟨-, hisr⟩ := hs
  have hd' : dueDuty (begin i (m :: rest) s) = none := hd
  have hw : waiting (begin i (m :: rest) s) = true := by simp [waiting, activeCode, hisr, spins_begin, hp]
  simp [halted, nextTurn_begin_alone i _ hq, hw, hd']

/-- A step changes nothing (log 4). -/
theorem step_spinning : step (begin i (m :: rest) s) = .next (begin i (m :: rest) s) := by
  have hhalted := halted_spinning (i := i) (rest := rest) hs hq hp hd
  obtain ⟨href, -⟩ := hs
  simp [step, machineStep, href, idle, burst_halted _ _ hhalted]

end Hang

/-! ### EXIT_FREEZE while MDIS = 1 (70 R613) -/

/-- In low power, with MDIS set and no soft reset under way, HW owes nothing (40 R207, 60 R528). -/
theorem dueDuty_lowPower {s : State} (hm : getBit .mdis s.regs.mcr = true) (hlp : getBit .lpmack s.regs.mcr = true)
    (hsr : getBit .softrst s.regs.mcr = false) : dueDuty s = none := by
  have hmode : s.mode = .disabled := if_pos hlp
  cases hd : dueDuty s with
  | none => rfl
  | some d =>
    have howes := owes_of_dueDuty hd
    cases d with
    | setLpmack => simp [owes, hlp] at howes
    | clearLpmack => simp [owes, hm] at howes
    | softReset => exact absurd howes (Bool.eq_false_iff.1 hsr)
    | moveIn i => simp [owes, mayMoveIn2, mayComplete, hmode] at howes
    | setFrzack | clearFrzack => simp [owes, hm] at howes

/-- While an operation spins with MDIS set, HW meets the low-power entry, where it is not met yet. -/
theorem Reach.lowPowerEntry {i : Instr} {m : Micro} {rest : List Micro} {s : State} (hs : FgFree s) (hq : Alone s)
    (hp : spins m s = true) (hm : getBit .mdis s.regs.mcr = true) :
    ∃ j ≤ 1, Reach j (begin i (m :: rest) s) (begin i (m :: rest) (mcrWith 20 true s)) := by
  cases hlp : getBit .lpmack s.regs.mcr with
  | true =>
    rw [mcrWith_of_bit (b := 20) (by decide) hlp]
    exact ⟨0, by omega, .refl _⟩
  | false =>
    have howes : owes s .setLpmack = true := by simp [owes, hm, hlp]
    refine ⟨1, le_rfl, .duty hs hq hp (dueDuty_setLpmack howes) ?_⟩
    rw [fulfil_begin _ _ _ _ (by rw [fulfil_setLpmack howes]; rfl), fulfil_setLpmack howes]
    exact .refl _

/-- What EXIT_FREEZE hangs in: XF0 and XF1 done, and low power entered. -/
def exitFreezeHung (s : State) : State := mcrWith 20 true (freezeCleared s)

theorem getBit_exitFreezeHung {f : Field} (s : State) (hlo : f.lo < 32) (h : f.lo ≠ 20 ∧ f.lo ≠ 30 ∧ f.lo ≠ 28) :
    getBit f (exitFreezeHung s).regs.mcr = getBit f s.regs.mcr :=
  let ⟨h20, h'⟩ := h
  (getBit_withBit _ _ (by decide) hlo).trans ((if_neg h20).trans (getBit_freezeCleared s hlo h'))

/-- XF2 is reached and spins, and HW has met what it owes. -/
theorem Reach.exitFreezeHung {s : State} (hs : FgFree s) (hq : Alone s) (hack : getBit .frzack s.regs.mcr = true)
    (hm : getBit .mdis s.regs.mcr = true) (rest : List Micro) :
    ∃ j ≤ 5, Reach j (begin .exitFreeze (exitFreezeBody ++ rest) s)
      (begin .exitFreeze (.poll .mcr .frzack false none .done :: rest) (Machine.exitFreezeHung s)) := by
  have hm' := (getBit_freezeCleared (f := .mdis) s (by decide) (by decide)).trans hm
  have hspins : spins (.poll .mcr .frzack false none .done) (freezeCleared s) = true :=
    spins_mcrPoll ((getBit_freezeCleared s (by decide) (by decide)).trans hack)
  obtain ⟨j, hj, h⟩ := Reach.lowPowerEntry (s := freezeCleared s) (i := .exitFreeze) (rest := rest) hs hq hspins hm'
  refine ⟨j + 2 + 2, by omega, ?_⟩
  simp only [exitFreezeBody, List.append_assoc]
  exact .mcrBit 28 false hs hq (by decide) (by decide) (by decide)
    (.mcrBit (s := mcrWith 28 false s) 30 false hs hq (by decide) (by decide) (by decide) h)

theorem exitFreeze_hangs {s : State} (hr : Ready s) (hack : getBit .frzack s.regs.mcr = true)
    (hm : getBit .mdis s.regs.mcr = true) (hsr : getBit .softrst s.regs.mcr = false) :
    ∃ t, exec .exitFreeze s = .next t ∧ t.fg.op = some .exitFreeze ∧ t.trace = s.trace ∧ step t = .next t := by
  have hs : FgFree (exitFreezeHung s) := hr.fgFree
  have hq : Alone (exitFreezeHung s) := hr.alone
  have hspins : spins (.poll .mcr .frzack false none .done) (exitFreezeHung s) = true :=
    spins_mcrPoll ((getBit_exitFreezeHung s (by decide) (by decide)).trans hack)
  have hdue : dueDuty (exitFreezeHung s) = none := dueDuty_lowPower
    ((getBit_exitFreezeHung s (by decide) (by decide)).trans hm) (getBit_withBit _ _ (by decide) (by decide))
    ((getBit_exitFreezeHung s (by decide) (by decide)).trans hsr)
  obtain ⟨j, hj, h⟩ := Reach.exitFreezeHung hr.fgFree hr.alone hack hm [.ret .unit]
  exact ⟨_, issue_runs hr h (halted_spinning hs hq hspins hdue) (by omega), rfl, rfl, step_spinning hs hq hspins hdue⟩

/-! ### The receptions whose flag is 0 (70 R615) -/

/-- An operation that begins with the poll for a flag that is 0 stays there, and nothing but FG changes. -/
theorem flagPoll_hangs {i : Instr} {j : Nat} {a : AfterPoll} {rest : List Micro} {s : State} (hr : Ready s)
    (hd : dueDuty s = none) (hflag : s.regs.iflag1.getLsbD j = false) :
    ∃ t, issue i none (.poll .iflag1 (Field.ofBit j) true none a :: rest) s = .next t ∧ t = { s with fg := t.fg }
      ∧ t.fg.op = some i ∧ step t = .next t := by
  have hspins := spins_flagPoll (a := a) hflag
  exact ⟨_, issue_runs hr (.refl _) (halted_spinning hr.fgFree hr.alone hspins hd) (by omega), rfl, rfl,
    step_spinning hr.fgFree hr.alone hspins hd⟩

end Sys2Proof.Machine

open Sys2Proof Sys2Proof.Machine

/-- Settles O44: the poll of each command spins in a state where HW owes nothing; EXIT_FREEZE comes to its own once HW has
met the low-power entry MDIS asks for. -/
theorem pollsHang : Obligations.PollsHang := by
  intro s hr
  refine ⟨exitFreeze_hangs hr, fun out ho hd => ⟨fun j h h32 hflag => ?mailbox, fun hflag => ?fifo⟩⟩
  case mailbox =>
    rw [exec_receiveBlocking ho h h32]
    exact flagPoll_hangs hr hd hflag
  case fifo =>
    rw [exec_receiveFifoBlocking ho]
    exact flagPoll_hangs hr hd hflag

end
